-- ==== Sys2Proof/Word.lean ====
section
/-! DEFINITION. Word.lean: the word types of the VK-3160 and the sparse table type every memory and register file uses. -/

namespace Sys2Proof

/-- One byte. -/
abbrev Byte := BitVec 8

/-- A 16-bit word. -/
abbrev W16 := BitVec 16

/-- A 32-bit word: a set-up register, an index register, a binary32 encoding. -/
abbrev W32 := BitVec 32

/-- A 64-bit word: a device address field, device time, an aligned-sum word. -/
abbrev W64 := BitVec 64

/-- A sparse table: pairs of key and value, kept with keys strictly rising and no value equal to the
default its key reads as (Machine/Sparse.lean). A memory is a sparse table of bytes. -/
abbrev SMap (α : Type) := List (Nat × α)

end Sys2Proof
end

