-- ==== Sys2Proof/Syntax.lean ====
section
/-! DEFINITION. Syntax.lean: the commands the block takes and the operands they carry. -/

namespace Sys2Proof

/-- The commands of the block: one constructor per row of spec/opcode_table.json. -/
inductive Instr where
  /-- MODULE_RESET_RELEASE (R558): Release of MOD_RST_N starts device time from zero and starts the boot
  sequence. Whether every mesh router passes its self-test in a boot. -/
  | moduleResetRelease (test : Bool)
  /-- MODULE_RESET_ASSERT (R558): MOD_RST_N driven low holds the module in reset, losing HBM contents,
  registrations and contexts. -/
  | moduleResetAssert
  /-- POWER_FAIL (R557): A fall of MOD_PWROK resets the module within 100 ns with no orderly action. -/
  | powerFail
  /-- PERST_RELEASE (R559): Release of PERSTp_N lets PCIe port p begin link training, or wait until module
  reset release. Port. -/
  | perstRelease (p : Fin 2)
  /-- PCIE_PORT_RESET (R470): PERST#, hot reset, FLR or D3hot on a port ends its lease and discards its rings,
  backlog, registers and DMA in flight. Port, whether it is PERST_N that is asserted. -/
  | pciePortReset (p : Fin 2) (perst : Bool)
  /-- RAIL_EXCURSION (R554): A rail outside its operating range for more than 10 µs asserts ALERT_N. Rail. -/
  | railExcursion (r : Fin 16)
  /-- THERMAL_TRIP (R562): A die sensor at 115 °C or an HBM catastrophic flag gates the clock, self-refreshes
  HBM, asserts THERMTRIP_N and holds the die in reset. Sensor (72 and above: an HBM stack), die temperature in
  tenths of a degree. -/
  | thermalTrip (k : Fin 84) (temp : Int)
  /-- THERMAL_TRIP_RECOVERY (R562): With power still present and every sensor below 105 °C after a trip, the
  module makes a full-device reset with cause 8. The 72 die readings in tenths of a degree, whether every mesh
  router passes its self-test in a boot. -/
  | thermalTripRecovery (die : List Int) (test : Bool)
  /-- ROUTER_FAULT (R22): A fault detected in a mesh router leads to a full-device reset, or out of service if
  it recurs within 24 hours. Whether every mesh router passes its self-test in a boot. -/
  | routerFault (test : Bool)
  /-- FIRMWARE_WATCHDOG (R502): Expiry of a cluster 0 core's hardware watchdog causes a full-device reset. Core
  of cluster 0, whether every mesh router passes its self-test in a boot. -/
  | firmwareWatchdog (core : Fin 4) (test : Bool)
  /-- CLUSTER0_UNCORRECTABLE_ERROR (R502): An uncorrectable error in a cluster 0 cache causes a full-device
  reset. Whether every mesh router passes its self-test in a boot. -/
  | cluster0UncorrectableError (test : Bool)
  /-- SECURITY_BLOCK_FAULT (R535): A fault detected in the security block causes a full-device reset. Whether
  every mesh router passes its self-test in a boot. -/
  | securityBlockFault (test : Bool)
  /-- EPOCH_MARKER (R248): An epoch marker from a source stop and class reaches the new tile, releasing held
  packets of that source and decrementing the drain counter. Logical tile, the stop the marker comes from,
  class. -/
  | epochMarker (t : Fin 64) (stop : Fin 72) (cls : Fin 3)
  /-- PLACEMENT_EXCLUSIVE (R248): The old epoch's drain counter reaches zero, the forwarding entry is removed
  and held packets are released. Logical tile. -/
  | placementExclusive (t : Fin 64)
  /-- CLK_DEVTIME_LO_READ (R33): A read of CLK_DEVTIME_LO returns the low word and latches the upper 32 bits
  into CLK_DEVTIME_HI. Agent: host port 0 or 1, firmware. -/
  | clkDevtimeLoRead (ag : Fin 3)
  /-- PAIR_LO_READ (R581): A read of the _LO register of a 64-bit pair latches the _HI half for the reading
  agent. Agent, offset in BAR0. -/
  | pairLoRead (ag : Fin 3) (off : BitVec 24)
  /-- REGISTER_WRITE (R578): A write to a set-up register without behaviour of its own is applied or discarded
  by the access, authority, range and lock rules. Agent, offset in BAR0, whether all four bytes are written,
  value. -/
  | registerWrite (ag : Fin 3) (off : BitVec 24) (full : Bool) (v : BitVec 32)
  /-- HIF_ENABLE (R473): A write of HIF_CTRL.EN = 1 starts ring 0 from the registers and sets ENRDY, or is
  refused with HIF_ERR.CFG. Port. -/
  | hifEnable (p : Fin 2)
  /-- HIF_QUIESCE (R473): A write of HIF_CTRL.EN = 0 stops polling, completes or withdraws the port's commands,
  releases its lease and clears ENRDY. Port. -/
  | hifQuiesce (p : Fin 2)
  /-- LNK_ENABLE (R594): LNK_CTRL.EN set to 1 lets enabled ports begin bring-up. Agent. -/
  | lnkEnable (ag : Fin 3)
  /-- LNK_DISABLE (R593): LNK_CTRL.EN cleared takes every port DOWN. Agent. -/
  | lnkDisable (ag : Fin 3)
  /-- LNK_PORT_ENABLE (R594): LNK_Pn_CTRL.EN set to 1 starts the port's bring-up when LNK_CTRL.EN is also 1.
  Agent, link port, MODE. -/
  | lnkPortEnable (ag : Fin 3) (n : Fin 24) (mode : BitVec 2)
  /-- LNK_PORT_DISABLE (R594): LNK_Pn_CTRL.EN cleared takes the port DOWN at once and moves transfers to other
  paths. Agent, link port. -/
  | lnkPortDisable (ag : Fin 3) (n : Fin 24)
  /-- CHR_BANK_ENABLE (R600): Setting a chronograph bank's CFG.EN takes mode and target from the write, clears
  the counters and starts counting. Agent, physical tile, bank, MODE, TARGET, SCTX. -/
  | chrBankEnable (ag : Fin 3) (p : Fin 68) (b : Fin 4) (mode : BitVec 2) (target : BitVec 3) (sctx : BitVec 5)
  /-- CHR_BANK_DISABLE (R600): Clearing a chronograph bank's CFG.EN freezes its counters. Agent, physical tile,
  bank. -/
  | chrBankDisable (ag : Fin 3) (p : Fin 68) (b : Fin 4)
  /-- FASTEN_CLEAR (R589): Clearing PWR_CTRL.FASTEN disarms the fast clamp and releases a holding clamp in the
  next tick. Agent. -/
  | fastenClear (ag : Fin 3)
  /-- RGL_PERIOD_WRITE (R589): A new RGL_PERIOD applies at the regulator's next comparison and may start a
  re-plan at once. Agent, hours. -/
  | rglPeriodWrite (ag : Fin 3) (hours : BitVec 14)
  /-- FWEN_CLEAR (R597): Clearing WCH_CTRL.FWEN abandons fault checks in progress and disables the fault watch.
  Agent. -/
  | fwenClear (ag : Fin 3)
  /-- DREN_CLEAR (R597): Clearing WCH_CTRL.DREN stops appends to drift rings. Agent. -/
  | drenClear (ag : Fin 3)
  /-- BUNDLE_ISSUE (R254): On an enabled tick with no hold, the tile checks and issues one whole bundle and
  then takes its loop-end branches. Logical tile. -/
  | bundleIssue (t : Fin 64)
  /-- MMA_256X128 (R129): Full-shape array product over rows 0–255 and columns 0–127. Logical tile; slot: 0 F,
  1 B to B0, 2 B to B1; its record's SRAM offset / 128. -/
  | mma256x128 (t : Fin 64) (slot : Fin 3) (rec : BitVec 19)
  /-- MMA_128X128 (R134): Half-K array product over rows 128–255. Logical tile; slot: 0 F, 1 B to B0, 2 B to
  B1; its record's SRAM offset / 128. -/
  | mma128x128 (t : Fin 64) (slot : Fin 3) (rec : BitVec 19)
  /-- MMA_2X256X64 (R134): Split-N array product computing two 64-column problems. Logical tile; slot: 0 F, 1 B
  to B0, 2 B to B1; its record's SRAM offset / 128. -/
  | mma2x256x64 (t : Fin 64) (slot : Fin 3) (rec : BitVec 19)
  /-- MMA_128X64 (R134): Quarter-shape array product over rows 128–255 and columns 0–63. Logical tile; slot: 0
  F, 1 B to B0, 2 B to B1; its record's SRAM offset / 128. -/
  | mma128x64 (t : Fin 64) (slot : Fin 3) (rec : BitVec 19)
  /-- MMA_TREE64 (R152): Tree-mode product broadcasting one moving row every second tick across 64 columns.
  Logical tile; slot: 0 F, 1 B to B0, 2 B to B1; its record's SRAM offset / 128. -/
  | mmaTree64 (t : Fin 64) (slot : Fin 3) (rec : BitVec 19)
  /-- MMA_DIAG (R153): Element-by-element product of two Lumgan tensors, 256 elements per tick. Logical tile;
  slot: 0 F, 1 B to B0, 2 B to B1; its record's SRAM offset / 128. -/
  | mmaDiag (t : Fin 64) (slot : Fin 3) (rec : BitVec 19)
  /-- MLD (R148): Loads the shadow plane from a stationary tensor in SRAM, ready to swap 64 ticks after issue.
  Logical tile; slot: 0 F, 1 B to B0, 2 B to B1; its record's SRAM offset / 128. -/
  | mld (t : Fin 64) (slot : Fin 3) (rec : BitVec 19)
  /-- MMA_256X128_CX (R151): Complication-mode full-shape product running six slice passes with background
  plane loads. Logical tile; slot: 0 F, 1 B to B0, 2 B to B1; its record's SRAM offset / 128. -/
  | mma256x128Cx (t : Fin 64) (slot : Fin 3) (rec : BitVec 19)
  /-- MMA_128X128_CX (R151): Complication-mode half-K product running six slice passes. Logical tile; slot: 0
  F, 1 B to B0, 2 B to B1; its record's SRAM offset / 128. -/
  | mma128x128Cx (t : Fin 64) (slot : Fin 3) (rec : BitVec 19)
  /-- MMA_128X64_CX (R151): Complication-mode quarter-shape product running six slice passes. Logical tile;
  slot: 0 F, 1 B to B0, 2 B to B1; its record's SRAM offset / 128. -/
  | mma128x64Cx (t : Fin 64) (slot : Fin 3) (rec : BitVec 19)
  /-- MMB_PAIR (R165): Sends its first half to array B_BPHASE and its second half to the other B array, then
  flips BPHASE. Logical tile; OP and record of each half. -/
  | mmbPair (t : Fin 64) (op0 : BitVec 6) (rec0 : BitVec 19) (op1 : BitVec 6) (rec1 : BitVec 19)
  /-- B_BOTH (R268): Sends half 0 to B0 and half 1 to B1 without changing BPHASE. Logical tile; OP and record
  of each half. -/
  | bBoth (t : Fin 64) (op0 : BitVec 6) (rec0 : BitVec 19) (op1 : BitVec 6) (rec1 : BitVec 19)
  /-- HALF0_TO_B0 (R268): B-slot instruction sending its half 0 to B0 alone. Logical tile; OP and record of
  half 0. -/
  | half0ToB0 (t : Fin 64) (op0 : BitVec 6) (rec0 : BitVec 19)
  /-- HALF0_TO_B1 (R268): B-slot instruction sending its half 0 to B1 alone. Logical tile; OP and record of
  half 0. -/
  | half0ToB1 (t : Fin 64) (op0 : BitVec 6) (rec0 : BitVec 19)
  /-- PLANE_READY (R148): An mld's rows have all arrived, making the shadow plane ready for a swap. Logical
  tile and array: F 0, B0 1, B1 2. -/
  | planeReady (t : Fin 64) (a : Fin 3)
  /-- COMMIT_GROUP (R141): After its residue checks pass, a drain commit group replaces accumulator entries,
  writes its blocks and updates status counts. Logical tile, array, which of its two signatures differ. -/
  | commitGroup (t : Fin 64) (a : Fin 3) (fail : BitVec 2)
  /-- ARRAY_COMPLETE (R137): An array instruction's last writes complete and it signals its SYNC object.
  Logical tile and array: F 0, B0 1, B1 2. -/
  | arrayComplete (t : Fin 64) (a : Fin 3)
  /-- SPLITK_SLOT_GRANT (R145): The root grants a freed staging slot to the next commit group, letting
  contributors send it. The root's logical tile and the reduction's identifier. -/
  | splitkSlotGrant (t : Fin 64) (id : BitVec 16)
  /-- SPLITK_PART_ARRIVE (R144): A contributor's commit group reaches the root's split-K unit, which combines
  parts by the tree and writes completed groups. The root's logical tile and the reduction's identifier. -/
  | splitkPartArrive (t : Fin 64) (id : BitVec 16)
  /-- TOURBILLON_SELECT (R120): The tourbillon countdown reaches zero and selects the next output tile of the
  pointed array for the fault watch. Physical tile. -/
  | tourbillonSelect (p : Fin 68)
  /-- WATCH_CHECK (R122): The watch recomputes a captured output tile's block partials exactly on idle sibling
  or vector ticks. Physical tile. -/
  | watchCheck (p : Fin 68)
  /-- WATCH_CHECK_COMPLETE (R123): A finished watch check compares each element against the truncation bound.
  Physical tile, what the check found wrong. -/
  | watchCheckComplete (p : Fin 68) (wrong : List (Nat × Nat))
  /-- DRIFT_SAMPLE (R125): The drift tourbillon selects a fresh Lumgan block write and appends a drift record
  to the context's ring. Physical tile. -/
  | driftSample (p : Fin 68)
  /-- VADD (R198): Lane-wise binary32 addition, rounded once. Logical tile; destination, sources, mask. -/
  | vadd (t : Fin 64) (vd va vb : BitVec 5) (k : BitVec 3)
  /-- VSUB (R198): Lane-wise binary32 subtraction, rounded once. Logical tile; destination, sources, mask. -/
  | vsub (t : Fin 64) (vd va vb : BitVec 5) (k : BitVec 3)
  /-- VMUL (R198): Lane-wise binary32 multiplication, rounded once. Logical tile; destination, sources, mask. -/
  | vmul (t : Fin 64) (vd va vb : BitVec 5) (k : BitVec 3)
  /-- VFMA (R198): Lane-wise fused multiply-add, rounded once. Logical tile; destination, sources, addend,
  mask. -/
  | vfma (t : Fin 64) (vd va vb vc : BitVec 5) (k : BitVec 3)
  /-- VMIN (R198): Lane-wise IEEE minimum. Logical tile; destination, sources, mask. -/
  | vmin (t : Fin 64) (vd va vb : BitVec 5) (k : BitVec 3)
  /-- VMAX (R198): Lane-wise IEEE maximum. Logical tile; destination, sources, mask. -/
  | vmax (t : Fin 64) (vd va vb : BitVec 5) (k : BitVec 3)
  /-- VABS (R196): Clears the sign bit of each lane. Logical tile; destination, source, mask. -/
  | vabs (t : Fin 64) (vd va : BitVec 5) (k : BitVec 3)
  /-- VNEG (R196): Flips the sign bit of each lane. Logical tile; destination, source, mask. -/
  | vneg (t : Fin 64) (vd va : BitVec 5) (k : BitVec 3)
  /-- VCOPYSIGN (R196): Copies a sign bit into each lane. Logical tile; destination, sources, mask. -/
  | vcopysign (t : Fin 64) (vd va vb : BitVec 5) (k : BitVec 3)
  /-- VSEL (R276): Lane-wise choice between two registers by a mask. Logical tile; destination, sources, mask. -/
  | vsel (t : Fin 64) (vd va vb : BitVec 5) (k : BitVec 3)
  /-- VCMP_EQ (R198): Lane-wise equality compare into a mask register. Logical tile; destination, sources,
  mask. -/
  | vcmpEq (t : Fin 64) (vd va vb : BitVec 5) (k : BitVec 3)
  /-- VCMP_NE (R198): Lane-wise inequality compare into a mask register. Logical tile; destination, sources,
  mask. -/
  | vcmpNe (t : Fin 64) (vd va vb : BitVec 5) (k : BitVec 3)
  /-- VCMP_LT (R198): Lane-wise less-than compare into a mask register. Logical tile; destination, sources,
  mask. -/
  | vcmpLt (t : Fin 64) (vd va vb : BitVec 5) (k : BitVec 3)
  /-- VCMP_LE (R198): Lane-wise less-or-equal compare into a mask register. Logical tile; destination, sources,
  mask. -/
  | vcmpLe (t : Fin 64) (vd va vb : BitVec 5) (k : BitVec 3)
  /-- VRCP (R109): Correctly rounded reciprocal. Logical tile; destination, source, mask. -/
  | vrcp (t : Fin 64) (vd va : BitVec 5) (k : BitVec 3)
  /-- VSQRT (R109): Correctly rounded square root. Logical tile; destination, source, mask. -/
  | vsqrt (t : Fin 64) (vd va : BitVec 5) (k : BitVec 3)
  /-- VRSQRT (R109): Correctly rounded reciprocal square root. Logical tile; destination, source, mask. -/
  | vrsqrt (t : Fin 64) (vd va : BitVec 5) (k : BitVec 3)
  /-- VEXP (R109): Correctly rounded natural exponential. Logical tile; destination, source, mask. -/
  | vexp (t : Fin 64) (vd va : BitVec 5) (k : BitVec 3)
  /-- VEXP2 (R109): Correctly rounded base-2 exponential. Logical tile; destination, source, mask. -/
  | vexp2 (t : Fin 64) (vd va : BitVec 5) (k : BitVec 3)
  /-- VLOG (R109): Correctly rounded natural logarithm. Logical tile; destination, source, mask. -/
  | vlog (t : Fin 64) (vd va : BitVec 5) (k : BitVec 3)
  /-- VLOG2 (R109): Correctly rounded base-2 logarithm. Logical tile; destination, source, mask. -/
  | vlog2 (t : Fin 64) (vd va : BitVec 5) (k : BitVec 3)
  /-- VDIV (R109): Correctly rounded division. Logical tile; destination, sources, mask. -/
  | vdiv (t : Fin 64) (vd va vb : BitVec 5) (k : BitVec 3)
  /-- VSIGMOID (R111): Sigmoid by the fixed composition sigmoid_c. Logical tile; destination, source, mask. -/
  | vsigmoid (t : Fin 64) (vd va : BitVec 5) (k : BitVec 3)
  /-- VTANH (R111): Hyperbolic tangent by the fixed composition tanh_c. Logical tile; destination, source,
  mask. -/
  | vtanh (t : Fin 64) (vd va : BitVec 5) (k : BitVec 3)
  /-- VGELU_TANH (R111): Tanh-form GELU by the fixed composition gelu_tanh_c. Logical tile; destination,
  source, mask. -/
  | vgeluTanh (t : Fin 64) (vd va : BitVec 5) (k : BitVec 3)
  /-- VERF (R111): Error function by the fixed composition erf_c. Logical tile; destination, source, mask. -/
  | verf (t : Fin 64) (vd va : BitVec 5) (k : BitVec 3)
  /-- VGELU (R111): GELU by the fixed composition gelu_c. Logical tile; destination, source, mask. -/
  | vgelu (t : Fin 64) (vd va : BitVec 5) (k : BitVec 3)
  /-- VADD_PAIR (R113): Adds two head-and-tail pairs by pair_add. Logical tile; destination, sources, mask. -/
  | vaddPair (t : Fin 64) (vd va vb : BitVec 5) (k : BitVec 3)
  /-- VRED_PAIR (R113): Reduces a head-and-tail pair to one FP32 value. Logical tile; destination, source,
  mask. -/
  | vredPair (t : Fin 64) (vd va : BitVec 5) (k : BitVec 3)
  /-- VRED_ADD (R199): Tree sum over the unmasked lanes, written to lane 0. Logical tile; destination, source,
  mask. -/
  | vredAdd (t : Fin 64) (vd va : BitVec 5) (k : BitVec 3)
  /-- VRED_ACC (R199): Tree sum over the unmasked lanes, written to the named lane. Logical tile; destination,
  source, mask, lane. -/
  | vredAcc (t : Fin 64) (vd va : BitVec 5) (k : BitVec 3) (lane : BitVec 9)
  /-- VRED_MAX (R201): Exact maximum over the present lanes, written to lane 0. Logical tile; destination,
  source, mask. -/
  | vredMax (t : Fin 64) (vd va : BitVec 5) (k : BitVec 3)
  /-- VRED_MIN (R201): Exact minimum over the present lanes, written to lane 0. Logical tile; destination,
  source, mask. -/
  | vredMin (t : Fin 64) (vd va : BitVec 5) (k : BitVec 3)
  /-- VLD (R194): Loads 512 consecutive element indices of a tensor into a register as FP32. Logical tile;
  register, descriptor's offset / 64, index register. -/
  | vld (t : Fin 64) (vr : BitVec 5) (drec : BitVec 16) (x : BitVec 4)
  /-- VST (R195): Stores a register into an FP32 tensor unchanged. Logical tile; register, mask, descriptor's
  offset / 64, index register. -/
  | vst (t : Fin 64) (vr : BitVec 5) (k : BitVec 3) (drec : BitVec 16) (x : BitVec 4)
  /-- VCVT (R195): Converts a register into a stored format with its write form, gradient mark and
  head-and-tail option. Logical tile; register, mask, descriptor's offset / 64, index register, write form,
  gradient mark, head and tail. -/
  | vcvt (t : Fin 64) (vr : BitVec 5) (k : BitVec 3) (drec : BitVec 16) (x : BitVec 4) (wform : BitVec 2) (grad ht : Bool)
  /-- VDROP (R202): Sets a dropout mask from Philox draws against a threshold. Logical tile; mask register,
  threshold, descriptor's offset / 64, index register. -/
  | vdrop (t : Fin 64) (kd : BitVec 3) (q : BitVec 16) (drec : BitVec 16) (x : BitVec 4)
  /-- VSLICE (R115): Splits an FP32 or BF16 tensor into high, middle and low LG8 slices. Logical tile; mask,
  first descriptor's offset / 64, index register. -/
  | vslice (t : Fin 64) (k : BitVec 3) (drec : BitVec 16) (x : BitVec 4)
  /-- VUPD (R208): Applies the parameter group's update rule in place to staged state, occupying the V slot
  until done. Logical tile; update record's offset / 64. -/
  | vupd (t : Fin 64) (drec : BitVec 16)
  /-- VUPD_COMPLETE (R219): vupd completes 40 ticks after its last element and signals its object. Logical
  tile. -/
  | vupdComplete (t : Fin 64)
  /-- VECTOR_WRITE_LAND (R609): A vst or vcvt SRAM write lands when its latency ends, after any fill it waited
  for. Logical tile. -/
  | vectorWriteLand (t : Fin 64)
  /-- SGO (R232): Starts a stream on a context after checking its stream and tensor descriptors. Logical tile;
  stream context, descriptor's offset / 64, XREG, XEN. -/
  | sgo (t : Fin 64) (ctx : BitVec 5) (opr : BitVec 16) (x : BitVec 4) (xen : Bool)
  /-- SDEM (R239): Adds an immediate n to a paced inbound stream's demand count. Logical tile; stream context,
  granules demanded. -/
  | sdem (t : Fin 64) (ctx : BitVec 5) (n : BitVec 16)
  /-- SDEM_X (R239): Adds an index register's value to a paced inbound stream's demand count. Logical tile;
  stream context, index register. -/
  | sdemX (t : Fin 64) (ctx : BitVec 5) (x : BitVec 4)
  /-- ILOAD (R261): Copies bundles from HBM into the instruction buffer through a raw free-running stream.
  Logical tile; stream context, program load record's offset / 64. -/
  | iload (t : Fin 64) (ctx : BitVec 5) (opr : BitVec 16)
  /-- ILOAD_COMPLETE (R261): A program load writes its last bundle and increments its PL_SIG object. Logical
  tile and stream context. -/
  | iloadComplete (t : Fin 64) (c : BitVec 6)
  /-- DEMAND_FETCH (R239): A stream fetches a demanded granule, faulting on region or bound violations. Logical
  tile and stream context. -/
  | demandFetch (t : Fin 64) (c : BitVec 6)
  /-- RUN_AHEAD_FETCH (R240): A paced stream fetches a granule beyond its demand count within AHEAD and its
  bounds, taking a prefetch window entry. Logical tile and stream context. -/
  | runAheadFetch (t : Fin 64) (c : BitVec 6)
  /-- INBOUND_GRANULE_WRITE (R237): An inbound stream writes an arrived granule into SRAM in walk order,
  clearing its pending bit and checking its key. Logical tile and stream context. -/
  | inboundGranuleWrite (t : Fin 64) (c : BitVec 6)
  /-- STREAM_COMPLETE (R237): A stream's last granule is written or accepted and it signals its synchronisation
  object. Logical tile, stream context, and its outbound direction. -/
  | streamComplete (t : Fin 64) (c : BitVec 6) (out : Bool)
  /-- HBM_READ (R230): A controller serves a 64 B read under Reed-Solomon correction, poisoning on
  uncorrectable errors. Stack with the waiting hub agents; bad symbols of each 64 B access; `can`: a row that
  needs it can be repaired; `lane`: an interface lane fails; whether every mesh router passes its self-test in
  the boot that follows. -/
  | hbmRead (stack : Fin 12 × List (Nat × Nat × Nat)) (bad : List Nat) (can lane test : Bool)
  /-- HBM_WRITE_ACCEPT (R402): A controller accepts a write, updates the check-value table and marks any
  prefetch entry stale. Stack with the waiting hub agents. -/
  | hbmWriteAccept (stack : Fin 12 × List (Nat × Nat × Nat))
  /-- HBM_REFRESH (R231): The controller performs per-bank refresh at a temperature-dependent rate. -/
  | hbmRefresh (stack : Fin 12)
  /-- BCFG (R169): Loads a barrel lane record and zeroes the lane's cursors. Logical tile; barrel lane,
  record's offset / 64. -/
  | bcfg (t : Fin 64) (lane : BitVec 6) (drec : BitVec 16)
  /-- BPUSH (R174): Places and records a frame on a barrel lane and advances PUSHED and DEPTH. Logical tile;
  barrel lane, record's offset / 64. -/
  | bpush (t : Fin 64) (lane : BitVec 6) (drec : BitVec 16)
  /-- BPOP (R175): Discards the top frame of a barrel lane, abandoning any fill in flight. Logical tile; barrel
  lane, record's offset / 64. -/
  | bpop (t : Fin 64) (lane : BitVec 6) (drec : BitVec 16)
  /-- BARREL_SPILL (R177): The barrel begins spilling a frame to HBM once PUSHED plus LN_AHEAD passes its
  overwrite point. Logical tile and lane. -/
  | barrelSpill (t : Fin 64) (lane : BitVec 6)
  /-- BARREL_FILL (R178): The barrel begins filling an evicted frame from HBM once PUSHED falls back to its
  reach. Logical tile and lane. -/
  | barrelFill (t : Fin 64) (lane : BitVec 6)
  /-- WAIT (R281): Holds until a counter reaches V, then subtracts V. Logical tile; object, threshold. -/
  | wait (t : Fin 64) (obj : BitVec 8) (v : BitVec 24)
  /-- WAITGE (R281): Holds until a counter reaches V without changing it. Logical tile; object, threshold. -/
  | waitge (t : Fin 64) (obj : BitVec 8) (v : BitVec 24)
  /-- SIG (R281): Adds N to a counter of the issuing tile. Logical tile; object, amount. -/
  | sig (t : Fin 64) (obj : BitVec 8) (n : BitVec 16)
  /-- SIG_T (R281): Adds N to a counter of another logical tile of the context over the mesh. Logical tile;
  object, amount, the tile whose object it is. -/
  | sigT (t : Fin 64) (obj : BitVec 8) (n : BitVec 16) (tile : BitVec 6)
  /-- SSET (R284): Writes V to a counter once no tracked completion naming it is outstanding. Logical tile;
  object, value. -/
  | sset (t : Fin 64) (obj : BitVec 8) (v : BitVec 24)
  /-- LP_I (R257): Opens a loop level with an immediate count. Logical tile; loop level, count. -/
  | lpI (t : Fin 64) (lvl : BitVec 2) (count : BitVec 24)
  /-- LP_X (R257): Opens a loop level with a count from an index register. Logical tile; loop level, index
  register. -/
  | lpX (t : Fin 64) (lvl : BitVec 2) (x : BitVec 4)
  /-- XSET (R256): Writes a sign-extended immediate into an index register. Logical tile; index register,
  immediate. -/
  | xset (t : Fin 64) (x : BitVec 4) (imm : BitVec 24)
  /-- XADD (R256): Adds a sign-extended immediate to an index register. Logical tile; index register,
  immediate. -/
  | xadd (t : Fin 64) (x : BitVec 4) (imm : BitVec 24)
  /-- TREAD (R277): Reads device time into two index registers. Logical tile; index register. -/
  | tread (t : Fin 64) (x : BitVec 4)
  /-- CVRD (R277): Reads CVST into an index register. Logical tile; index register. -/
  | cvrd (t : Fin 64) (x : BitVec 4)
  /-- CVCLR (R92): Clears the conversion status word. Logical tile. -/
  | cvclr (t : Fin 64)
  /-- JMP (R260): Continues issue at a bundle index. Logical tile; bundle index. -/
  | jmp (t : Fin 64) (addr : BitVec 13)
  /-- PP (R263): Marks a preemption point, continuing at SG_RESUME or stopping the tile for a pending
  preemption. Logical tile; segment record's offset / 64. -/
  | pp (t : Fin 64) (drec : BitVec 16)
  /-- HALT (R280): Stops the tile's issue until a segment record is stored to its start register. Logical tile. -/
  | halt (t : Fin 64)
  /-- SADV (R279): Advances or retreats the scale codes of a range of carried blocks in the conversion unit.
  Logical tile; descriptor's offset / 64, registers of the first block and the count, object. -/
  | sadv (t : Fin 64) (drec : BitVec 16) (xb xn : BitVec 4) (obj : BitVec 8)
  /-- SADV_COMPLETE (R279): sadv finishes its block range and increments its object. Logical tile. -/
  | sadvComplete (t : Fin 64)
  /-- SYNC_INCREMENT_LAND (R282): An increment reaches a synchronisation counter, or is held while it would
  overflow. Logical tile, object. -/
  | syncIncrementLand (t : Fin 64) (obj : BitVec 8)
  /-- SYNC_WINDOW_STORE (R285): A control-program store to the synchronisation window adds to a counter. Core
  and logical tile, object, value stored. -/
  | syncWindowStore (t : Fin 12 × Fin 64) (obj : BitVec 8) (v : BitVec 32)
  /-- TILE_START_STORE (R280): A store to offset 0x800 of a halted tile's window loads its program and resumes
  it at SG_RESUME. Logical tile, value stored. -/
  | tileStartStore (t : Fin 64) (off : BitVec 32)
  /-- WATCHDOG (R288): A hold of a tile's issue beyond the watchdog limit is a job fault. Logical tile. -/
  | watchdog (t : Fin 64)
  /-- INTRUSION_OVERRUN (R287): A segment's excess over SG_LEN first exceeds SG_IB and one event is reported to
  the scheduler. Logical tile. -/
  | intrusionOverrun (t : Fin 64)
  /-- PORT_BRINGUP (R311): A port trains, locks FEC, exchanges INIT flits, calibrates and becomes UP. Port, and
  the delay and the skew that calibration measures. -/
  | portBringup (p : Fin 24) (delay : BitVec 24 × BitVec 16)
  /-- PORT_BRINGUP_TIMEOUT (R607): A bring-up not UP after 300 ms leaves the port FAILED with a LINK_STATE
  event. -/
  | portBringupTimeout (p : Fin 24)
  /-- PORT_BRINGUP_RETRY (R607): A FAILED port restarts bring-up every 2^30 ticks. -/
  | portBringupRetry (p : Fin 24)
  /-- INIT_REPEAT (R311): An INIT flit is repeated every 2^16 ticks until each end has received one. -/
  | initRepeat (p : Fin 24)
  /-- TRANSCEIVER_INSERT (R333): Firmware reads a new transceiver's identity and applications, selects one and
  releases low power. Serial number; OUI and vendor name; part number, revision and date code; kind of the
  module. -/
  | transceiverInsert (p : Fin 24) (serial : List Byte) (oui : List Byte × List Byte) (part : List Byte × List Byte × List Byte) (optical passive suitable : Bool)
  /-- TRANSCEIVER_REMOVE (R333): Removal of a transceiver takes its port down. -/
  | transceiverRemove (p : Fin 24)
  /-- TRANSCEIVER_POLL (R334): Every 2^30 ticks firmware reads transceiver monitors and flags and accumulates
  laser hours. Module temperature in 0.1 °C, flag bytes, supply voltage; transmit bias, transmit power and
  receive power by lane. -/
  | transceiverPoll (p : Fin 24) (t10 : Int) (flags : List Byte) (volt : Nat) (lanes : List Nat × List Nat × List Nat)
  /-- LASER_RECORD_WRITE (R335): Firmware writes a transceiver's laser-hours record at least every 24 hours. -/
  | laserRecordWrite (p : Fin 24)
  /-- FLIT_DATA (R305): A DATA flit is accepted in sequence, or discarded and answered with RETRY; its credits
  and ack are taken. The flit's bytes, whether the FEC failed, and corrected symbols by lane. -/
  | flitData (p : Fin 24) (flit : List Byte) (bad : Bool) (corr : List Nat)
  /-- FLIT_IDLE (R302): An IDLE flit's credit returns and acknowledgement are taken. The flit's bytes, whether
  the FEC failed, and corrected symbols by lane. -/
  | flitIdle (p : Fin 24) (flit : List Byte) (bad : Bool) (corr : List Nat)
  /-- FLIT_RETRY (R306): A RETRY flit makes the sender replay from the named sequence number. The flit's bytes,
  whether the FEC failed, and corrected symbols by lane. -/
  | flitRetry (p : Fin 24) (flit : List Byte) (bad : Bool) (corr : List Nat)
  /-- FLIT_INIT (R312): An INIT flit gives the peer's identity and receive depths, setting credits or MISWIRED.
  The flit's bytes, whether the FEC failed, and corrected symbols by lane. -/
  | flitInit (p : Fin 24) (flit : List Byte) (bad : Bool) (corr : List Nat)
  /-- FLIT_TIME (R327): A TIME flit carries the timestamps of a fabric-time exchange. The same, and the part of
  the tick in which it came. -/
  | flitTime (p : Fin 24) (flit : List Byte) (bad : Bool) (corr : List Nat) (frac : BitVec 16)
  /-- FLIT_LANE (R309): A LANE flit names a lane to spare and starts or answers the sparing sequence. The
  flit's bytes, whether the FEC failed, and corrected symbols by lane. -/
  | flitLane (p : Fin 24) (flit : List Byte) (bad : Bool) (corr : List Nat)
  /-- RETRY_REPEAT (R306): A receiver repeats its RETRY every 2D + 64 ticks until the expected flit arrives. -/
  | retryRepeat (p : Fin 24)
  /-- LANE_SPARE (R308): Excess retries, corrected symbols or loss of lock start sparing of a lane. Port, and
  the lane that has lost lock, if one has. -/
  | laneSpare (p : Fin 24) (lost : Option (Fin 4))
  /-- LANE_REPEAT (R309): A LANE flit is repeated every 64 ticks until the peer answers. -/
  | laneRepeat (p : Fin 24)
  /-- LANE_SPARE_COMPLETE (R309): Alignment over three lanes is re-acquired, calibration redone and traffic
  resumes at 600 Gb/s. Port, and the delay and the skew that calibration measures. -/
  | laneSpareComplete (p : Fin 24) (delay : BitVec 24 × BitVec 16)
  /-- TIME_EXCHANGE (R327): Every 2^16 ticks a node exchanges TIME flits with its parent and steers its offset.
  The parent port; what the request holds as t1, t2 and t4; the part of a tick in its own timestamp t3. -/
  | timeExchange (p : Fin 24) (t1 t2 : BitVec 80) (t3 : BitVec 16) (t4 : BitVec 80)
  /-- TIME_LOCK_TIMEOUT (R329): After 2^26 ticks without an exchange the node clears TLOCK. -/
  | timeLockTimeout
  /-- WRITE (R321): A received WRITE packet is checked and written at the expected index, or answered with a
  NACK. Port, 24 for the device's own mesh, and hop class of the channel. -/
  | write (p : Fin 25) (hop : Bool)
  /-- INC (R317): A received INC packet adds its increment to the destination object. Port and hop class. -/
  | inc (p : Fin 25) (hop : Bool)
  /-- ACK (R319): An ACK completes the transfer, increments the source object and sends RELEASE. Port and hop
  class. -/
  | ack (p : Fin 25) (hop : Bool)
  /-- NACK_GAP (R319): A NACK GAP makes the sender resend from the expected index. Port and hop class. -/
  | nackGap (p : Fin 25) (hop : Bool)
  /-- NACK_BUSY (R319): A NACK BUSY makes the sender wait T_E2E/16 before resending packet 0. Port and hop
  class. -/
  | nackBusy (p : Fin 25) (hop : Bool)
  /-- NACK_NOTRES (R319): A NACK NOTRES makes the sender wait T_E2E before resending packet 0. Port and hop
  class. -/
  | nackNotres (p : Fin 25) (hop : Bool)
  /-- NACK_PERM (R319): A NACK PERM abandons the transfer with a REGION_VIOLATION job fault. Port and hop
  class. -/
  | nackPerm (p : Fin 25) (hop : Bool)
  /-- BACKOFF_EXPIRY (R319): The wait after NACK BUSY or NOTRES ends and packet 0 is resent. Logical tile and
  send descriptor. -/
  | backoffExpiry (t : Fin 64) (k : Fin 16)
  /-- RELEASE (R322): A RELEASE frees the receive descriptor of a completed transfer. Port and hop class. -/
  | release (p : Fin 25) (hop : Bool)
  /-- E2E_TIMEOUT (R319): No answer within T_E2E makes the sender probe, change path, or abandon after eight
  timeouts. Logical tile, entry of its send window. -/
  | e2eTimeout (t : Fin 64) (k : Fin 16)
  /-- TRANSFER_RECEIVE_COMPLETE (R322): When every packet is written and accepted, the receiver increments the
  object, sends ACK and marks the descriptor COMPLETED. Logical tile and receive descriptor. -/
  | transferReceiveComplete (t : Fin 64) (k : Fin 16)
  /-- DESCRIPTOR_IDLE_FREE (R322): A receive descriptor idle or unreleased for 8 × T_E2E is freed. Logical tile
  and receive descriptor. -/
  | descriptorIdleFree (t : Fin 64) (k : Fin 16)
  /-- REJOIN_REQ (R505): A rejoining device asks the root for its recent decisions. Link port (24: the device's
  own mesh), whether the packet stands in the hop class. -/
  | rejoinReq (p : Fin 25) (hop : Bool)
  /-- REJOIN_ACK (R366): The root's decisions let a rejoining device write its click or restore from a replica.
  Link port (24: the device's own mesh), whether the packet stands in the hop class. -/
  | rejoinAck (p : Fin 25) (hop : Bool)
  /-- RESTORE_REQ (R413): A device asks a replica peer for the current versions of the tensors it must restore.
  Link port (24: the device's own mesh), whether the packet stands in the hop class. -/
  | restoreReq (p : Fin 25) (hop : Bool)
  /-- RESTORE_DONE (R413): A restore's outcome is reported and the shard digest is checked against the last
  STEP record. Link port (24: the device's own mesh), whether the packet stands in the hop class. -/
  | restoreDone (p : Fin 25) (hop : Bool)
  /-- FAIL_REPORT (R425): A device reports a destination as unreachable to the root, which applies the failure
  outcome. Link port (24: the device's own mesh), whether the packet stands in the hop class. -/
  | failReport (p : Fin 25) (hop : Bool)
  /-- ECHO (R505): An ECHO message is returned unchanged. Link port (24: the device's own mesh), whether the
  packet stands in the hop class. -/
  | echo (p : Fin 25) (hop : Bool)
  /-- COLLECTIVE_TRIGGER (R343): A trigger object reaches its threshold, the engine subtracts it and starts an
  instance after checking the descriptor. Collective. -/
  | collectiveTrigger (cid : BitVec 10)
  /-- REDUCE (R345): Reduces one piece from every rank at the root's site. Collective. -/
  | reduce (cid : BitVec 10)
  /-- ALLREDUCE (R352): Reduces each piece at its site and sends the result to every live rank. Collective. -/
  | allreduce (cid : BitVec 10)
  /-- REDUCESCATTER (R345): Reduces piece j at rank j only. Collective. -/
  | reducescatter (cid : BitVec 10)
  /-- ALLGATHER (R345): Gathers one piece from every rank onto every rank. Collective. -/
  | allgather (cid : BitVec 10)
  /-- ALLTOALL (R345): Sends piece j of each rank to rank j. Collective. -/
  | alltoall (cid : BitVec 10)
  /-- ESCAPE (R358): The device arrives, gates its clock enable and sends ARRIVE up the signal tree.
  Collective. -/
  | escape (cid : BitVec 10)
  /-- DIGEST (R367): Hashes the shard's new versions into the shard digest and exchanges it when due.
  Collective. -/
  | digest (cid : BitVec 10)
  /-- COMMIT (R362): Sends READY up the signal tree after its own trigger and its children's READY, after
  checking journal room. Collective. -/
  | commit (cid : BitVec 10)
  /-- COLL_DATA (R348): A collective data packet is written to its staging slot and acknowledged. Link port
  (24: the device's own mesh), whether the packet stands in the hop class. -/
  | collData (p : Fin 25) (hop : Bool)
  /-- RESULT (R352): A RESULT packet's converted blocks are written unchanged at the receiving rank. Link port
  (24: the device's own mesh), whether the packet stands in the hop class. -/
  | result (p : Fin 25) (hop : Bool)
  /-- AGREE_UP (R354): A child's presence and carry bitmaps are ANDed into the parent's and forwarded upward.
  Link port (24: the device's own mesh), whether the packet stands in the hop class. -/
  | agreeUp (p : Fin 25) (hop : Bool)
  /-- AGREE_DOWN (R354): The agreed bitmaps fix which ranks and carries an instance includes. Link port (24:
  the device's own mesh), whether the packet stands in the hop class. -/
  | agreeDown (p : Fin 25) (hop : Bool)
  /-- DIGEST_PACKET (R368): A replica member's digest arrives and is compared for a majority. Link port (24:
  the device's own mesh), whether the packet stands in the hop class. -/
  | digestPacket (p : Fin 25) (hop : Bool)
  /-- READY (R362): A child's READY with its expel bitmap and SPLIT flag is combined and sent upward, or
  decided at the root. Link port (24: the device's own mesh), whether the packet stands in the hop class. -/
  | ready (p : Fin 25) (hop : Bool)
  /-- DECIDE_COMMIT (R363): On DECIDE COMMIT the device writes its journal run, tile digest and click and
  advances the step number. Link port (24: the device's own mesh), whether the packet stands in the hop class. -/
  | decideCommit (p : Fin 25) (hop : Bool)
  /-- DECIDE_ABORT (R364): On DECIDE ABORT the device stops tiles, discards the step's records, applies
  expulsions, restores and re-executes. Link port (24: the device's own mesh), whether the packet stands in the
  hop class. -/
  | decideAbort (p : Fin 25) (hop : Bool)
  /-- QUERY (R366): A new root asks whether any device has clicked and decides COMMIT or ABORT. Link port (24:
  the device's own mesh), whether the packet stands in the hop class. -/
  | query (p : Fin 25) (hop : Bool)
  /-- ARRIVE (R358): A child's ARRIVE is counted and forwarded; the root schedules release time T when all have
  arrived. Link port (24: the device's own mesh), whether the packet stands in the hop class. -/
  | arrive (p : Fin 25) (hop : Bool)
  /-- SCHEDULE (R358): A SCHEDULE carrying T is forwarded to children and sets the release time. Link port (24:
  the device's own mesh), whether the packet stands in the hop class. -/
  | schedule (p : Fin 25) (hop : Bool)
  /-- ESCAPEMENT_RELEASE (R360): At the first tick with fabric time at least T the device raises the clock
  enable and increments CD_DONE on every tile. -/
  | escapementRelease
  /-- ESC_TIMEOUT (R361): No SCHEDULE within the commit timeout after arrival is reported to firmware. -/
  | escTimeout
  /-- COLLECTIVE_DEADLINE (R353): An instance's deadline passes and its presence bitmaps become final.
  Collective. -/
  | collectiveDeadline (cid : BitVec 10)
  /-- COMMIT_TIMEOUT (R362): The commit timeout passes at the root without every READY and it decides ABORT. -/
  | commitTimeout
  /-- ROOT_TAKEOVER (R366): After twice the commit timeout without a decision, the lowest live rank becomes
  root and sends QUERY. -/
  | rootTakeover
  /-- COLLECTIVE_COMPLETE (R357): An instance completes, writes its status record and gamma and increments
  CD_DONE. Collective. -/
  | collectiveComplete (cid : BitVec 10)
  /-- WINDOW_RELEASE (R451): A context's next window is released and the scheduler re-evaluates residency.
  Context slot. -/
  | windowRelease (n : Fin 8)
  /-- DEADLINE_MISS (R462): Device time reaches a window's deadline before it ends and an event is raised.
  Context slot. -/
  | deadlineMiss (n : Fin 8)
  /-- SWITCH (R456): Once every outgoing tile has stopped, the device saves the outgoing context and restores
  the incoming one. -/
  | switch
  /-- TEST_WINDOW (R432): The scheduler runs due test content on all bound tiles at once. Whether the window is
  a full test, the packages that fail. -/
  | testWindow (full : Bool) (fails : List (Nat × Nat × Nat))
  /-- SPARE_TEST_RUN (R432): A free spare runs each due test package. Physical tile, the packages that fail. -/
  | spareTestRun (p : Fin 68) (fails : List (Nat × Nat × Nat))
  /-- DOORBELL_POLL (R476): Every HIF_POLL.NS the device reads the doorbell block, fetching new entries and
  freeing completion space. `ok`: the reads complete; `h`: the host memory they read. -/
  | doorbellPoll (p : Fin 2) (ok : Bool) (h : List Host.Cell)
  /-- NOP (R482): Host command that does nothing but complete. Port and ring whose front command it is. -/
  | nop (p : Fin 2) (r : Fin 16)
  /-- IDENTIFY (R498): Writes the identify page into a host buffer. Port and ring whose front command it is. -/
  | identify (p : Fin 2) (r : Fin 16)
  /-- LEASE_ACQUIRE (R491): Grants command authority to the port when no live lease exists or it already holds
  it. Port and ring whose front command it is. -/
  | leaseAcquire (p : Fin 2) (r : Fin 16)
  /-- LEASE_RENEW (R491): Moves the lease expiry to processing time plus the term. Port and ring whose front
  command it is. -/
  | leaseRenew (p : Fin 2) (r : Fin 16)
  /-- LEASE_RELEASE (R493): Gives up command authority. Port and ring whose front command it is. -/
  | leaseRelease (p : Fin 2) (r : Fin 16)
  /-- LEASE_ROUND (R492): At the end of each 275-tick round firmware processes that round's lease commands in
  port and fetch order. -/
  | leaseRound
  /-- LEASE_EXPIRY (R493): A lease expires, queued authority commands are withdrawn and both ports get an
  AUTHORITY event. -/
  | leaseExpiry
  /-- CREATE_RING (R482): Creates ring pair 1 to 15 with its bases, sizes, vector and coalescing. Port and ring
  whose front command it is. -/
  | createRing (p : Fin 2) (r : Fin 16)
  /-- DELETE_RING (R482): Deletes a ring pair, withdrawing its queued commands. Port and ring whose front
  command it is. -/
  | deleteRing (p : Fin 2) (r : Fin 16)
  /-- SET_EVENT_BUFFER (R495): Sets the port's event record buffer. Port and ring whose front command it is. -/
  | setEventBuffer (p : Fin 2) (r : Fin 16)
  /-- DMA_TO_DEVICE (R488): Writes host data to device memory, raw or keyed. Port, ring, bytes that arrive, the
  host memory's bytes, the poisoned TLPs. -/
  | dmaToDevice (p : Fin 2) (r : Fin 16) (got : Nat) (h : List Host.Cell) (bad : List Nat)
  /-- DMA_FROM_DEVICE (R489): Reads device memory into host memory, optionally checked. Port, ring. -/
  | dmaFromDevice (p : Fin 2) (r : Fin 16)
  /-- CTX_REGISTER (R445): Registers a context from a registration record or refuses it. Port, ring, whether
  the host memory answers, its bytes. -/
  | ctxRegister (p : Fin 2) (r : Fin 16) (ok : Bool) (h : List Host.Cell)
  /-- CTX_STOP (R485): Stops a context at its next segment boundary with HOST_STOPPED. Port, ring. -/
  | ctxStop (p : Fin 2) (r : Fin 16)
  /-- CTX_DEREGISTER (R450): Deregisters an idle, ready or stopped context and frees its index. Port, ring. -/
  | ctxDeregister (p : Fin 2) (r : Fin 16)
  /-- CTX_QUERY (R482): Returns a context's state, status, step and counts. Port and ring whose front command
  it is. -/
  | ctxQuery (p : Fin 2) (r : Fin 16)
  /-- CTX_SIGNAL (R486): After earlier commands of its ring complete, adds a value to a tile's synchronisation
  object. Port, ring. -/
  | ctxSignal (p : Fin 2) (r : Fin 16)
  /-- TC_PUSH (R431): Verifies and holds a test content package. `ok`: the reads complete; `h`: the host memory
  they read. -/
  | tcPush (p : Fin 2) (r : Fin 16) (ok : Bool) (h : List Host.Cell)
  /-- TELEMETRY_READ (R498): Writes a telemetry page into a host buffer. Port, ring. -/
  | telemetryRead (p : Fin 2) (r : Fin 16)
  /-- FW_WRITE (R510): Writes bytes into the inactive firmware slot. `ok`: the reads complete; `h`: the host
  memory they read. -/
  | fwWrite (p : Fin 2) (r : Fin 16) (ok : Bool) (h : List Host.Cell)
  /-- FW_ACTIVATE (R510): Verifies the inactive slot and marks it for a trial boot. Port and ring whose front
  command it is. -/
  | fwActivate (p : Fin 2) (r : Fin 16)
  /-- DEVICE_RESET (R482): Starts a planned full-device reset after writing its completion. Port, ring, whether
  every mesh router passes its self-test in a boot. -/
  | deviceReset (p : Fin 2) (r : Fin 16) (test : Bool)
  /-- MSIX_COALESCE_TIMEOUT (R494): The coalesce time since the first uncounted completion passes and the
  ring's MSI-X message is sent. Port and ring. -/
  | msixCoalesceTimeout (p : Fin 2) (r : Fin 16)
  /-- POWER_LOOP (R513): Every 100 µs the power loop adjusts D_POWER from the averaged input power. Measured
  power in mW; per rail mV and 0.1 A. -/
  | powerLoop (p : BitVec 32) (rails : List (Nat × Nat))
  /-- FAST_CLAMP (R514): Core rail current above PWR_FAST_LIMIT sets D_FAST to PWR_FAST_DUTY within 22 ticks. -/
  | fastClamp (amps : BitVec 16)
  /-- FAST_CLAMP_RELEASE (R514): The clamp releases after 11,000 ticks and one power loop run. -/
  | fastClampRelease
  /-- THERMAL_LOOP (R515): Every 1 ms the thermal loop reads sensors and adjusts D_THERM, raising THERMAL
  events. Die and HBM temperatures in 0.1 °C, and the stacks above their threshold. -/
  | thermalLoop (die hbm : List Int) (high : BitVec 12)
  /-- MONITOR_READ (R519): Once a second the regulator reads every path-delay monitor and updates its lowest
  readings. Per monitor its number, its reading and its predicted reading. -/
  | monitorRead (readings : List (Nat × Int × Int))
  /-- REPLAN (R520): Every RGL_PERIOD powered hours the regulator recomputes each quadrant's voltage. -/
  | replan
  /-- CEIL_OBSERVATION (R521): A 60 s observation after a D_CEIL change ends and the regulator keeps, lowers or
  returns the ceiling. -/
  | ceilObservation
  /-- AGE_HOURS (R528): Every 24 powered hours firmware writes an AGE_HOURS record. -/
  | ageHours
  /-- GET_CERTS (R547): An attestation request answered with the identity key and ALIAS certificate. `body`:
  the request's body. -/
  | getCerts (body : List Byte)
  /-- GET_REPORT (R548): An attestation request answered with a report signed by the alias key over the
  verifier's nonce. `body`: the request's body. -/
  | getReport (body : List Byte)
  /-- DBG_CHAL_READ (R549): A read of DBG_CHAL returns a fresh challenge and voids the previous nonce. -/
  | dbgChalRead
  /-- DEBUG_TOKEN (R550): A token shifted into DBG_TOKEN is verified and opens its scopes, or counts as a
  failure. `token`: the bytes shifted in. -/
  | debugToken (token : List Byte)
  /-- I3C_SETDASA (R563): The module accepts a dynamic address from static address 0x3A. -/
  | i3cSetdasa (addr : BitVec 7)
  /-- I3C_ENTDAA (R563): The module takes part in dynamic address assignment. -/
  | i3cEntdaa (addr : BitVec 7)
  /-- TICK (R511): Every tick of the arithmetic clock, enabled or gated, advances device time, runs the
  clock-enable accumulator and counts gated ticks by cause. -/
  | tick
  /-- MOD_PWROK_ASSERT (R558): MOD_PWROK rises and the reset-cause latch records power-on. Whether every mesh
  router passes its self-test in a boot. -/
  | modPwrokAssert (test : Bool)
  /-- RAIL_IN_RANGE (R561): A rail returns to its operating range and ALERT_N is released if no other cause
  holds. Rail. -/
  | railInRange (r : Fin 16)
  /-- REJOIN_LIMIT_EXPIRY (R366): A failed device does not rejoin within the registered rejoin limit, so its
  replica is expelled with cause LOST or the job stops with JOB_MEMBER_LOST. Rank of the device that did not
  rejoin. -/
  | rejoinLimitExpiry (rank : BitVec 16)
  /-- ARRAY_SUSPECT_EXPIRY (R417): An array's 24-hour suspect mark after a watch failure runs out. Physical
  tile, array. -/
  | arraySuspectExpiry (p : Fin 68) (a : Fin 3)
  /-- SWITCH_COMPLETE (R459): The restore of the incoming context ends, its first tile issues and the scheduler
  re-evaluates residency. -/
  | switchComplete
  /-- DMA_COMPLETE (R488): A host DMA's last write is accepted, its completion entry is written and its
  interrupt counted. Port, ring, place among the started commands. -/
  | dmaComplete (p : Fin 2) (r : Fin 16) (k : Nat)
  /-- CONTROL_CORE_ACCESS (R428): A job control program's load or store either sets the core-poison flag on a
  poisoned granule or raises REGION_VIOLATION outside its mapped regions. Core, kind of access, load or store,
  address, length, data. -/
  | controlCoreAccess (core : Fin 12) (sp : Fin 10) (store : Bool) (a : BitVec 48) (n : BitVec 7) (d : List Byte)
  /-- CORE_CACHE_UNCORRECTABLE (R502): An uncorrectable error in a cache of clusters 1 to 3 sets the context's
  core-poison flag. -/
  | coreCacheUncorrectable
  /-- ECALL (R294): A job control program's ECALL to machine mode is answered with SBI_ERR_NOT_SUPPORTED, or
  with the base-extension reply. Extension, function, argument. -/
  | ecall (eid fid arg : BitVec 64)
  /-- DEBUG_ACCESS (R551): Under an open scope, a JTAG access reads registers or halts, steps or writes control
  cores, device memory and tile scan chains. Operation, address, second operand, data. -/
  | debugAccess (op : Fin 8) (a : BitVec 48) (b : BitVec 64) (d : List Byte)
  deriving DecidableEq, Repr

end Sys2Proof
end

