-- ==== Sys2Proof/Decode.lean ====
section
/-! DEFINITION. Decode.lean: the commands that words spell. No row of the command table gives bits, so no word spells one. -/

namespace Sys2Proof

/-- The command that the `nbits` bits `w` spell: none, since the table gives no command bits. -/
def decodeTableWord (_nbits _w : Nat) : Option Instr := none

end Sys2Proof
end

