-- ==== Sys2Proof/Config.lean ====
section
/-! DEFINITION. Config.lean: what the spec leaves open, as opaque constants without bodies. A statement that
holds of the model holds for every value of them (log 9, 10, 14, 22, 85). -/

namespace Sys2Proof.Config

/-- A fresh free value for each value of the state's counter (log 10). -/
opaque freeNat : Nat → Nat

/-- A fresh free byte string (log 10). -/
opaque freeBytes : Nat → List Byte

/-- The bits of an instruction-buffer entry that no load has written, by a fresh number (log 10, 33). -/
opaque freeBundle : Nat → Nat

/-- The row of its pseudo-channel that holds an HBM granule, a geometry the spec does not give (log 14). -/
opaque rowOf : Nat → Nat

/-- The tensor identifier under which the barrel keys its spills (R180), which the spec does not give (log 34). -/
opaque barrelTid : Nat

/-- ML-DSA.Verify of FIPS 204 (R534): public key, message, context string, signature (log 9). -/
opaque mldsaVerify : List Byte → List Byte → List Byte → List Byte → Bool

/-- The public key of ML-DSA.KeyGen_internal from a seed (R545, log 9). -/
opaque mldsaPub : List Byte → List Byte

/-- The private key of ML-DSA.KeyGen_internal from a seed (R545, log 9). -/
opaque mldsaPriv : List Byte → List Byte

/-- ML-DSA.Sign, hedged: private key, message, context string, random bytes (R534, log 9). -/
opaque mldsaSign : List Byte → List Byte → List Byte → List Byte → List Byte

/-- KC_REV of the ALIAS certificate, which R545 does not state (log 9). -/
opaque aliasRev : Nat

/-- Bytes of a flash record's body by NV_KIND, where R528 gives its fields no layout (log 22). -/
opaque nvBodyBytes : Nat → Nat

/-- The quotient of R520 where the fused sensitivity k16_q is zero, which the spec does not state: from
16 times the slack needed (log 10). -/
opaque replanQuotient : Int → Int

/-- Whether another device's port to a destination is UP, as a device that looks for a forwarding path sees it (R324): by
that device, the destination, and the number of moves to a next path (log 39). -/
opaque farPortUp : Nat → Nat → Nat → Bool

/-- Rated life in hours of a transceiver in firmware's table, by OUI and part number, where the table lists it (R336). The
spec does not give the table (log 53). -/
opaque ratedLife : List Byte → List Byte → Option Nat

/-- The tile-SRAM granules, by logical tile and number, of which a read in the tick finds what the code cannot correct (R406, log 85). -/
opaque sramErrors : Nat → List (Fin 64 × Fin 16384)

end Sys2Proof.Config
end

