-- ==== Sys2Proof/Machine/Sparse.lean ====
section
/-! DEFINITION. Machine/Sparse.lean: reading and writing sparse tables in their one canonical form
(keys strictly rising, no listed value equal to what an unlisted key reads as), and byte memories over them. -/

namespace Sys2Proof.Machine

/-- The value listed at a key, if any. -/
def sfind {α : Type} : SMap α → Nat → Option α
  | [], _ => none
  | (a, v) :: r, k => if a = k then some v else sfind r k

/-- What a key reads as: its listed value, or its default. -/
def sget {α : Type} (d : Nat → α) (m : SMap α) (k : Nat) : α :=
  (sfind m k).getD (d k)

/-- Insert or replace a key, keeping the keys rising. -/
def sins {α : Type} : SMap α → Nat → α → SMap α
  | [], k, v => [(k, v)]
  | (a, w) :: r, k, v =>
    if k < a then (k, v) :: (a, w) :: r
    else if k = a then (k, v) :: r
    else (a, w) :: sins r k v

/-- Remove a key. -/
def sdel {α : Type} (m : SMap α) (k : Nat) : SMap α :=
  m.filter (fun p => p.1 ≠ k)

/-- Write a key: writing its default removes the entry, so that equal tables are equal lists. -/
def sput {α : Type} [DecidableEq α] (d : Nat → α) (m : SMap α) (k : Nat) (v : α) : SMap α :=
  if v = d k then sdel m k else sins m k v

/-- Read, change, write back. -/
def smod {α : Type} [DecidableEq α] (d : Nat → α) (m : SMap α) (k : Nat) (f : α → α) : SMap α :=
  sput d m k (f (sget d m k))

/-- Keys strictly rising, all above a bound. -/
def srising {α : Type} : Option Nat → SMap α → Bool
  | _, [] => true
  | lo, (a, _) :: r => (match lo with | none => true | some b => decide (b < a)) && srising (some a) r

/-- The canonical form. -/
def swf {α : Type} [DecidableEq α] (d : Nat → α) (m : SMap α) : Bool :=
  srising none m && m.all (fun p => decide (p.2 ≠ d p.1))

/-- A byte memory. -/
abbrev Mem := SMap Byte

/-- What a byte nothing has written reads as (log 4). -/
def memDefault : Nat → Byte := fun _ => 0

/-- The canonical form of a byte memory. -/
abbrev Memory.wf (m : Mem) : Bool := swf memDefault m

/-- One byte. -/
def rd8 (m : Mem) (a : Nat) : Byte := sget memDefault m a

/-- Store one byte. -/
def wr8 (m : Mem) (a : Nat) (b : Byte) : Mem := sput memDefault m a b

/-- `n` bytes from an address, lowest first. -/
def rdBytes (m : Mem) (a n : Nat) : List Byte :=
  (List.range n).map (fun i => rd8 m (a + i))

/-- Store bytes from an address upward. -/
def wrBytes : Mem → Nat → List Byte → Mem
  | m, _, [] => m
  | m, a, b :: bs => wrBytes (wr8 m a b) (a + 1) bs

/-- The number little-endian bytes spell (R4). -/
def leNat : List Byte → Nat
  | [] => 0
  | b :: bs => b.toNat + 256 * leNat bs

/-- The `n` little-endian bytes of a number (R4). -/
def natLe : Nat → Nat → List Byte
  | 0, _ => []
  | n + 1, v => BitVec.ofNat 8 v :: natLe n (v / 256)

/-- Read an `n`-byte little-endian field. -/
def rdLe (m : Mem) (a n : Nat) : Nat := leNat (rdBytes m a n)

/-- Write an `n`-byte little-endian field. -/
def wrLe (m : Mem) (a n v : Nat) : Mem := wrBytes m a (natLe n v)

/-- An `n`-byte little-endian field at an offset of a byte string; bytes beyond its end read zero. -/
def fieldLe (bs : List Byte) (off n : Nat) : Nat := leNat ((bs.drop off).take n)

/-- The default of a table of natural numbers, words and flags. -/
def zeroNat : Nat → Nat := fun _ => 0
/-- The default of a table of 32-bit words. -/
def zero32 : Nat → W32 := fun _ => 0
/-- The default of a table of 64-bit words. -/
def zero64 : Nat → W64 := fun _ => 0
/-- The default of a table of flags. -/
def noFlag : Nat → Bool := fun _ => false

/-- Bits `lo` to `lo + w - 1` of a number. -/
def bitsOf (v lo w : Nat) : Nat := v / 2 ^ lo % 2 ^ w

/-- Bit `i` of a number. -/
def bitOf (v i : Nat) : Bool := v / 2 ^ i % 2 == 1

/-- One for true. -/
def b2n (b : Bool) : Nat := if b then 1 else 0

/-- A number read as two's complement of `w` bits. -/
def sgn (v w : Nat) : Int := if v % 2 ^ w < 2 ^ (w - 1) then (v % 2 ^ w : Nat) else (v % 2 ^ w : Nat) - (2 ^ w : Nat)

/-- An integer as `w` bits of two's complement. -/
def unsgn (v : Int) (w : Nat) : Nat := (v % (2 ^ w : Nat)).toNat

/-- Ceiling division. -/
def cdiv (a b : Nat) : Nat := (a + b - 1) / b

/-- Rounded up to a multiple. -/
def upTo (a b : Nat) : Nat := cdiv a b * b

end Sys2Proof.Machine
end

