-- ==== Sys2Proof/Machine/Asum.lean ====
section
/-! DEFINITION. Machine/Asum.lean: the shared helpers, block partials and aligned sums of
03_products_and_accumulation.md (R62 to R82), written on exact integers. -/

namespace Sys2Proof.Machine

/-- R62 floor_div, for a positive divisor. -/
def floorDiv (a b : Int) : Int := a / b

/-- R62 shr_floor: drops the low bits toward minus infinity. -/
def shrFloor (x : Int) (n : Nat) : Int := x / (2 ^ n : Nat)

/-- R62 rne: x / 2^n to nearest, ties to even. The 63-bit shift limit of R62 never changes a value
with |x| at most 2^62, and is kept as written. -/
def rne (x : Int) (n : Nat) : Int :=
  if n = 0 then x
  else if n ≥ 63 then 0
  else
    let q := x / (2 ^ n : Nat)
    let rem := x - q * (2 ^ n : Nat)
    let half : Int := (2 ^ (n - 1) : Nat)
    if rem > half || (rem == half && q % 2 == 1) then q + 1 else q

/-- R62 sat. -/
def sat (x lo hi : Int) : Int := if x < lo then lo else if x > hi then hi else x

/-- R62 block_length, with R40: the extent of a block along a dimension it spans. -/
def blockLength : Nat → Nat
  | 1 => 16
  | 2 => 32
  | 3 => 64
  | 4 => 128
  | 5 => 8
  | _ => 1

/-- R40: values per block. -/
def blockValues : Nat → Nat
  | 1 => 16
  | 2 => 32
  | 3 => 64
  | 4 => 128
  | 5 => 64
  | _ => 1

/-- An aligned sum (R67): the value s × 2^e, or the invalid mark. -/
structure ASum where
  e : Int
  s : Int
  inv : Bool
  deriving DecidableEq, Repr

/-- The empty sum (R71). -/
def asEmpty : ASum := ⟨-512, 0, false⟩

/-- The invalid sum (R71). -/
def asInvalid : ASum := ⟨-512, 0, true⟩

/-- The exact sum of products of two mantissa lists (R68). -/
def dot : List Int → List Int → Int
  | a :: as, b :: bs => a * b + dot as bs
  | _, _ => 0

/-- R67 block_partial. -/
def blockPartial (xa : Nat) (ma : List Int) (xb : Nat) (mb : List Int) : ASum :=
  if xa = 0xFF || xb = 0xFF then asInvalid
  else if xa = 0 || xb = 0 then asEmpty
  else
    let p := dot ma mb
    if p = 0 then asEmpty else ⟨(xa : Int) - 127 + ((xb : Int) - 127), p, false⟩

/-- R70 asum_add: the only way two aligned sums are added. -/
def asumAdd (a b : ASum) : ASum :=
  if a.inv || b.inv then asInvalid
  else if a.s = 0 then b
  else if b.s = 0 then a
  else
    let e := max a.e b.e
    let ga := shrFloor (a.s * 8) (e - a.e).toNat
    let gb := shrFloor (b.s * 8) (e - b.e).toNat
    let s := rne (ga + gb) 3
    let (s, e) := if s > 0x7FFFFFFF || s < -0x80000000 then (rne s 1, e + 1) else (s, e)
    if s = 0 then asEmpty else ⟨e, s, false⟩

/-- R78 column_sum: the fold in ascending K. -/
def columnSum (init : ASum) (parts : List ASum) : ASum := parts.foldl asumAdd init

/-- One level of the pairwise tree of R80: neighbours combined, an odd last one carried up. -/
def pairUp {α : Type} (f : α → α → α) : List α → List α
  | a :: b :: r => f a b :: pairUp f r
  | [a] => [a]
  | [] => []

/-- The pairwise tree of R80 over any operation, with fuel the number of levels. -/
def pairTree {α : Type} (f : α → α → α) : Nat → List α → List α
  | 0, l => l
  | n + 1, l => if l.length ≤ 1 then l else pairTree f n (pairUp f l)

/-- R80 splitk_tree; also the shape of R199 and R350. -/
def treeReduce {α : Type} (f : α → α → α) (z : α) (l : List α) : α :=
  (pairTree f l.length l).headD z

/-- R80. -/
def splitkTree (l : List ASum) : ASum := treeReduce asumAdd asEmpty l

/-- R76, R77: the 64-bit word of an aligned sum. -/
def asumToWord (a : ASum) : W64 :=
  if a.inv then 0x0000060000000000#64
  else if a.s = 0 then 0x0000020000000000#64
  else BitVec.ofNat 64 (unsgn a.s 32 + 2 ^ 32 * unsgn a.e 10)

/-- R76, R77: the aligned sum a 64-bit word holds. -/
def asumOfWord (w : W64) : ASum :=
  let n := w.toNat
  if bitOf n 42 then asInvalid
  else
    let s := sgn (bitsOf n 0 32) 32
    if s = 0 then asEmpty else ⟨sgn (bitsOf n 32 10) 10, s, false⟩

end Sys2Proof.Machine
end

