-- ==== Sys2Proof/Machine/Float.lean ====
section
/-! DEFINITION. Machine/Float.lean: binary32 arithmetic of the vector engine (R107, R109, R111 to R113,
R196 to R201), each operation exact on integers and rounded once with round-half-even. -/

namespace Sys2Proof.Machine

/-- R51, R196: the quiet NaN of every arithmetic NaN result. -/
def qnan : W32 := 0x7FC00000#32
/-- +∞. -/
def pinf : W32 := 0x7F800000#32
/-- −∞. -/
def ninf : W32 := 0xFF800000#32
/-- −0. -/
def nzero : W32 := 0x80000000#32

/-- Sign bit. -/
def fneg? (x : W32) : Bool := x.msb
/-- Exponent field. -/
def fexp (x : W32) : Nat := x.toNat / 2 ^ 23 % 256
/-- Fraction field. -/
def ffrac (x : W32) : Nat := x.toNat % 2 ^ 23
/-- NaN. -/
def isNan (x : W32) : Bool := fexp x == 255 && ffrac x != 0
/-- Either infinity. -/
def isInf (x : W32) : Bool := fexp x == 255 && ffrac x == 0
/-- Either zero. -/
def isZero (x : W32) : Bool := fexp x == 0 && ffrac x == 0

/-- The magnitude of a finite encoding as mantissa × 2^exponent. -/
def fmag (x : W32) : Nat × Int :=
  if fexp x = 0 then (ffrac x, -149) else (ffrac x + 2 ^ 23, (fexp x : Int) - 150)

/-- The signed mantissa of a finite encoding. -/
def fman (x : W32) : Int := if fneg? x then -((fmag x).1 : Int) else (fmag x).1

/-- Put a sign on an encoding. -/
def withSign (neg : Bool) (x : W32) : W32 := if neg then x ||| nzero else x &&& 0x7FFFFFFF#32

/-- The exact power of two at or below n/d, both positive. -/
def ratLog2 (n d : Nat) : Int :=
  let e : Int := (Nat.log2 n : Int) - Nat.log2 d
  let ge := if e ≥ 0 then decide (d * 2 ^ e.toNat ≤ n) else decide (d ≤ n * 2 ^ (-e).toNat)
  if ge then e else e - 1

/-- R107: the positive rational n/d rounded once to binary32 with round-half-even, subnormals and
overflow included. -/
def roundRat (n d : Nat) : W32 :=
  if n = 0 then 0
  else
    let lsb := max (ratLog2 n d - 23) (-149)
    let (n', d') := if lsb ≥ 0 then (n, d * 2 ^ lsb.toNat) else (n * 2 ^ (-lsb).toNat, d)
    let q := n' / d'
    let r := n' % d'
    let q := if 2 * r > d' || (2 * r == d' && q % 2 == 1) then q + 1 else q
    let bits := (lsb + 149).toNat * 2 ^ 23 + q
    if bits ≥ 0x7F800000 then pinf else BitVec.ofNat 32 bits

/-- A nonzero signed dyadic m × 2^e rounded once. -/
def roundDyadic (m : Int) (e : Int) : W32 :=
  let a := m.natAbs
  let r := if e ≥ 0 then roundRat (a * 2 ^ e.toNat) 1 else roundRat a (2 ^ (-e).toNat)
  withSign (decide (m < 0)) r

/-- vadd (R198). -/
def vaddF (a b : W32) : W32 :=
  if isNan a || isNan b then qnan
  else if isInf a then (if isInf b && fneg? a != fneg? b then qnan else a)
  else if isInf b then b
  else
    let ea := (fmag a).2
    let eb := (fmag b).2
    let e := min ea eb
    let s := fman a * (2 ^ (ea - e).toNat : Nat) + fman b * (2 ^ (eb - e).toNat : Nat)
    if s = 0 then (if fneg? a && fneg? b then nzero else 0) else roundDyadic s e

/-- vneg (R196): the sign bit alone. -/
def vnegF (a : W32) : W32 := a ^^^ nzero
/-- vabs (R196). -/
def vabsF (a : W32) : W32 := a &&& 0x7FFFFFFF#32
/-- vcopysign (R196): the magnitude of the first operand with the sign of the second. -/
def vcopysignF (a b : W32) : W32 := (a &&& 0x7FFFFFFF#32) ||| (b &&& nzero)

/-- vsub (R198). -/
def vsubF (a b : W32) : W32 := if isNan b then qnan else vaddF a (vnegF b)

/-- vmul (R198). -/
def vmulF (a b : W32) : W32 :=
  let s := fneg? a != fneg? b
  if isNan a || isNan b then qnan
  else if isInf a || isInf b then (if isZero a || isZero b then qnan else withSign s pinf)
  else
    let m := (fmag a).1 * (fmag b).1
    if m = 0 then withSign s 0
    else roundDyadic (if s then -(m : Int) else m) ((fmag a).2 + (fmag b).2)

/-- vfma (R198): a·b + c rounded once. -/
def vfmaF (a b c : W32) : W32 :=
  let s := fneg? a != fneg? b
  if isNan a || isNan b || isNan c then qnan
  else if isInf a || isInf b then
    if isZero a || isZero b then qnan
    else if isInf c && fneg? c != s then qnan
    else withSign s pinf
  else if isInf c then c
  else
    let p : Int := fman a * fman b
    let ep := (fmag a).2 + (fmag b).2
    let ec := (fmag c).2
    let e := min ep ec
    let v := p * (2 ^ (ep - e).toNat : Nat) + fman c * (2 ^ (ec - e).toNat : Nat)
    if v = 0 then
      if p = 0 && isZero c then (if s && fneg? c then nzero else 0) else 0
    else roundDyadic v e

/-- Order key of a non-NaN encoding: −0 ranks below +0. -/
def fkey (x : W32) : Int := if fneg? x then -(((x &&& 0x7FFFFFFF#32).toNat : Int)) - 1 else (x.toNat : Int)

/-- IEEE less-than: false for NaN, the zeros equal. -/
def fltF (a b : W32) : Bool :=
  !isNan a && !isNan b && !(isZero a && isZero b) && decide (fkey a < fkey b)
/-- IEEE equality. -/
def feqF (a b : W32) : Bool := !isNan a && !isNan b && (a == b || (isZero a && isZero b))
/-- IEEE less-or-equal. -/
def fleF (a b : W32) : Bool := fltF a b || feqF a b

/-- vmin (R198): NaN if either is, −0 below +0. -/
def vminF (a b : W32) : W32 := if isNan a || isNan b then qnan else if fkey a ≤ fkey b then a else b
/-- vmax (R198). -/
def vmaxF (a b : W32) : W32 := if isNan a || isNan b then qnan else if fkey a ≥ fkey b then a else b

/-- vdiv (R109). -/
def vdivF (a b : W32) : W32 :=
  let s := fneg? a != fneg? b
  if isNan a || isNan b then qnan
  else if isInf a then (if isInf b then qnan else withSign s pinf)
  else if isInf b then withSign s 0
  else if isZero b then (if isZero a then qnan else withSign s pinf)
  else
    let (ma, ea) := fmag a
    let (mb, eb) := fmag b
    let e := ea - eb
    let r := if e ≥ 0 then roundRat (ma * 2 ^ e.toNat) mb else roundRat ma (mb * 2 ^ (-e).toNat)
    withSign s r

/-- 1.0. -/
def fone : W32 := 0x3F800000#32

/-- vrcp (R109). -/
def vrcpF (a : W32) : W32 := vdivF fone a

/-- Round a square root known between r and r + 1 units of 2^u: exact when the flag says so. -/
def roundRoot (r : Nat) (exact : Bool) (u : Int) : W32 :=
  -- one extra bit below the unit stands for everything dropped
  let n := 2 * r + (if exact then 0 else 1)
  let e := u - 1
  if e ≥ 0 then roundRat (n * 2 ^ e.toNat) 1 else roundRat n (2 ^ (-e).toNat)

/-- vsqrt (R109). -/
def vsqrtF (a : W32) : W32 :=
  if isNan a then qnan
  else if isZero a then a
  else if fneg? a then qnan
  else if isInf a then a
  else
    let (m, e) := fmag a
    -- make the exponent even and keep 64 fraction bits
    let (m, e) := if e % 2 = 0 then (m, e) else (2 * m, e - 1)
    let v := m * 2 ^ 64
    let r := Nat.sqrt v
    roundRoot r (r * r == v) (e / 2 - 32)

/-- vrsqrt (R109). -/
def vrsqrtF (a : W32) : W32 :=
  if isNan a then qnan
  else if isZero a then withSign (fneg? a) pinf
  else if fneg? a then qnan
  else if isInf a then 0
  else
    let (m, e) := fmag a
    let (m, e) := if e % 2 = 0 then (m, e) else (2 * m, e - 1)
    -- 1 / sqrt m = sqrt (2^128 / m) / 2^64
    let r := Nat.sqrt (2 ^ 128 / m)
    roundRoot r (r * r * m == 2 ^ 128) (-(e / 2) - 64)

/-! Enclosures for the transcendental functions: fixed-point integers with `p` fraction bits and a
stated error, at rising precision until both ends round alike (log 11). -/

/-- Σ z^(2i+1)/(2i+1), i below the fuel, in fixed point; `t` is the current odd power. -/
def atanhSum (p : Nat) (z2 : Nat) : Nat → Nat → Nat → Nat → Nat
  | 0, _, _, acc => acc
  | f + 1, t, k, acc => if t = 0 then acc else atanhSum p z2 f (t * z2 / 2 ^ p) (k + 2) (acc + t / k)

/-- 2·atanh(n/d) for 0 ≤ n/d ≤ 1/3, with p fraction bits, at most p + 8 units too small. -/
def atanh2 (p n d : Nat) : Nat :=
  let z := n * 2 ^ p / d
  2 * atanhSum p (z * z / 2 ^ p) p z 1 0

/-- ln 2 with p fraction bits: 2·atanh(1/3). -/
def ln2Fix (p : Nat) : Nat := atanh2 p 1 3

/-- Σ r^i/i!, in fixed point. -/
def expSum (p r : Nat) : Nat → Nat → Nat → Nat → Nat
  | 0, _, _, acc => acc
  | f + 1, t, i, acc => if t = 0 then acc else expSum p r f (t * r / 2 ^ p / (i + 1)) (i + 1) (acc + t)

/-- e^r for 0 ≤ r below 1, r and the result with p fraction bits, too small by at most 4p units. -/
def expFix (p r : Nat) : Nat := expSum p r (p + 2) (2 ^ p) 0 0

/-- Round the value v·2^k/2^p. -/
def roundFix (v : Nat) (k : Int) (p : Nat) : W32 :=
  let e := k - p
  if e ≥ 0 then roundRat (v * 2 ^ e.toNat) 1 else roundRat v (2 ^ (-e).toNat)

/-- The precisions tried, in order. -/
def precisions : List Nat := [160, 320, 640, 1280]

/-- Round an enclosure (lo, hi, k, p): the first precision whose two ends round alike decides. -/
def decideEnclosure (enc : Nat → Nat × Nat × Int) : List Nat → W32
  | [] => qnan
  | [p] => let (lo, _, k) := enc p; roundFix lo k p
  | p :: ps =>
    let (lo, hi, k) := enc p
    let a := roundFix lo k p
    let b := roundFix hi k p
    if a = b then a else decideEnclosure enc ps

/-- Enclosure of e^x for x = m·2^e. -/
def expEnc (m e : Int) (p : Nat) : Nat × Nat × Int :=
  let x : Int := if e + p ≥ 0 then m * (2 ^ (e + p).toNat : Nat) else m / (2 ^ (-(e + p)).toNat : Nat)
  let l : Int := ln2Fix p
  let k := x / l
  let r := (x - k * l).toNat
  let v := expFix p (min r (2 ^ p - 1))
  (v - 2 ^ 20, v + 2 ^ 20, k)

/-- vexp (R109). -/
def vexpF (a : W32) : W32 :=
  if isNan a then qnan
  else if isInf a then (if fneg? a then 0 else pinf)
  else
    let m := fman a
    let e := (fmag a).2
    if decide (fexp a < 101) then fone          -- |x| below 2^-26 rounds to 1
    else if fltF 0x42C80000#32 a then pinf       -- x above 100
    else if fltF a 0xC2DC0000#32 then 0          -- x below −110
    else decideEnclosure (expEnc m e) precisions

/-- Enclosure of 2^x for x = m·2^e. -/
def exp2Enc (m e : Int) (p : Nat) : Nat × Nat × Int :=
  let x : Int := if e + p ≥ 0 then m * (2 ^ (e + p).toNat : Nat) else m / (2 ^ (-(e + p)).toNat : Nat)
  let k := x / (2 ^ p : Nat)
  let f := (x - k * (2 ^ p : Nat)).toNat
  let v := expFix p (f * ln2Fix p / 2 ^ p)
  (v - 2 ^ 20, v + 2 ^ 20, k)

/-- vexp2 (R109): exact at integers. -/
def vexp2F (a : W32) : W32 :=
  if isNan a then qnan
  else if isInf a then (if fneg? a then 0 else pinf)
  else
    let m := fman a
    let e := (fmag a).2
    if decide (fexp a < 101) then fone
    else if fltF 0x43160000#32 a then pinf       -- x above 150
    else if fltF a 0xC3480000#32 then 0          -- x below −200
    else
      let integral := if e ≥ 0 then true else m % (2 ^ (-e).toNat : Nat) == 0
      if integral then
        let k : Int := if e ≥ 0 then m * (2 ^ e.toNat : Nat) else m / (2 ^ (-e).toNat : Nat)
        if k ≥ 0 then roundRat (2 ^ k.toNat) 1 else roundRat 1 (2 ^ (-k).toNat)
      else decideEnclosure (exp2Enc m e) precisions

/-- ln of mantissa × 2^e in fixed point: signed, with the error unit. -/
def lnFix (m : Nat) (e : Int) (p : Nat) : Int :=
  let t := Nat.log2 m
  -- m = 2^t · (1 + f); ln (1 + f) = 2 atanh (f / (2 + f)), with f = (m − 2^t)/2^t
  let n := m - 2 ^ t
  let d := m + 2 ^ t
  (atanh2 p n d : Int) + (e + t) * (ln2Fix p : Int)

/-- A signed enclosure rounded with its sign. -/
def decideSigned (f : Nat → Int) (err : Nat) : List Nat → W32
  | [] => qnan
  | p :: ps =>
    let v := f p
    let a := withSign (decide (v < 0)) (roundFix (v.natAbs - err) 0 p)
    let b := withSign (decide (v < 0)) (roundFix (v.natAbs + err) 0 p)
    if a = b || ps.isEmpty then a else decideSigned f err ps

/-- vlog (R109). -/
def vlogF (a : W32) : W32 :=
  if isNan a then qnan
  else if isZero a then ninf
  else if fneg? a then qnan
  else if isInf a then a
  else if a = fone then 0
  else
    let (m, e) := fmag a
    decideSigned (lnFix m e) (2 ^ 20) precisions

/-- vlog2 (R109): exact at powers of two. -/
def vlog2F (a : W32) : W32 :=
  if isNan a then qnan
  else if isZero a then ninf
  else if fneg? a then qnan
  else if isInf a then a
  else
    let (m, e) := fmag a
    if m = 2 ^ Nat.log2 m then
      let k : Int := e + Nat.log2 m
      if k = 0 then 0 else roundDyadic k 0
    else decideSigned (fun p => (lnFix m e (p + 32)) * (2 ^ p : Nat) / (ln2Fix (p + 32) : Int)) (2 ^ 20) precisions

/-! Constants of R112: each the binary32 value nearest to its decimal. -/

/-- A decimal n/10^k as binary32. -/
def decF (n k : Nat) : W32 := roundRat n (10 ^ k)
/-- C_T3. -/
def cT3 : W32 := vnegF (decF 333333333333333333 18)
/-- C_T5. -/
def cT5 : W32 := decF 133333333333333333 18
/-- C_E1. -/
def cE1 : W32 := decF 112837916709551257 17
/-- C_E5. -/
def cE5 : W32 := decF 1 1
/-- C_P. -/
def cP : W32 := decF 3275911 7
/-- C_G. -/
def cG : W32 := decF 707106781186547524 18
/-- C_K. -/
def cK : W32 := decF 44715 6
/-- C_A1. -/
def cA1 : W32 := decF 254829592 9
/-- C_A2. -/
def cA2 : W32 := vnegF (decF 284496736 9)
/-- C_A3. -/
def cA3 : W32 := decF 1421413741 9
/-- C_A4. -/
def cA4 : W32 := vnegF (decF 1453152027 9)
/-- C_A5. -/
def cA5 : W32 := decF 1061405429 9
/-- C_H. -/
def cH : W32 := decF 797884560802865356 18

/-- R111 tanh_c. -/
def tanhC (x : W32) : W32 :=
  if isNan x then qnan
  else
    let a := vabsF x
    if fltF a 0x39800000#32 then x
    else if fleF 0x41200000#32 a then vcopysignF fone x
    else if fltF a 0x3E000000#32 then
      let x2 := vmulF x x
      vfmaF x (vmulF x2 (vfmaF x2 cT5 cT3)) x
    else
      let e := vexpF (vmulF 0xC0000000#32 a)
      vcopysignF (vdivF (vsubF fone e) (vaddF fone e)) x

/-- R111 sigmoid_c. -/
def sigmoidC (x : W32) : W32 :=
  if isNan x then qnan else vrcpF (vaddF fone (vexpF (vnegF x)))

/-- R111 erf_c. -/
def erfC (x : W32) : W32 :=
  if isNan x then qnan
  else
    let a := vabsF x
    if isZero a then x
    else if fleF 0x40800000#32 a then vcopysignF fone x
    else if fltF a 0x3E000000#32 then
      let x2 := vmulF x x
      vmulF cE1 (vfmaF x (vmulF x2 (vfmaF x2 cE5 cT3)) x)
    else
      let t := vrcpF (vfmaF cP a fone)
      let s := vfmaF t cA5 cA4
      let s := vfmaF t s cA3
      let s := vfmaF t s cA2
      let s := vfmaF t s cA1
      let g := vexpF (vnegF (vmulF a a))
      vcopysignF (vsubF fone (vmulF (vmulF t s) g)) x

/-- 0.5. -/
def fhalf : W32 := 0x3F000000#32

/-- R111 gelu_c. -/
def geluC (x : W32) : W32 :=
  if isNan x then qnan
  else if x = ninf then nzero
  else vmulF fhalf (vmulF x (vaddF fone (erfC (vmulF x cG))))

/-- R111 gelu_tanh_c. -/
def geluTanhC (x : W32) : W32 :=
  if isNan x then qnan
  else if x = ninf then nzero
  else
    let z := vmulF cH (vmulF x (vfmaF (vmulF x x) cK fone))
    vmulF fhalf (vmulF x (vaddF fone (tanhC z)))

/-- R113 pair_add. -/
def pairAdd (ah at_ bh bt : W32) : W32 × W32 :=
  let s := vaddF ah bh
  let bv := vsubF s ah
  let er := vaddF (vsubF ah (vsubF s bv)) (vsubF bh bv)
  let t := vaddF (vaddF at_ bt) er
  let h := vaddF s t
  (h, vsubF t (vsubF h s))

/-- R199 tree_add over the present values; none present gives +0. -/
def treeAdd (l : List W32) : W32 := treeReduce vaddF 0 l

/-- The values of a long row, 512 at a time (R200). -/
def chunks512 : Nat → List W32 → List (List W32)
  | 0, _ => []
  | n + 1, l => if l.isEmpty then [] else l.take 512 :: chunks512 n (l.drop 512)

/-- R200 row_sum; the fuel bounds the depth of its recursion. -/
def rowSum : Nat → List W32 → W32
  | 0, l => treeAdd l
  | n + 1, l =>
    if l.length ≤ 512 then treeAdd l
    else rowSum n ((chunks512 l.length l).map treeAdd)

/-- R201 vred.max over the present values. -/
def redMax (l : List W32) : W32 := l.foldl vmaxF ninf
/-- R201 vred.min over the present values. -/
def redMin (l : List W32) : W32 := l.foldl vminF pinf

/-- R187 softmax_merge. -/
def softmaxMerge (ma la : W32) (oa : List W32) (mb lb : W32) (ob : List W32) : W32 × W32 × List W32 :=
  if mb = ninf then (ma, la, oa)
  else if ma = ninf then (mb, lb, ob)
  else
    let m := if fltF ma mb then mb else ma
    let al := vexpF (vsubF ma m)
    let be := vexpF (vsubF mb m)
    (m, vfmaF lb be (vmulF la al), List.zipWith (fun a b => vfmaF b be (vmulF a al)) oa ob)

/-- R187 softmax_finish. -/
def softmaxFinish (l : W32) (o : List W32) : List W32 :=
  o.map fun x => if isZero l then 0 else vdivF x l

end Sys2Proof.Machine
end

