-- ==== Sys2Proof/Machine/Hash.lean ====
section
/-! DEFINITION. Machine/Hash.lean: CRC-32C and keys (R398), CRC-32 of flits (R300), tdmix (R384),
Philox draws (R103) and SHA3-512 (the digest of R367, R386, R534). -/

namespace Sys2Proof.Machine

/-- One bit step of a reflected CRC with the given polynomial. -/
def crcBit (poly r : Nat) : Nat := if r % 2 = 1 then Nat.xor (r / 2) poly else r / 2

/-- One byte of a reflected CRC. -/
def crcByte (poly r : Nat) (b : Byte) : Nat :=
  let r := Nat.xor r b.toNat
  crcBit poly (crcBit poly (crcBit poly (crcBit poly (crcBit poly (crcBit poly (crcBit poly (crcBit poly r)))))))

/-- R398 crc32c_update. -/
def crc32cUpdate (c : W32) (d : List Byte) : W32 :=
  BitVec.ofNat 32 (Nat.xor (d.foldl (crcByte 0x82F63B78) (Nat.xor c.toNat 0xFFFFFFFF)) 0xFFFFFFFF)

/-- R398 bare_cv of one granule. -/
def bareCv (g : List Byte) : W32 := crc32cUpdate 0 g

/-- R398 keyed_cv: the bare value with the 12 key bytes appended. -/
def keyedCv (bare : W32) (tid blk ver : W32) : W32 :=
  crc32cUpdate bare (natLe 4 tid.toNat ++ natLe 4 blk.toNat ++ natLe 4 ver.toNat)

/-- R300 link CRC: CRC-32 of IEEE 802.3, reflected. -/
def crc32 (d : List Byte) : W32 :=
  BitVec.ofNat 32 (Nat.xor (d.foldl (crcByte 0xEDB88320) 0xFFFFFFFF) 0xFFFFFFFF)

/-- R384 tdmix. -/
def tdmix (cv tid blk ver : W32) : W64 :=
  let x : W64 := BitVec.ofNat 64 (cv.toNat * 2 ^ 32 + tid.toNat)
  let y : W64 := BitVec.ofNat 64 (blk.toNat * 2 ^ 32 + ver.toNat)
  let z := x * 0x9E3779B97F4A7C15#64 + y
  let z := (z ^^^ (z >>> 31)) * 0xBF58476D1CE4E5B9#64
  z ^^^ (z >>> 29)

/-- One round of Philox4x32 on counter and key words. -/
def philoxRound (c0 c1 c2 c3 k0 k1 : Nat) : Nat × Nat × Nat × Nat :=
  let p0 := 0xD2511F53 * c0
  let p1 := 0xCD9E8D57 * c2
  (Nat.xor (Nat.xor (p1 / 2 ^ 32) c1) k0, p1 % 2 ^ 32, Nat.xor (Nat.xor (p0 / 2 ^ 32) c3) k1, p0 % 2 ^ 32)

/-- R103: `n` rounds, the key advancing between rounds. -/
def philoxRounds : Nat → Nat × Nat × Nat × Nat → Nat → Nat → Nat × Nat × Nat × Nat
  | 0, c, _, _ => c
  | n + 1, (c0, c1, c2, c3), k0, k1 =>
    philoxRounds n (philoxRound c0 c1 c2 c3 k0 k1) ((k0 + 0x9E3779B9) % 2 ^ 32) ((k1 + 0xBB67AE85) % 2 ^ 32)

/-- R103 draw: the 16-bit draw of element `i`. -/
def draw (seed : W64) (tid step : W32) (i : Nat) : Nat :=
  let g := i / 8
  let o := philoxRounds 10 (g % 2 ^ 32, g / 2 ^ 32 % 2 ^ 32, tid.toNat, step.toNat) (seed.toNat % 2 ^ 32) (seed.toNat / 2 ^ 32)
  let j := i % 8
  let w := match j / 2 with
    | 0 => o.1
    | 1 => o.2.1
    | 2 => o.2.2.1
    | _ => o.2.2.2
  w / 2 ^ (16 * (j % 2)) % 2 ^ 16

/-- Rotate a 64-bit lane left. -/
def rotl64 (x n : Nat) : Nat := (x * 2 ^ n % 2 ^ 64) + x / 2 ^ (64 - n)

/-- Lane `i` of a Keccak state. -/
def lane (a : List Nat) (i : Nat) : Nat := a.getD i 0

/-- Keccak round constants. -/
def keccakRC : List Nat :=
  [0x1, 0x8082, 0x800000000000808A, 0x8000000080008000, 0x808B, 0x80000001, 0x8000000080008081,
   0x8000000000008009, 0x8A, 0x88, 0x80008009, 0x8000000A] ++
  [0x8000808B, 0x800000000000008B, 0x8000000000008089, 0x8000000000008003, 0x8000000000008002,
   0x8000000000000080, 0x800A, 0x800000008000000A, 0x8000000080008081, 0x8000000000008080, 0x80000001,
   0x8000000080008008]

/-- Keccak rotation offsets of lane x + 5y. -/
def keccakRot : List Nat :=
  [0, 1, 62, 28, 27, 36, 44, 6, 55, 20, 3, 10, 43] ++ [25, 39, 41, 45, 15, 21, 8, 18, 2, 61, 56, 14]

/-- One Keccak-f round: theta, rho and pi, chi, iota. -/
def keccakRound (a : List Nat) (rc : Nat) : List Nat :=
  let c := (List.range 5).map fun x =>
    Nat.xor (lane a x) (Nat.xor (lane a (x + 5)) (Nat.xor (lane a (x + 10)) (Nat.xor (lane a (x + 15)) (lane a (x + 20)))))
  let d := (List.range 5).map fun x => Nat.xor (lane c ((x + 4) % 5)) (rotl64 (lane c ((x + 1) % 5)) 1)
  let t := (List.range 25).map fun i => rotl64 (Nat.xor (lane a i) (lane d (i % 5))) (lane keccakRot i)
  -- pi: the lane that lands at (x, y) comes from ((x + 3 y) mod 5, x)
  let b := (List.range 25).map fun i => let x := i % 5; let y := i / 5; lane t ((x + 3 * y) % 5 + 5 * x)
  let r := (List.range 25).map fun i =>
    let x := i % 5
    let y := i / 5
    Nat.xor (lane b i) (Nat.land (Nat.xor (lane b ((x + 1) % 5 + 5 * y)) (2 ^ 64 - 1)) (lane b ((x + 2) % 5 + 5 * y)))
  match r with
  | h :: tl => Nat.xor h rc :: tl
  | [] => []

/-- Keccak-f[1600]. -/
def keccakF (a : List Nat) : List Nat := keccakRC.foldl keccakRound a

/-- Absorb one 72-byte block (the rate of SHA3-512). -/
def sha3Absorb (a : List Nat) (blk : List Byte) : List Nat :=
  keccakF ((List.range 25).map fun i => if i < 9 then Nat.xor (lane a i) (fieldLe blk (8 * i) 8) else lane a i)

/-- Absorb a padded message block by block. -/
def sha3Blocks : Nat → List Nat → List Byte → List Nat
  | 0, a, _ => a
  | n + 1, a, m => sha3Blocks n (sha3Absorb a (m.take 72)) (m.drop 72)

/-- SHA3-512 of a byte string: 64 bytes. -/
def sha3 (m : List Byte) : List Byte :=
  let q := 72 - m.length % 72
  let pad : List Byte := if q = 1 then [0x86] else [0x06] ++ List.replicate (q - 2) 0 ++ [0x80]
  let p := m ++ pad
  let a := sha3Blocks (p.length / 72) (List.replicate 25 0) p
  ((List.range 8).map fun i => natLe 8 (lane a i)).flatten

end Sys2Proof.Machine
end

