-- ==== Sys2Proof/Machine/Convert.lean ====
section
/-! DEFINITION. Machine/Convert.lean: conversions into stored formats, block scales and rounding
(04_conversion_scales_rounding.md, R87 to R104), written on exact integers. -/

namespace Sys2Proof.Machine

/-- R87 fp32_to_asum. -/
def fp32ToAsum (b : W32) : ASum :=
  if fexp b = 255 then asInvalid
  else
    let s := fman b
    if s = 0 then asEmpty else ⟨(fmag b).2, s, false⟩

/-- R87: a BF16 encoding as a conversion source. -/
def bf16ToAsum (b : Nat) : ASum := fp32ToAsum (BitVec.ofNat 32 (b * 65536))

/-- R88: a Lumgan element as a conversion source. -/
def lumToAsum (x : Nat) (m : Int) : ASum :=
  if x = 0xFF then asInvalid
  else if x = 0 || m = 0 then asEmpty
  else ⟨(x : Int) - 127, m, false⟩

/-- The stochastic shift of R102: 16 bits kept below the LSB, the draw added, the floor taken. -/
def srShift (s n u : Int) : Int :=
  if n ≥ 16 then shrFloor (shrFloor s (n - 16).toNat + u) 16
  else shrFloor (s * (2 ^ (16 - n).toNat : Nat) + u) 16

/-- What to_binary gives: the encoding, the exact remainder (R89), and the CVST bits it sets (R92). -/
structure BinOut where
  enc : Nat
  rem : ASum
  cvst : W32
  deriving DecidableEq, Repr

/-- CVST bit OVF (R92). -/
def cvOVF : W32 := 1#32
/-- CVST bit UNF. -/
def cvUNF : W32 := 2#32
/-- CVST bit LOVF. -/
def cvLOVF : W32 := 4#32
/-- CVST bit INVOUT. -/
def cvINVOUT : W32 := 8#32

/-- R89 to_binary, p = 24 for FP32 and 8 for BF16. -/
def toBinary (a : ASum) (p : Nat) (sr : Bool) (u : Nat) : BinOut :=
  if a.inv then ⟨if p = 24 then 0x7FC00000 else 0x7FC0, asInvalid, cvINVOUT⟩
  else if a.s = 0 then ⟨0, asEmpty, 0⟩
  else
    let sg := if a.s < 0 then 2 ^ (p + 7) else 0
    let t : Int := Nat.log2 a.s.natAbs
    let n : Int := max (t - (p - 1)) (-125 - p - a.e)
    let qs : Int :=
      if n ≤ 0 then a.s * (2 ^ (-n).toNat : Nat)
      else if !sr then rne a.s n.toNat
      else srShift a.s n u
    let back := qs * (2 ^ n.toNat : Nat)
    let r : ASum := if 0 < n && !sr && a.s ≠ back then ⟨a.e, a.s - back, false⟩ else asEmpty
    let q := qs.natAbs
    if q = 0 then ⟨sg, r, cvUNF⟩
    else
      let (q, n) := if q = 2 ^ p then (q / 2, n + 1) else (q, n)
      let e2 := a.e + n
      let bexp : Int := if q ≥ 2 ^ (p - 1) then e2 + p + 126 else 0
      if bexp ≥ 255 then ⟨sg + 0xFF * 2 ^ (p - 1), asEmpty, cvOVF⟩
      else ⟨sg + bexp.toNat * 2 ^ (p - 1) + q % 2 ^ (p - 1), r, 0⟩

/-- R90: the head and tail of an aligned sum, with the CVST bits both conversions set. -/
def headTail (a : ASum) : W32 × W32 × W32 :=
  let h := toBinary a 24 false 0
  if a.inv then (qnan, qnan, cvINVOUT)
  else
    let t := toBinary h.rem 24 false 0
    (BitVec.ofNat 32 h.enc, BitVec.ofNat 32 t.enc, h.cvst ||| t.cvst)

/-- R93 at_code. -/
def atCode (v : ASum) (x : Nat) (sr : Bool) (u : Nat) : Int :=
  if v.s = 0 then 0
  else
    let n : Int := (x : Int) - 127 - v.e
    let big : Int := if v.s < 0 then -(2 ^ 62) else 2 ^ 62
    if !sr then
      if n ≥ 0 then rne v.s n.toNat
      else if n < -31 then big
      else v.s * (2 ^ (-n).toNat : Nat)
    else if n < -15 then big
    else srShift v.s n u

/-- lim of R94: 127 for LG8, 7 for LG4 (format code 1). -/
def limOf (fmt : Nat) : Int := if fmt = 1 then 7 else 127

/-- What writing one Lumgan block gives: its code and mantissas, and what the write counts. -/
structure BlockOut where
  code : Nat
  m : List Int
  /-- nonzero source elements flushed to zero -/
  flush : Nat
  /-- saturated elements -/
  satN : Nat
  /-- the block's overflow bit is set -/
  ovf : Bool
  zeroBlk : Bool
  invBlk : Bool
  cvst : W32
  deriving DecidableEq, Repr

/-- All elements fit at a code, rounding half to even (R94). -/
def fitsAt (src : List ASum) (lim : Int) (c : Nat) : Bool :=
  src.all fun v => decide (atCode v c false 0 ≤ lim) && decide (-lim ≤ atCode v c false 0)

/-- R94: the smallest code from 1 to 254 that holds the block. -/
def freshCode (src : List ASum) (lim : Int) : Option Nat :=
  ((List.range 254).map (· + 1)).find? (fitsAt src lim)

/-- A block written invalid (R94, R95). -/
def invalidOut (nv : Nat) (cv : W32) : BlockOut :=
  ⟨0xFF, List.replicate nv 0, 0, 0, false, false, true, cv⟩

/-- Nonzero sources stored as zero. -/
def flushCount (src : List ASum) (m : List Int) : Nat :=
  ((src.zip m).filter fun p => p.1.s ≠ 0 && p.2 == 0).length

/-- R94 fresh_write, with R96 for a carried destination. `u` are the elements' draws. -/
def freshWrite (src : List ASum) (lim : Int) (sr : Bool) (u : List Nat) (carried : Bool) : BlockOut :=
  if src.any (·.inv) then invalidOut src.length cvINVOUT
  else
    match freshCode src lim with
    | none => invalidOut src.length cvLOVF
    | some x =>
      let m := List.zipWith (fun v d => sat (atCode v x sr d) (-lim) lim) src u
      let f := flushCount src m
      if m.all (· == 0) then
        ⟨if carried then 1 else 0, List.replicate src.length 0, f, 0, false, !carried, false, 0⟩
      else ⟨x, m, f, 0, false, false, false, 0⟩

/-- R97 carried_write; a block that holds 0xFF is the caller's case (R98). -/
def carriedWrite (x : Nat) (old : List Int) (src : List ASum) (lim : Int) (acc sr : Bool)
    (u : List Nat) : BlockOut :=
  if src.any (·.inv) then invalidOut src.length cvINVOUT
  else
    let old := if x = 0 || !acc then List.replicate src.length 0 else old
    let x := if x = 0 then 1 else x
    let t := List.zipWith (fun o (p : ASum × Nat) => o + atCode p.1 x sr p.2) old (src.zip u)
    let m := t.map (fun v => sat v (-lim) lim)
    let k := ((t.zip m).filter fun p => p.1 ≠ p.2).length
    ⟨x, m, 0, k, decide (0 < k), false, false, 0⟩

/-- small of R99. -/
def smallOf (fmt : Nat) : Int := if fmt = 1 then 2 else 32

/-- What scale_advance gives for one block (R99, R100). -/
structure AdvOut where
  code : Nat
  m : List Int
  advanced : Bool
  retreated : Bool
  madeInvalid : Bool
  deriving DecidableEq, Repr

/-- R99 scale_advance. -/
def scaleAdvance (x : Nat) (m : List Int) (small : Int) (flag retreat : Bool) : AdvOut :=
  if x = 0xFF then ⟨x, m, false, false, false⟩
  else
    let m := if x = 0 then m.map (fun _ => 0) else m
    let x := if x = 0 then 1 else x
    if flag then
      if x = 0xFE then ⟨0xFF, m.map (fun _ => 0), false, false, true⟩
      else ⟨x + 1, m.map (fun v => rne v 1), true, false, false⟩
    else if retreat && 1 < x && m.any (· ≠ 0) && m.all (fun v => decide (v < small) && decide (-small < v)) then
      ⟨x - 1, m.map (2 * ·), false, true, false⟩
    else ⟨x, m, false, false, false⟩

/-- The bit pattern of a mantissa in its format (R37). -/
def mantBits (fmt : Nat) (m : Int) : Nat := unsgn m (if fmt = 1 then 4 else 8)

/-- The mantissa a bit pattern spells (R37). -/
def mantOf (fmt v : Nat) : Int := sgn v (if fmt = 1 then 4 else 8)

/-- −128 in LG8 or −8 in LG4 (R39), counted in ST_NEG_EXTREME when read as an operand (R57). -/
def negExtreme (fmt : Nat) (m : Int) : Bool := m == (if fmt = 1 then -8 else -128)

/-- Pack two nibbles a byte, even slot in bits 3:0 (R45). -/
def packNibbles : List Nat → List Byte
  | a :: b :: r => BitVec.ofNat 8 (a % 16 + 16 * (b % 16)) :: packNibbles r
  | [a] => [BitVec.ofNat 8 (a % 16)]
  | [] => []

/-- The mantissa bytes of one block (R45). -/
def packMants (fmt : Nat) (m : List Int) : List Byte :=
  if fmt = 1 then packNibbles (m.map (mantBits 1)) else m.map (fun v => BitVec.ofNat 8 (mantBits 0 v))

/-- The mantissas of one block's bytes (R45). -/
def unpackMants (fmt : Nat) (bs : List Byte) : List Int :=
  if fmt = 1 then (bs.map fun b => [mantOf 1 (b.toNat % 16), mantOf 1 (b.toNat / 16)]).flatten
  else bs.map fun b => mantOf 0 b.toNat

/-- FP32 value of a Lumgan element as vld makes it (R88, R89). -/
def lumToF (x : Nat) (m : Int) : BinOut := toBinary (lumToAsum x m) 24 false 0

end Sys2Proof.Machine
end

