-- ==== Sys2Proof/Machine/Tensor.lean ====
section
/-! DEFINITION. Machine/Tensor.lean: block layout and the tensor descriptor (02_lumgan_formats.md, R37 to R61). -/

namespace Sys2Proof.Machine

/-- A tensor descriptor (R52), its fields as numbers; `rsv` is the reserved field. -/
structure TDesc where
  tid : Nat
  fmt : Nat
  bshape : Nat
  smode : Bool
  retreat : Bool
  consN : Bool
  consT : Bool
  flushmap : Bool
  /-- number of logical dimensions minus 1 -/
  rank : Nat
  /-- the logical dimension held as stored dimension 0 to 3 -/
  order : List Nat
  rsv : Nat
  /-- logical extents 0 to 3 -/
  ext : List Nat
  mbase : Nat
  sbase : Nat
  obase : Nat
  fbase : Nat
  stbase : Nat
  deriving DecidableEq, Repr

/-- R52: a descriptor from its 64 bytes. -/
def TDesc.ofBytes (bs : List Byte) : TDesc :=
  let c := fieldLe bs 4 4
  { tid := fieldLe bs 0 4, fmt := bitsOf c 0 4, bshape := bitsOf c 4 3, smode := bitOf c 7, retreat := bitOf c 8,
    consN := bitOf c 9, consT := bitOf c 10, flushmap := bitOf c 11, rank := bitsOf c 12 2,
    order := [bitsOf c 14 2, bitsOf c 16 2, bitsOf c 18 2, bitsOf c 20 2], rsv := bitsOf c 22 10,
    ext := [fieldLe bs 8 4, fieldLe bs 12 4, fieldLe bs 16 4, fieldLe bs 20 4],
    mbase := fieldLe bs 24 8, sbase := fieldLe bs 32 8, obase := fieldLe bs 40 8, fbase := fieldLe bs 48 8,
    stbase := fieldLe bs 56 8 }

/-- LG8 or LG4. -/
def TDesc.lum (d : TDesc) : Bool := d.fmt ≤ 1

/-- The logical extent held as stored dimension `s`. -/
def TDesc.storedExt (d : TDesc) (s : Nat) : Nat := d.ext.getD (d.order.getD s s) 1

/-- The block's extent along a stored dimension (R40). -/
def TDesc.blockExt (d : TDesc) (s : Nat) : Nat :=
  if s = 0 then blockLength d.bshape else if s = 1 && d.bshape == 5 then 8 else 1

/-- The padded stored extent P_s (R42). -/
def TDesc.padExt (d : TDesc) (s : Nat) : Nat := upTo (d.storedExt s) (d.blockExt s)

/-- Slots of the tensor, pads included: one past the last element index. -/
def TDesc.slots (d : TDesc) : Nat := d.padExt 0 * d.padExt 1 * d.padExt 2 * d.padExt 3

/-- Values per block (R40). -/
def TDesc.bv (d : TDesc) : Nat := blockValues d.bshape

/-- Number of blocks. -/
def TDesc.blocks (d : TDesc) : Nat := d.slots / d.bv

/-- Bytes of `n` values in the tensor's format (R45, R50). -/
def TDesc.valueBytes (d : TDesc) (n : Nat) : Nat :=
  match d.fmt with
  | 0 => n
  | 1 => n / 2
  | 2 => 2 * n
  | _ => 4 * n

/-- Mantissa or value bytes (R45, R50). -/
def TDesc.mantBytes (d : TDesc) : Nat := d.valueBytes d.slots

/-- Check-value blocks of a part of `n` bytes (R48). -/
def cvBlocks (n : Nat) : Nat := cdiv n 4096

/-- R50: what a BF16 or FP32 descriptor must hold. -/
def TDesc.plainOk (d : TDesc) : Bool :=
  d.bshape == 0 && !d.smode && !d.retreat && !d.flushmap && d.sbase == 0 && d.obase == 0 && d.fbase == 0

/-- R53: the entries of ORDER. -/
def TDesc.orderOk (d : TDesc) : Bool :=
  (List.range 4).all (fun s => if s ≤ d.rank then d.order.getD s 0 ≤ d.rank else d.order.getD s 0 == s) &&
    (List.range (d.rank + 1)).all (fun v => (d.order.take (d.rank + 1)).contains v)

/-- R53: extents. -/
def TDesc.extOk (d : TDesc) : Bool :=
  (List.range 4).all fun i => if i ≤ d.rank then d.ext.getD i 0 != 0 else d.ext.getD i 0 == 1

/-- The number of the first condition that holds, counting from 1. -/
def firstOf (cs : List Bool) : Option Nat := (cs.findIdx? id).map (· + 1)

/-- R53, R447: the number of the first failing condition of R53 for a descriptor that is an illegal encoding, or 0
where the condition stands in no such list (R427, R604). -/
def TDesc.fault (d : TDesc) : Option Nat :=
  match firstOf [
    d.rsv != 0 || 4 ≤ d.fmt || 6 ≤ d.bshape,
    bitOf d.tid 31,
    d.lum && (d.bshape == 0 || d.sbase == 0),
    !d.lum && !d.plainOk,
    d.bshape == 5 && d.rank == 0,
    (d.consT && d.bshape != 5) || (d.lum && 2 ^ 31 ≤ cvBlocks d.mantBytes),
    d.smode && d.obase == 0,
    !d.smode && d.retreat,
    d.flushmap && d.smode,
    !d.consN && !d.consT,
    !d.extOk,
    !d.orderOk,
    d.mbase % 4096 != 0 || d.sbase % 4096 != 0 || d.obase % 64 != 0 || d.fbase % 4096 != 0 || d.stbase % 64 != 0,
    !d.smode && d.obase != 0,
    d.flushmap != (d.fbase != 0)] with
  | some n => some n
  | none => if 0x7FFFFFF0 ≤ d.tid && d.tid ≤ 0x7FFFFFFF then some 0 else none

/-- R53: a descriptor that is no illegal encoding. -/
def TDesc.legal (d : TDesc) : Bool := d.fault.isNone

/-- The descriptor of no tensor. -/
def TDesc.absent : TDesc := TDesc.ofBytes []

/-- R44 locate: block index and position within the block, from stored coordinates. -/
def TDesc.locate (d : TDesc) (i0 i1 i2 i3 : Nat) : Nat × Nat :=
  if d.bshape = 5 then
    let n0 := d.padExt 0 / 8
    let n1 := d.padExt 1 / 8
    (i0 / 8 + n0 * (i1 / 8 + n1 * (i2 + d.padExt 2 * i3)), i1 % 8 * 8 + i0 % 8)
  else
    let l := blockLength d.bshape
    let n0 := d.padExt 0 / l
    (i0 / l + n0 * (i1 + d.padExt 1 * (i2 + d.padExt 2 * i3)), i0 % l)

/-- R45, R47: the slot index of an element, its element index. -/
def TDesc.slotOf (d : TDesc) (i0 i1 i2 i3 : Nat) : Nat :=
  let (b, r) := d.locate i0 i1 i2 i3
  b * d.bv + r

/-- The stored coordinates of a slot: the inverse of `slotOf`. -/
def TDesc.coordsOf (d : TDesc) (slot : Nat) : Nat × Nat × Nat × Nat :=
  let b := slot / d.bv
  let r := slot % d.bv
  if d.bshape = 5 then
    let n0 := d.padExt 0 / 8
    let n1 := d.padExt 1 / 8
    let q := b / n0 / n1
    (b % n0 * 8 + r % 8, b / n0 % n1 * 8 + r / 8, q % d.padExt 2, q / d.padExt 2)
  else
    let l := blockLength d.bshape
    let n0 := d.padExt 0 / l
    let q := b / n0 / d.padExt 1
    (b % n0 * l + r, b / n0 % d.padExt 1, q % d.padExt 2, q / d.padExt 2)

/-- A slot that is a pad (R42, R43). -/
def TDesc.isPad (d : TDesc) (slot : Nat) : Bool :=
  let (i0, i1, i2, i3) := d.coordsOf slot
  !(i0 < d.storedExt 0 && i1 < d.storedExt 1 && i2 < d.storedExt 2 && i3 < d.storedExt 3)

/-- The scale code of block `b` as stored (R46). -/
def TDesc.rdCode (d : TDesc) (m : Mem) (b : Nat) : Nat := (rd8 m (d.sbase + b)).toNat

/-- The mantissas of block `b` as read: pads zero (R43). -/
def TDesc.rdMants (d : TDesc) (m : Mem) (b : Nat) : List Int :=
  let raw := unpackMants d.fmt (rdBytes m (d.mbase + d.valueBytes (b * d.bv)) (d.valueBytes d.bv))
  (raw.zipIdx (b * d.bv)).map fun p => if d.isPad p.2 then 0 else p.1

/-- The value encoding of an element of a BF16 or FP32 tensor. -/
def TDesc.rdEnc (d : TDesc) (m : Mem) (i : Nat) : Nat := rdLe m (d.mbase + d.valueBytes i) (d.valueBytes 1)

/-- The overflow bit of block `b` (R46). -/
def TDesc.rdOvf (d : TDesc) (m : Mem) (b : Nat) : Bool := bitOf (rd8 m (d.obase + b / 8)).toNat (b % 8)

/-- Zero bytes from the end of a part to the end of its last check-value block, written when the
write covers the part's last byte (R48). -/
def zeroFill (m : Mem) (base partLen lo hi : Nat) : Mem :=
  if lo < partLen && partLen ≤ hi then wrBytes m (base + partLen) (List.replicate (upTo partLen 4096 - partLen) 0) else m

/-- Add to a field of the tensor status record (R57, R58); each count wraps at its width. -/
def bumpLe (m : Mem) (a n k : Nat) : Mem := if k = 0 then m else wrLe m a n ((rdLe m a n + k) % 2 ^ (8 * n))

/-- An atomic update of a status record or an overflow bitmap (R58): `k` added to `n` bytes, or one bit set or cleared. -/
inductive MetaOp where
  | add (a n k : Nat)
  | bit (a i : Nat) (v : Bool)
  deriving DecidableEq, Repr

/-- First byte that an update changes. -/
def MetaOp.addr : MetaOp → Nat
  | .add a _ _ => a
  | .bit a _ _ => a

/-- Bytes that an update changes. -/
def MetaOp.len : MetaOp → Nat
  | .add _ n _ => n
  | .bit _ _ _ => 1

/-- The update's effect on memory (R58). -/
def MetaOp.apply (m : Mem) : MetaOp → Mem
  | .add a n k => bumpLe m a n k
  | .bit a i v =>
    let old := (rd8 m a).toNat
    wr8 m a (BitVec.ofNat 8 (if v then Nat.lor old (2 ^ i) else if bitOf old i then old - 2 ^ i else old))

/-- Additions to the tensor's status record, at byte offset, width and count; those of zero are none. -/
def TDesc.adds (d : TDesc) (l : List (Nat × Nat × Nat)) : List MetaOp :=
  (l.filter fun p => p.2.2 ≠ 0).map fun p => .add (d.stbase + p.1) p.2.1 p.2.2

/-- Setting or clearing the overflow bit of block `b` (R46, R58, R100). -/
def TDesc.ovfOp (d : TDesc) (b : Nat) (v : Bool) : MetaOp := .bit (d.obase + b / 8) (b % 8) v

/-- The updates that a write of block `b` makes: its overflow bit (R98) and its counts (R57, R95). -/
def TDesc.blockOps (d : TDesc) (b : Nat) (o : BlockOut) : List MetaOp :=
  (if o.ovf then [d.ovfOp b true] else []) ++ d.adds [(0, 8, o.flush), (8, 8, o.satN), (16, 4, b2n o.zeroBlk), (20, 4, b2n o.invBlk)]

/-- The count of −128 or −8 mantissas read as operands (R57). -/
def TDesc.negOps (d : TDesc) (n : Nat) : List MetaOp := d.adds [(32, 4, n)]

/-- −128 or −8 mantissas among a block's, where the code makes them count (R39). -/
def TDesc.negCount (d : TDesc) (code : Nat) (ms : List Int) : Nat :=
  if 1 ≤ code && code ≤ 0xFE then (ms.filter (negExtreme d.fmt)).length else 0

/-- Store the mantissas and the code of block `b` as one unit, with the zero fill of R48. -/
def TDesc.putBlock (d : TDesc) (m : Mem) (b code : Nat) (ms : List Int) : Mem :=
  let lo := d.valueBytes (b * d.bv)
  let hi := d.valueBytes ((b + 1) * d.bv)
  let m := wrBytes m (d.mbase + lo) (packMants d.fmt ms)
  let m := zeroFill m d.mbase d.mantBytes lo hi
  let m := wr8 m (d.sbase + b) (BitVec.ofNat 8 code)
  zeroFill m d.sbase d.blocks b (b + 1)

/-- Write a block's outcome: the unit, and its flush-count byte where FLUSHMAP = 1 (R56, R95). -/
def TDesc.writeBlock (d : TDesc) (m : Mem) (b : Nat) (o : BlockOut) (fresh : Bool) : Mem :=
  let m := d.putBlock m b o.code o.m
  if d.flushmap && fresh then zeroFill (wr8 m (d.fbase + b) (BitVec.ofNat 8 (min o.flush 255))) d.fbase d.blocks b (b + 1) else m

/-- Store an element encoding of a BF16 or FP32 tensor, with the zero fill of R48. -/
def TDesc.putEnc (d : TDesc) (m : Mem) (i enc : Nat) : Mem :=
  let m := wrLe m (d.mbase + d.valueBytes i) (d.valueBytes 1) enc
  zeroFill m d.mbase d.mantBytes (d.valueBytes i) (d.valueBytes (i + 1))

/-- An element as a conversion source (R87, R88): pads and slots beyond the last enter as EMPTY. -/
def TDesc.elemAsum (d : TDesc) (m : Mem) (i : Nat) : ASum :=
  if d.slots ≤ i then asEmpty
  else if d.lum then
    if d.isPad i then asEmpty
    else
      let b := i / d.bv
      lumToAsum (d.rdCode m b) ((d.rdMants m b).getD (i % d.bv) 0)
  else if d.fmt = 2 then bf16ToAsum (d.rdEnc m i)
  else fp32ToAsum (BitVec.ofNat 32 (d.rdEnc m i))

/-- The draws of `n` elements from index `i`, all 0 without the gradient mark (R104). -/
def drawsFrom (sr : Bool) (seed : W64) (tid step : W32) (i n : Nat) : List Nat :=
  (List.range n).map fun k => if sr then draw seed tid step (i + k) else 0

/-- The 4 KiB check-value block of a part, with its zero fill as stored. -/
def cvBytes (m : Mem) (base j : Nat) : List Byte := rdBytes m (base + 4096 * j) 4096

end Sys2Proof.Machine
end

