-- ==== Sys2Proof/Machine/Update.lean ====
section
/-! DEFINITION. Machine/Update.lean: the parameter-group entry and the update rules
(08_vector_engine_update.md, R203 to R218), on binary32 encodings. -/

namespace Sys2Proof.Machine

/-- A parameter-group entry (R204). -/
structure PGroup where
  rule : Nat
  wfmt : Nat
  mfmt : Nat
  vfmt : Nat
  srw : Bool
  srs : Bool
  flags : Nat
  lr : W32
  b1 : W32
  b2 : W32
  eps : W32
  wd : W32
  clip : W32
  b1p : W32
  b2p : W32
  pblk : Nat
  pt : Nat
  peps : W32
  pivtol : W32
  rsv : Nat
  deriving DecidableEq, Repr

/-- A binary32 field of a byte string. -/
def field32 (bs : List Byte) (off : Nat) : W32 := BitVec.ofNat 32 (fieldLe bs off 4)

/-- R204: an entry from its 64 bytes. -/
def PGroup.ofBytes (bs : List Byte) : PGroup :=
  let f := fieldLe bs 1 1
  { rule := fieldLe bs 0 1, wfmt := bitsOf f 0 2, mfmt := bitsOf f 2 2, vfmt := bitsOf f 4 2, srw := bitOf f 6, srs := bitOf f 7,
    flags := fieldLe bs 2 2, lr := field32 bs 4, b1 := field32 bs 8, b2 := field32 bs 12, eps := field32 bs 16,
    wd := field32 bs 20, clip := field32 bs 24, b1p := field32 bs 28, b2p := field32 bs 32, pblk := fieldLe bs 36 2,
    pt := fieldLe bs 38 2, peps := field32 bs 40, pivtol := field32 bs 44, rsv := fieldLe bs 48 16 }

/-- PG_FLAGS SINGLE (R210). -/
def PGroup.single (g : PGroup) : Bool := bitOf g.flags 0

/-- R204: an entry that is no illegal encoding. -/
def PGroup.legal (g : PGroup) : Bool :=
  g.rule ≤ 4 && g.wfmt < 3 && g.mfmt < 3 && g.vfmt < 3 && g.flags < 2 && g.rsv == 0 &&
  !(isNan g.clip || fltF g.clip 0) &&
  (if g.rule = 4 then g.pblk % 8 == 0 && 8 ≤ g.pblk && g.pblk ≤ 256 && 1 ≤ g.pt else g.pblk == 0 && g.pt == 0)

/-- R211: grad_in. -/
def gradIn (g : PGroup) (gamma raw : W32) : W32 :=
  let x := vmulF raw gamma
  if fltF 0 g.clip then vmaxF (vnegF g.clip) (vminF g.clip x) else x

/-- R211 df. -/
def PGroup.df (g : PGroup) : W32 := vsubF fone (vmulF g.lr g.wd)
/-- R211 nlr. -/
def PGroup.nlr (g : PGroup) : W32 := vnegF g.lr
/-- R211 omb1. -/
def PGroup.omb1 (g : PGroup) : W32 := vsubF fone g.b1
/-- R211 omb2. -/
def PGroup.omb2 (g : PGroup) : W32 := vsubF fone g.b2
/-- R211 c1. -/
def PGroup.c1 (g : PGroup) : W32 := vsubF fone g.b1p
/-- R211 c2. -/
def PGroup.c2 (g : PGroup) : W32 := vsubF fone g.b2p

/-- R212 upd_sgdm: (w1, m1). -/
def updSgdm (p : PGroup) (w g m : W32) : W32 × W32 :=
  let m1 := vfmaF p.b1 m g
  (vfmaF p.nlr m1 (vmulF w p.df), m1)

/-- R212 upd_adamw: (w1, m1, v1). -/
def updAdamw (p : PGroup) (w g m v : W32) : W32 × W32 × W32 :=
  let m1 := vfmaF p.b1 m (vmulF p.omb1 g)
  let v1 := vfmaF p.b2 v (vmulF p.omb2 (vmulF g g))
  let u := vdivF (vdivF m1 p.c1) (vaddF (vsqrtF (vdivF v1 p.c2)) p.eps)
  (vfmaF p.nlr u (vmulF w p.df), m1, v1)

/-- R212 upd_sign: (w1, m1). -/
def updSign (p : PGroup) (w g m : W32) : W32 × W32 :=
  let c := vfmaF p.b1 m (vmulF p.omb1 g)
  let u := if isNan c then qnan else if fltF 0 c then fone else if fltF c 0 then vnegF fone else 0
  let m1 := vfmaF p.b2 m (vmulF p.omb2 g)
  (vfmaF p.nlr u (vmulF w p.df), m1)

/-- An entry of a matrix held by rows. -/
def at2 (m : List (List W32)) (i j : Nat) : W32 := (m.getD i []).getD j 0

/-- Fold vfma in ascending index over two lists. -/
def fmaFold (init : W32) (a b : List W32) : W32 := (a.zip b).foldl (fun acc p => vfmaF p.1 p.2 acc) init

/-- One row of the factor of R217, below the diagonal: L[i][j] from the earlier rows. -/
def cholRow (arow : List W32) : List (List W32) → List W32 → List W32
  | [], acc => acc
  | lj :: rest, acc =>
    let j := acc.length
    let t := fmaFold (arow.getD j 0) (acc.map vnegF) (lj.take j)
    cholRow arow rest (acc ++ [vmulF t (vrcpF (lj.getD j 0))])

/-- R217 chol, row by row: the factor's rows, or none where a pivot fails. -/
def cholRows (tol : W32) : List (List W32) → List (List W32) → Option (List (List W32))
  | [], done => some done
  | arow :: rest, done =>
    let j := done.length
    let row := cholRow arow done []
    let s := fmaFold (arow.getD j 0) (row.map vnegF) row
    if fltF (vmulF tol (arow.getD j 0)) s then cholRows tol rest (done ++ [row ++ [vsqrtF s]]) else none

/-- Column `j` of Y of R217, entries j to b − 1 in order. -/
def invCol (l : List (List W32)) (j : Nat) : Nat → Nat → List W32 → List W32
  | 0, _, acc => acc
  | n + 1, i, acc =>
    let t := fmaFold 0 ((l.getD i []).drop j |>.take (i - j)) acc
    invCol l j n (i + 1) (acc ++ [vmulF (vnegF t) (vrcpF (at2 l i i))])

/-- R217 inverse_of. -/
def inverseOf (l : List (List W32)) : List (List W32) :=
  let b := l.length
  let cols := (List.range b).map fun j => invCol l j (b - 1 - j) (j + 1) [vrcpF (at2 l j j)]
  -- cols[j] holds Y[j..][j]
  (List.range b).map fun i => (List.range b).map fun j =>
    let k := max i j
    fmaFold 0 ((cols.getD i []).drop (k - i)) ((cols.getD j []).drop (k - j))

/-- The outcome of a refresh: the inverse, and what it counts (R217, R218). -/
structure Refresh where
  h : List (List W32)
  damped : Bool
  fallback : Bool
  deriving DecidableEq, Repr

/-- The identity of R217. -/
def identityM (b : Nat) : List (List W32) :=
  (List.range b).map fun i => (List.range b).map fun j => if i = j then fone else 0

/-- C with a damping value added to its diagonal. -/
def dampM (c : List (List W32)) (d : W32) : List (List W32) :=
  c.zipIdx.map fun p => p.1.zipIdx.map fun q => if q.2 = p.2 then vaddF q.1 d else q.1

/-- The damping trials of R217 in turn. -/
def refreshTrials (c : List (List W32)) (tol : W32) : List W32 → Bool → Option Refresh
  | [], _ => none
  | d :: ds, first =>
    match cholRows tol (dampM c d) [] with
    | some l => some ⟨inverseOf l, !first, false⟩
    | none => refreshTrials c tol ds false

/-- R217 refresh_block. -/
def refreshBlock (p : PGroup) (c : List (List W32)) : Refresh :=
  (refreshTrials c p.pivtol [0, p.peps, vmulF p.peps 0x41200000#32, vmulF p.peps 0x42C80000#32] true).getD
    ⟨identityM c.length, false, true⟩

/-- What upd_precond gives for one block (R216). -/
structure PrecondOut where
  w1 : List W32
  m1 : List W32
  c1 : List (List W32)
  h1 : Refresh
  deriving DecidableEq, Repr

/-- R216 upd_precond. -/
def updPrecond (p : PGroup) (w g m : List W32) (c h : List (List W32)) (refresh : Bool) : PrecondOut :=
  let m1 := List.zipWith (fun mi gi => vfmaF p.b1 mi (vmulF p.omb1 gi)) m g
  let b := g.length
  let c1 := (List.range b).map fun i => (List.range b).map fun j =>
    -- the lower triangle is computed and copied across
    let (r, s) := if j ≤ i then (i, j) else (j, i)
    vfmaF p.b2 (at2 c r s) (vmulF p.omb2 (vmulF (g.getD r 0) (g.getD s 0)))
  let h1 := if refresh then refreshBlock p c1 else ⟨h, false, false⟩
  let w1 := (h1.h.zip w).map fun q => vfmaF p.nlr (fmaFold 0 q.1 m1) (vmulF q.2 p.df)
  ⟨w1, m1, c1, h1⟩

/-- R219: enabled ticks to process a range, counting one trial per refreshed block unless more were made. -/
def updTicks (rule count b trials : Nat) : Nat :=
  match rule with
  | 0 => cdiv count 512
  | 1 => cdiv count 128
  | 3 => cdiv count 64
  | 2 => cdiv count 32
  | _ => count / b * (cdiv (3 * b * b) 1024 + 4) + trials * (cdiv (b * b * b) 768 + 8 * b)

/-- An update record (R206). -/
structure URecord where
  group : Nat
  rsv0 : Nat
  count : Nat
  gamma : W32
  pstart : Nat
  ebase : Nat
  dw : Nat
  dg : Nat
  dm : Nat
  dv : Nat
  dp : Nat
  rsv1 : Nat
  deriving DecidableEq, Repr

/-- R206: a record from its 64 bytes. -/
def URecord.ofBytes (bs : List Byte) : URecord :=
  { group := fieldLe bs 0 2, rsv0 := fieldLe bs 2 2, count := fieldLe bs 4 4, gamma := field32 bs 8, pstart := fieldLe bs 12 4,
    ebase := fieldLe bs 16 8, dw := fieldLe bs 24 4, dg := fieldLe bs 28 4, dm := fieldLe bs 32 4, dv := fieldLe bs 36 4,
    dp := fieldLe bs 40 4, rsv1 := fieldLe bs 44 20 }

end Sys2Proof.Machine
end

