-- ==== Sys2Proof/Machine/CtxState.lean ====
section
/-! DEFINITION. Machine/CtxState.lean: the state of a registered context (15_contexts_scheduling.md). -/

namespace Sys2Proof.Machine

/-- A registration record (R444). -/
structure RegRec where
  job : Nat
  flags : Nat
  seed : W64
  tiles : BitVec 64
  trace : BitVec 64
  tc : Nat
  wdog : Nat
  period : Nat
  rdline : Nat
  wwcet : Nat
  maxlive : Nat
  segmax : Nat
  rejoin : Nat
  digestn : Nat
  tddepth : Nat
  ncoll : Nat
  rsv0 : Nat
  chunk : Nat
  regions : Nat
  pgt : Nat
  gstat : Nat
  groups : Nat
  coll : Nat
  click : Nat
  save : Nat
  rollback : Nat
  journal : Nat
  jin : Nat
  tdig : Nat
  tring : Nat
  trsize : Nat
  drift : Nat
  drsize : Nat
  start : Nat
  rollout : Nat
  rsv1 : Nat
  deriving DecidableEq, Repr

/-- R444: a record from its 256 bytes. -/
def RegRec.ofBytes (b : List Byte) : RegRec :=
  { job := fieldLe b 0 4, flags := fieldLe b 4 4, seed := BitVec.ofNat 64 (fieldLe b 8 8),
    tiles := BitVec.ofNat 64 (fieldLe b 16 8), trace := BitVec.ofNat 64 (fieldLe b 24 8), tc := fieldLe b 32 4,
    wdog := fieldLe b 36 4, period := fieldLe b 40 8, rdline := fieldLe b 48 8, wwcet := fieldLe b 56 8,
    maxlive := fieldLe b 64 4, segmax := fieldLe b 68 4, rejoin := fieldLe b 72 4, digestn := fieldLe b 76 2,
    tddepth := fieldLe b 78 2, ncoll := fieldLe b 80 2, rsv0 := fieldLe b 82 2, chunk := fieldLe b 84 4,
    regions := fieldLe b 88 8, pgt := fieldLe b 96 8, gstat := fieldLe b 104 8, groups := fieldLe b 112 8,
    coll := fieldLe b 120 8, click := fieldLe b 128 8, save := fieldLe b 136 8, rollback := fieldLe b 144 8,
    journal := fieldLe b 152 8, jin := fieldLe b 160 8, tdig := fieldLe b 168 8, tring := fieldLe b 176 8,
    trsize := fieldLe b 184 8, drift := fieldLe b 192 8, drsize := fieldLe b 200 8, start := fieldLe b 208 8,
    rollout := fieldLe b 216 8, rsv1 := fieldLe b 224 32 }

/-- The empty record. -/
def RegRec.empty : RegRec := RegRec.ofBytes []

/-- Context states (R448), numbered as SCH_Cn_STATE.STATE (R590). -/
inductive CtxSt where
  | idle
  | ready
  | switching
  | running
  | waiting
  | stopped
  deriving DecidableEq, Repr

/-- R590: the encoding of a state. -/
def CtxSt.code : CtxSt → Nat
  | .idle => 0
  | .ready => 1
  | .switching => 2
  | .running => 3
  | .waiting => 4
  | .stopped => 5

/-- A released window that has not ended (R451). -/
structure Window where
  k : Nat
  /-- release time -/
  rel : Nat
  /-- its DEADLINE_MISS has been raised (R462) -/
  missed : Bool
  deriving DecidableEq, Repr

/-- A region table entry (R227): base, length, permission bits. -/
structure Region where
  base : Nat
  len : Nat
  flags : Nat
  deriving DecidableEq, Repr

/-- A CTX_SIGNAL waiting for its context to be resident (R486): logical tile, object, value. -/
structure Signal where
  tile : Nat
  obj : Nat
  value : Nat
  deriving DecidableEq, Repr

/-- A journal record held until its step's decision (R378, R380): kind, key, body from byte 32. -/
structure JRec where
  kind : Nat
  key : Nat
  body : List Byte
  deriving DecidableEq, Repr

/-- A contribution of a rank to a piece (R349): of which step it is, granules written and their bytes as they came, those that carry a
mark, and the fabric time at which it became present. -/
structure Contrib where
  cid : Nat
  inst : Nat
  step : W32
  piece : Nat
  rank : Nat
  got : Nat
  data : List Byte
  bad : List Nat
  at_ : Option Nat
  /-- check value of each granule under the source's key, and whether it is valid (R346, R399, R402) -/
  cvs : List (W32 × Bool)
  /-- the step in which its slot was written (R399) -/
  wstep : W32
  /-- the bank of the staging area that shows it: 0 the current slots, 1 and 2 the carry slots of even and odd parity; none where another
  contribution has that slot (R349, log 42) -/
  home : Option Nat
  /-- device time of the last NACK GAP (R321) -/
  gapAt : Option W64
  deriving DecidableEq, Repr

/-- A control message of a collective (R347): its packets so far, segment header and body each, and how many it has. -/
structure CMsg where
  kind : Nat
  cid : Nat
  inst : Nat
  rank : Nat
  pcnt : Nat
  pkts : List (List Byte)
  /-- device time of the last NACK GAP (R321) -/
  gapAt : Option W64
  deriving DecidableEq, Repr

/-- A collective instance in progress (R343): its copy of the descriptor and of the tensor descriptors. -/
structure CInst where
  cid : Nat
  inst : Nat
  raw : List Byte
  src : TDesc
  dst : TDesc
  /-- device time of its start -/
  began : Nat
  /-- contributions sent or placed so far; the operation's first effect has taken place -/
  sent : Nat
  opened : Bool
  /-- own final bitmaps, presence and carry; whether they have gone up; the agreed ones (R354) -/
  final : Option (Nat × Nat)
  upSent : Bool
  agreed : Option (Nat × Nat)
  /-- the pieces reduced here are written and their results sent (R350 to R352): how many have been sent -/
  written : Bool
  resSent : Nat
  /-- the enabled tick in which the conversion unit has written the pieces reduced here, once they have entered it (R337, R351) -/
  conv : Option Nat
  /-- granules of each piece's result that have arrived, and device time of the last NACK GAP, by piece (R321, R352) -/
  resGot : SMap Nat
  resGap : SMap W64
  /-- the greatest lateness (R357) -/
  late : Nat
  deriving DecidableEq, Repr

/-- A device's escapement from its arrival to its release (R358 to R361): descriptor, fabric time of arrival, whether ARRIVE
or SCHEDULE has gone on, T, and whether ESC_TIMEOUT was reported. -/
structure Esc where
  cid : Nat
  at_ : Nat
  sent : Bool
  t : Option Nat
  late : Bool
  reported : Bool
  deriving DecidableEq, Repr

/-- What a device holds for the commit of the step in progress (R362 to R370, R411, R419). -/
structure Com where
  /-- fabric time at which the COMMIT instance triggered, or READY went up without it, and its descriptor -/
  trig : Option (Nat × Nat)
  /-- READY has gone up (at the root: has been counted) -/
  ready : Bool
  /-- the shard digest, and those of other members by rank (R367, R368) -/
  digest : Option (List Byte)
  digests : SMap (List Byte)
  exchanged : Bool
  /-- own expel bitmap, by replica index, and SPLIT (R368) -/
  expel : Nat
  split : Bool
  /-- READY is to be sent with ABORT: poison, a watch failure, a fence or an unreachable peer (R411, R417, R419, R425) -/
  abort : Bool
  forPoison : Bool
  /-- READY goes up with ABORT without the trigger or the children (R419, R425) -/
  urgent : Bool
  /-- the tensors that the shard digest covers, as the DIGEST instance read their descriptors (log 45) -/
  descs : List TDesc
  /-- JOURNAL_FULL has been raised (R382) -/
  full : Bool
  /-- this device has taken the root's place (R366) -/
  root : Bool
  deriving DecidableEq, Repr

/-- Nothing of the step's commit has begun. -/
def Com.init : Com := ⟨none, false, none, [], false, 0, false, false, false, false, [], false, false⟩

/-- The restore of tensors from a replica after an abort (R412, R413): the tensors asked for, the rank asked, ranks that have
failed, and whether the answer has come. -/
structure Restore where
  tids : List Nat
  rank : Nat
  failed : List Nat
  deriving DecidableEq, Repr

/-- A rollout decision waiting for the release of its step, with RQ_TAIL as the root read it (R466, R467). -/
structure Rollout where
  tail : Nat
  leaves : List Nat
  joins : List Nat
  defers : List Nat
  deriving DecidableEq, Repr

/-- What the device keeps of a saved tile: the version its granules are keyed with, and its live ranges as SRAM offset and
length (R457). -/
structure SavedTile where
  ver : W32
  live : List (Nat × Nat)
  deriving DecidableEq, Repr

/-- A registered context (R444 to R462). -/
structure Ctx where
  rr : RegRec
  /-- the region table, loaded at registration (R227) -/
  regs : List Region
  st : CtxSt
  /-- status code (R484) -/
  status : Nat
  /-- step number (R105) -/
  step : W32
  /-- released windows that have not ended, oldest first (R451) -/
  wins : List Window
  /-- index of the next window to be released -/
  nextK : Nat
  /-- its release time, where known -/
  nextRel : Option Nat
  /-- enabled ticks that the current window has used (R452) -/
  used : Nat
  miss : W32
  ovr : W32
  switches : W32
  /-- core-poison flag (R407) -/
  corePoison : Bool
  /-- a granule written to HBM in this step carried a mark (R411) -/
  wrotePoison : Bool
  signals : List Signal
  /-- a preemption is pending, with its k (R265) -/
  preempt : Option Nat
  /-- a stop status to take effect when every tile has stopped (R485) -/
  stopReq : Option Nat
  /-- saves counted in the switch save area and in the rollback area (R457) -/
  saves : W32
  rbSaves : W32
  /-- records appended to the trace ring and the drift ring (R125, R387) -/
  traceAt : Nat
  driftAt : Nat
  /-- a vupd of a SINGLE group has issued in this step (R210) -/
  single : Bool
  /-- records of the step (R380) -/
  recs : List JRec
  /-- the context has been resident (R444, R456) -/
  begun : Bool
  /-- release of the step's escapement: T_step (R353, R360); a step is open from it to its decision -/
  tStep : Nat
  stepOpen : Bool
  /-- the rollback area holds a snapshot of this step (R364, R422) -/
  snap : Bool
  /-- instances started in this step by descriptor (R343), and those in progress -/
  insts : SMap Nat
  running : List CInst
  slots : List Contrib
  inbox : List CMsg
  /-- packets discarded for their group hash since the descriptor's last status record (R340, R357) -/
  ghash : SMap Nat
  /-- ranks whose contribution was deferred out of an instance: descriptor, instance, step and bitmap (R355) -/
  deferred : List (Nat × Nat × W32 × Nat)
  esc : Option Esc
  /-- ARRIVE heard, as descriptor and rank (R358), and ARRIVE discarded (R359) -/
  heard : List (Nat × Nat)
  escDrops : Nat
  com : Com
  /-- aborts in a row for SPLIT, for poison, and for JOURNAL_FULL (R370, R382, R412) -/
  splits : Nat
  poisons : Nat
  fulls : Nat
  /-- the decisions of the last two steps, newest first (R366) -/
  decided : List (W32 × Bool)
  /-- ranks known to have failed, with device time (R366, R425), and destinations unreachable in the previous attempt -/
  failed : SMap Nat
  unreach : List Nat
  restore : Option Restore
  /-- the descriptors that the last committed step's digest covered: its tensors are now current (R412, log 45) -/
  cur : List TDesc
  /-- REJOIN_REQ is to be sent after a full-device reset (R366, R439) -/
  rejoin : Bool
  rollout : Option Rollout
  /-- the tiles saved in the switch save area and in the rollback area, by logical tile (R456, R364) -/
  saved : SMap SavedTile
  rb : SMap SavedTile
  /-- the context comes back from its rollback area, after a full-device reset (R439) -/
  fromRb : Bool
  /-- what the rollout areas held before the decision, as address and bytes (R468) -/
  roSnap : List (Nat × List Byte)
  /-- kind of the first record in which a replay diverged (R392) -/
  diverged : Nat
  /-- replay: the offset of the next run in the input area, and the supplied run's records (R390) -/
  jinAt : Nat
  supplied : List JRec
  deriving DecidableEq, Repr

end Sys2Proof.Machine
end

