-- ==== Sys2Proof/Machine/HbmState.lean ====
section
/-! DEFINITION. Machine/HbmState.lean: the state of HBM, its check-value table, its controllers and the placement. -/

namespace Sys2Proof.Machine

/-- An entry of the check-value table (R401), or the tag of a granule of tile SRAM (R400): there `cv` is what the tag's bare check value
differs by, bit for bit, from bare_cv of the granule's bytes (log 12). -/
structure Gran where
  cv : W32
  cvv : Bool
  poison : Bool
  deriving DecidableEq, Repr

/-- The entry of a granule nothing has written (log 4). -/
def Gran.init : Gran := ⟨0, false, false⟩

/-- A granule's read or write waiting at a controller, for a stream context of a logical tile (R245). -/
structure HReq where
  tile : Nat
  ctx : Nat
  /-- which of the context's granules it serves: the walk granule, or the frame granule of a barrel transfer -/
  j : Nat
  /-- granule address -/
  addr : Nat
  write : Bool
  /-- 512 B requests of the granule already granted -/
  part : Nat
  /-- data of a write -/
  data : List Byte
  cv : Option W32
  poison : Bool
  deriving DecidableEq, Repr

/-- A prefetch window entry (R242). -/
structure PfEntry where
  tile : Nat
  ctx : Nat
  j : Nat
  addr : Nat
  stale : Bool
  deriving DecidableEq, Repr

/-- An HBM controller and its stack (R229 to R231, R441, R592). -/
structure Hctl where
  sref : Bool
  exhausted : Bool
  laneRemap : Bool
  uncorr : W32
  repairs : W32
  /-- retirement table: granule and pool slot (R441) -/
  retired : SMap Nat
  /-- requests waiting, oldest first -/
  queue : List HReq
  /-- fusee credits: quadrant q at q, physical tile p at 4 + p, stream context at 100 + 32 p + context (R245) -/
  credit : SMap Int
  /-- prefetch window table (R242) -/
  win : List PfEntry
  /-- corrected errors by row, as device times of the last 24 hours (R441) -/
  corr : SMap (List Nat)
  /-- rows that take a hard repair at the next full-device reset (R441) -/
  pendHard : List Nat
  /-- an interface lane fails and is remapped at the next full-device reset (R441) -/
  laneFail : Bool
  deriving DecidableEq, Repr

/-- A controller after reset. -/
def Hctl.init : Hctl := ⟨false, false, false, 0, 0, [], [], [], [], [], [], false⟩

/-- HBM. -/
structure Hbm where
  mem : Mem
  tab : SMap Gran
  ctl : SMap Hctl
  /-- HBM_CEC_pc (R592) -/
  cec : SMap W32
  deriving DecidableEq, Repr

/-- A move that is draining (R247, R248): logical tile, old and new physical tile, and the markers that have
reached the new one as stop × 3 + class. -/
structure Drain where
  ltile : Nat
  old : Nat
  new : Nat
  got : List Nat
  /-- the epoch that the move began (R246) -/
  epoch : W32
  deriving DecidableEq, Repr

/-- The placement (R12, R13, R246 to R248). -/
structure Placement where
  /-- physical tile bound to each logical tile -/
  bind : SMap Nat
  /-- fenced physical tiles, those fused at test included (R10, R421) -/
  fenced : BitVec 68
  epoch : W32
  /-- the spare that each quadrant has, by quadrant (R11) -/
  spare : SMap Nat
  drains : List Drain
  /-- R14: compute is refused until service -/
  lost : Bool
  deriving DecidableEq, Repr

/-- The drain counter of a move: 216 less the markers received (R248). -/
def Drain.count (d : Drain) : Nat := 216 - d.got.length

/-- The new tile holds a packet that a stop sent in a class under an epoch: its marker has not come (R248). -/
def Drain.holds (d : Drain) (stop cls : Nat) (epoch : W32) : Bool := decide (d.epoch ≤ epoch) && !d.got.contains (stop * 3 + cls)

/-- The mesh stop of a physical tile: 18 for each quadrant, its hub the last of them (R18). -/
def tileStop (k : Nat) : Nat := 18 * (k / 17) + k % 17
/-- The stop of a Turain port (R19). -/
def portStop (p : Nat) : Nat := 18 * (p / 6) + 6 * (p % 6 / 2)
/-- The stop of an HBM controller (R19). -/
def hbmStop (c : Nat) : Nat := 18 * (c / 3) + 2 * (c % 3) + 1
/-- The hub of a quadrant, where its control cluster stands (R19). -/
def hubStop (q : Nat) : Nat := 18 * q + 17

/-- The physical tile bound to a logical tile; unlisted, the first placement without fused tiles (R12). -/
def bindDefault : Nat → Nat := fun t => 17 * (t / 16) + t % 16

/-- The physical tile bound to logical tile `t`. -/
def Placement.phys (p : Placement) (t : Nat) : Nat := sget bindDefault p.bind t

/-- A physical tile is bound to some logical tile. -/
def Placement.bound (p : Placement) (k : Nat) : Bool := (List.range 64).any fun t => p.phys t == k

/-- A quadrant's spare, if it has one that is not fenced (R586). -/
def Placement.spareOf (p : Placement) (q : Nat) : Option Nat :=
  match sfind p.spare q with
  | some k => if bitOf p.fenced.toNat k then none else some k
  | none => none

/-- A quadrant's spare is free (R586). -/
def Placement.freeSpare (p : Placement) (q : Nat) : Option Nat :=
  match p.spareOf q with
  | some k => if p.bound k then none else some k
  | none => none

/-- One granule, 4 KiB (R4). -/
def granule : Nat := 4096

/-- One past the last byte of HBM available to contexts (R221). -/
def hbmAvail : Nat := 0x008FC0000000

/-- One past the last byte of HBM (R221). -/
def hbmEnd : Nat := 0x009000000000

/-- Where the SRAM windows of the logical tiles begin (R221). -/
def sramBase : Nat := 0x010000000000

/-- Bytes of one tile's SRAM (R221). -/
def sramSize : Nat := 0x04000000

/-- R229 hbm_map: stack, pseudo-channel within the stack, granule within the pseudo-channel. -/
def hbmMap (a : Nat) : Nat × Nat × Nat :=
  let g := a / 4096
  let q := g / 384
  let pc := (g % 384 + q) % 384
  (pc % 12, pc / 12, q)

/-- The pseudo-channel number of R592. -/
def pcOf (a : Nat) : Nat := (a / 4096 % 384 + a / 4096 / 384) % 384

/-- The check-value entry of granule number `g`. -/
def Hbm.gran (h : Hbm) (g : Nat) : Gran := sget (fun _ => Gran.init) h.tab g

/-- Change the check-value entry of granule number `g`. -/
def Hbm.setGran (h : Hbm) (g : Nat) (x : Gran) : Hbm := { h with tab := sput (fun _ => Gran.init) h.tab g x }

/-- The controller of a stack. -/
def Hbm.ctlOf (h : Hbm) (i : Nat) : Hctl := sget (fun _ => Hctl.init) h.ctl i

/-- Change the controller of a stack. -/
def Hbm.setCtl (h : Hbm) (i : Nat) (x : Hctl) : Hbm := { h with ctl := sput (fun _ => Hctl.init) h.ctl i x }

/-- Mark the prefetch entries of a granule stale when a write to it is accepted (R242). -/
def Hctl.stale (c : Hctl) (addr : Nat) : Hctl :=
  { c with win := c.win.map fun e => if e.addr = addr then { e with stale := true } else e }

/-- A write reaches granule number `g`: its prefetch entries go stale. -/
def Hbm.touch (h : Hbm) (g : Nat) : Hbm :=
  let i := (hbmMap (g * 4096)).1
  h.setCtl i ((h.ctlOf i).stale (g * 4096))

/-- R402: a whole-granule write, with or without a check value, carrying a mark or none. -/
def Hbm.writeGran (h : Hbm) (g : Nat) (bytes : List Byte) (cv : Option W32) (poison : Bool) : Hbm :=
  let h := { h with mem := wrBytes h.mem (g * 4096) bytes }
  let old := h.gran g
  let x : Gran := match cv with
    | some v => ⟨v, true, poison⟩
    | none => ⟨old.cv, false, poison⟩
  (h.setGran g x).touch g

/-- R402: a write of less than a granule: CVV clears, POISON stays. -/
def Hbm.writePart (h : Hbm) (addr : Nat) (bytes : List Byte) : Hbm :=
  let g := addr / 4096
  let h := { h with mem := wrBytes h.mem addr bytes }
  (h.setGran g { h.gran g with cvv := false }).touch g

/-- A raw write of any bytes, granule by granule (R402); a granule covered whole takes its mark. -/
def Hbm.writeRaw (mark : Nat → Bool) : Nat → Hbm → Nat → List Byte → Hbm
  | 0, h, _, _ => h
  | n + 1, h, addr, bytes =>
    if bytes.isEmpty then h
    else
      let room := 4096 - addr % 4096
      let now := bytes.take room
      let h := if now.length = 4096 then h.writeGran (addr / 4096) now none (mark (addr / 4096)) else h.writePart addr now
      Hbm.writeRaw mark n h (addr + room) (bytes.drop room)

/-- One grant among children given with their keys and weights in ascending index (R245 fusee_grant):
the winner's key and the credits afterwards. A child of weight zero has its credit reset. -/
def fuseeGrant (credit : SMap Int) (cs : List (Nat × Nat)) : Option Nat × SMap Int :=
  let credit := cs.foldl (fun c p =>
    if p.2 = 0 then sput (fun _ => 0) c p.1 0 else sput (fun _ => 0) c p.1 (sget (fun _ => (0 : Int)) c p.1 + (p.2 : Int))) credit
  let val : Nat → Int := fun k => sget (fun _ => (0 : Int)) credit k
  let best := cs.foldl (fun b p => if p.2 = 0 then b else match b with
    | none => some p.1
    | some k => if val p.1 > val k then some p.1 else b) none
  match best with
  | none => (none, credit)
  | some k => (some k, sput (fun _ => 0) credit k (val k - ((cs.map Prod.snd).sum : Nat)))

end Sys2Proof.Machine
end

