-- ==== Sys2Proof/Machine/LinkState.lean ====
section
/-! DEFINITION. Machine/LinkState.lean: the state of the Turain ports, the transport, fabric time and transceivers
(11_turain_links.md). -/

namespace Sys2Proof.Machine

/-- LNK_Pn_STATUS.STATE (R314). -/
inductive PortSt where
  | down
  | training
  | init
  | calibrating
  | up
  | sparing
  | miswired
  | unsupported
  | failed
  deriving DecidableEq, Repr

/-- R314: the encoding of a state. -/
def PortSt.code : PortSt → Nat
  | .down => 0
  | .training => 1
  | .init => 2
  | .calibrating => 3
  | .up => 4
  | .sparing => 5
  | .miswired => 6
  | .unsupported => 7
  | .failed => 8

/-- A control flit waiting to be sent: RETRY with the expected number; INIT; a TIME request of a child and the response of a parent
with TS_SEQ and the four timestamps but for the one taken as the flit leaves, of whose part of a tick the request has its own; LANE with the lane (R306, R309, R311, R327, log 37). -/
inductive Ctl where
  | retry (seq : Nat)
  | init
  | timeReq (seq : W16) (t1 t2 part t4 : Nat)
  | timeResp (seq : W16) (t2 t3 t4 : Nat)
  | lane (l : Nat)
  deriving DecidableEq, Repr

/-- A DATA flit in the retry buffer: sequence number, channel, bytes in use, body (R305). -/
structure TxFlit where
  seq : Nat
  vc : Nat
  len : Nat
  body : List Byte
  deriving DecidableEq, Repr

/-- A receive channel: bytes not yet taken as packets, and how many of them each buffered flit still holds (R301, R304). -/
structure RxCh where
  buf : List Byte
  lens : List Nat
  deriving DecidableEq, Repr

/-- An empty receive channel. -/
def RxCh.init : RxCh := ⟨[], []⟩

/-- What firmware read from a transceiver last (R334): module temperature in 0.1 °C, supply voltage, each lane's transmit bias, transmit
power and receive power, and the CMIS flags. -/
structure Monitor where
  temp : Int
  volt : Nat
  bias : List Nat
  txPow : List Nat
  rxPow : List Nat
  flags : List Byte
  deriving DecidableEq, Repr

/-- No read yet. -/
def Monitor.init : Monitor := ⟨0, 0, [], [], [], []⟩

/-- The identity of a transceiver or cable, from its page 00h (R333). -/
structure XId where
  serial : List Byte
  vendor : List Byte
  oui : List Byte
  part : List Byte
  rev : List Byte
  date : List Byte
  deriving DecidableEq, Repr

/-- The transceiver or cable in a port's cage (R333 to R335): its identity; what it is; equivalent laser time in units of 2^-16 tick and
whether their history is incomplete; device times of the latest read and record; what was read. -/
structure Cage where
  id : XId
  optical : Bool
  passive : Bool
  suitable : Bool
  txOn : Bool
  eqAcc : Nat
  incomplete : Bool
  pollAt : W64
  recAt : W64
  mon : Monitor
  deriving DecidableEq, Repr

/-- A Turain port (R299 to R314). -/
structure LinkPort where
  /-- LNK_Pn_STATUS (R314) -/
  state : PortSt
  lanes : BitVec 4
  tlock : Bool
  peer : W16
  peerPort : BitVec 5
  spared : Bool
  downev : Bool
  /-- device time at which SPARED and DOWNEV were last set (R7) -/
  sparedAt : Option W64
  downevAt : Option W64
  /-- calibrated D and asymmetry a, in units of 1/256 tick (R330) -/
  delay : BitVec 24
  skew : Int
  badflit : W32
  retry : W32
  feccorr : W32
  /-- device time at which the bring-up began, or at which the port FAILED (R607) -/
  since : W64
  /-- the port has been FAILED since it was last UP (R607) -/
  wasFailed : Bool
  /-- the peer's INIT has arrived, and the device time of the latest INIT sent (R311) -/
  initGot : Bool
  initAt : W64
  /-- next sequence number to send and next expected (R305) -/
  txSeq : BitVec 12
  rxSeq : BitVec 12
  /-- retry buffer, oldest first, and how many of its flits are not to be replayed (R305, R306) -/
  kept : List TxFlit
  replay : Nat
  /-- credits to send by channel, and credits to return (R302) -/
  credit : SMap Nat
  owed : SMap Nat
  /-- packet bytes waiting by channel (R304), and received bytes -/
  txq : SMap (List Byte)
  rxq : SMap RxCh
  /-- DATA flits sent while each TC0 channel had credits and waiting data, since it was served (R303) -/
  starved : SMap Nat
  ctl : List Ctl
  /-- device time of the latest RETRY while the expected flit is missing (R306) -/
  retryAt : Option W64
  /-- time since the last flit slot, in thousandths of a tick (R298) -/
  slot : Nat
  /-- the window of R308: its start, retries, and corrected symbols by lane -/
  winAt : W64
  winRetry : Nat
  winCorr : SMap Nat
  /-- lane being spared, whether the peer has named it, whether this end found it, and the device time of the latest LANE flit (R309) -/
  laneOut : Option Nat
  laneAns : Bool
  laneOwn : Bool
  laneAt : W64
  /-- body of the latest TIME flit received; TS_SEQ of the latest request; t3 of the request that awaits its response (R327) -/
  timeBody : List Byte
  timeSeq : W16
  timeT3 : Option Nat
  cage : Option Cage
  /-- flits sent, oldest first: the model's own output field -/
  out : List (List Byte)
  deriving DecidableEq, Repr

/-- A port after reset (R593). -/
def LinkPort.init : LinkPort :=
  { state := .down, lanes := 0, tlock := false, peer := 0, peerPort := 0, spared := false, downev := false, sparedAt := none, downevAt := none,
    delay := 0, skew := 0,
    badflit := 0, retry := 0, feccorr := 0, since := 0, wasFailed := false, initGot := false, initAt := 0, txSeq := 0, rxSeq := 0,
    kept := [], replay := 0, credit := [], owed := [], txq := [], rxq := [], starved := [], ctl := [], retryAt := none, slot := 0,
    winAt := 0, winRetry := 0, winCorr := [], laneOut := none, laneAns := false, laneOwn := false, laneAt := 0,
    timeBody := [], timeSeq := 0, timeT3 := none, cage := none, out := [] }

/-- What a transfer carries: a DIR = 2 stream of a context of the tile (R315); a collective engine's contribution to a
piece, or its result of a piece (R346, R352); control packets, each with its segment header (R347); the granules that a
restore copies (R413). -/
inductive Cargo where
  | stream (ctx : Nat)
  | piece (cid inst piece : Nat) (result : Bool)
  | control (cid : Nat) (pkts : List (List Byte))
  | copy (addrs : List Nat)
  deriving DecidableEq, Repr

/-- A link send descriptor (R238, R319). -/
structure SendD where
  tag : W16
  dst : Nat
  dtile : Nat
  job : Nat
  pcnt : Nat
  cargo : Cargo
  /-- next packet to leave -/
  next : Nat
  /-- moves to a next path, and timeouts in a row (R319, R320) -/
  path : Nat
  timeouts : Nat
  /-- device time at which a backoff ends (R319) -/
  backoff : Option W64
  /-- device time at which the latest packet left -/
  sentAt : W64
  deriving DecidableEq, Repr

/-- A link receive descriptor (R321, R322). -/
structure RecvD where
  src : Nat
  stile : Nat
  tag : W16
  job : Nat
  pcnt : Nat
  expected : Nat
  /-- completion object, and whether completion adds one to it -/
  obj : Nat
  counts : Bool
  completed : Bool
  /-- device times of the latest packet, of the latest ACK and of the latest GAP -/
  pktAt : W64
  ackAt : W64
  gapAt : Option W64
  deriving DecidableEq, Repr

/-- What the ports share: header drops, fabric time (R316, R326), and the transport's descriptors and tags by logical
tile (R319 to R323). -/
structure LinkCommon where
  /-- LNK_HDR_DROPS -/
  hdrDrops : W32
  /-- OFF in units of 2^-16 tick (R326) -/
  off : Int
  /-- device time of the latest exchange and of the latest request, exchanges in a row that agree, and whether the first exchange after
  the parent port came UP has set OFF (R327 to R329) -/
  exAt : W64
  reqAt : Option W64
  agree : Nat
  steered : Bool
  /-- the target offset as the estimated rate carries it on, in units of 2^-16 tick; the rate, in units of 2^-32 tick per tick, and what
  it has moved beyond whole units (R328, R329) -/
  target : Int
  rate : Int
  frac : Nat
  /-- send and receive descriptors, by logical tile × 16 + index -/
  send : SMap SendD
  recv : SMap RecvD
  /-- next tag of each logical tile, and the device time, plus one, of each tag's latest RELEASE by tile × 65,536 + tag -/
  tag : SMap W16
  released : SMap Nat
  deriving DecidableEq, Repr

/-- After module reset (R326, R593). -/
def LinkCommon.init : LinkCommon := ⟨0, 0, 0, none, 0, false, 0, 0, 0, [], [], [], []⟩

end Sys2Proof.Machine
end

