-- ==== Sys2Proof/Machine/SysState.lean ====
section
/-! DEFINITION. Machine/SysState.lean: the state of pins, clocks, power, fuses, flash, security, test content
and the host ports (16 to 20). -/

namespace Sys2Proof.Machine

/-- The life-cycle phase of the module: held in reset (R557, R558); booted, HIF_STATUS.RDY set (R508); thermally
tripped (R562); out of service or failed to boot, HIF_STATUS.FATAL set (R472, R560). -/
inductive Phase where
  | inReset
  | running
  | tripped
  | stopped
  deriving DecidableEq, Repr

/-- Pins of the land-grid interface that commands move (R555 to R562). -/
structure Pins where
  /-- MOD_PWROK (R557) -/
  pwrok : Bool
  /-- MOD_RST_N (R558) -/
  rstN : Bool
  /-- PERST0_N (R559) -/
  perst0N : Bool
  /-- PERST1_N (R559) -/
  perst1N : Bool
  /-- FAULT_N driven low (R560) -/
  faultLow : Bool
  /-- THERMTRIP_N driven low (R562) -/
  tripLow : Bool
  /-- rails outside their operating range, bit i for rail i (R554) -/
  railOut : BitVec 16
  /-- the reset-cause latch on VDD_IO (R558), a cause number of R529 -/
  cause : Nat
  deriving DecidableEq, Repr

/-- Clocks and device time (R30, R31, R511). -/
structure Clk where
  /-- device time -/
  time : W64
  /-- enabled ticks since module reset: the time base of schedule timings (R286) -/
  etick : Nat
  /-- accumulator of clock_enable (R511) -/
  acc : BitVec 32
  /-- the clock enable of the latest tick -/
  enabled : Bool
  /-- CLK_STATUS.LOCK (R587) -/
  lock : Bool
  deriving DecidableEq, Repr

/-- 2^32: full duty (R511). -/
def dutyFull : Nat := 4294967296

/-- Power and heat (R512 to R516). -/
structure Power where
  dPower : Nat
  dTherm : Nat
  /-- rung j of the ladder of R521: D_CEIL = 2^32 (32 − j) / 32 -/
  rung : Nat
  /-- the fast clamp holds (R514) -/
  clamp : Bool
  /-- device time at which the clamp last engaged -/
  clampAt : W64
  /-- the power loop has run since the clamp engaged -/
  clampLoop : Bool
  /-- FASTEN has been cleared while the clamp holds: it lets go in the next tick (R589) -/
  clampEnd : Bool
  /-- D_FAST while the clamp holds -/
  dFast : Nat
  /-- device time from which the next power loop run may take place (R513) -/
  loopDue : W64
  /-- device time from which the next thermal loop run may take place (R515) -/
  thermDue : W64
  /-- P of the latest power loop run, mW (R516) -/
  pAvg : Nat
  /-- rails: mV and 0.1 A by rail index (R516, R554) -/
  railMv : SMap Nat
  railDa : SMap Nat
  /-- 72 die sensors, 0.1 °C: physical tiles 0 to 67, then hubs 0 to 3 (R516) -/
  tStop : SMap Int
  /-- 12 HBM stack temperatures, 0.1 °C -/
  tHbm : SMap Int
  /-- stacks above their high-temperature threshold (R515) -/
  hbmHigh : BitVec 12
  tHot : Int
  hotQ : Nat
  /-- device time of the latest THERMAL event, while D_THERM is below 2^32 (R515) -/
  thermEv : Option W64
  deriving DecidableEq, Repr

/-- An observation after a change of D_CEIL (R521). -/
structure CeilObs where
  start : W64
  /-- the rung was raised, and returns if a reading falls short -/
  raised : Bool
  /-- lowest reading of each quadrant over the observation -/
  low : SMap Int
  deriving DecidableEq, Repr

/-- The regulator (R517 to R524). -/
structure Rgl where
  /-- V_q in mV (R517) -/
  v : SMap Nat
  /-- readings of the last 24 hours by monitor, as device time and slack (R519) -/
  win : SMap (List (Nat × Int))
  /-- monitors excluded because they differ from their prediction (R518) -/
  excluded : List Nat
  /-- quadrants limited by the latest re-plan (R520) -/
  limited : List Nat
  /-- powered hours at the last completed re-plan -/
  lastPlan : Nat
  /-- device time since when neither D_THERM nor D_FAST has been below 2^32 (R523) -/
  calm : W64
  obs : Option CeilObs
  /-- device time of each quadrant's latest emergency (R522) -/
  emerg : SMap W64
  /-- the power reserve reads zero (R521) -/
  spent : Bool
  /-- device time from which the next monitor reading may take place (R519) -/
  readDue : W64
  deriving DecidableEq, Repr

/-- The bodies of the flash records (R528). -/
inductive NvBody where
  /-- SELECT: SEL_ACTIVE, SEL_TRIAL, SEL_TRIES, image versions of A and B -/
  | select (active trial tries verA verB : Nat)
  /-- AGE_REPLAN: per quadrant voltage, lowest slack, limited; the rung of D_CEIL; the values W_m -/
  | ageReplan (v : List Nat) (slack : List Int) (limited : List Nat) (rung : Nat) (wm : SMap Int)
  /-- AGE_HOURS -/
  | ageHours
  /-- LASER: serial number, OUI and part number, equivalent hours in 1/16 hour, flags (R335) -/
  | laser (serial oui part : List Byte) (eq16 : Nat) (incomplete : Bool)
  | evReset (cause : Nat)
  | evFence (ptile cause : Nat)
  | evArrayFault (ptile array stage cause : Nat)
  | evSignature (bytes : List Byte)
  | evHbmRepair (stack pc row : Nat) (done : Bool)
  | evHbmRetire (granule slot : Nat)
  | evThermalTrip (quadrant : Nat) (temp : Int)
  | evEmergency (quadrant monitor : Nat) (reading : Int) (action : Nat)
  | evFw (slot version outcome : Nat)
  | evOutOfService (cause : Nat)
  deriving DecidableEq, Repr

/-- A valid flash record (R526): its header's sequence number, powered seconds and boot count, the unit
it starts at within its area, and its body. Every record is written whole within one command, so an
unfinished record never stands in the model (R527). -/
structure NvRec where
  seq : Nat
  psec : Nat
  boot : Nat
  unit : Nat
  body : NvBody
  deriving DecidableEq, Repr

/-- A ring area of the flash (R530): its records, oldest first, and its write point in units. -/
structure NvArea where
  recs : List NvRec
  wp : Nat
  deriving DecidableEq, Repr

/-- The serial NOR flash (R507). It keeps its contents through every reset. -/
structure Flash where
  selector : NvArea
  ageing : NvArea
  transceiver : NvArea
  events : NvArea
  /-- image slots A and B: bytes, erased where unlisted -/
  slotA : SMap Byte
  slotB : SMap Byte
  /-- powered seconds of the module up to the latest module reset (R526) -/
  psecBase : Nat
  /-- boot count (R526) -/
  boots : Nat
  deriving DecidableEq, Repr

/-- Fused values (R10, R517, R518, R520, R537, R586, R601). -/
structure Fuses where
  /-- SHA3-512 of the four root public keys -/
  rootHash : List (List Byte)
  revoke : BitVec 4
  svn : BitVec 128
  uds : List Byte
  serial : W64
  dbgDisable : Bool
  rev : BitVec 8
  romrev : W32
  pen : W32
  /-- physical tiles that failed manufacturing test (R10) -/
  tiles : BitVec 68
  /-- V_MAX in mV -/
  vmax : Nat
  /-- V_SOL_q in mV -/
  vsol : SMap Nat
  /-- k16_q -/
  k16 : SMap Int
  deriving DecidableEq, Repr

/-- The image that the boot ROM verified and started (R540, R541, R586). -/
structure Image where
  /-- running slot, 0 A or 1 B -/
  slot : Nat
  trial : Bool
  ver : W32
  svn : Nat
  /-- root slot that certifies the image -/
  root : Nat
  /-- M_fw (R539) -/
  mfw : List Byte
  /-- the certificate list (R540) -/
  certs : List (List Byte)
  deriving DecidableEq, Repr

/-- The security block (R534 to R551, R602). -/
structure Sec where
  image : Option Image
  /-- identity public key derived at boot (R545) -/
  idPub : List Byte
  /-- ALIAS certificate (R545) -/
  aliasCert : List Byte
  /-- alias private key, while it exists -/
  aliasKey : Option (List Byte)
  /-- SEC_STATUS.ALIAS_GONE -/
  aliasGone : Bool
  /-- UDS blocked until the boot ROM restarts (R545) -/
  udsBlocked : Bool
  /-- the current debug nonce (R549) -/
  nonce : Option (List Byte)
  /-- failed tokens since module reset, saturating at 8 -/
  fails : Nat
  observe : Bool
  invasive : Bool
  /-- DBG_OPEN: device time at which the most recent scope opened -/
  openTime : W64
  /-- the latest attestation response over MCTP (R547): the model's own output field -/
  reply : List Byte
  /-- the latest bytes shifted out over JTAG (R549, R551): the model's own output field -/
  shifted : List Byte
  /-- dynamic I3C address (R563) -/
  i3c : Option (BitVec 7)
  deriving DecidableEq, Repr

/-- A held test content package (R430, R431). -/
structure TcPkg where
  id : Nat
  rev : Nat
  kind : Nat
  units : Nat
  period : Nat
  wcet : Nat
  /-- header, payload and signature -/
  bytes : List Byte
  /-- powered second, plus one, of the last run on each physical tile; 0 where never run -/
  ran : SMap Nat
  deriving DecidableEq, Repr

/-- A submission entry (R480). -/
structure SqEntry where
  opc : Nat
  flags : Nat
  cid : Nat
  ctx : Nat
  rsv : Nat
  addr0 : Nat
  addr1 : Nat
  len : Nat
  arg0 : Nat
  arg1 : Nat
  arg2 : Nat
  deriving DecidableEq, Repr

/-- A fetched entry: the SQ head after its fetch (R481), its place in the port's fetch order and the
device time of the poll that revealed it (R492). -/
structure Fetched where
  e : SqEntry
  sqHead : W16
  order : Nat
  at_ : W64
  deriving DecidableEq, Repr

/-- A completion whose entry is not written yet (R478). -/
structure Completion where
  cid : Nat
  sqHead : W16
  status : Nat
  flags : Nat
  res0 : Nat
  res1 : Nat
  irq : Bool
  deriving DecidableEq, Repr

/-- What a started command that has not completed is (R477): a DMA with the status it will complete with, or a CTX_STOP. -/
inductive Started where
  | dma (f : Fetched) (status : Nat)
  | ctxStop (f : Fetched)
  deriving DecidableEq, Repr

/-- A ring pair (R474 to R478). -/
structure Ring where
  exist : Bool
  sqBase : Nat
  cqBase : Nat
  /-- log2 of the numbers of entries, 4 to 15 -/
  sqLog : Nat
  cqLog : Nat
  vector : Nat
  coalCount : Nat
  /-- coalesce time in µs, 0 for none -/
  coalTime : Nat
  sqHead : W16
  sqTail : W16
  cqHead : W16
  cqTail : W16
  error : Bool
  /-- fetched, not started -/
  fetched : List Fetched
  /-- started, not completed -/
  started : List Started
  /-- completed, the entry not written because the CQ is full -/
  waiting : List Completion
  /-- uncounted completions with IRQ set, and the device time of the first (R494) -/
  irqCount : Nat
  irqSince : W64
  deriving DecidableEq, Repr

/-- An event before it is delivered (R495). -/
structure Event where
  kind : Nat
  time : W64
  ctx : Nat
  data : List Byte
  recd : List Byte
  deriving DecidableEq, Repr

/-- A host port (R469 to R497). -/
structure HostPort where
  /-- HIF_STATUS.ENRDY -/
  enrdy : Bool
  /-- EN has been written 0 and started commands are still to complete (R473) -/
  quiesce : Bool
  /-- link training: the port answers configuration requests (R499, R559) -/
  linkUp : Bool
  rings : SMap Ring
  /-- next place in the port's fetch order -/
  order : Nat
  /-- device time from which the next doorbell poll may take place -/
  pollDue : W64
  /-- event buffer: address and records, 0 records when not set -/
  evBuf : Nat
  evLen : Nat
  evSeq : Nat
  backlog : List Event
  /-- events dropped since the last EVENTS_LOST (R497) -/
  lost : Nat
  /-- host memory as the device wrote it: the model's own output field -/
  hostMem : Mem
  /-- host address ranges sent with the EP bit set (R489): the model's own output field -/
  ep : List (Nat × Nat)
  /-- MSI-X messages sent: address and data, newest last: the model's own output field -/
  msix : List (Nat × Nat)
  /-- MSI-X table, 256 words, and pending bits (R469, R494) -/
  msixTable : SMap W32
  msixPend : BitVec 64
  deriving DecidableEq, Repr

/-- A port at reset (R472, R491, R494): nothing running, every MSI-X vector masked (log 3). -/
def HostPort.init : HostPort :=
  { enrdy := false, quiesce := false, linkUp := false, rings := [], order := 0, pollDue := 0, evBuf := 0, evLen := 0, evSeq := 0,
    backlog := [], lost := 0, hostMem := [], ep := [], msix := [], msixTable := [], msixPend := 0 }

/-- What an unwritten word of the MSI-X table reads as: the mask bit of every vector set (log 3). -/
def msixDefault : Nat → W32 := fun i => if i % 4 = 3 then 1 else 0

/-- A 64-byte block in the caches of the control cores, which hardware keeps coherent with one another (R23, R26, R220, R223, log 81): its
bytes, and whether they differ from HBM by a store that has not been written back. -/
structure CoreLine where
  bytes : List Byte
  dirty : Bool
  deriving DecidableEq, Repr

/-- Command authority (R491 to R493). -/
structure Lease where
  holder : Nat
  expiry : W64
  /-- its term in ms, which a renewal adds again (R491, log 27) -/
  term : Nat
  deriving DecidableEq, Repr

end Sys2Proof.Machine
end

