-- ==== Sys2Proof/Machine/TileState.lean ====
section
/-! DEFINITION. Machine/TileState.lean: the state of a logical tile and of a physical tile. -/

namespace Sys2Proof.Machine

/-- A stream descriptor (R233); `rsv` gathers its reserved fields. -/
structure SDesc where
  dir : Nat
  paced : Bool
  kind : Nat
  vsel : Nat
  ndim : Nat
  ahead : Nat
  sig : Nat
  sigEvery : Nat
  tdesc : Nat
  soff : Nat
  base : Nat
  /-- counts of walk dimensions 0 to 3 -/
  cnt : List Nat
  /-- strides of dimensions 1 to 3, in granules -/
  str : List Int
  ssize : Nat
  lo : Nat
  hi : Nat
  rsv : Nat
  deriving DecidableEq, Repr

/-- R233: a descriptor from its 64 bytes. -/
def SDesc.ofBytes (b : List Byte) : SDesc :=
  let c := fieldLe b 0 4
  let g := fieldLe b 4 4
  { dir := bitsOf c 0 2, paced := bitOf c 2, kind := bitsOf c 3 2, vsel := bitsOf c 5 1, ndim := bitsOf c 6 2, ahead := bitsOf c 8 4,
    sig := bitsOf g 0 8, sigEvery := bitsOf g 8 16, tdesc := fieldLe b 8 4, soff := fieldLe b 12 4, base := fieldLe b 16 8,
    cnt := [fieldLe b 24 2, fieldLe b 26 2, fieldLe b 28 2, fieldLe b 30 2],
    str := [sgn (fieldLe b 32 4) 32, sgn (fieldLe b 36 4) 32, sgn (fieldLe b 40 4) 32], ssize := fieldLe b 44 4,
    lo := fieldLe b 48 8, hi := fieldLe b 56 8, rsv := c / 2 ^ 12 + g / 2 ^ 24 }

/-- Granules of the walk (R234). -/
def SDesc.n (d : SDesc) : Nat := d.cnt.foldl (· * ·) 1

/-- R234 walk: far-side address and near-side offset of walk granule `j`. -/
def SDesc.walk (d : SDesc) (j : Nat) : Int × Nat :=
  let c := fun i => d.cnt.getD i 1
  let i0 := j % c 0
  let i1 := j / c 0 % c 1
  let i2 := j / (c 0 * c 1) % c 2
  let i3 := j / (c 0 * c 1 * c 2)
  let a : Int := d.base + 4096 * ((i0 : Int) + i1 * d.str.getD 0 0 + i2 * d.str.getD 1 0 + i3 * d.str.getD 2 0)
  (a, d.soff + 4096 * (if d.ssize = 0 then j else j % d.ssize))

/-- A granule of an inbound stream in flight or waiting in its queue (R238). -/
structure Flight where
  j : Nat
  addr : Nat
  runAhead : Bool
  /-- bytes that have arrived -/
  got : List Byte
  cv : W32
  cvv : Bool
  poison : Bool
  /-- the check has failed once and the granule is read again (R404) -/
  again : Bool
  /-- it was in flight when its demand arrived (R251) -/
  waited : Bool
  /-- the placement epoch under which its last bytes were sent (R247) -/
  epoch : W32
  deriving DecidableEq, Repr

/-- What an inbound stream runs for. -/
inductive InbUse where
  /-- an sgo (R232) -/
  | stream
  /-- a program load: first bundle index, number of bundles, bytes of the first bundle's offset in its granule,
  and whether it signals at completion (R261) -/
  | load (dst cnt skip : Nat) (on : Bool)
  /-- a barrel fill: lane and depth position of the frame (R178) -/
  | fill (lane frame : Nat)
  deriving DecidableEq, Repr

/-- An inbound stream that is running (R232 to R243). -/
structure Inb where
  /-- descriptor copies as bytes, 128, as a save writes them (R244, R456) -/
  raw : List Byte
  sd : SDesc
  td : TDesc
  use : InbUse
  /-- demand count (R239) -/
  demand : Nat
  /-- next walk granule to fetch -/
  next : Nat
  /-- granules written -/
  written : Nat
  fl : List Flight
  /-- run-ahead granules dropped and to be fetched on demand (R241) -/
  dropped : List Nat
  deriving DecidableEq, Repr

/-- An outbound stream that is running (R237). -/
structure Outb where
  sd : SDesc
  td : TDesc
  /-- a barrel spill: lane and depth position of the frame (R177) -/
  spill : Option (Nat × Nat)
  /-- granules taken from the near side -/
  sent : Nat
  /-- granules accepted, by walk index, beyond the leading ones -/
  acc : List Nat
  /-- leading granules accepted -/
  lead : Nat
  deriving DecidableEq, Repr

/-- An array operation record (R269, R270), its advances already added (R271). -/
structure ARec where
  off : Nat
  movd0 : Nat
  movd1 : Nat
  dstd0 : Nat
  dstd1 : Nat
  mc0 : List Nat
  mc1 : List Nat
  dc0 : List Nat
  dc1 : List Nat
  kstart : Nat
  klen : Nat
  m : Nat
  accrow : Nat
  accm : Nat
  wrm : Nat
  alvl : Nat
  wlvl : Nat
  wform : Nat
  grad : Bool
  ht : Bool
  swap : Bool
  otm : Bool
  colset : Nat
  drow : Nat
  sync : Nat
  syncen : Bool
  xd0 : Nat
  xd1 : Nat
  xd2 : Nat
  adv : List Nat
  skrec : Nat
  /-- reserved bits and bytes, gathered -/
  rsv : Nat
  deriving DecidableEq, Repr

/-- An array operation ready to run: its record, its shape's OP value, the loop-dependent options resolved
(R270) and its copies of the descriptors (R54). -/
structure AOp where
  op : Nat
  r : ARec
  /-- ACC and WR -/
  acc : Bool
  wr : Bool
  mov0 : TDesc
  mov1 : TDesc
  dst0 : TDesc
  dst1 : TDesc
  /-- .cx: A low, B middle, B low -/
  xd0 : TDesc
  xd1 : TDesc
  xd2 : TDesc
  deriving DecidableEq, Repr

/-- Where a column set of a plane came from (R605). -/
structure PMeta where
  /-- start coordinate along the contracted dimension -/
  start : Nat
  kstart : Nat
  klen : Nat
  kext : Nat
  fmt : Nat
  poison : Bool
  /-- the mld, kept for a reload (R150, R156) -/
  src : AOp
  deriving DecidableEq, Repr

/-- A stationary plane (R128): scale code and mantissa of each cell, by row × 128 + column. -/
structure Plane where
  cells : SMap (Nat × Int)
  lo : Option PMeta
  hi : Option PMeta
  /-- 0, or a number whose free values unlisted cells read as, after a restore (R458) -/
  junk : Nat
  deriving DecidableEq, Repr

/-- An empty plane. -/
def Plane.init : Plane := ⟨[], none, none, 0⟩

/-- What an unlisted cell of a plane reads as: zero, or after a restore a free value (R458, log 10). -/
def cellDefault (junk : Nat) : Nat → Nat × Int := fun i =>
  if junk = 0 then (0, 0) else (Config.freeNat (junk + 2 * i) % 256, (Config.freeNat (junk + 2 * i + 1) % 256 : Nat) - 128)

/-- What an unlisted accumulator reads as: EMPTY, or after a restore a free value (R458, log 10). -/
def accDefault (junk : Nat) : Nat → ASum := fun i =>
  if junk = 0 then asEmpty else asumOfWord (BitVec.ofNat 64 (Config.freeNat (junk + i)))

/-- A split-K record (R142). -/
structure SkRec where
  id : Nat
  n : Nat
  root : Nat
  mask : Nat
  stage : Nat
  slots : Nat
  rsv : Nat
  deriving DecidableEq, Repr

/-- A moving row as its feeder delivered it: the tick it entered, the last of its passes, and per pass its elements' codes and mantissas
over the K range. -/
structure MovRow where
  at_ : Nat
  passes : List (List (Nat × Int))
  deriving DecidableEq, Repr

/-- One problem of an array instruction: a split-N instruction has two, any other one (R134, R157). -/
structure Prob where
  /-- moving row from which its rows enter: 0, or the first of the group that a retry starts from (R156) -/
  base : Nat
  /-- moving rows entered from there on, over all passes -/
  entered : Nat
  /-- tick from which its next row may enter -/
  due : Nat
  /-- rows of the groups that have not committed -/
  rows : List MovRow
  /-- commit groups committed -/
  done : Nat
  /-- moving rows that had entered when a retry last began (R158) -/
  seen : Nat
  /-- re-execution after a failure: 0 none, 1 retry on the array, 2 moved to the sibling (R415) -/
  tries : Nat
  deriving DecidableEq, Repr

/-- A problem of which no row has entered, the first of them due in a tick. -/
def Prob.start (due : Nat) : Prob := ⟨0, 0, due, [], 0, 0, 0⟩

/-- An array instruction in progress. -/
structure AInst where
  o : AOp
  /-- BPHASE half or slot it came from is settled by the array that holds it; the bundle index and X12 to X15 at
  issue, for its trace record (R387) -/
  bidx : Nat
  iter : Nat
  /-- issue tick -/
  at_ : Nat
  /-- planes of its passes: one, or B high, B middle, B low for .cx (R151) -/
  planes : List Plane
  /-- tick from which the plane that a .cx instruction loads itself can be swapped in (R151) -/
  cxAt : Nat
  /-- problem 0, and problem 1 of a split-N instruction -/
  p0 : Prob
  p1 : Prob
  poison : Bool
  /-- write intervals so far, for the check-value blocks it is credited with (R384) -/
  wrote : List (Nat × Nat)
  sk : Option SkRec
  /-- problem and first row of an output tile that the tourbillon selected (R120) -/
  sel : Option (Nat × Nat)
  deriving DecidableEq, Repr

/-- An mld whose rows are arriving, or wait for those of an earlier one (R148, R149): its issue tick and, once its rows arrive, the tick
in which its plane is ready. -/
structure Load where
  at_ : Nat
  ready : Nat
  o : AOp
  deriving DecidableEq, Repr

/-- A matrix array (R128 to R157). -/
structure Arr where
  active : Plane
  shadow : Plane
  loads : List Load
  /-- drain accumulator, by row × 128 + column (R138), and its poison bits (R407) -/
  acc : SMap ASum
  accPois : SMap Bool
  /-- tick in which the moving row that last wrote an accumulator row entered, by row × 2 + problem (R139) -/
  accAt : SMap Nat
  q : List AInst
  /-- out of use until the next click; its work runs on the sibling's grid (R415) -/
  out : Bool
  /-- the array's grid holds the plane of the array that it stands in for (R416) -/
  guest : Bool
  /-- tick in which discarded work re-enters: ticks before it count as RETRY (R156) -/
  retryTo : Nat
  /-- 0, or a number whose free values unlisted accumulators read as, after a restore (R458) -/
  junk : Nat
  deriving DecidableEq, Repr

/-- An array after the fabric reset. -/
def Arr.init : Arr := ⟨Plane.init, Plane.init, [], [], [], [], [], false, false, 0, 0⟩

/-- A part of a commit group on its way to a split-K root, or there: its sums stand in the staging area then (R144, R145). -/
structure SkPart where
  group : Nat
  part : Nat
  rows : List (List ASum)
  poison : Bool
  /-- the placement epoch that it carries (R247) -/
  epoch : W32
  deriving DecidableEq, Repr

/-- A split-K reduction at its root (R142 to R147). -/
structure SkRed where
  k : SkRec
  arr : Nat
  m : Nat
  /-- slots granted: commit groups below this have or had one -/
  granted : Nat
  /-- groups written -/
  written : Nat
  /-- parts that have reached the unit, and parts crossing the mesh in order -/
  parts : List SkPart
  flying : List SkPart
  inst : AInst
  deriving DecidableEq, Repr

/-- A vector-engine write that has not landed (R609). -/
structure VWrite where
  /-- enabled tick in which its latency ends -/
  land : Nat
  /-- it has landed in this tick: every engine sees it from the next -/
  landed : Bool
  /-- 0 vst, 1 vcvt, 2 vslice -/
  kind : Nat
  /-- destinations: one; head and tail; or the high, middle and low slices -/
  tds : List TDesc
  /-- first element index -/
  i0 : Nat
  /-- values of lanes 0 to 511 -/
  vals : List W32
  mask : BitVec 512
  wform : Nat
  grad : Bool
  poison : Bool
  bidx : Nat
  iter : Nat
  deriving DecidableEq, Repr

/-- An update in progress (R208, R219). -/
structure VUpd where
  /-- issue tick, later by every tick in which a staged read was held -/
  start : Nat
  ur : URecord
  pg : PGroup
  tds : List TDesc
  bidx : Nat
  iter : Nat
  deriving DecidableEq, Repr

/-- A scale advance in progress (R279). -/
structure Sadv where
  done : Nat
  td : TDesc
  first : Nat
  count : Nat
  obj : Nat
  bidx : Nat
  iter : Nat
  deriving DecidableEq, Repr

/-- A barrel lane (R169, R171): its record and cursors. The frame records stand in HBM (R173). -/
structure Lane where
  rec_ : List Byte
  pushed : Nat
  depth : Nat
  /-- pushes since bcfg, as FR_SEQ counts them (R173) -/
  pushes : Nat
  /-- frames whose spill has begun and has not ended, in the order of their spills (R177) -/
  owed : List Nat
  deriving DecidableEq, Repr

/-- A lane that bcfg has not loaded. -/
def Lane.init : Lane := ⟨[], 0, 0, 0, []⟩

/-- A segment record (R263). -/
structure Seg where
  id : Nat
  len : Nat
  ib : Nat
  resume : Nat
  load : Nat
  live : Nat
  liven : Nat
  rsv : Nat
  deriving DecidableEq, Repr

/-- R263: a record from its 32 bytes. -/
def Seg.ofBytes (b : List Byte) : Seg :=
  { id := fieldLe b 0 4, len := fieldLe b 4 4, ib := fieldLe b 8 4, resume := fieldLe b 12 4, load := fieldLe b 16 4,
    live := fieldLe b 20 4, liven := fieldLe b 24 4, rsv := fieldLe b 28 4 }

/-- How a logical tile stands: no program; issuing; halted (R280); stopped at a preemption's boundary (R265). -/
inductive Run where
  | off
  | on
  | halted
  | stopped
  deriving DecidableEq, Repr

/-- A loop level (R257). -/
structure Level where
  count : Nat
  start : Nat
  active : Bool
  deriving DecidableEq, Repr

/-- An increment of a synchronisation object on its way or held (R282, R283): the mesh stop that sends it, 72 for the tile's own
engines, and the placement epoch that it carries (R247). -/
structure Incr where
  obj : Nat
  amount : Nat
  stop : Nat
  epoch : W32
  deriving DecidableEq, Repr

/-- A digest lane (R384). -/
structure DLane where
  sum : W64
  cnt : W32
  deriving DecidableEq, Repr

/-- A logical tile. -/
structure Tile where
  run : Run
  pc : Nat
  /-- enabled tick of the latest issue (R254) -/
  issued : Nat
  /-- enabled ticks for which the current bundle has been held (R288) -/
  held : Nat
  /-- index registers (R256) -/
  x : SMap W32
  /-- loop levels 0 to 3 (R257) -/
  lv : SMap Level
  bphase : Bool
  cvst : W32
  /-- synchronisation objects (R281), and what has landed in this tick and is seen from the next (R282) -/
  sync : SMap W32
  landed : SMap Nat
  /-- increments on their way or held, in the order of their sending (R21, R283) -/
  incs : List Incr
  /-- vector and mask registers by lane, and their poison bits (R192, R407) -/
  vreg : SMap (SMap W32)
  kreg : SMap (BitVec 512)
  vpois : BitVec 32
  kpois : BitVec 8
  /-- tick from which a vector register, or mask register 32 + k, can be read (R197) -/
  vready : SMap Nat
  /-- tick from which an instruction of a row of R198 may issue again -/
  vnext : SMap Nat
  vwr : List VWrite
  vupd : Option VUpd
  sadv : Option Sadv
  ibuf : SMap Nat
  /-- pending bits of SRAM granules (R225), and granules being spilled (R179) -/
  pend : SMap Bool
  spillHold : SMap Bool
  f : Arr
  b0 : Arr
  b1 : Arr
  sk : List SkRed
  inb : SMap Inb
  outb : SMap Outb
  lanes : SMap Lane
  dl : SMap DLane
  /-- the segment's record, the tick of its first issue, and whether its overrun was reported (R287) -/
  seg : Seg
  segAt : Option Nat
  segOver : Bool
  /-- the lowest-numbered stall counter of each chronograph target in this enabled tick (R250) -/
  stall : SMap Nat
  /-- pp instructions issued since the context's start (R265) -/
  pps : Nat
  /-- enabled tick of the latest V-slot issue (R122) -/
  vAt : Nat
  /-- the segment record and its program load record for a save (R264) -/
  saveSeg : List Byte
  saveLoad : List Byte
  deriving DecidableEq, Repr

/-- A segment record of zeros. -/
def Seg.init : Seg := Seg.ofBytes []

/-- A logical tile as the fabric reset leaves it: every register zero (R256, R281, R426). -/
def Tile.init : Tile :=
  { run := .off, pc := 0, issued := 0, held := 0, x := [], lv := [], bphase := false, cvst := 0, sync := [], landed := [], incs := [],
    vreg := [], kreg := [], vpois := 0, kpois := 0, vready := [], vnext := [], vwr := [], vupd := none, sadv := none,
    ibuf := [], pend := [], spillHold := [], f := Arr.init, b0 := Arr.init, b1 := Arr.init, sk := [], inb := [], outb := [],
    lanes := [], dl := [], seg := Seg.init, segAt := none, segOver := false, stall := [], pps := 0, vAt := 0, saveSeg := [], saveLoad := [] }

/-- A watch check in progress (R121, R122): the logical tile and context it was captured on, the array and rows,
the initial and final sums and the block partials of each element, by problem and row. -/
structure Check where
  ltile : Nat
  arr : Nat
  op : Nat
  fmts : Nat
  klen : Nat
  kblk : Nat
  /-- the stationary plane and the moving rows, by pass -/
  plane : Plane
  rows : List (List (Nat × Int))
  /-- per element: initial value (or empty), block partials, and the fold's end -/
  elems : List (ASum × List ASum × ASum)
  /-- the partials have been recomputed (R122) -/
  done : Bool
  /-- whether a segment of the tile has ended since (R122) is settled at the pp -/
  seg : Nat
  deriving DecidableEq, Repr

/-- A tourbillon (R120, R125). -/
structure Tour where
  count : Nat
  ptr : Nat
  /-- the next output tile, or fresh block, of the pointed unit is selected -/
  armed : Bool
  deriving DecidableEq, Repr

/-- A fresh block that the drift tourbillon selected (R125): destination, block, sources and outcome. -/
structure DriftBlk where
  tid : Nat
  step : W32
  blk : Nat
  fmt : Nat
  grad : Bool
  src : List ASum
  out : BlockOut
  deriving DecidableEq, Repr

/-- A physical tile (R249, R596, R598). -/
structure PTile where
  /-- WCH_Tp_DONE, ABANDON, FAIL, SEL (R596) -/
  wchDone : W32
  wchAbandon : W32
  wchFail : W32
  wchSel : W32
  /-- STM_Tp_DROPS, COLLISIONS (R598) -/
  drops : W32
  collisions : W32
  /-- chronograph counters, bank × 16 + counter (R249) -/
  chr : SMap W64
  /-- fault watch and drift watch (R120 to R125) -/
  tour : Tour
  drift : Tour
  driftBlk : List DriftBlk
  check : Option Check
  /-- device time at which each array's suspect mark runs out, by array (R417) -/
  suspect : SMap W64
  /-- device time of the latest signature written to flash, by unit (R437), and signatures not written -/
  sigAt : SMap W64
  sigCount : W32
  /-- enabled tick and array of the latest residue failure (R418) -/
  failAt : Option (Nat × Nat)
  deriving DecidableEq, Repr

/-- A physical tile after reset. -/
def PTile.init : PTile :=
  { wchDone := 0, wchAbandon := 0, wchFail := 0, wchSel := 0, drops := 0, collisions := 0, chr := [], tour := ⟨0, 0, false⟩,
    drift := ⟨0, 0, false⟩, driftBlk := [], check := none, suspect := [], sigAt := [], sigCount := 0, failAt := none }

end Sys2Proof.Machine
end

