-- ==== Sys2Proof/Machine/State.lean ====
section
/-! DEFINITION. Machine/State.lean: the whole state of the block, why a command can stop, and the state after reset. -/

namespace Sys2Proof.Machine

/-- Why the model stops. -/
inductive Fault where
  /-- Raised by a command whose byte-list operand has not the length the spec gives it: such an operand
  spells no command of the block. Safe: nothing is claimed of such a command. -/
  | malformed
  /-- Raised by DEBUG_ACCESS where a debugger reads or writes device memory at an address that R221 leaves unmapped. Safe: nothing
  is claimed of the access. -/
  | unmapped
  deriving DecidableEq, Repr

/-- Why a command has no meaning. -/
inductive Refusal where
  /-- Raised by exec alone, for a command not modelled yet. Safe. -/
  | notModelled (mnemonic : String)
  /-- Raised by DEBUG_ACCESS where a debugger shifts values into a tile's scan chains (R551): the spec gives the chains no layout, so
  what the values change is not stated. Safe. -/
  | scanLayout
  deriving DecidableEq, Repr

/-- The scheduler (R453 to R462). -/
structure Sched where
  /-- resident context -/
  resident : Option Nat
  /-- a test window holds the tiles (R455) -/
  test : Bool
  /-- a switch is in progress: the incoming context, if there is one (R456, R459) -/
  switching : Bool
  incoming : Option Nat
  deriving DecidableEq, Repr

/-- The state of the block. -/
structure State where
  /-- commands waiting, first in first out -/
  pending : List Instr
  /-- the model's own counter, to which opaque free values are applied (log 10) -/
  freeCtr : Nat
  phase : Phase
  pins : Pins
  clk : Clk
  /-- set-up registers by BAR0 offset, where they differ from their reset values (R584) -/
  cfg : SMap W32
  /-- locks as they stood before this tick, by the key of the enabling register, where a block was enabled or disabled in it (R7) -/
  lockWas : SMap Bool
  /-- bits of stored write-1-to-clear registers that the device has set in this tick, by key (R7) -/
  w1cNow : SMap W32
  /-- _HI latches, by agent × 2^24 + offset of the _LO register (R581) -/
  hi : SMap W32
  /-- the word the last register read returned to each agent: the model's own output field -/
  busRead : SMap W32
  power : Power
  rgl : Rgl
  fuses : Fuses
  flash : Flash
  sec : Sec
  /-- held test content packages, ascending identifier (R431) -/
  tc : SMap TcPkg
  /-- defect signatures reported, header and payload each, by signature index (R436, R437) -/
  sigs : List (List Byte × List Byte)
  hosts : SMap HostPort
  lease : Option Lease
  plc : Placement
  hbm : Hbm
  /-- updates of status records and overflow bitmaps in tile SRAM that wait for a fill or a spill, oldest first (R58, R179, R226) -/
  metaQ : List MetaOp
  /-- CV_UNCHECKED, CV_FAIL, TEST_LATE (R591) -/
  cvUnchecked : W64
  cvFail : W32
  testLate : W32
  ctxs : SMap Ctx
  sched : Sched
  tiles : SMap Tile
  ptiles : SMap PTile
  links : SMap LinkPort
  lnk : LinkCommon
  /-- what the latest access or ECALL of a control core returned: the model's own output field -/
  coreRet : List W64
  /-- control cores halted over JTAG, and those of them that have been let step once, bit 4 × cluster + core (R551) -/
  coreHalt : BitVec 16
  coreStep : BitVec 16
  /-- blocks in the caches of clusters 1 to 3, by address / 64 (R26, R223, log 81) -/
  l2 : SMap CoreLine
  /-- the stimecmp CSR of each core of clusters 1 to 3 (R294, the Sstc extension, log 81) -/
  stimecmp : SMap W64
  deriving DecidableEq, Repr

/-- Fused values of a module: the spec gives none, so all are zero, but V_MAX, 700 mV unless fused lower, and V_SOL_q, the least V_q
(R517, log 3). -/
def Fuses.init : Fuses :=
  { rootHash := List.replicate 4 (List.replicate 64 0), revoke := 0, svn := 0, uds := List.replicate 32 0, serial := 0, dbgDisable := false,
    rev := 0, romrev := 0, pen := 0, tiles := 0, vmax := 700, vsol := [(0, 600), (1, 600), (2, 600), (3, 600)], k16 := [] }

/-- A flash that holds no record and no image (R507, log 3). -/
def Flash.init : Flash := ⟨⟨[], 0⟩, ⟨[], 0⟩, ⟨[], 0⟩, ⟨[], 0⟩, [], [], 0, 0⟩

/-- Power and heat after module reset (R512 to R516): full duty, no clamp. -/
def Power.init : Power :=
  { dPower := dutyFull, dTherm := dutyFull, rung := 0, clamp := false, clampAt := 0, clampLoop := false, clampEnd := false, dFast := dutyFull,
    loopDue := 0, thermDue := 0, pAvg := 0, railMv := [], railDa := [], tStop := [], tHbm := [], hbmHigh := 0, tHot := 0, hotQ := 0,
    thermEv := none }

/-- The regulator after module reset (R517 to R523). -/
def Rgl.init : Rgl :=
  { v := [], win := [], excluded := [], limited := [], lastPlan := 0, calm := 0, obs := none, emerg := [], spent := false, readDue := 0 }

/-- The security block after module reset (R545, R549, R550). -/
def Sec.init : Sec :=
  { image := none, idPub := [], aliasCert := [], aliasKey := none, aliasGone := false, udsBlocked := false, nonce := none, fails := 0,
    observe := false, invasive := false, openTime := 0, reply := [], shifted := [], i3c := none }

/-- The placement of a module without fused tiles (R11, R12): each quadrant's spare is its last tile. -/
def Placement.init : Placement :=
  { bind := [], fenced := 0, epoch := 0, spare := [(0, 16), (1, 33), (2, 50), (3, 67)], drains := [], lost := false }

/-- The block right after reset: the module held in reset, its pins low (R557 to R559, R567), nothing queued. -/
def State.reset : State :=
  { pending := [], freeCtr := 0, phase := .inReset,
    pins := ⟨false, false, false, false, false, false, 0, 0⟩,
    clk := ⟨0, 0, 0, false, false⟩, cfg := [], lockWas := [], w1cNow := [], hi := [], busRead := [], power := Power.init, rgl := Rgl.init, fuses := Fuses.init,
    flash := Flash.init, sec := Sec.init, tc := [], sigs := [], hosts := [], lease := none, plc := Placement.init,
    hbm := ⟨[], [], [], []⟩, metaQ := [], cvUnchecked := 0, cvFail := 0, testLate := 0, ctxs := [], sched := ⟨none, false, false, none⟩, tiles := [],
    ptiles := [], links := [], lnk := LinkCommon.init, coreRet := [], coreHalt := 0, coreStep := 0,
    l2 := [], stimecmp := [] }

end Sys2Proof.Machine
end

