-- ==== Sys2Proof/Machine/HostOps.lean ====
section
/-! DEFINITION. Machine/HostOps.lean: rings, completions, interrupts and events of a host port (R474 to R497). -/

namespace Sys2Proof.Machine

/-- `n` bytes holding fields given as byte offset, byte width and value, all else zero (R4). -/
def packFields (n : Nat) (fs : List (Nat × Nat × Nat)) : List Byte :=
  natLe n (fs.foldl (fun a f => a + f.2.2 % 256 ^ f.2.1 * 256 ^ f.1) 0)

/-- A submission entry from its 64 bytes (R480). -/
def SqEntry.ofBytes (b : List Byte) : SqEntry :=
  { opc := fieldLe b 0 1, flags := fieldLe b 1 1, cid := fieldLe b 2 2, ctx := fieldLe b 4 1,
    rsv := fieldLe b 5 3 + fieldLe b 56 8 + fieldLe b 1 1 / 4, addr0 := fieldLe b 8 8, addr1 := fieldLe b 16 8,
    len := fieldLe b 24 8, arg0 := fieldLe b 32 8, arg1 := fieldLe b 40 8, arg2 := fieldLe b 48 8 }

/-- SQ_FLAGS.IRQ. -/
def SqEntry.irq (e : SqEntry) : Bool := bitOf e.flags 0
/-- SQ_FLAGS.FENCE. -/
def SqEntry.fence (e : SqEntry) : Bool := bitOf e.flags 1

/-- Free completion entries remain (R478). -/
def Ring.cqSpace (r : Ring) : Bool := (r.cqTail - r.cqHead).toNat < 2 ^ r.cqLog

/-- Commands started and not completed (R477): a completion not yet written counts. -/
def Ring.busy (r : Ring) : Nat := r.started.length + r.waiting.length

/-- PHASE of completion index `c` (R478). -/
def Ring.phase (r : Ring) : Nat := if r.cqTail.toNat / 2 ^ r.cqLog % 2 = 0 then 1 else 0

/-- Host address of the next completion entry (R474). -/
def Ring.cqAddr (r : Ring) : Nat := r.cqBase + r.cqTail.toNat % 2 ^ r.cqLog * 32

/-- Send a vector's message, or set its pending bit while the vector is masked (R494, the PCIe MSI-X rules). -/
def HostPort.sendMsix (h : HostPort) (v : Nat) : HostPort :=
  let w := fun i => (sget msixDefault h.msixTable (4 * v + i)).toNat
  if bitOf (w 3) 0 then { h with msixPend := h.msixPend ||| BitVec.ofNat 64 (2 ^ v) }
  else { h with msix := h.msix ++ [(w 0 + w 1 * 2 ^ 32, w 2)] }

/-- Write the MSI-X table; a vector unmasked with its pending bit set sends its message (R494). -/
def HostPort.writeMsix (h : HostPort) (i : Nat) (v : W32) : HostPort :=
  let h := { h with msixTable := sput msixDefault h.msixTable i v }
  if i % 4 = 3 && !bitOf v.toNat 0 && bitOf h.msixPend.toNat (i / 4) then
    { h with msixPend := h.msixPend - BitVec.ofNat 64 (2 ^ (i / 4)) }.sendMsix (i / 4)
  else h

/-- Count a completion with IRQ set toward its ring's coalescing (R494). -/
def HostPort.countIrq (h : HostPort) (i : Nat) (r : Ring) (now : W64) : HostPort :=
  let n := r.irqCount + 1
  if n ≥ max r.coalCount 1 then
    { h with rings := sins h.rings i { r with irqCount := 0 } }.sendMsix r.vector
  else { h with rings := sins h.rings i { r with irqCount := n, irqSince := if r.irqCount = 0 then now else r.irqSince } }

/-- Write one completion entry (R481) and count its interrupt. -/
def HostPort.writeCq (h : HostPort) (i : Nat) (r : Ring) (now : W64) (c : Completion) : HostPort :=
  let ent := packFields 32 [(0, 2, c.cid), (2, 2, c.sqHead.toNat), (4, 2, c.status), (6, 2, c.flags + r.phase),
    (8, 8, c.res0), (16, 8, c.res1), (24, 8, now.toNat)]
  let h := { h with hostMem := wrBytes h.hostMem r.cqAddr ent }
  let r := { r with cqTail := r.cqTail + 1 }
  if c.irq then h.countIrq i r now else { h with rings := sins h.rings i r }

/-- Complete a command: its entry is written, or waits behind a full CQ (R478); a ring in ERROR
completes nothing (R476). -/
def HostPort.complete (h : HostPort) (i : Nat) (now : W64) (c : Completion) : HostPort :=
  match sfind h.rings i with
  | none => h
  | some r =>
    if r.cqSpace && r.waiting.isEmpty && !r.error then h.writeCq i r now c
    else { h with rings := sins h.rings i { r with waiting := r.waiting ++ [c] } }

/-- Write waiting completions while the CQ has room. -/
def HostPort.flushRing (h : HostPort) (i : Nat) (now : W64) : Nat → HostPort
  | 0 => h
  | n + 1 =>
    match sfind h.rings i with
    | none => h
    | some r =>
      match r.waiting with
      | [] => h
      | c :: cs =>
        if r.cqSpace && !r.error then
          (h.writeCq i { r with waiting := cs } now c).flushRing i now n
        else h

/-- An event can be delivered now (R495, R497). -/
def HostPort.evReady (h : HostPort) : Bool :=
  h.enrdy && decide (0 < h.evLen) &&
    (match sfind h.rings 0 with
     | none => false
     | some r => r.cqSpace && r.waiting.isEmpty && !r.error)

/-- Deliver an event: the record, the event entry on ring 0's CQ, vector 0 at once (R495). -/
def HostPort.deliver (h : HostPort) (now : W64) (e : Event) : HostPort :=
  match sfind h.rings 0 with
  | none => h
  | some r =>
    let rec128 := natLe 8 h.evSeq ++ natLe 8 e.time.toNat ++ natLe 2 e.kind ++ natLe 1 e.ctx ++ [0] ++
      (e.data ++ List.replicate 44 0).take 44 ++ (e.recd ++ List.replicate 64 0).take 64
    let h := { h with hostMem := wrBytes h.hostMem (h.evBuf + 128 * (h.evSeq % h.evLen)) rec128 }
    let c : Completion := ⟨0xFFFF, r.sqHead, e.kind, 2, h.evSeq, leNat ((e.data ++ List.replicate 8 0).take 8), false⟩
    ({ h with evSeq := h.evSeq + 1 }.writeCq 0 r now c).sendMsix 0

/-- The EVENTS_LOST event for a count of dropped events (R496, R497). -/
def lostEvent (time : W64) (n : Nat) : Event := ⟨0x0F, time, 0xFF, packFields 44 [(0, 4, n)], []⟩

/-- Put an event into the backlog of at most 256; when it is full the oldest are dropped and one EVENTS_LOST
takes the newest place, counting every event dropped since the last one delivered (R497, log 20).
HIF_ERR.EVLOST is the caller's. -/
def HostPort.stash (h : HostPort) (e : Event) : HostPort :=
  let q := h.backlog.filter (fun x => x.kind ≠ 0x0F)
  if h.lost = 0 && q.length < 256 then { h with backlog := q ++ [e] }
  else
    let q := q ++ [e]
    let n := q.length - 255
    { h with backlog := q.drop n ++ [lostEvent e.time (h.lost + n)], lost := h.lost + n }

/-- Deliver backlogged events while the port can take them. -/
def HostPort.drain (h : HostPort) (now : W64) : Nat → HostPort
  | 0 => h
  | n + 1 =>
    if h.evReady then
      match h.backlog with
      | [] => h
      | e :: es =>
        ({ h with backlog := es, lost := if e.kind = 0x0F then 0 else h.lost }.deliver now e).drain now n
    else h

/-- Raise an event on a port. -/
def HostPort.raise (h : HostPort) (now : W64) (e : Event) : HostPort :=
  if h.evReady && h.backlog.isEmpty then h.deliver now e else h.stash e

/-- Work that freed completion space allows on ring `i`: its waiting completions first, then events (log 20). -/
def HostPort.settle (h : HostPort) (i : Nat) (now : W64) : HostPort :=
  let h := h.flushRing i now 65536
  if i = 0 then h.drain now 512 else h

/-- A fresh ring (R473, R482). -/
def Ring.fresh (sqBase cqBase sqLog cqLog vector coalCount coalTime : Nat) : Ring :=
  { exist := true, sqBase, cqBase, sqLog, cqLog, vector, coalCount, coalTime, sqHead := 0, sqTail := 0, cqHead := 0,
    cqTail := 0, error := false, fetched := [], started := [], waiting := [], irqCount := 0, irqSince := 0 }

/-- Commands of a port started and not completed (R477). -/
def HostPort.busy (h : HostPort) : Nat := (h.rings.map fun p => p.2.busy).sum

/-- The front command of ring `i`, when it may start (R477). -/
def HostPort.startable (h : HostPort) (i : Nat) : Option Fetched :=
  match sfind h.rings i with
  | none => none
  | some r =>
    match r.fetched with
    | [] => none
    | f :: _ =>
      if h.enrdy && !h.quiesce && !r.error && h.busy < 256 && (!f.e.fence || r.busy = 0) then some f else none

/-- Take the front command off ring `i`. -/
def HostPort.pop (h : HostPort) (i : Nat) : HostPort :=
  match sfind h.rings i with
  | none => h
  | some r => { h with rings := sins h.rings i { r with fetched := r.fetched.drop 1 } }

/-- The completion of a fetched command. -/
def Fetched.done (f : Fetched) (status res0 res1 : Nat) : Completion :=
  ⟨f.e.cid, f.sqHead, status, 0, res0, res1, f.e.irq⟩

/-- Opcodes of R482. -/
def knownOpc (o : Nat) : Bool :=
  [0x00, 0x01, 0x02, 0x03, 0x04, 0x05, 0x06, 0x07, 0x10, 0x11, 0x20, 0x21, 0x22, 0x23, 0x24, 0x30, 0x40, 0x50, 0x51, 0x60].contains o

/-- Commands marked A in R482. -/
def needsAuth (o : Nat) : Bool :=
  [0x03, 0x04, 0x10, 0x20, 0x21, 0x22, 0x24, 0x30, 0x50, 0x51, 0x60].contains o

/-- Complete front entries with a reserved opcode, which no command of the table starts (R482). -/
def HostPort.rejectUnknown (h : HostPort) (i : Nat) (now : W64) : Nat → HostPort
  | 0 => h
  | n + 1 =>
    match h.startable i with
    | none => h
    | some f =>
      if knownOpc f.e.opc then h
      else ((h.pop i).complete i now (f.done 0x01 0 0)).rejectUnknown i now n

/-- Queued commands that need authority complete with WITHDRAWN (R493). -/
def HostPort.withdraw (h : HostPort) (now : W64) (all : Bool) : HostPort :=
  h.rings.foldl (fun acc p =>
    let gone := p.2.fetched.filter fun f => all || needsAuth f.e.opc
    let stay := p.2.fetched.filter fun f => !(all || needsAuth f.e.opc)
    let acc := match sfind acc.rings p.1 with
      | none => acc
      | some r => { acc with rings := sins acc.rings p.1 { r with fetched := stay } }
    gone.foldl (fun a f => a.complete p.1 now (f.done 0x0C 0 0)) acc) h

/-- End a quiesce once no started command remains: rings and event buffer setting go, the backlog stays (R473). -/
def HostPort.finishQuiesce (h : HostPort) : HostPort :=
  if h.quiesce && h.rings.all (fun p => p.2.started.isEmpty) then
    { h with quiesce := false, enrdy := false, rings := [], evBuf := 0, evLen := 0 }
  else h

/-- A port. -/
def State.host (s : State) (p : Nat) : HostPort := sget (fun _ => HostPort.init) s.hosts p

/-- Change a port. -/
def State.setHost (s : State) (p : Nat) (h : HostPort) : State :=
  { s with hosts := sput (fun _ => HostPort.init) s.hosts p h }

/-- Device time (R31). -/
def State.now (s : State) : W64 := s.clk.time

/-- Offset of a HIF register of port `p` in the model's register table (log 21). -/
def hifKey (p off : Nat) : Nat := 0x1000 + 0x800 * p + off

/-- The device sets bits of the stored write-1-to-clear register at a key: a write of 1 in the same tick leaves them 1 (R7). -/
def State.noteW1c (s : State) (k bits : Nat) : State :=
  { s with w1cNow := sput zero32 s.w1cNow k (sget zero32 s.w1cNow k ||| BitVec.ofNat 32 bits) }

/-- Set bits of a port's HIF_ERR (R472). -/
def State.hifErr (s : State) (p bits : Nat) : State :=
  let k := hifKey p 0x2C
  { s.noteW1c k bits with cfg := sput zero32 s.cfg k (sget zero32 s.cfg k ||| BitVec.ofNat 32 bits) }

/-- Raise an event on one port, with HIF_ERR.EVLOST when the backlog drops (R497). -/
def State.raiseOn (s : State) (p : Nat) (e : Event) : State :=
  let h := s.host p
  let h' := h.raise s.now e
  let s := s.setHost p h'
  if h.lost < h'.lost then s.hifErr p 4 else s

/-- Raise an event on both ports (R495). -/
def State.event (s : State) (kind ctx : Nat) (data : List (Nat × Nat × Nat)) (recd : List Byte) : State :=
  let e : Event := ⟨kind, s.now, ctx, packFields 44 data, recd⟩
  (s.raiseOn 0 e).raiseOn 1 e

/-- The front command of ring `r` of port `p`, when it may start and its opcode is `opc`. -/
def State.front (s : State) (p r opc : Nat) : Option Fetched :=
  match (s.host p).startable r with
  | none => none
  | some f => if f.e.opc = opc then some f else none

/-- Whether port `p` holds command authority (R491). -/
def State.auth (s : State) (p : Nat) : Bool :=
  match s.lease with
  | none => false
  | some l => l.holder == p && decide (s.now < l.expiry)

/-- Start and complete a ring's front command in one step. -/
def State.finish (s : State) (p r : Nat) (f : Fetched) (status res0 res1 : Nat) : State :=
  let h := (s.host p).pop r
  let h := h.complete r s.now (f.done status res0 res1)
  s.setHost p (h.rejectUnknown r s.now 65536)

/-- Start a ring's front command that completes later. -/
def State.begin (s : State) (p r : Nat) (st : Started) : State :=
  let h := (s.host p).pop r
  match sfind h.rings r with
  | none => s
  | some g => s.setHost p (({ h with rings := sins h.rings r { g with started := g.started ++ [st] } }).rejectUnknown r s.now 65536)

end Sys2Proof.Machine
end

