-- ==== Sys2Proof/Machine/Flash.lean ====
section
/-! DEFINITION. Machine/Flash.lean: flash records and their ring areas (R506 to R533). -/

namespace Sys2Proof.Machine

/-- NV_KIND of a body (R528). -/
def NvBody.kind : NvBody → Nat
  | .select .. => 0x0001
  | .ageReplan .. => 0x0010
  | .ageHours => 0x0011
  | .laser .. => 0x0020
  | .evReset _ => 0x0030
  | .evFence .. => 0x0031
  | .evArrayFault .. => 0x0032
  | .evSignature _ => 0x0033
  | .evHbmRepair .. => 0x0034
  | .evHbmRetire .. => 0x0035
  | .evThermalTrip .. => 0x0036
  | .evEmergency .. => 0x0037
  | .evFw .. => 0x0038
  | .evOutOfService _ => 0x0039

/-- Units of 32 bytes of a record, header included (R526): at least 1, at most 2,048. -/
def NvBody.units (b : NvBody) : Nat :=
  let n := match b with
    | .ageHours => 0
    | .select .. => 11
    | .evSignature bs => bs.length
    | b => Config.nvBodyBytes b.kind
  min (1 + cdiv n 32) 2048

/-- Units in a 64 KiB sector. -/
def sectorUnits : Nat := 2048

/-- NV_SEQ of the area's next record (R526). -/
def NvArea.nextSeq (a : NvArea) : Nat := (a.recs.map (·.seq)).foldl max 0 + 1

/-- Where a record of `u` units starts: it never crosses a sector boundary (R530). -/
def NvArea.place (a : NvArea) (sectors u : Nat) : Nat :=
  if a.wp % sectorUnits + u > sectorUnits then (a.wp / sectorUnits + 1) * sectorUnits % (sectorUnits * sectors)
  else a.wp % (sectorUnits * sectors)

/-- Write one record at the write point. -/
def NvArea.put (a : NvArea) (sectors psec boot : Nat) (b : NvBody) : NvArea :=
  let u := a.place sectors b.units
  { recs := a.recs ++ [⟨a.nextSeq, psec, boot, u, b⟩], wp := u + b.units }

/-- Records in force, which are copied forward before their sector is erased (R531). -/
def NvArea.inForce (a : NvArea) (r : NvRec) : Bool :=
  match r.body with
  | .evFence .. | .evHbmRetire .. | .evOutOfService _ => true
  | .evHbmRepair st pc row false => !a.recs.any fun q => q.body == .evHbmRepair st pc row true && r.seq < q.seq
  | .laser serial _ _ _ _ => !a.recs.any fun q => match q.body with
      | .laser serial' _ _ _ _ => serial == serial' && r.seq < q.seq
      | _ => false
  | .ageReplan .. => (a.recs.filter fun q => q.body.kind == 0x0010 && decide (r.psec < q.psec)).length < 64
  | .ageHours => !a.recs.any fun q => q.body == .ageHours && r.seq < q.seq
  | _ => false

/-- Keep one erased sector ahead of the write point: copy the records in force forward, then erase (R530, R531). -/
def NvArea.lead (sectors : Nat) : Nat → NvArea → NvArea
  | 0, a => a
  | n + 1, a =>
    let nxt := ((a.wp - 1) / sectorUnits + 1) % sectors
    let victims := a.recs.filter fun r => r.unit / sectorUnits == nxt
    if victims.isEmpty then a
    else
      let keep := victims.filter a.inForce
      let a' : NvArea := { a with recs := a.recs.filter fun r => r.unit / sectorUnits != nxt }
      NvArea.lead sectors n (keep.foldl (fun acc r => acc.put sectors r.psec r.boot r.body) a')

/-- Append a record to a ring area (R526 to R531). -/
def NvArea.append (a : NvArea) (sectors psec boot : Nat) (b : NvBody) : NvArea :=
  NvArea.lead sectors sectors (a.put sectors psec boot b)

/-- Ticks in a second (R2). -/
def ticksPerSec : Nat := 1100000000

/-- Powered seconds of the module (R526, log 22). -/
def State.psec (s : State) : Nat := s.flash.psecBase + s.now.toNat / ticksPerSec

/-- Powered hours (R520). -/
def State.phours (s : State) : Nat := s.psec / 3600

/-- Write a record to the event log: 99 MiB of sectors (R507). -/
def State.logEvent (s : State) (b : NvBody) : State :=
  { s with flash := { s.flash with events := s.flash.events.append 1584 s.psec s.flash.boots b } }

/-- Write a record to the ageing history: 8 MiB. -/
def State.logAgeing (s : State) (b : NvBody) : State :=
  { s with flash := { s.flash with ageing := s.flash.ageing.append 128 s.psec s.flash.boots b } }

/-- Write a transceiver record: 4 MiB. -/
def State.logLaser (s : State) (b : NvBody) : State :=
  { s with flash := { s.flash with transceiver := s.flash.transceiver.append 64 s.psec s.flash.boots b } }

/-- The valid record with the highest NV_SEQ that satisfies a test (R527). -/
def NvArea.latest (a : NvArea) (t : NvBody → Bool) : Option NvRec :=
  (a.recs.filter fun r => t r.body).foldl (fun acc r => match acc with
    | none => some r
    | some q => if q.seq < r.seq then some r else acc) none

/-- The AGE_REPLAN records in the order of their re-plans: a record copied forward keeps its powered seconds (R531, log 22). -/
def NvArea.replans (a : NvArea) : List NvRec :=
  (a.recs.filter fun r => r.body.kind == 0x0010).foldl (fun l r =>
    (l.filter fun q => decide (q.psec ≤ r.psec)) ++ r :: l.filter fun q => decide (r.psec < q.psec)) []

/-- SEL_ACTIVE, SEL_TRIAL, SEL_TRIES and the image versions of the governing SELECT record; slot A where none
exists (R509). -/
def Flash.select (f : Flash) : Nat × Nat × Nat × Nat × Nat :=
  match f.selector.latest (fun b => b.kind == 1) with
  | some ⟨_, _, _, _, .select a t n va vb⟩ => (a, t, n, va, vb)
  | _ => (0, 0xFF, 0, 0, 0)

/-- Write a SELECT record to the sector that does not hold the governing one, replacing what that sector held (R509). -/
def State.putSelect (s : State) (active trial tries verA verB : Nat) : State :=
  let a := s.flash.selector
  let sec := match a.latest (fun b => b.kind == 1) with
    | some r => (r.unit / sectorUnits + 1) % 2
    | none => 0
  let r : NvRec := ⟨a.nextSeq, s.psec, s.flash.boots, sec * sectorUnits, .select active trial tries verA verB⟩
  { s with flash := { s.flash with selector :=
      { recs := (a.recs.filter fun q => q.unit / sectorUnits != sec) ++ [r], wp := sec * sectorUnits + 2 } } }

/-- Physical tiles fenced by the event log (R421). -/
def Flash.fences (f : Flash) : List Nat :=
  f.events.recs.filterMap fun r => match r.body with
    | .evFence p _ => some p
    | _ => none

/-- The event log holds a record taking the module out of service (R528). -/
def Flash.outOfService (f : Flash) : Bool := f.events.recs.any fun r => r.body.kind == 0x0039

end Sys2Proof.Machine
end

