-- ==== Sys2Proof/Machine/Security.lean ====
section
/-! DEFINITION. Machine/Security.lean: the verification chain, device identity, attestation, debug unlock and
the I3C target (18_security_identity.md, R563). -/

namespace Sys2Proof.Machine

/-- A command occurs: its effect where its conditions hold; where they do not, nothing happens (log 1). -/
def occurs (c : Bool) (t s : State) : Host.Outcome State Fault Refusal := if c then .next t else .next s

/-- The ASCII bytes of a label. -/
def ascii (t : String) : List Byte := t.toList.map fun c => BitVec.ofNat 8 c.toNat

/-- `n` fresh free bytes (log 10). -/
def freshBytes (c n : Nat) : List Byte := (List.range n).map fun i => (Config.freeBytes c).getD i 0

/-- Every byte of a list is zero. -/
def allZero (b : List Byte) : Bool := b.all (· == 0)

/-- KC_ROLE of a certificate. -/
def certRole (c : List Byte) : Nat := fieldLe c 0 1
/-- KC_ISSUER. -/
def certIssuer (c : List Byte) : Nat := fieldLe c 1 1
/-- KC_SCOPE. -/
def certScope (c : List Byte) : Nat := fieldLe c 2 1
/-- The certified public key. -/
def certKey (c : List Byte) : List Byte := (c.drop 64).take 2592

/-- R536: a certificate under a root public key verifies, with a role that the caller allows. -/
def certOk (u : Fuses) (root c : List Byte) (roles : List Nat) : Bool :=
  let k := certIssuer c
  c.length == 7283 && k < 4 && !bitOf u.revoke.toNat k && u.rootHash.getD k [] == sha3 root &&
    Config.mldsaVerify root (sha3 (c.take 2656)) (ascii "VK3160 CERT") (c.drop 2656) &&
    roles.contains (certRole c) && (certRole c == 3 || certScope c == 0) && fieldLe c 3 1 == 0 &&
    allZero ((c.drop 16).take 48)

/-- Bytes of an image slot; erased bytes read 0xFF. -/
def slotBytes (m : SMap Byte) (off n : Nat) : List Byte := (List.range n).map fun i => sget (fun _ => (0xFF : Byte)) m (off + i)

/-- The image slot by number, 0 A and 1 B. -/
def Flash.slot (f : Flash) (k : Nat) : SMap Byte := if k = 0 then f.slotA else f.slotB

/-- IH_VER of the image in a slot (R540). -/
def Flash.slotVer (f : Flash) (k : Nat) : Nat := leNat (slotBytes (f.slot k) 0x3000 4)

/-- The fused security version: the number of bits set (R537). -/
def Fuses.svnNum (u : Fuses) : Nat := ((List.range 128).filter fun i => bitOf u.svn.toNat i).length

/-- R541: the checks of an image in their order; the verified image where all hold. -/
def verifySlot (f : Flash) (u : Fuses) (k : Nat) (trial : Bool) : Option Image :=
  let m := f.slot k
  let root := slotBytes m 0 2592
  let cert := slotBytes m 0x1000 7283
  let hdr := slotBytes m 0x3000 256
  let len := fieldLe hdr 8 4
  let ccount := fieldLe hdr 20 4
  let hdrOk := fieldLe hdr 5 1 < 2 && fieldLe hdr 7 1 == 0 && allZero (hdr.drop 24) && len % 4096 == 0 &&
    len ≤ 0x7FA000 && ccount ≤ 16
  if certOk u root cert [1] && hdrOk then
    let mfw := sha3 (slotBytes m 0x3000 (0x1000 + len))
    let list := (List.range ccount).map fun i => slotBytes m (0x4000 + fieldLe hdr 16 4 + 7283 * i) 7283
    if Config.mldsaVerify (certKey cert) mfw (ascii "VK3160 FW") (slotBytes m (0x4000 + len) 4627) &&
        u.svnNum ≤ fieldLe hdr 4 1 && list.all (fun c => certOk u root c [2, 4]) then
      some { slot := k, trial := trial, ver := BitVec.ofNat 32 (fieldLe hdr 0 4), svn := fieldLe hdr 4 1,
             root := certIssuer cert, mfw := mfw, certs := list }
    else none
  else none

/-- R508 step 3, R509: the slot to try first. -/
def Flash.bootSlot (f : Flash) : Nat × Bool :=
  let (active, trial, tries, _, _) := f.select
  if trial ≠ 0xFF && 0 < tries then (trial, true) else (active, false)

/-- R509: the image the ROM starts, if any: the chosen slot, else the other. -/
def bootImage (f : Flash) (u : Fuses) : Option Image :=
  let (k, trial) := f.bootSlot
  match verifySlot f u k trial with
  | some i => some i
  | none => verifySlot f u (1 - k) false

/-- R545: the two key pairs derived at boot, and the ALIAS certificate; no alias key while INVASIVE is open. -/
def Sec.derive (c : Sec) (u : Fuses) (i : Image) (rnd : List Byte) : Sec :=
  let idSeed := (sha3 (ascii "VK3160-DEVID" ++ u.uds)).take 32
  let alSeed := (sha3 (ascii "VK3160-ALIAS" ++ u.uds ++ i.mfw ++ natLe 1 i.svn)).take 32
  let c := { c with image := some i, idPub := Config.mldsaPub idSeed, udsBlocked := true }
  if c.invasive then { c with aliasKey := none, aliasCert := [] }
  else
    let head := packFields 64 [(0, 1, 6), (1, 1, 0xFE), (4, 4, Config.aliasRev), (8, 8, u.serial.toNat)] ++ Config.mldsaPub alSeed
    { c with aliasKey := some (Config.mldsaPriv alSeed), aliasGone := false,
             aliasCert := head ++ Config.mldsaSign (Config.mldsaPriv idSeed) (sha3 head) (ascii "VK3160 CERT") rnd }

/-- R542: the burns of the first RDY from a confirmed slot; never the last unrevoked root slot (R538). -/
def Fuses.confirm (u : Fuses) (f : Flash) (i : Image) : Fuses :=
  let hdr := slotBytes (f.slot i.slot) 0x3000 8
  let svn := if bitOf (fieldLe hdr 5 1) 0 then u.svn ||| BitVec.ofNat 128 (2 ^ i.svn - 1) else u.svn
  let want := BitVec.ofNat 4 (fieldLe hdr 6 1) &&& ~~~(BitVec.ofNat 4 (2 ^ i.root))
  let rv := u.revoke ||| want
  { u with svn := svn, revoke := if rv = 0xF#4 then u.revoke else rv }

/-- The bus answers: RDY or FATAL is set (R563). -/
def State.busUp (s : State) : Bool := s.phase == .running || s.phase == .stopped

/-- R548: the 256-byte body of a report. -/
def State.reportBody (s : State) (nonce : List Byte) (i : Image) : List Byte :=
  let jobs := (List.range 8).map fun k => match sfind s.ctxs k with
    | some c => natLe 4 c.rr.job
    | none => natLe 4 0
  let held := (s.tc.map fun p => natLe 8 p.2.id ++ natLe 4 p.2.rev).flatten
  let flags := b2n s.sec.observe + 2 * b2n i.trial + 4 * b2n (s.phase == .stopped)
  packFields 16 [(0, 1, 1), (1, 1, flags), (2, 1, i.slot), (3, 1, i.root), (4, 4, i.ver.toNat), (8, 8, s.fuses.serial.toNat)] ++
    nonce ++ (i.mfw ++ List.replicate 64 0).take 64 ++ natLe 4 s.fuses.romrev.toNat ++ natLe 1 s.fuses.svnNum ++ natLe 1 i.svn ++
    natLe 1 s.fuses.revoke.toNat ++ [0] ++ natLe 8 s.now.toNat ++ natLe 4 s.flash.boots ++ natLe 4 0 ++
    natLe 16 s.plc.fenced.toNat ++ jobs.flatten ++ sha3 held ++ List.replicate 8 0

/-- Answer an attestation request. -/
def State.answer (s : State) (b : List Byte) : State := { s with sec := { s.sec with reply := b } }

/-- GET_CERTS (R547). -/
def execGetCerts (body : List Byte) (s : State) : Host.Outcome State Fault Refusal :=
  occurs s.busUp
    (if body ≠ [] then s.answer [0xF0, 3]
     else if s.sec.invasive || s.sec.aliasKey.isNone then s.answer [0xF0, 2]
     else s.answer (0x81 :: s.sec.idPub ++ s.sec.aliasCert)) s

/-- GET_REPORT (R547, R548). -/
def execGetReport (body : List Byte) (s : State) : Host.Outcome State Fault Refusal :=
  occurs s.busUp
    (if body.length ≠ 32 then s.answer [0xF0, 3]
     else match s.sec.invasive, s.sec.aliasKey, s.sec.image with
       | false, some key, some i =>
         let b := s.reportBody body i
         { s.answer (0x82 :: b ++ Config.mldsaSign key (sha3 b) (ascii "VK3160 REPORT") (freshBytes s.freeCtr 32)) with
           freeCtr := s.freeCtr + 1 }
       | _, _, _ => s.answer [0xF0, 2]) s

/-- The scope bits open (R549). -/
def Sec.scopes (c : Sec) : Nat := b2n c.observe + 2 * b2n c.invasive

/-- The JTAG port is usable: the module is powered and the die is out of reset (R562, R566). -/
def State.jtagUp (s : State) : Bool := s.phase != .inReset && s.phase != .tripped

/-- DBG_CHAL_READ (R549). -/
def execDbgChalRead (s : State) : Host.Outcome State Fault Refusal :=
  let n := freshBytes s.freeCtr 64
  let b := n ++ packFields 48 [(0, 8, s.fuses.serial.toNat), (8, 1, s.fuses.svnNum), (9, 1, s.sec.scopes), (10, 1, s.sec.fails),
    (11, 1, b2n s.fuses.dbgDisable + 2 * b2n (s.sec.fails == 8))]
  occurs s.jtagUp { s with sec := { s.sec with nonce := some n, shifted := b }, freeCtr := s.freeCtr + 1 } s

/-- R550: the conditions on a token. -/
def tokenOk (u : Fuses) (c : Sec) (t : List Byte) : Bool :=
  let hdr := t.take 128
  let root := (t.drop 128).take 2592
  let cert := (t.drop 2720).take 7283
  let scope := fieldLe hdr 72 1
  t.length == 14630 && !u.dbgDisable && c.fails < 8 && certOk u root cert [3] && scope < 4 && Nat.land scope (certScope cert) == scope &&
    fieldLe hdr 0 8 == u.serial.toNat && c.nonce == some ((hdr.drop 8).take 64) && allZero (hdr.drop 73) &&
    Config.mldsaVerify (certKey cert) (sha3 hdr) (ascii "VK3160 DBG") (t.drop 10003)

/-- Open scopes (R551): opening INVASIVE erases the alias private key. -/
def Sec.openScopes (c : Sec) (scope : Nat) (now : W64) : Sec :=
  let inv := c.invasive || bitOf scope 1
  { c with observe := c.observe || bitOf scope 0, invasive := inv, openTime := if scope = 0 then c.openTime else now,
           aliasKey := if inv then none else c.aliasKey, aliasGone := c.aliasGone || inv }

/-- DEBUG_TOKEN (R550). -/
def execDebugToken (token : List Byte) (s : State) : Host.Outcome State Fault Refusal :=
  let c := { s.sec with nonce := none }
  let c := if tokenOk s.fuses s.sec token then c.openScopes (fieldLe token 72 1) s.now
           else { c with fails := min (c.fails + 1) 8 }
  occurs s.jtagUp { s with sec := c } s

/-- I3C_SETDASA (R563). -/
def execI3cSetdasa (addr : BitVec 7) (s : State) : Host.Outcome State Fault Refusal :=
  occurs s.busUp { s with sec := { s.sec with i3c := some addr } } s

/-- I3C_ENTDAA (R563). -/
def execI3cEntdaa (addr : BitVec 7) (s : State) : Host.Outcome State Fault Refusal :=
  occurs s.busUp { s with sec := { s.sec with i3c := some addr } } s

end Sys2Proof.Machine
end

