-- ==== Sys2Proof/Machine/Power.lean ====
section
/-! DEFINITION. Machine/Power.lean: duty, throttling, heat and the regulator (17, R511 to R528). -/

namespace Sys2Proof.Machine

/-- R511 clock_enable. -/
def clockEnable (acc d : Nat) : Bool × Nat :=
  if d = dutyFull then (true, acc)
  else if acc + d ≥ dutyFull then (true, acc + d - dutyFull)
  else (false, acc + d)

/-- D_CEIL at rung j (R521). -/
def Power.dCeil (p : Power) : Nat := dutyFull * (32 - p.rung) / 32

/-- D_FAST: 2^32 unless the clamp holds (R514). -/
def Power.fast (p : Power) : Nat := if p.clamp then p.dFast else dutyFull

/-- The effective duty (R512). -/
def Power.duty (p : Power) : Nat := min (min p.dPower p.dTherm) (min p.dCeil p.fast)

/-- R512: how duty is reported. -/
def dutyWord (d : Nat) : Nat := min d 0xFFFFFFFF

/-- R512: gated ticks count as thermal when D_THERM is the least of the four, ties included. -/
def Power.thermalLeast (p : Power) : Bool := p.dTherm == p.duty

/-- ALERT_N driven low (R561). -/
def State.alertLow (s : State) : Bool :=
  (s.phase == .running || s.phase == .stopped) &&
    (decide (1000 < s.power.tHot) || s.power.dPower < dutyFull || s.power.dTherm < dutyFull || s.power.fast < dutyFull ||
      s.pins.railOut ≠ 0)

/-- Firmware runs. -/
def State.up (s : State) : Bool := s.phase == .running

/-- The quadrant of a die sensor: physical tiles 0 to 67, then hubs 0 to 3 (R516). -/
def sensorQuadrant (i : Nat) : Nat := if i < 68 then i / 17 else i - 68

/-- The hottest of a list of readings, with its index; the lowest index wins a tie. -/
def hottest (l : List Int) : Nat × Int :=
  l.zipIdx.foldl (fun acc p => if p.1 > acc.2 then (p.2, p.1) else acc) (0, l.headD 0)

/-- A list as a table of integers. -/
def tableOf (l : List Int) : SMap Int := l.zipIdx.foldl (fun m p => sput (fun _ => 0) m p.2 p.1) []

/-- A list as a table of numbers. -/
def tableNat (l : List Nat) : SMap Nat := l.zipIdx.foldl (fun m p => sput zeroNat m p.2 p.1) []

/-- POWER_LOOP (R513): `p` is P in mW, `rails` the measured mV and 0.1 A of each rail. The rise of at most
2^26 is a bounded free value (log 10). -/
def execPowerLoop (p : BitVec 32) (rails : List (Nat × Nat)) (s : State) : Host.Outcome State Fault Refusal :=
  let w := s.power
  let d := if 2200000 < p.toNat then w.dPower * 2200000 / p.toNat
           else min dutyFull (w.dPower + Config.freeNat s.freeCtr % (2 ^ 26 + 1))
  occurs (s.up && decide (w.loopDue ≤ s.now))
    { s with
      freeCtr := s.freeCtr + 1
      power := { w with dPower := d, pAvg := p.toNat, loopDue := s.now + 110000, clampLoop := true,
                        railMv := tableNat (rails.map (·.1)), railDa := tableNat (rails.map (·.2)) } } s

/-- FAST_CLAMP (R514): `amps` is the core rail current. -/
def execFastClamp (amps : BitVec 16) (s : State) : Host.Outcome State Fault Refusal :=
  let reg := fun k d => (sget (fun _ => d) s.cfg k).toNat
  let w := s.power
  occurs (s.up && bitOf (reg 0x3000 1) 0 && decide (reg 0x3004 0x76C < amps.toNat))
    { s with power := { w with clamp := true, clampAt := s.now, clampLoop := w.clamp && w.clampLoop,
                               dFast := reg 0x3008 0x8000 * 65536 } } s

/-- The fast clamp lets go (R514, R589). -/
def State.unclamp (s : State) : State :=
  { s with power := { s.power with clamp := false, clampEnd := false }, rgl := { s.rgl with calm := s.now } }

/-- FAST_CLAMP_RELEASE (R514). -/
def execFastClampRelease (s : State) : Host.Outcome State Fault Refusal :=
  occurs (s.power.clamp && s.power.clampLoop && decide (11000 ≤ (s.now - s.power.clampAt).toNat)) s.unclamp s

/-- R515: the change of D_THERM. -/
def thermStep (d : Nat) (tHot : Int) (hbmHigh : Bool) : Nat :=
  if hbmHigh || tHot > 1050 then max (d - 2 ^ 29) (2 ^ 30)
  else if tHot > 1000 then max (d - 2 ^ 27) (2 ^ 30)
  else min (d + 2 ^ 26) dutyFull

/-- The THERMAL event (R496, R515). -/
def State.thermalEvent (s : State) : State :=
  { s.event 0x11 0xFF [(0, 1, s.power.hotQ), (2, 2, unsgn s.power.tHot 16), (4, 4, dutyWord s.power.duty)] [] with
    power := { s.power with thermEv := some s.now } }

/-- THERMAL_LOOP (R515): the 72 die readings, the 12 stack temperatures in 0.1 °C, and which stacks are above
their high-temperature threshold. -/
def execThermalLoop (die hbm : List Int) (high : BitVec 12) (s : State) : Host.Outcome State Fault Refusal :=
  if die.length ≠ 72 || hbm.length ≠ 12 then .fault .malformed
  else
    let (i, t) := hottest die
    let w := s.power
    let d := thermStep w.dTherm t (high ≠ 0)
    let s1 := { s with
      power := { w with tStop := tableOf die, tHbm := tableOf hbm, hbmHigh := high, tHot := t, hotQ := sensorQuadrant i,
                        dTherm := d, thermDue := s.now + 1100000, thermEv := if d = dutyFull then none else w.thermEv }
      rgl := { s.rgl with calm := if w.dTherm < dutyFull && d = dutyFull && !w.clamp then s.now else s.rgl.calm } }
    let due := match w.thermEv with
      | none => true
      | some e => decide (ticksPerSec ≤ (s.now - e).toNat)
    occurs (s.up && decide (w.thermDue ≤ s.now)) (if d < dutyFull && due then s1.thermalEvent else s1) s

/-- Physical tile of a path-delay monitor (R518). -/
def monTile (m : Nat) : Nat := m / 4

/-- Quadrant of a path-delay monitor. -/
def monQuadrant (m : Nat) : Nat := monTile m / 17

/-- V_q in mV (R517). -/
def State.vq (s : State) (q : Nat) : Nat := sget zeroNat s.rgl.v q

/-- Ticks in 24 hours. -/
def ticksPerDay : Nat := 86400 * ticksPerSec

/-- Add a reading to a monitor's 24-hour window: readings that can no longer be the lowest drop out (R519). -/
def pushReading (w : List (Nat × Int)) (now : Nat) (r : Int) : List (Nat × Int) :=
  (w.filter fun p => now < p.1 + ticksPerDay && p.2 < r) ++ [(now, r)]

/-- W_m: the lowest reading of the last 24 hours (R519). -/
def lowestOf (w : List (Nat × Int)) (now : Nat) : Option Int :=
  ((w.filter fun p => now < p.1 + ticksPerDay).map (·.2)).min?

/-- The lowest of a quadrant's observed readings. -/
def CeilObs.note (o : CeilObs) (q : Nat) (r : Int) : CeilObs :=
  { o with low := sins o.low q (match sfind o.low q with | some x => min x r | none => r) }

/-- R522: an emergency on a quadrant; action 1 raises the voltage, 2 lowers D_CEIL, 0 neither is possible (log 22). -/
def State.emergency (s : State) (m : Nat) (r : Int) : State :=
  let q := monQuadrant m
  let calm := match sfind s.rgl.emerg q with
    | some t => decide (ticksPerSec ≤ (s.now - t).toNat)
    | none => true
  if !calm then s
  else
    let s := { s with rgl := { s.rgl with emerg := sins s.rgl.emerg q s.now } }
    if s.vq q + 5 ≤ s.fuses.vmax then
      { s with rgl := { s.rgl with v := sput zeroNat s.rgl.v q (s.vq q + 5) } }.logEvent (.evEmergency q m r 1)
    else if s.power.rung < 16 then
      { s with power := { s.power with rung := s.power.rung + 1 } }.logEvent (.evEmergency q m r 2)
    else s.logEvent (.evEmergency q m r 0)

/-- One reading: excluded when it differs from its prediction by more than 20 ps (R518), kept for W_m when made
at full allowed duty (R519), and an emergency below 10 ps (R522). Action 3 names an excluded monitor (log 22). -/
def State.takeReading (s : State) (m : Nat) (r pred : Int) : State :=
  if 272 ≤ m || bitOf s.plc.fenced.toNat (monTile m) || s.rgl.excluded.contains m then s
  else if (r - pred).natAbs > 20 then
    { s with rgl := { s.rgl with excluded := m :: s.rgl.excluded } }.logEvent (.evEmergency (monQuadrant m) m r 3)
  else
    let g := s.rgl
    let g := if s.power.dCeil ≤ s.power.duty then
        { g with win := sins g.win m (pushReading ((sfind g.win m).getD []) s.now.toNat r) } else g
    let g := { g with obs := g.obs.map fun o => o.note (monQuadrant m) r }
    let s := { s with rgl := g }
    if r < 10 then s.emergency m r else s

/-- MONITOR_READ (R519): monitor, reading and ring-oscillator prediction for each monitor read. -/
def execMonitorRead (readings : List (Nat × Int × Int)) (s : State) : Host.Outcome State Fault Refusal :=
  occurs (s.up && decide (s.rgl.readDue ≤ s.now))
    (let s1 := readings.foldl (fun a p => a.takeReading p.1 p.2.1 p.2.2) s
     { s1 with rgl := { s1.rgl with readDue := s.now + BitVec.ofNat 64 ticksPerSec } }) s

/-- W_m of an included monitor, if any reading stands (R519). -/
def State.wm (s : State) (m : Nat) : Option Int :=
  if bitOf s.plc.fenced.toNat (monTile m) || s.rgl.excluded.contains m then none
  else lowestOf ((sfind s.rgl.win m).getD []) s.now.toNat

/-- s_q: the lowest W_m of a quadrant's included monitors (R519). -/
def State.slackOf (s : State) (q : Nat) : Option Int :=
  (((List.range 272).filter fun m => monQuadrant m == q).filterMap s.wm).min?

/-- R520 replan_voltage. -/
def replanVoltage (v sl k16 vsol vmax : Int) : Int × Bool :=
  let d := 25 - sl
  let quo := if k16 = 0 then Config.replanQuotient (d * 16) else floorDiv (-(d * 16)) (5 * k16)
  let step := max (-quo * 5) (-5)
  let nv := max (v + step) vsol
  if nv > vmax then (vmax, true) else (nv, false)

/-- V_SOL_q. -/
def State.vsol (s : State) (q : Nat) : Nat := sget zeroNat s.fuses.vsol q

/-- The planned voltage of a quadrant; one without readings keeps its voltage (log 25). -/
def State.planOf (s : State) (q : Nat) : Nat × Bool :=
  match s.slackOf q with
  | none => (s.vq q, false)
  | some sl =>
    let r := replanVoltage (s.vq q) sl (sget (fun _ => 0) s.fuses.k16 q) (s.vsol q) s.fuses.vmax
    (r.1.toNat, r.2)

/-- A re-plan (R520, R521): new voltages, one rung of D_CEIL with its observation, and the record. -/
def State.replan (s : State) : State :=
  let plans : List (Nat × Bool) := (List.range 4).map s.planOf
  let limited := (List.range 4).filter fun q => (plans.getD q (0, false)).2
  let rung := s.power.rung
  let (rung', obs) := if limited ≠ [] then (if rung < 16 then rung + 1 else rung, some (⟨s.now, false, []⟩ : CeilObs))
    else if 0 < rung then (rung - 1, some ⟨s.now, true, []⟩) else (rung, none)
  let wm := (List.range 272).filterMap fun m => (s.wm m).map fun x => (m, x)
  let slack := (List.range 4).map fun q => (s.slackOf q).getD 0
  let s1 := { s with
    rgl := { s.rgl with v := tableNat (plans.map Prod.fst), limited := limited, lastPlan := s.phours, obs := obs,
                        spent := if limited = [] then false else s.rgl.spent }
    power := { s.power with rung := rung' } }
  s1.logAgeing (.ageReplan (plans.map Prod.fst) slack limited rung' wm)

/-- RGL_PERIOD in hours. -/
def State.rglPeriod (s : State) : Nat := (sget (fun _ => (0x2D0 : W32)) s.cfg 0x3020).toNat

/-- R523: a re-plan that is due may run now. -/
def State.replanMay (s : State) : Bool :=
  decide (s.rgl.lastPlan + s.rglPeriod ≤ s.phours) &&
    ((s.power.dTherm == dutyFull && !s.power.clamp && decide (60 * ticksPerSec ≤ (s.now - s.rgl.calm).toNat)) ||
      decide (s.rgl.lastPlan + s.rglPeriod + 24 ≤ s.phours))

/-- REPLAN (R520). -/
def execReplan (s : State) : Host.Outcome State Fault Refusal := occurs (s.up && s.replanMay) s.replan s

/-- The end of an observation (R521). -/
def State.endObs (s : State) (o : CeilObs) : State :=
  let setRung := fun (r : Nat) (ob : Option CeilObs) (sp : Bool) =>
    { s with power := { s.power with rung := r }, rgl := { s.rgl with obs := ob, spent := sp } }
  let rung := s.power.rung
  if o.raised then
    if o.low.any (fun p => p.2 < 25) then setRung (rung + 1) none false else setRung rung none false
  else if s.rgl.limited.all (fun q => match sfind o.low q with | some r => decide (25 ≤ r) | none => false) then
    setRung rung none false
  else if rung < 16 then setRung (rung + 1) (some ⟨s.now, false, []⟩) s.rgl.spent
  else setRung rung none true

/-- CEIL_OBSERVATION (R521). -/
def execCeilObservation (s : State) : Host.Outcome State Fault Refusal :=
  match s.rgl.obs with
  | none => .next s
  | some o => occurs (s.up && decide (60 * ticksPerSec ≤ (s.now - o.start).toNat)) (s.endObs o) s

/-- AGE_HOURS (R528): every 24 powered hours. -/
def execAgeHours (s : State) : Host.Outcome State Fault Refusal :=
  let last := match s.flash.ageing.latest (fun b => b == .ageHours) with
    | some r => r.psec
    | none => 0
  occurs (s.up && decide (last + 86400 ≤ s.psec)) (s.logAgeing .ageHours) s

/-- Records that the reserve of a quadrant is fitted to: powered hours and planned mV (R524). -/
def State.fitRecords (s : State) (q : Nat) : List (Nat × Nat) :=
  let l := s.flash.ageing.replans.filterMap fun r => match r.body with
    | .ageReplan v _ _ _ _ => if 168 ≤ r.psec / 3600 then some (r.psec / 3600, v.getD q 0) else none
    | _ => none
  l.drop (l.length - 64)

/-- The least-squares fit of R524 with x = h^(1/4) to 64 fraction bits: n, Σx, Σv, and b as a fraction (log 24). -/
structure Fit where
  n : Int
  sx : Int
  sv : Int
  bNum : Int
  bDen : Int
  deriving DecidableEq, Repr

/-- R524: the fit of a list of records. -/
def fitOf (l : List (Nat × Nat)) : Fit :=
  let x := fun (h : Nat) => (Nat.sqrt (Nat.sqrt (h * 2 ^ 256)) : Int)
  let n : Int := l.length
  let sx := (l.map fun p => x p.1).sum
  let sv := (l.map fun p => (p.2 : Int)).sum
  let sxv := (l.map fun p => x p.1 * p.2).sum
  let sxx := (l.map fun p => x p.1 * x p.1).sum
  ⟨n, sx, sv, (n * sxv - sx * sv) * 2 ^ 64, n * sxx - sx * sx⟩

/-- The reserve is indeterminate: fewer than three records, or b ≤ 0 (R524). -/
def Fit.indet (f : Fit) : Bool := f.n < 3 || f.bNum ≤ 0 || f.bDen ≤ 0

/-- A signed fraction as binary32, rounded to nearest (log 24). -/
def fracF (n d : Int) : W32 := withSign (decide (n < 0)) (roundRat n.natAbs d.natAbs)

/-- PQ_B. -/
def Fit.bF (f : Fit) : W32 := fracF f.bNum f.bDen

/-- PQ_A: v̄ − b·x̄. -/
def Fit.aF (f : Fit) : W32 := fracF (f.sv * f.bDen * 2 ^ 64 - f.sx * f.bNum) (f.n * f.bDen * 2 ^ 64)

/-- R_q in hours, rounded down (R524). -/
def Fit.reserve (f : Fit) (vmax hNow : Nat) : Nat :=
  let num := (f.n * vmax - f.sv) * f.bDen * 2 ^ 64 + f.sx * f.bNum
  let den := f.n * f.bNum * 2 ^ 64
  (floorDiv (num ^ 4) (den ^ 4) - hNow).toNat

/-- R_q, none when indeterminate. -/
def State.reserveOf (s : State) (q : Nat) : Option Nat :=
  let f := fitOf (s.fitRecords q)
  if f.indet then none else some (f.reserve s.fuses.vmax s.phours)

/-- The module reserve and the quadrant that sets it (R521, R524). -/
def State.moduleReserve (s : State) : Option (Nat × Nat) :=
  if s.rgl.spent then some (0, (s.rgl.limited.headD 0xFF))
  else (List.range 4).foldl (fun acc q => match s.reserveOf q, acc with
    | none, _ => acc
    | some r, none => some (r, q)
    | some r, some (m, k) => if r < m then some (r, q) else some (m, k)) none

end Sys2Proof.Machine
end

