-- ==== Sys2Proof/Machine/Regs.lean ====
section
/-! DEFINITION. Machine/Regs.lean: the set-up registers of BAR0: map, reads, writes, locks and late-write
status (20_setup_registers.md, R7, R292, R472). -/

namespace Sys2Proof.Machine

/-- A writable field: lowest bit, width, locked while its block is enabled (RWL, R7), and its range (R578). -/
structure RField where
  lo : Nat
  w : Nat
  rwl : Bool
  least : Nat
  most : Nat
  deriving DecidableEq, Repr

/-- What kind of register stands at a key. -/
inductive RKind where
  /-- fields that a write sets -/
  | rw (fs : List RField)
  /-- bits that a 1 clears -/
  | w1c (mask : Nat)
  /-- read only -/
  | ro
  deriving DecidableEq, Repr

/-- A whole 32-bit RWL field. -/
def rwl32 : RKind := .rw [⟨0, 32, true, 0, 0xFFFFFFFF⟩]

/-- A HIF register by offset in its window (R472). -/
def hifKind (o : Nat) : Option RKind :=
  match o with
  | 0x00 => some (.rw [⟨0, 1, false, 0, 1⟩])
  | 0x04 => some .ro
  | 0x08 => some rwl32
  | 0x0C => some rwl32
  | 0x10 => some rwl32
  | 0x14 => some rwl32
  | 0x18 => some rwl32
  | 0x1C => some rwl32
  | 0x20 => some (.rw [⟨0, 4, true, 0, 11⟩, ⟨4, 4, true, 0, 11⟩])
  | 0x24 => some (.rw [⟨0, 16, false, 250, 65535⟩])
  | 0x28 => some (.w1c 0x80000000)
  | 0x2C => some (.w1c 0xF)
  | _ => none

/-- A register of Turain port `n` by offset (R593). -/
def lnkPortKind (o : Nat) : Option RKind :=
  match o with
  | 0x00 => some (.rw [⟨0, 1, false, 0, 1⟩, ⟨1, 2, true, 0, 2⟩])
  | 0x04 => some (.rw [⟨0, 16, true, 0, 0xFFFF⟩])
  | 0x08 => some (.w1c 0xC0000000)
  | 0x0C => some .ro
  | 0x10 => some (.rw [⟨0, 16, true, 0, 0xFFFF⟩])
  | 0x14 => some .ro
  | 0x18 => some .ro
  | 0x1C => some .ro
  | 0x3C => some (.w1c 0x80000000)
  | _ => none

/-- The window a key lies in: base, size and the offset of its late-write status (R574, R579, R599, log 21). -/
def windowOf (k : Nat) : Option (Nat × Nat × Nat) :=
  if k < 0x1000 then some (0, 0x1000, 0xFFC)
  else if k < 0x1800 then some (0x1000, 0x800, 0x28)
  else if k < 0x2000 then some (0x1800, 0x800, 0x28)
  else if k < 0x6000 then some (k / 0x1000 * 0x1000, 0x1000, 0xFFC)
  else if k < 0x10000 then none
  else if k < 0x11000 then some (0x10000, 0x1000, 0xFFC)
  else if k < 0x20000 then none
  else if k < 0x20100 then some (0x20000, 0x1000, 0xFFC)
  else if k < 0x20700 then some (k / 0x40 * 0x40, 0x40, 0x3C)
  else if k < 0x21000 then some (0x20000, 0x1000, 0xFFC)
  else if k < 0x30000 then none
  else if k < 0x31000 then some (0x30000, 0x1000, 0xFFC)
  else if k < 0x40000 then none
  else if k < 0x41000 then some (0x40000, 0x1000, 0xFFC)
  else if k < 0x50000 then none
  else if k < 0x52000 then some (0x50000, 0x2000, 0xFFC)
  else if k < 0x100000 then none
  else if k < 0x111000 then some (k / 0x100 * 0x100, 0x100, 0x04)
  else if k < 0x200000 then none
  else if k < 0x201000 then some (0x200000, 0x1000, 0xFFC)
  else if k < 0x300000 then none
  else if k < 0x301000 then some (0x300000, 0x1000, 0xFFC)
  else none

/-- `k` lies on one of `n` registers spaced by `step` from `base`, at one of the listed offsets. -/
def inArray (k base step n : Nat) (offs : List Nat) : Bool :=
  decide (base ≤ k) && decide ((k - base) / step < n) && offs.contains ((k - base) % step)

/-- A read-only register (R586 to R602), other than the late-write status. -/
def roKey (k : Nat) : Bool :=
  [0x0, 0x4, 0x8, 0xC, 0x10, 0x14, 0x18, 0x20, 0x24, 0x28, 0x2C, 0x2000, 0x2004, 0x2008, 0x300C, 0x4000, 0x5000, 0x5004,
    0x5008, 0x500C, 0x20014, 0x20018, 0x2001C, 0x30000, 0x30004, 0x200000, 0x200004, 0x200008, 0x20000C, 0x300000, 0x300008,
    0x30000C].contains k ||
  inArray k 0x4100 0x20 8 [0, 4, 8, 0xC, 0x10, 0x14] || inArray k 0x10100 0x10 12 [0, 4, 8] || inArray k 0x10400 4 384 [0] ||
  inArray k 0x30100 4 64 [0] || inArray k 0x40100 0x10 68 [0, 4, 8, 0xC] || inArray k 0x50100 0x10 68 [0, 4] ||
  inArray k 0x200100 4 64 [0]

/-- The register at a key (R472, R586 to R602). -/
def regKind (k : Nat) : Option RKind :=
  if 0x1000 ≤ k && k < 0x2000 then hifKind (k % 0x800)
  else if 0x20100 ≤ k && k < 0x20700 then lnkPortKind (k % 0x40)
  else if 0x100000 ≤ k && k < 0x111000 then
    if k % 0x100 = 0 then some (.rw [⟨0, 1, false, 0, 1⟩, ⟨1, 2, true, 0, 2⟩, ⟨4, 3, true, 0, 5⟩, ⟨8, 5, true, 0, 31⟩])
    else if k % 0x100 = 4 then some (.w1c 0x80000000)
    else if 0x80 ≤ k % 0x100 && k % 4 == 0 then some .ro
    else none
  else match k with
    | 0x3000 => some (.rw [⟨0, 1, false, 0, 1⟩])
    | 0x3004 => some (.rw [⟨0, 12, true, 500, 2100⟩])
    | 0x3008 => some (.rw [⟨0, 16, true, 0x1000, 0xFFFF⟩])
    | 0x3020 => some (.rw [⟨0, 14, false, 24, 8760⟩])
    | 0x20000 => some (.rw [⟨0, 1, false, 0, 1⟩])
    | 0x20004 => some (.rw [⟨0, 1, true, 0, 1⟩])
    | 0x20008 => some (.rw [⟨0, 16, true, 0, 0xFFFF⟩])
    | 0x2000C => some (.rw [⟨0, 25, true, 4096, 0x1000000⟩])
    | 0x20010 => some (.rw [⟨0, 1, true, 0, 1⟩, ⟨1, 5, true, 0, 23⟩])
    | 0x40000 => some (.rw [⟨0, 1, false, 0, 1⟩, ⟨1, 1, false, 0, 1⟩, ⟨8, 5, true, 8, 16⟩, ⟨16, 5, true, 8, 16⟩])
    | _ =>
      if roKey k then some .ro
      else match windowOf k with
        | some (b, _, lw) => if k = b + lw then some (.w1c 0x80000000) else none
        | none => none

/-- The reset value of a stored register (R472, R588, R593, R596). -/
def regReset : Nat → W32 := fun k =>
  match k with
  | 0x1024 => 0x07D0
  | 0x1824 => 0x07D0
  | 0x3000 => 1
  | 0x3004 => 0x76C
  | 0x3008 => 0x8000
  | 0x3020 => 0x2D0
  | 0x2000C => 0x10000
  | 0x40000 => 0x000C0C03
  | _ => 0

/-- A stored register. -/
def State.reg (s : State) (k : Nat) : Nat := (sget regReset s.cfg k).toNat

/-- Store a register. -/
def State.setReg (s : State) (k v : Nat) : State := { s with cfg := sput regReset s.cfg k (BitVec.ofNat 32 v) }

/-- A physical tile. -/
def State.ptile (s : State) (p : Nat) : PTile := sget (fun _ => PTile.init) s.ptiles p

/-- Change a physical tile. -/
def State.setPtile (s : State) (p : Nat) (x : PTile) : State := { s with ptiles := sput (fun _ => PTile.init) s.ptiles p x }

/-- A Turain port. -/
def State.link (s : State) (n : Nat) : LinkPort := sget (fun _ => LinkPort.init) s.links n

/-- Change a Turain port. -/
def State.setLink (s : State) (n : Nat) (x : LinkPort) : State := { s with links := sput (fun _ => LinkPort.init) s.links n x }

/-- The integer part of fabric time (R326). -/
def State.fabric (s : State) : Nat := ((s.now.toNat * 65536 + s.lnk.off) / 65536 % (2 ^ 64 : Nat)).toNat

/-- The block that a register locks with is enabled (R583). -/
def State.blockOn (s : State) (k : Nat) : Bool :=
  if 0x1000 ≤ k && k < 0x2000 then bitOf (s.reg (k / 0x800 * 0x800)) 0
  else if 0x3000 ≤ k && k < 0x4000 then bitOf (s.reg 0x3000) 0
  else if 0x20100 ≤ k && k < 0x20700 then bitOf (s.reg (k / 0x40 * 0x40)) 0
  else if 0x20000 ≤ k && k < 0x21000 then bitOf (s.reg 0x20000) 0
  else if 0x40000 ≤ k && k < 0x41000 then s.reg 0x40000 % 4 ≠ 0
  else if 0x100000 ≤ k && k < 0x111000 then bitOf (s.reg (k / 0x100 * 0x100)) 0
  else false

/-- The key of the register that enables the block a register locks with (R583). -/
def enKey (k : Nat) : Nat :=
  if 0x1000 ≤ k && k < 0x2000 then k / 0x800 * 0x800
  else if 0x3000 ≤ k && k < 0x4000 then 0x3000
  else if 0x20100 ≤ k && k < 0x20700 then k / 0x40 * 0x40
  else if 0x20000 ≤ k && k < 0x21000 then 0x20000
  else if 0x40000 ≤ k && k < 0x41000 then 0x40000
  else k / 0x100 * 0x100

/-- The lock of a register's block: it follows the enable from the tick after the change (R7). -/
def State.locked (s : State) (k : Nat) : Bool :=
  match sfind s.lockWas (enKey k) with
  | some b => b
  | none => s.blockOn k

/-- A block's enable has changed since `was`: the lock stays as it stood until the next tick (R7). -/
def State.holdLock (s was : State) (k : Nat) : State :=
  if was.blockOn k != s.blockOn k && (sfind s.lockWas (enKey k)).isNone then { s with lockWas := sins s.lockWas (enKey k) (was.blockOn k) } else s

/-- HIF_STATUS of port `p` (R472). -/
def State.hifStatus (s : State) (p : Nat) : Nat :=
  b2n s.up + 2 * b2n (s.host p).enrdy + 4 * b2n (s.auth p) + 8 * b2n (s.auth (1 - p)) + 16 * b2n (s.phase == .stopped)

/-- ID_SPARE_STATUS_Qq (R586). -/
def State.spareStatus (s : State) (q : Nat) : Nat :=
  bitsOf s.plc.fenced.toNat (17 * q) 17 +
    2 ^ 17 * (match s.plc.spareOf q with | some k => k - 17 * q | none => 0x1F) + 2 ^ 22 * b2n (s.plc.freeSpare q).isSome

/-- LNK_Pn_STATUS (R314). -/
def LinkPort.status (l : LinkPort) : Nat :=
  l.state.code + 2 ^ 4 * l.lanes.toNat + 2 ^ 8 * b2n l.tlock + 2 ^ 9 * l.peer.toNat + 2 ^ 25 * l.peerPort.toNat +
    2 ^ 30 * b2n l.spared + 2 ^ 31 * b2n l.downev

/-- The status of port `p`: TLOCK only where it is the time parent (R314). -/
def State.portStatus (s : State) (p : Nat) : Nat :=
  let l := s.link p
  let w := s.reg 0x20010
  { l with tlock := l.tlock && !bitOf w 0 && bitsOf w 1 5 == p }.status

/-- Registers of context index `n` (R590). -/
def State.schReg (s : State) (n o : Nat) : Nat :=
  match sfind s.ctxs n with
  | none => 0
  | some c =>
    match o with
    | 0 => c.st.code + 8 + 2 ^ 8 * c.status
    | 4 => c.step.toNat
    | 8 => c.miss.toNat
    | 0xC => c.ovr.toNat
    | 0x10 => c.switches.toNat
    | _ => c.rr.job

/-- Registers of HBM stack `i` (R592). -/
def State.hbmReg (s : State) (i o : Nat) : Nat :=
  let c := s.hbm.ctlOf i
  match o with
  | 0 => b2n c.sref + 2 * b2n c.exhausted + 4 * b2n c.laneRemap + 2 ^ 16 * c.retired.length
  | 4 => c.uncorr.toNat
  | _ => c.repairs.toNat

/-- PLC_DRAIN: the oldest move that is draining (R595). -/
def State.drainReg (s : State) : Nat :=
  match s.plc.drains with
  | [] => 0xFF00
  | d :: _ => d.count + 2 ^ 8 * d.ltile

/-- DBG_STATUS (R602). -/
def State.dbgReg (s : State) : Nat :=
  b2n (s.sec.scopes == 0) + 2 * b2n s.sec.observe + 4 * b2n s.sec.invasive + 8 * b2n s.fuses.dbgDisable +
    16 * s.sec.fails + 256 * b2n (s.sec.fails == 8)

/-- The low half of a 64-bit pair at a key, with the whole value (R581, R586, R587, R591, R593, R599, R602).
Pairs whose value never changes on its own, the serial number and the HIF addresses, are read directly (log 26). -/
def State.pair (s : State) (k : Nat) : Option Nat :=
  match k with
  | 0x2000 => some s.now.toNat
  | 0x5000 => some s.cvUnchecked.toNat
  | 0x20018 => some s.fabric
  | 0x300008 => some s.sec.openTime.toNat
  | _ =>
    if 0x100000 ≤ k && k < 0x111000 && 0x80 ≤ k % 0x100 && k % 8 == 0 then
      some (sget zero64 (s.ptile ((k - 0x100000) / 0x400)).chr (k / 0x100 % 4 * 16 + (k % 0x100 - 0x80) / 8)).toNat
    else none

/-- What a read-only or computed register reads as. -/
def State.roValue (s : State) (k : Nat) : Nat :=
  let img := s.sec.image
  if 0x20 ≤ k && k < 0x30 then s.spareStatus ((k - 0x20) / 4)
  else if 0x4100 ≤ k && k < 0x4200 then s.schReg ((k - 0x4100) / 0x20) (k % 0x20)
  else if 0x10100 ≤ k && k < 0x101C0 then s.hbmReg ((k - 0x10100) / 0x10) (k % 0x10)
  else if 0x10400 ≤ k && k < 0x10A00 then (sget zero32 s.hbm.cec ((k - 0x10400) / 4)).toNat
  else if 0x30100 ≤ k && k < 0x30200 then s.plc.phys ((k - 0x30100) / 4)
  else if 0x40100 ≤ k && k < 0x40540 then
    let t := s.ptile ((k - 0x40100) / 0x10)
    match k % 0x10 with
    | 0 => t.wchDone.toNat
    | 4 => t.wchAbandon.toNat
    | 8 => t.wchFail.toNat
    | _ => t.wchSel.toNat
  else if 0x50100 ≤ k && k < 0x50540 then
    let t := s.ptile ((k - 0x50100) / 0x10)
    if k % 0x10 = 0 then t.drops.toNat else t.collisions.toNat
  else if 0x200100 ≤ k && k < 0x200200 then
    fieldLe (s.fuses.rootHash.getD ((k - 0x200100) / 0x40) []) (k % 0x40) 4
  else match k with
    | 0x0 => 0x3160
    | 0x4 => s.fuses.rev.toNat
    | 0x8 => s.fuses.romrev.toNat
    | 0xC => s.fuses.serial.toNat % 2 ^ 32
    | 0x10 => s.fuses.serial.toNat / 2 ^ 32
    | 0x14 => (match img with | some i => i.ver.toNat | none => 0)
    | 0x18 => (match img with | some i => i.slot + 2 * b2n i.trial | none => 0)
    | 0x2008 => b2n s.clk.lock
    | 0x300C => dutyWord s.power.duty
    | 0x4000 => s.sched.resident.getD 0xFF + 256 * b2n s.sched.test
    | 0x5008 => s.cvFail.toNat
    | 0x500C => s.testLate.toNat
    | 0x20014 => s.lnk.hdrDrops.toNat
    | 0x30000 => s.plc.epoch.toNat
    | 0x30004 => s.drainReg
    | 0x200000 => 2 * b2n s.sec.aliasGone
    | 0x200004 => s.fuses.svnNum
    | 0x200008 => s.fuses.revoke.toNat
    | 0x20000C => s.fuses.pen.toNat
    | 0x300000 => s.dbgReg
    | _ => 0

/-- The key of the model's register table for an offset that an agent accesses: ports 0 and 1 see their own HIF
window; firmware, agent 2, sees both (R575, log 21). -/
def keyOf (ag off : Nat) : Option Nat :=
  if 0x1000 ≤ off && off < 0x2000 then
    if ag < 2 then (if off < 0x1800 then some (0x1000 + 0x800 * ag + (off - 0x1000)) else none) else some off
  else if off < 0x1000000 then some off else none

/-- The _HI latch of an agent for the pair at `k` (R581). -/
def latchKey (ag k : Nat) : Nat := ag * 0x1000000 + k

/-- What a read of a register returns (R472, R473, R576, R582). MSI-X structures answer before RDY. -/
def State.readVal (s : State) (ag off : Nat) : Nat :=
  if ag < 2 && 0xFF0000 ≤ off && off < 0xFF0400 then (sget msixDefault (s.host ag).msixTable ((off - 0xFF0000) / 4)).toNat
  else if ag < 2 && off == 0xFF0800 then (s.host ag).msixPend.toNat % 2 ^ 32
  else if ag < 2 && off == 0xFF0804 then (s.host ag).msixPend.toNat / 2 ^ 32
  else match keyOf ag off with
    | none => 0
    | some k =>
      if 0x1000 ≤ k && k < 0x2000 && k % 0x800 == 4 then s.hifStatus (k / 0x800 - 2)
      else if ag < 2 && !s.up && 0x1000 ≤ k then 0
      else match s.pair k with
        | some v => v % 2 ^ 32
        | none =>
          match (if 4 ≤ k then s.pair (k - 4) else none) with
          | some _ => (sget zero32 s.hi (latchKey ag (k - 4))).toNat
          | none =>
            if 0x20100 ≤ k && k < 0x20700 then
              let l := s.link ((k - 0x20100) / 0x40)
              match k % 0x40 with
              | 0x08 => s.portStatus ((k - 0x20100) / 0x40)
              | 0x0C => l.delay.toNat
              | 0x14 => l.badflit.toNat
              | 0x18 => l.retry.toNat
              | 0x1C => l.feccorr.toNat
              | _ => s.reg k
            else if roKey k then s.roValue k
            else if (regKind k).isSome then s.reg k
            else 0

/-- Read a register: the word goes to the agent; a _LO read latches its _HI half for that agent (R33, R581). -/
def State.readReg (s : State) (ag off : Nat) : State :=
  let s1 := { s with busRead := sput zero32 s.busRead ag (BitVec.ofNat 32 (s.readVal ag off)) }
  match keyOf ag off with
  | none => s1
  | some k =>
    if ag < 2 && !s.up && 0x1000 ≤ k then s1
    else match s.pair k with
      | some v => { s1 with hi := sput zero32 s1.hi (latchKey ag k) (BitVec.ofNat 32 (v / 2 ^ 32)) }
      | none => s1

/-- Count a discarded write in its block's late-write status (R292, R579). -/
def State.late (s : State) (k : Nat) : State :=
  match windowOf k with
  | none => s
  | some (b, _, lw) =>
    let n := min (s.reg (b + lw) % 65536 + 1) 0xFFFF
    (s.noteW1c (b + lw) (2 ^ 31)).setReg (b + lw) (n + (k - b) / 4 % 2 ^ 14 * 2 ^ 16 + 2 ^ 31)

/-- Clear a block's LW_COUNT when it becomes enabled (R292). -/
def State.clearLate (s : State) (k : Nat) : State :=
  match windowOf k with
  | none => s
  | some (b, _, lw) => s.setReg (b + lw) (s.reg (b + lw) / 65536 * 65536)

/-- The field's bits of a word. -/
def RField.of (f : RField) (v : Nat) : Nat := bitsOf v f.lo f.w

/-- The word after a write of its fields: locked fields keep their values (R7). -/
def mergeFields (on : Bool) (old v : Nat) : List RField → Nat → Nat
  | [], acc => acc
  | f :: fs, acc =>
    mergeFields on old v fs (acc + (if f.rwl && on then f.of old else f.of v) * 2 ^ f.lo)

/-- Some locked field would have changed (R7). -/
def lockedHit (on : Bool) (old v : Nat) (fs : List RField) : Bool :=
  on && fs.any fun f => f.rwl && f.of old ≠ f.of v

/-- Some field that is not locked would take a value outside its range (R7, R578). -/
def outOfRange (on : Bool) (v : Nat) (fs : List RField) : Bool := fs.any fun f => !(f.rwl && on) && (f.of v < f.least || f.most < f.of v)

end Sys2Proof.Machine
end

