-- ==== Sys2Proof/Machine/FaultOps.lean ====
section
/-! DEFINITION. Machine/FaultOps.lean: tiles and contexts of the state, stopping a context, and the job-fault
sequence (R426 to R429, R484, R485). -/

namespace Sys2Proof.Machine

/-- A logical tile. -/
def State.tile (s : State) (t : Nat) : Tile := sget (fun _ => Tile.init) s.tiles t

/-- Change a logical tile. -/
def State.setTile (s : State) (t : Nat) (x : Tile) : State := { s with tiles := sput (fun _ => Tile.init) s.tiles t x }

/-- Change a registered context. -/
def State.setCtx (s : State) (n : Nat) (c : Ctx) : State := { s with ctxs := sins s.ctxs n c }

/-- The resident context. -/
def State.resCtx (s : State) : Option (Nat × Ctx) :=
  match s.sched.resident with
  | none => none
  | some n => (sfind s.ctxs n).map fun c => (n, c)

/-- Active logical tiles, ascending. -/
def Ctx.tiles (c : Ctx) : List Nat := (List.range 64).filter fun t => bitOf c.rr.tiles.toNat t

/-- The step number of the resident context (R105). -/
def State.step (s : State) : W32 := match s.resCtx with | some (_, c) => c.step | none => 0

/-- The seed of the resident context (R104). -/
def State.seed (s : State) : W64 := match s.resCtx with | some (_, c) => c.rr.seed | none => 0

/-- Device memory: HBM and, from `sramBase`, the tiles' SRAM windows (R221). -/
def State.mem (s : State) : Mem := s.hbm.mem

/-- Replace device memory. -/
def State.setMem (s : State) (m : Mem) : State := { s with hbm := { s.hbm with mem := m } }

/-- Free values are used up (log 10). -/
def State.spend (s : State) (n : Nat) : State := { s with freeCtr := s.freeCtr + n }

/-- First device address of a tile's SRAM window (R221). -/
def sramAt (t : Nat) : Nat := sramBase + t * sramSize

/-- Bytes of a tile's SRAM from an offset. -/
def State.sram (s : State) (t off n : Nat) : List Byte := rdBytes s.mem (sramAt t + off) n

/-- The poison bit of a granule number, in HBM's check-value table or an SRAM tag (R400, R401). -/
def State.pois (s : State) (g : Nat) : Bool := (s.hbm.gran g).poison

/-- What the tag of a granule of tile SRAM differs by from its bytes' check value (R400, log 12). -/
def State.tagOff (s : State) (g : Nat) : W32 := (s.hbm.gran g).cv

/-- A granule of tile SRAM takes a tag with the data that a stream or a link brings (R400, R403, R405). Engines' writes keep the difference,
since CRC-32C is linear. -/
def State.setTag (s : State) (g : Nat) (v : W32) : State := { s with hbm := s.hbm.setGran g { s.hbm.gran g with cv := v } }

/-- Some granule of a byte range is poisoned. -/
def State.poisIn (s : State) (a n : Nat) : Bool :=
  (List.range ((a + n + 4095) / 4096 - a / 4096)).any fun i => s.pois (a / 4096 + i)

/-- Bytes of granule `g` that the intervals cover. -/
def covered (ivs : List (Nat × Nat)) (g : Nat) : Nat :=
  (ivs.map fun p => min (p.1 + p.2) (4096 * g + 4096) - max p.1 (4096 * g)).sum

/-- Granules that the intervals touch. -/
def granulesOf (ivs : List (Nat × Nat)) : List Nat :=
  (ivs.map fun p => (List.range ((p.1 + p.2 + 4095) / 4096 - p.1 / 4096)).map (p.1 / 4096 + ·)).flatten.dedup

/-- The marks of an engine's write: a poisoned write marks every granule it touches; a clean one clears the mark
of the granules it covers whole (R408, R409). -/
def State.markWrite (s : State) (ivs : List (Nat × Nat)) (poison : Bool) : State :=
  { s with hbm := (granulesOf ivs).foldl (fun h g =>
      if poison then h.setGran g { h.gran g with poison := true }
      else if covered ivs g = 4096 then h.setGran g { h.gran g with poison := false } else h) s.hbm }

/-- An atomic update of bytes in HBM is a write of less than a granule (R58, R402). -/
def State.noteHbm (s : State) (a n : Nat) : State :=
  if hbmEnd ≤ a || n = 0 then s
  else { s with hbm := (granulesOf [(a, n)]).foldl (fun h g => (h.setGran g { h.gran g with cvv := false }).touch g) s.hbm }

/-- The stop of a logical tile. -/
def State.stopOf (s : State) (t : Nat) : Nat := tileStop (s.plc.phys t)

/-- A packet for logical tile `t` from a stop, in a class and under an epoch, is held by a move (R248). -/
def State.moveHolds (s : State) (t stop cls : Nat) (epoch : W32) : Bool :=
  s.plc.drains.any fun d => d.ltile == t && d.holds stop cls epoch

/-- One that is sent now is held: every stop has adopted the binding in force (R247, log 82). -/
def State.mustHold (s : State) (t stop cls : Nat) : Bool := s.moveHolds t stop cls s.plc.epoch

/-- The tile whose SRAM window holds an address (R221). -/
def ownerOf (a : Nat) : Nat := (a - sramBase) / sramSize

/-- The permission bits of a granule: those of the region that covers it, or 0 (R227, R228). -/
def permOf (rs : List Region) (a : Nat) : Nat :=
  match rs.find? fun r => r.base ≤ a && a < r.base + r.len with
  | some r => r.flags
  | none => 0

/-- A requester: logical tile and stream context. -/
def Hctl.requesters (c : Hctl) : List (Nat × Nat) := (c.queue.map fun q => (q.tile, q.ctx)).dedup

/-- Credit key of a quadrant arbiter's child tile, by physical tile (R245). -/
def tileKey (k : Nat) : Nat := 4 + k
/-- Credit key of a stream context of a physical tile. -/
def ctxKey (k c : Nat) : Nat := 100 + 32 * k + c
/-- Credit key of an agent of a quadrant's hub: 0 the control cluster, 1 and 2 the PCIe ports, 3 to 8 the inbound sides of the quadrant's
Turain ports. -/
def hubKey (q h : Nat) : Nat := 3000 + 16 * q + h

/-- Keys of the quadrants, tiles and contexts that have requests waiting at a controller. -/
def Hctl.activeKeys (c : Hctl) (phys : Nat → Nat) : List Nat :=
  c.requesters.flatMap fun r => [phys r.1 / 17, tileKey (phys r.1), ctxKey (phys r.1) r.2]

/-- A child whose weight has fallen to zero has its credit reset (R245). -/
def Hctl.prune (c : Hctl) (phys : Nat → Nat) (hubs : List Nat) : Hctl :=
  { c with credit := c.credit.filter fun p => (c.activeKeys phys ++ hubs).contains p.1 }

/-- Take requests out of every HBM controller, and window entries: the weights that fall to zero lose their credit. -/
def Hbm.sift (h : Hbm) (phys : Nat → Nat) (gone : HReq → Bool) (out : PfEntry → Bool) : Hbm :=
  { h with ctl := h.ctl.filterMap fun p =>
      let c : Hctl := { p.2 with queue := p.2.queue.filter fun q => !gone q, win := p.2.win.filter fun e => !out e }
      let hubs := (c.credit.map Prod.fst).filter fun k => 3000 ≤ k || (k < 4 && c.credit.any fun e => 3000 ≤ e.1 && (e.1 - 3000) / 16 = k)
      let c := c.prune phys hubs
      if c = Hctl.init then none else some (p.1, c) }

/-- Take requests of some tiles out of every HBM controller, with their window entries. -/
def State.forget (s : State) (gone : Nat → Bool) : Hbm := s.hbm.sift s.plc.phys (fun q => gone q.tile) fun e => gone e.tile

/-- A transfer carries control messages of the collective engine. -/
def Cargo.ctl : Cargo → Bool
  | .control _ _ => true
  | _ => false

/-- An array that keeps only whether it is out of use (R415). -/
def Arr.bare (a : Arr) : Arr := { Arr.init with out := a.out }

/-- A tile in its reset state, its arrays that are out of use still so. -/
def Tile.bare (x : Tile) : Tile := { Tile.init with f := x.f.bare, b0 := x.b0.bare, b1 := x.b1.bare }

/-- A tile whose arrays are out of use where those of another are. -/
def Tile.keepOut (x old : Tile) : Tile :=
  { x with f := { x.f with out := old.f.out }, b0 := { x.b0 with out := old.b0.out }, b1 := { x.b1 with out := old.b1.out } }

/-- Return a context's tiles to their reset state, and abandon their transfers but for control messages; device memory keeps
its bytes. -/
def State.dropTiles (s : State) (ts : List Nat) : State :=
  { s with metaQ := s.metaQ.filter fun o => !ts.contains (ownerOf o.addr)
           tiles := s.tiles.filterMap (fun p => if !ts.contains p.1 then some p else
             if p.2.bare = Tile.init then none else some (p.1, p.2.bare)),
           hbm := s.forget ts.contains,
           lnk := { s.lnk with send := s.lnk.send.filter (fun p => !ts.contains (p.1 / 16) || p.2.cargo.ctl),
                               recv := s.lnk.recv.filter fun p => !ts.contains (p.1 / 16) } }

/-- Complete a ring's started CTX_STOP commands of context `n` (R485). -/
def HostPort.endStops (h : HostPort) (n status : Nat) (now : W64) : HostPort :=
  h.rings.foldl (fun a p =>
    let mine := p.2.started.filterMap fun x => match x with
      | .ctxStop f => if f.e.ctx = n then some f else none
      | .dma _ _ => none
    if mine.isEmpty then a
    else
      let a := match sfind a.rings p.1 with
        | none => a
        | some g => { a with rings := sins a.rings p.1 { g with started := g.started.filter fun x => match x with
            | .ctxStop f => f.e.ctx != n
            | .dma _ _ => true } }
      mine.foldl (fun a f => a.complete p.1 now (f.done 0x00 status 0)) a) h

/-- Complete the CTX_STOP commands of a context on both ports. -/
def State.endStops (s : State) (n status : Nat) : State :=
  (List.range 2).foldl (fun a p => a.setHost p (((a.host p).endStops n status a.now).finishQuiesce)) s

/-- Stop a context with a status: the first status stands (R484). Its tiles are released and both hosts get a
CONTEXT_STOPPED event (R496). -/
def State.stopCtx (s : State) (n status : Nat) : State :=
  match sfind s.ctxs n with
  | none => s
  | some c =>
    if c.st = .stopped then s
    else
      let s := if s.sched.resident = some n then (s.dropTiles c.tiles) else s
      let s := { s with sched := if s.sched.resident = some n then { s.sched with resident := none } else s.sched }
      let s := s.setCtx n { c with st := .stopped, status := status, wins := [], preempt := none, stopReq := none, signals := [] }
      let s := s.event 0x02 n [(0, 1, status)] []
      s.endStops n status

/-- A job fault before its sequence runs (R427). -/
structure JF where
  cause : Nat
  src : Nat
  addr : Nat
  detail : Nat
  /-- the logical tile, where it is not the one the event is for -/
  tile : Option Nat
  deriving DecidableEq, Repr

/-- An illegal encoding found at issue: the failing condition's number, and the record's SRAM offset (R427). -/
def JF.illegal (detail addr : Nat) : JF := ⟨1, 0, addr, detail, none⟩

/-- The fault record (R427). JF_BIDX is the tile's program counter whatever engine faults (log 30). -/
def State.faultRecord (s : State) (f : JF) (n : Nat) (c : Ctx) (ltile : Option Nat) : List Byte :=
  let x := match ltile with | some t => s.tile t | none => Tile.init
  packFields 64 [(0, 1, f.cause), (1, 1, n), (2, 1, ltile.getD 0xFF), (3, 1, f.src), (4, 2, x.pc),
    (8, 4, x.seg.id), (12, 4, c.step.toNat), (16, 8, s.now.toNat), (24, 8, f.addr), (32, 4, if f.cause = 1 then f.detail else 0),
    (36, 4, c.rr.job)]

/-- The tile fabric is reset (R426 step 3): SRAM, tags, architectural state and queues of all tiles. -/
def State.resetFabric (s : State) : State :=
  { s with tiles := [], metaQ := [],
           hbm := { (s.forget fun _ => true) with
             mem := s.hbm.mem.filter (fun p => p.1 < sramBase), tab := s.hbm.tab.filter (fun p => p.1 < sramBase / 4096) } }

/-- Everything the device runs for its contexts is abandoned (R426 step 2). -/
def State.abandonAll (s : State) : State := { s.resetFabric with lnk := { s.lnk with send := [], recv := [] } }

/-- A job fault of the resident context (R426): the sequence runs whole in the tick of detection (log 30). -/
def State.jobFault (s : State) (f : JF) (ltile : Option Nat) : State :=
  match s.resCtx with
  | none => s
  | some (n, c) =>
    let r := s.faultRecord f n c ltile
    let others := s.ctxs.filter fun p => p.1 != n && p.2.st != .stopped
    let s := s.abandonAll
    let s := { s with ctxs := [], sched := { s.sched with resident := none, switching := false, incoming := none } }
    let s := s.event 0x01 n [(0, 1, f.cause)] r
    let s := (s.event 0x02 n [(0, 1, 0x02)] []).endStops n 0x02
    others.foldl (fun s p => (s.event 0x02 p.1 [(0, 1, 0x03)] []).endStops p.1 0x03) s

/-- A rule that fails with a job fault ends so; one that holds goes on. -/
def State.orFault (s : State) (t : Nat) : Except JF State → State
  | .ok s' => s'
  | .error f => s.jobFault f (some (f.tile.getD t))

/-- Tick of the fault-free part of a tile: an increment on its way to a counter (R281 to R283). -/
def Tile.inc (x : Tile) (obj n : Nat) : Tile := if n = 0 then x else { x with incs := x.incs ++ [⟨obj, n, 72, 0⟩] }

/-- An increment that another stop sends as synchronisation traffic (R21, R247). -/
def State.incFrom (s : State) (stop t obj n : Nat) : State :=
  let x := s.tile t
  if n = 0 then s else s.setTile t { x with incs := x.incs ++ [⟨obj, n, stop, s.plc.epoch⟩] }

/-- An engine completion: one increment where the object is enabled. -/
def State.signal (s : State) (t : Nat) (on : Bool) (obj : Nat) : State :=
  if on then s.setTile t ((s.tile t).inc obj 1) else s

/-- A digest lane (R384): F 0, B0 1, B1 2, V 3, X 4. -/
def Tile.lane (x : Tile) (l : Nat) : DLane := sget (fun _ => (⟨0, 0⟩ : DLane)) x.dl l

/-- A check-value block of a tensor part: TID, number of the block with its part's offset, first byte (R48, R56). -/
structure CvBlk where
  tid : Nat
  blk : Nat
  addr : Nat
  deriving DecidableEq, Repr

/-- Check-value blocks of one part that intervals touch. -/
def partBlocks (tid base len off : Nat) (ivs : List (Nat × Nat)) : List CvBlk :=
  if base = 0 && off ≠ 0 then [] else
  ((granulesOf (ivs.filter fun p => base ≤ p.1 && p.1 < base + upTo len 4096)).map fun g =>
    ⟨tid, (g * 4096 - base) / 4096 + off, g * 4096⟩)

/-- Check-value blocks of a tensor that intervals touch (R384). -/
def TDesc.cvTouched (d : TDesc) (ivs : List (Nat × Nat)) : List CvBlk :=
  partBlocks d.tid d.mbase d.mantBytes 0 ivs ++
    (if d.lum then partBlocks d.tid d.sbase d.blocks 0x80000000 ivs else []) ++
    (if d.flushmap then partBlocks d.tid d.fbase d.blocks 0xC0000000 ivs else [])

/-- Append a trace record to the context's trace ring (R387). -/
def State.trace (s : State) (t lane bidx iter : Nat) (sum : W64) (cnt : Nat) : State :=
  match s.resCtx with
  | none => s
  | some (n, c) =>
    if c.rr.trsize < 32 || !bitOf c.rr.trace.toNat t then s
    else
      let r := packFields 32 [(0, 4, (s.tile t).seg.id), (4, 2, bidx), (6, 1, lane), (7, 1, t), (8, 8, iter), (16, 8, sum.toNat),
        (24, 4, cnt), (28, 4, c.step.toNat)]
      let a := c.rr.tring + c.traceAt % (c.rr.trsize / 32) * 32
      let s := { s with hbm := s.hbm.writePart a r }
      s.setCtx n { c with traceAt := c.traceAt + 1 }

/-- Credit an operation's blocks to a lane and trace it (R384, R387). `ver` is the version its blocks carry (log 31). -/
def State.credit (s : State) (t lane bidx iter : Nat) (blks : List CvBlk) (ver : W32) : State :=
  if blks.isEmpty then s
  else
    let sum := blks.foldl (fun a b => a + tdmix (bareCv (rdBytes s.mem b.addr 4096)) (BitVec.ofNat 32 b.tid) (BitVec.ofNat 32 b.blk) ver) (0 : W64)
    let x := s.tile t
    let l := x.lane lane
    let s := s.setTile t { x with dl := sput (fun _ => (⟨0, 0⟩ : DLane)) x.dl lane ⟨l.sum + sum, l.cnt + BitVec.ofNat 32 blks.length⟩ }
    s.trace t lane bidx iter sum blks.length

/-- Set bits of a tile's conversion status word (R92). -/
def State.setCvst (s : State) (t : Nat) (b : W32) : State :=
  let x := s.tile t
  s.setTile t { x with cvst := x.cvst ||| b }

end Sys2Proof.Machine
end

