-- ==== Sys2Proof/Machine/ArrayRec.lean ====
section
/-! DEFINITION. Machine/ArrayRec.lean: array operation records, their advances, and the conditions an array
instruction must meet when it issues (R133 to R153, R160 to R163, R267 to R273, R603, R605, R608). -/

namespace Sys2Proof.Machine

/-- Where a record or descriptor stands in a tile's SRAM: its bytes, an illegal encoding where the offset is not
aligned or reaches past the SRAM (R222, R604). -/
def State.recAt (s : State) (t off n align : Nat) : Except JF (List Byte) :=
  if off % align ≠ 0 || sramSize < off + n then .error (JF.illegal 0 off) else .ok (s.sram t off n)

/-- A tensor descriptor named by an SRAM offset, checked (R52 to R54, R222). -/
def State.descAt (s : State) (t off : Nat) : Except JF TDesc := do
  let b ← s.recAt t off 64 64
  let d := TDesc.ofBytes b
  match d.fault with
  | some n => .error (JF.illegal n off)
  | none => .ok d

/-- A condition that makes an encoding illegal. -/
def illegalIf (c : Bool) (detail addr : Nat) : Except JF Unit := if c then .error (JF.illegal detail addr) else .ok ()

/-- R603: the parts of a descriptor lie wholly within the issuing tile's own SRAM window. -/
def TDesc.localTo (d : TDesc) (t : Nat) : Bool :=
  let ok := fun a n => decide (sramAt t ≤ a) && decide (a + n ≤ sramAt t + sramSize)
  ok d.mbase d.mantBytes && (!d.lum || ok d.sbase d.blocks) && (!d.flushmap || ok d.fbase d.blocks)

/-- R269, R270: a record from its 128 bytes. -/
def ARec.ofBytes (off : Nat) (b : List Byte) : ARec :=
  let w := fieldLe b 92 4
  let four := fun o => [fieldLe b o 4, fieldLe b (o + 4) 4, fieldLe b (o + 8) 4, fieldLe b (o + 12) 4]
  { off := off, movd0 := fieldLe b 0 4, movd1 := fieldLe b 4 4, dstd0 := fieldLe b 8 4, dstd1 := fieldLe b 12 4, mc0 := four 16,
    mc1 := four 32, dc0 := four 48, dc1 := four 64, kstart := fieldLe b 80 2, klen := fieldLe b 82 2, m := fieldLe b 84 4,
    accrow := fieldLe b 88 2, accm := bitsOf w 0 2, wrm := bitsOf w 2 2, alvl := bitsOf w 4 2, wlvl := bitsOf w 6 2,
    wform := bitsOf w 8 2, grad := bitOf w 10, ht := bitOf w 11, swap := bitOf w 12, otm := bitOf w 13, colset := bitsOf w 14 2,
    drow := bitsOf w 16 2, sync := bitsOf w 18 8, syncen := bitOf w 26, xd0 := fieldLe b 96 4, xd1 := fieldLe b 100 4,
    xd2 := fieldLe b 104 4, adv := four 108, skrec := fieldLe b 124 4, rsv := fieldLe b 90 2 + w / 2 ^ 27 }

/-- OP values of R267. -/
def opKnown (op : Nat) : Bool := (1 ≤ op && op ≤ 7) || op == 0x21 || op == 0x22 || op == 0x24
/-- mma.diag. -/
def opDiag : Nat := 6
/-- mld. -/
def opMld : Nat := 7
/-- A .cx form. -/
def isCx (op : Nat) : Bool := 0x20 ≤ op
/-- Split-N. -/
def isSplit (op : Nat) : Bool := op == 3
/-- Tree mode. -/
def isTree (op : Nat) : Bool := op == 5

/-- A shape: first row, rows, columns for each problem, latency L and chain interval C (R134 to R136). -/
structure Shape where
  first : Nat
  rows : Nat
  cols : Nat
  lat : Nat
  chain : Nat
  deriving DecidableEq, Repr

/-- R134 to R136. -/
def shapeOf (op : Nat) : Shape :=
  match op % 32 with
  | 1 => ⟨0, 256, 128, 396, 256⟩
  | 2 => ⟨128, 128, 128, 268, 128⟩
  | 3 => ⟨0, 256, 64, 332, 256⟩
  | 4 => ⟨128, 128, 64, 204, 128⟩
  | 5 => ⟨192, 64, 64, 18, 6⟩
  | _ => ⟨0, 0, 0, 20, 0⟩

/-- An index register as a signed value (R256). -/
def Tile.xs (x : Tile) (i : Nat) : Int := (sget zero32 x.x i).toInt

/-- A loop level. -/
def Tile.level (x : Tile) (n : Nat) : Level := sget (fun _ => (⟨0, 0, false⟩ : Level)) x.lv n

/-- The advance entries that are used: target, and what they add (R271). -/
def ARec.adds (r : ARec) (x : Tile) : List (Nat × Int) :=
  (r.adv.filter fun e => e % 32 ≠ 31).map fun e => (e % 32, sgn (e / 65536) 16 * x.xs (e / 256 % 16))

/-- What the entries add to target `k`. -/
def addOf (as : List (Nat × Int)) (k : Nat) : Int := ((as.filter fun p => p.1 = k).map Prod.snd).sum

/-- A list of fields with the additions of targets from `k`. -/
def advList (as : List (Nat × Int)) (k : Nat) (l : List Nat) : List Int := l.zipIdx.map fun p => (p.1 : Int) + addOf as (k + p.2)

/-- R271: the record with its advances; out of range is an illegal encoding. -/
def ARec.advance (r : ARec) (x : Tile) (diag : Bool) : Except JF ARec := do
  let as := r.adds x
  let c0 := if diag then [] else advList as 0 r.mc0
  let c1 := advList as 4 r.mc1
  let d0 := advList as 8 r.dc0
  let d1 := advList as 12 r.dc1
  let all := c0 ++ c1 ++ d0 ++ d1
  let ks := (r.kstart : Int) + addOf as 16
  let ac := (r.accrow : Int) + addOf as 17
  let idx := ((r.mc0.getD 0 0 + 2 ^ 32 * r.mc0.getD 1 0 : Nat) : Int) + addOf as 0
  illegalIf (all.any fun v => v < 0 || 2 ^ 32 ≤ v) 0 r.off
  illegalIf (ks < 0 || 255 < ks || ac < 0 || 511 < ac) 0 r.off
  illegalIf (diag && (idx < 0 || 2 ^ 64 ≤ idx)) 0 r.off
  let nat := fun (l : List Int) => l.map Int.toNat
  .ok { r with mc0 := if diag then [idx.toNat % 2 ^ 32, idx.toNat / 2 ^ 32, r.mc0.getD 2 0, r.mc0.getD 3 0] else nat c0,
               mc1 := nat c1, dc0 := nat d0, dc1 := nat d1, kstart := ks.toNat, accrow := ac.toNat }

/-- The first element index of mma.diag (R269). -/
def ARec.diagIdx (r : ARec) : Nat := r.mc0.getD 0 0 + 2 ^ 32 * r.mc0.getD 1 0

/-- R273 condition 1: reserved fields and encodings (R269 to R271). -/
def ARec.reserved (r : ARec) (op : Nat) : Bool :=
  r.rsv ≠ 0 || r.accm == 3 || r.wrm == 3 || r.wform == 3 || r.colset == 3 || 2 ≤ r.drow ||
  r.adv.any (fun e => e / 32 % 8 ≠ 0 || e / 4096 % 16 ≠ 0 || (18 ≤ e % 32 && e % 32 ≠ 31) ||
    (op == opDiag && 1 ≤ e % 32 && e % 32 ≤ 15))

/-- R273 condition 2: a field the OP does not use is nonzero. -/
def ARec.unused (r : ARec) (op : Nat) : Bool :=
  let z := fun (l : List Nat) => l.any (· ≠ 0)
  let mld := op == opMld
  let diag := op == opDiag
  let split := isSplit op
  let cx := isCx op
  (!(split || cx || diag) && r.movd1 ≠ 0) || (mld && r.dstd0 ≠ 0) || (!(split || cx || (r.ht && !mld && !diag)) && r.dstd1 ≠ 0) ||
  (diag && z (r.mc0.drop 2)) || (!(split || cx) && z r.mc1) || ((mld || diag) && z r.dc0) || (!split && z r.dc1) ||
  (diag && (r.kstart ≠ 0 || r.klen ≠ 0)) || (mld && r.m ≠ 0) || ((mld || diag) && r.accrow ≠ 0) ||
  (!cx && (r.xd0 ≠ 0 || r.xd1 ≠ 0 || r.xd2 ≠ 0)) || (mld && r.skrec ≠ 0)

/-- R161: the K extent of an operand, or none where it may not be read so. -/
def TDesc.kext (d : TDesc) (otm : Bool) : Option Nat :=
  if !d.lum then none
  else if otm then (if d.consT && d.bshape == 5 && d.rank ≠ 0 then some 8 else none)
  else if d.consN then some (blockLength d.bshape) else none

/-- The contracted stored dimension (R160). -/
def cdim (otm : Bool) : Nat := if otm then 1 else 0

/-- R86: a write form, gradient mark and head-and-tail option that the destination does not permit. -/
def formBad (d : TDesc) (wform : Nat) (grad ht : Bool) : Bool :=
  (grad && ht) || (if d.lum then ht || (!d.smode && wform ≠ 0) else wform ≠ 0 || (ht && d.fmt ≠ 3))

/-- R608: the N extent, for a problem whose destination starts at `dc`. -/
def nExtent (d : TDesc) (r : ARec) (dc : List Nat) (cols : Nat) : Nat :=
  min cols (d.padExt (1 - r.drow) - dc.getD (1 - r.drow) 0)

/-- The state of a plane's column sets: a plane coordinate that is no multiple of the K extent (R605). A coordinate before the tensor's
first is illegal too, and a column set that no mld has loaded has none and passes (log 32). -/
def metaBad (kstart : Nat) : Option PMeta → Bool
  | none => false
  | some p => (p.start + kstart - p.kstart) % p.kext ≠ 0 || p.start + kstart < p.kstart

/-- The column sets of the plane that an instruction uses. -/
def Plane.metas (p : Plane) (op : Nat) : List (Option PMeta) := if (shapeOf op).cols = 64 && !isSplit op then [p.lo] else [p.lo, p.hi]

/-- The K-block length for a column set (R64). -/
def kblock (kext : Nat) : Option PMeta → Nat
  | none => kext
  | some p => min kext p.kext

/-- R140: what a destination must meet. -/
def destBad (d : TDesc) (r : ARec) (dc : List Nat) (cols : Nat) : Bool :=
  let o := 1 - r.drow
  d.padExt o ≤ dc.getD o 0 || nExtent d r dc cols < d.blockExt o || dc.getD o 0 % d.blockExt o ≠ 0 || 128 < d.blockExt r.drow ||
  dc.getD r.drow 0 % d.blockExt r.drow ≠ 0 || d.padExt r.drow < dc.getD r.drow 0 + r.m ||
  d.storedExt 2 ≤ dc.getD 2 0 || d.storedExt 3 ≤ dc.getD 3 0

/-- A slice of complication mode (R114, R118). -/
def sliceBad (d : TDesc) : Bool := d.fmt ≠ 0 || d.bshape ≠ 1 || d.smode || !d.consN || d.consT

/-- Slices of one tensor contract the same logical dimension: it is stored dimension 0 of each (R114). -/
def sliceDims (hs : List TDesc) : Bool := (hs.map fun h => h.order.getD 0 0).dedup.length ≤ 1

/-- Slice tensors that R114 did not write together: a bad slice, or different RANK, extents or contracted dimension, or one TID twice
(R118). -/
def slicesBad (hs : List TDesc) : Bool :=
  hs.any sliceBad || 1 < (hs.map fun h => (h.rank, h.ext)).dedup.length || !sliceDims hs || !decide (hs.map (·.tid)).Nodup

/-- A moving operand of a product: its K range begins and ends where R66 and R605 ask. One that reaches past the padded extent is illegal
too, even at a K-block boundary, since no element stands there (log 32). -/
def movBad (d : TDesc) (r : ARec) (st : List Nat) (kext : Nat) (ms : List (Option PMeta)) : Bool :=
  let c := st.getD (cdim r.otm) 0
  let p := d.padExt (cdim r.otm)
  c % kext ≠ 0 || p < c + r.klen || ms.any fun m => r.klen % kblock kext m ≠ 0 && c + r.klen ≠ p

/-- A descriptor that an operand must name (R269: zero names none). -/
def State.namedDesc (s : State) (t : Nat) (r : ARec) (off : Nat) : Except JF TDesc :=
  if off = 0 then .error (JF.illegal 3 r.off) else s.descAt t off

/-- One whose parts the instruction reads or writes in its tile's SRAM (R603). -/
def State.needDesc (s : State) (t : Nat) (r : ARec) (off : Nat) : Except JF TDesc := do
  let d ← s.namedDesc t r off
  illegalIf (!d.localTo t) 0 off
  .ok d

/-- A descriptor that is named and not used: it is checked all the same (R54, R255, R604). -/
def State.idleDesc (s : State) (t off : Nat) : Except JF Unit := if off = 0 then .ok () else do let _ ← s.descAt t off

/-- A split-K record from its 64 bytes (R142). -/
def SkRec.ofBytes (b : List Byte) : SkRec :=
  { id := fieldLe b 0 2, n := fieldLe b 2 1, root := fieldLe b 3 1, mask := fieldLe b 8 8, stage := fieldLe b 16 4,
    slots := fieldLe b 20 2, rsv := fieldLe b 4 4 + leNat (b.drop 22) }

/-- The instruction contributes to a reduction that another tile writes, so that it writes no destination block itself (R143). -/
def State.skElsewhere (s : State) (t : Nat) (r : ARec) : Bool :=
  r.skrec ≠ 0 && (SkRec.ofBytes (s.sram t r.skrec 64)).root ≠ t

/-- The destination of one problem, checked (R86, R140, R603, R608). Of a split-K contribution it lies in the root's SRAM (R143). -/
def State.needDest (s : State) (t : Nat) (r : ARec) (off : Nat) (dc : List Nat) (cols : Nat) (ht : Bool) : Except JF TDesc := do
  let d ← if s.skElsewhere t r then s.namedDesc t r off else s.needDesc t r off
  illegalIf (formBad d r.wform r.grad ht) 0 r.off
  illegalIf (destBad d r dc cols) 3 r.off
  .ok d

/-- Bits set in a mask. -/
def popCount (m : Nat) : Nat := ((List.range 64).filter (bitOf m)).length

/-- Rows of a commit group of a problem (R141); for mma.diag, groups of 256 elements. A tree instruction into longer blocks takes their
length, since no block is written in part (R59, R140, log 61). -/
def groupRows (o : AOp) (k : Nat) : Nat :=
  if o.op = opDiag then 1 else if o.wr then max 8 ((if k = 0 then o.dst0 else o.dst1).blockExt o.r.drow) else 8

/-- Bytes of one part of a commit group in a staging slot, and of the slot (R145). -/
def partBytes (o : AOp) : Nat := groupRows o 0 * 1024
/-- Bytes of a staging slot (R145). -/
def stageLen (o : AOp) (n : Nat) : Nat := n * partBytes o + 64

/-- R142: a record that breaks its field map, on tile `t`. -/
def skRecBad (o : AOp) (k : SkRec) (t : Nat) : Bool :=
  k.rsv ≠ 0 || k.n < 2 || 64 < k.n || 64 ≤ k.root || popCount k.mask ≠ k.n || !bitOf k.mask k.root ||
  (if k.root = t then k.stage % 4096 ≠ 0 || k.slots < 1 || 256 < k.slots ||
      sramSize < k.stage + k.slots * stageLen o k.n
   else k.stage ≠ 0 || k.slots ≠ 0)

/-- R142, R143, R147: the number of the first condition of R147 that a split-K instruction fails; 0 for a head-and-tail
write. `busy`: the reductions in progress on the tile have its identifier among them. -/
def skFault (o : AOp) (k : SkRec) (t : Nat) (busy : Bool) : Option Nat :=
  match firstOf [!o.wr, !(o.op == 1 || o.op == 2 || o.op == 4), skRecBad o k t || (k.root == t && busy), !bitOf k.mask t] with
  | some n => some n
  | none => if o.r.ht then some 0 else none

/-- An operation with no operand checked yet. -/
def AOp.ofRec (op : Nat) (r : ARec) (x : Tile) : AOp :=
  { op := op, r := r,
    acc := r.accm == 1 || (r.accm == 2 && sget zero32 x.x (12 + r.alvl) ≠ 0),
    wr := r.wrm == 1 || (r.wrm == 2 && (x.level r.wlvl).active && x.xs (12 + r.wlvl) == ((x.level r.wlvl).count : Int) - 1),
    mov0 := TDesc.absent, mov1 := TDesc.absent, dst0 := TDesc.absent, dst1 := TDesc.absent, xd0 := TDesc.absent, xd1 := TDesc.absent,
    xd2 := TDesc.absent }

/-- The checks of mld (R66, R135, R148, R161, R162, R270). `f` says that it is addressed to F. -/
def State.checkMld (s : State) (t : Nat) (f : Bool) (o : AOp) : Except JF AOp := do
  let r := o.r
  let d ← s.needDesc t r r.movd0
  let k ← match d.kext r.otm with
    | some k => Except.ok k
    | none => .error (JF.illegal 3 r.off)
  let c := r.mc0.getD (cdim r.otm) 0
  let p := d.padExt (cdim r.otm)
  illegalIf (r.swap || (f && r.otm) || r.kstart % 8 ≠ 0 || r.klen < 8 || 256 < r.kstart + r.klen) 3 r.off
  illegalIf (c % k ≠ 0 || p < c + r.klen || (r.klen % k ≠ 0 && c + r.klen ≠ p)) 3 r.off
  .ok { o with mov0 := d }

/-- The checks of mma.diag (R153). -/
def State.checkDiag (s : State) (t : Nat) (o : AOp) : Except JF AOp := do
  let r := o.r
  let a ← s.needDesc t r r.movd0
  let b ← s.needDesc t r r.movd1
  let d ← s.needDesc t r r.dstd0
  let same := fun (e : TDesc) => e.lum && e.bshape == a.bshape && e.rank == a.rank && e.ext == a.ext && e.order == a.order
  illegalIf (!a.lum || !same b || !same d) 3 r.off
  illegalIf (r.m < 1 || r.diagIdx % a.bv ≠ 0 || (r.diagIdx + r.m) % a.bv ≠ 0 || a.slots < r.diagIdx + r.m) 3 r.off
  illegalIf (!o.wr || r.accm ≠ 0 || r.skrec ≠ 0) 3 r.off
  illegalIf (formBad d r.wform r.grad r.ht) 0 r.off
  .ok { o with mov0 := a, mov1 := b, dst0 := d }

/-- The checks of a product (R63 to R66, R86, R118, R133 to R140, R151, R161, R162, R605, R608). -/
def State.checkProduct (s : State) (t : Nat) (f : Bool) (plane : Plane) (o : AOp) : Except JF AOp := do
  let r := o.r
  let sh := shapeOf o.op
  let cx := isCx o.op
  let split := isSplit o.op
  illegalIf (r.kstart % 8 ≠ 0 || r.klen < 8 || r.kstart < sh.first || sh.first + sh.rows < r.kstart + r.klen) 3 r.off
  illegalIf (r.m < 1 || 65536 < r.m || (f && r.otm)) 3 r.off
  illegalIf (r.ht && (split || cx)) 3 r.off
  illegalIf (r.grad && r.ht) 0 r.off
  let ms := plane.metas o.op
  illegalIf (ms.any (metaBad r.kstart)) 3 r.off
  let rowsPer := if cx then 6 else 1
  illegalIf ((o.acc || !o.wr) && 512 < r.accrow + rowsPer * r.m) 3 r.off
  let a ← s.needDesc t r r.movd0
  let k ← match a.kext r.otm with
    | some k => Except.ok k
    | none => .error (JF.illegal 3 r.off)
  illegalIf (movBad a r r.mc0 k (if split then [plane.lo] else ms)) 3 r.off
  let o := { o with mov0 := a }
  let o ← if split then do
      let b ← s.needDesc t r r.movd1
      let kb ← match b.kext r.otm with
        | some k => Except.ok k
        | none => .error (JF.illegal 3 r.off)
      illegalIf (movBad b r r.mc1 kb [plane.hi]) 3 r.off
      Except.ok { o with mov1 := b }
    else Except.ok o
  let o ← if cx then do
      let am ← s.needDesc t r r.movd1
      let al ← s.needDesc t r r.xd0
      let bm ← s.needDesc t r r.xd1
      let bl ← s.needDesc t r r.xd2
      let bh := (ms.filterMap fun m => m.map (·.src.mov0)).dedup
      illegalIf (slicesBad [a, am, al] || slicesBad (bh ++ [bm, bl]) || r.otm || !r.swap) 3 r.off
      illegalIf (ms.any fun m => match m with | some p => p.kext ≠ 16 || p.fmt ≠ 0 | none => true) 3 r.off
      illegalIf ([bm, bl].any fun d => movBad d r r.mc1 16 [none]) 3 r.off
      Except.ok { o with mov1 := am, xd0 := al, xd1 := bm, xd2 := bl }
    else Except.ok o
  if !o.wr then do
    s.idleDesc t r.dstd0
    s.idleDesc t r.dstd1
    .ok o
  else do
    let d ← s.needDest t r r.dstd0 r.dc0 sh.cols (r.ht || cx)
    if split then do
      let e ← s.needDest t r r.dstd1 r.dc1 sh.cols false
      .ok { o with dst0 := d, dst1 := e }
    else if r.ht || cx then do
      let e ← s.needDest t r r.dstd1 r.dc0 sh.cols true
      .ok { o with dst0 := d, dst1 := e }
    else .ok { o with dst0 := d }

/-- R255, R269 to R273: the operation that OP and the record at `rec` × 128 make, on array F or a B array whose plane
at entry is `plane`. -/
def State.arrayOp (s : State) (t op rec : Nat) (f : Bool) (plane : Plane) : Except JF AOp := do
  let off := rec * 128
  let b ← s.recAt t off 128 128
  let r := ARec.ofBytes off b
  illegalIf (r.reserved op) 1 off
  illegalIf (r.unused op) 2 off
  let r ← r.advance (s.tile t) (op == opDiag)
  let o := AOp.ofRec op r (s.tile t)
  if op = opMld then s.checkMld t f o
  else if op = opDiag then s.checkDiag t o
  else s.checkProduct t f plane o

/-- The split-K record of an operation, checked (R142, R147). -/
def State.skOf (s : State) (t : Nat) (o : AOp) : Except JF (Option SkRec) :=
  if o.r.skrec = 0 then .ok none
  else do
    let b ← s.recAt t o.r.skrec 64 64
    let k := SkRec.ofBytes b
    match skFault o k t ((s.tile t).sk.any fun r => r.k.id == k.id) with
    | some n => .error (JF.illegal n o.r.off)
    | none => .ok (some k)

end Sys2Proof.Machine
end

