-- ==== Sys2Proof/Machine/WriteOps.lean ====
section
/-! DEFINITION. Machine/WriteOps.lean: converting and writing blocks and elements into a tensor, with their counts,
check-value credit and poison marks: the one path of the drains, the vector conversion unit and the collective
engine (R43, R48, R57 to R60, R86 to R104, R408, R409, R603, R606, R610). -/

namespace Sys2Proof.Machine

/-- The bytes of part `base` that hold values `lo` to `hi`, with the zero fill where they reach the end (R48). -/
def partIv (base len lo hi : Nat) : Nat × Nat := (base + lo, (if lo < len && len ≤ hi then upTo len 4096 else hi) - lo)

/-- The bytes that a write of block `b` covers (R48, R56, R59). -/
def TDesc.blkIvs (d : TDesc) (b : Nat) (fresh : Bool) : List (Nat × Nat) :=
  [partIv d.mbase d.mantBytes (d.valueBytes (b * d.bv)) (d.valueBytes ((b + 1) * d.bv)), partIv d.sbase d.blocks b (b + 1)] ++
    (if d.flushmap && fresh then [partIv d.fbase d.blocks b (b + 1)] else [])

/-- The bytes that a write of element `i` covers. -/
def TDesc.elemIvs (d : TDesc) (i : Nat) : List (Nat × Nat) :=
  [partIv d.mbase d.mantBytes (d.valueBytes i) (d.valueBytes (i + 1))]

/-- The bytes that a read of block `b` covers. -/
def TDesc.blkReads (d : TDesc) (b : Nat) : List (Nat × Nat) :=
  [(d.mbase + d.valueBytes (b * d.bv), d.valueBytes d.bv), (d.sbase + b, 1)]

/-- Some granule of some interval is poisoned. -/
def State.poisIvs (s : State) (ivs : List (Nat × Nat)) : Bool := ivs.any fun p => s.poisIn p.1 p.2

/-- A granule of the tile's SRAM in some interval satisfies a test on its offset. -/
def sramHit (t : Nat) (f : Nat → Bool) (ivs : List (Nat × Nat)) : Bool :=
  (granulesOf ivs).any fun g => decide (sramAt t / 4096 ≤ g) && decide (g < (sramAt t + sramSize) / 4096) && f (g - sramAt t / 4096)

/-- A read of the intervals is held by fill tracking (R225). -/
def State.readHeld (s : State) (t : Nat) (ivs : List (Nat × Nat)) : Bool := sramHit t (sget noFlag (s.tile t).pend) ivs

/-- A write to the intervals is held by a pending fill or by a spill (R179, R226). -/
def State.writeHeld (s : State) (t : Nat) (ivs : List (Nat × Nat)) : Bool :=
  sramHit t (fun g => sget noFlag (s.tile t).pend g || sget noFlag (s.tile t).spillHold g) ivs

/-- How a conversion writes (R86): write form 0 FRESH, 1 ACC, 2 REPL, and the gradient mark. -/
structure Form where
  wform : Nat
  grad : Bool
  deriving DecidableEq, Repr

/-- The outcome of converting sources into block `b`: none where a carried block holds 0xFF (R98). Pads enter as
EMPTY and are stored as zero (R43). -/
def TDesc.convBlock (d : TDesc) (m : Mem) (b : Nat) (src : List ASum) (f : Form) (seed : W64) (step : W32) : Option BlockOut :=
  let src := src.zipIdx.map fun p => if d.isPad (b * d.bv + p.2) then asEmpty else p.1
  let u := drawsFrom f.grad seed (BitVec.ofNat 32 d.tid) step (b * d.bv) d.bv
  if f.wform = 0 then some (freshWrite src (limOf d.fmt) f.grad u d.smode)
  else if d.rdCode m b = 0xFF then none
  else some (carriedWrite (d.rdCode m b) (d.rdMants m b) src (limOf d.fmt) (f.wform == 1) f.grad u)

/-- An update of a status record or overflow bitmap is permitted: in an active tile's SRAM, or in HBM that a region
with W covers (R603). -/
def State.metaOk (s : State) (a : Nat) : Bool :=
  match s.resCtx with
  | none => true
  | some (_, c) =>
    if sramBase ≤ a then decide (a < sramAt 64) && c.tiles.contains ((a - sramBase) / sramSize) else bitOf (permOf c.regs a) 1

/-- The first address among updates that may not be updated, if any (R603). -/
def State.opsBad (s : State) (os : List MetaOp) : Option Nat := (os.find? fun o => !s.metaOk o.addr).map MetaOp.addr

/-- The status record or bitmap address that block writes update and may not, if any (R603). -/
def State.metaBadAt (s : State) (d : TDesc) (outs : List (Nat × BlockOut)) : Option Nat :=
  s.opsBad (outs.flatMap fun p => d.blockOps p.1 p.2)

/-- An update of bytes in a tile's SRAM waits for a fill or a spill of their granule (R179, R226). -/
def State.metaHeld (s : State) (o : MetaOp) : Bool :=
  sramBase ≤ o.addr && o.addr < sramAt 64 && s.writeHeld (ownerOf o.addr) [(o.addr, o.len)]

/-- One atomic update: it lands, or waits behind what holds it and behind an earlier one to the same bytes (R58, R226). -/
def State.metaOp (s : State) (o : MetaOp) : State :=
  if s.metaHeld o || s.metaQ.any (fun q => q.addr == o.addr) then { s with metaQ := s.metaQ ++ [o] }
  else (s.setMem (o.apply s.mem)).noteHbm o.addr o.len

/-- Atomic updates, in order. -/
def State.metaOps (s : State) (os : List MetaOp) : State := os.foldl State.metaOp s

/-- The updates that wait land where nothing holds them any more. -/
def State.flushMeta (s : State) : State := ({ s with metaQ := [] }).metaOps s.metaQ

/-- A read of an overflow bitmap's bytes has to wait: they are in SRAM that a fill holds, or an update of them waits (R225, R603). -/
def State.metaReadHeld (s : State) (as : List Nat) : Bool :=
  as.any fun a => (sramBase ≤ a && a < sramAt 64 && s.readHeld (ownerOf a) [(a, 1)]) || s.metaQ.any fun q => q.addr == a

/-- A REGION_VIOLATION at an address, from the issuing engine. -/
def JF.region (src addr : Nat) : JF := ⟨2, src, addr, 0, none⟩

/-- Apply the outcomes of block writes: bytes, counts, overflow bits, marks. `reads` says of a block that its
write reads it (R606). -/
def State.putBlocks (s : State) (t : Nat) (d : TDesc) (outs : List (Nat × BlockOut)) (fresh : Bool) (reads : Nat → Bool) (poison : Bool) : State :=
  let ivs := (outs.map fun p => d.blkIvs p.1 fresh).flatten
  let marks := outs.map fun p => (d.blkIvs p.1 fresh, reads p.1 && s.poisIvs (d.blkReads p.1))
  let s := s.setMem (outs.foldl (fun m p => d.writeBlock m p.1 p.2 fresh) s.mem)
  let s := s.metaOps (outs.flatMap fun p => d.blockOps p.1 p.2)
  let s := s.markWrite ivs poison
  let s := marks.foldl (fun s p => if p.2 then s.markWrite p.1 true else s) s
  s.setCvst t (outs.foldl (fun c p => c ||| p.2.cvst) 0)

/-- Store element encodings of a BF16 or FP32 tensor (R89, R195), with the CVST bits they set. -/
def State.putElems (s : State) (t : Nat) (d : TDesc) (es : List (Nat × Nat)) (cv : W32) (poison : Bool) : State :=
  let ivs := (es.map fun p => d.elemIvs p.1).flatten
  let s := s.setMem (es.foldl (fun m p => d.putEnc m p.1 p.2) s.mem)
  (s.markWrite ivs poison).setCvst t cv

/-- The draw of one element (R104). -/
def drawOf (f : Form) (seed : W64) (step : W32) (d : TDesc) (i : Nat) : Nat :=
  if f.grad then draw seed (BitVec.ofNat 32 d.tid) step i else 0

/-- Convert one element for a BF16 or FP32 destination (R89). -/
def TDesc.convElem (d : TDesc) (a : ASum) (i : Nat) (f : Form) (seed : W64) (step : W32) : BinOut :=
  toBinary a (if d.fmt = 2 then 8 else 24) f.grad (drawOf f seed step d i)

/-- Gather values by block: the block's slots, those not given EMPTY. `vals` are element index and value. -/
def TDesc.gather (d : TDesc) (vals : List (Nat × ASum)) : List (Nat × List ASum) :=
  (vals.map fun p => p.1 / d.bv).dedup.map fun b =>
    (b, (List.range d.bv).map fun r => match vals.find? fun p => p.1 = b * d.bv + r with
      | some p => p.2
      | none => asEmpty)

/-- Fresh block writes made, for the drift tourbillon (R125). -/
structure Written where
  s : State
  ivs : List (Nat × Nat)
  /-- fresh Lumgan blocks with their sources and outcomes -/
  fresh : List (Nat × List ASum × BlockOut)
  deriving DecidableEq, Repr

/-- Convert and write values into one destination, as the drains do: elements by index (R86 to R98, R141). -/
def State.writeVals (s : State) (t : Nat) (d : TDesc) (vals : List (Nat × ASum)) (f : Form) (poison : Bool) : Except JF Written :=
  if d.lum then
    let bs := d.gather vals
    let outs := bs.filterMap fun p => (d.convBlock s.mem p.1 p.2 f s.seed s.step).map fun o => (p.1, p.2, o)
    match s.metaBadAt d (outs.map fun q => (q.1, q.2.2)) with
    | some a => .error (JF.region 0 a)
    | none =>
      let s' := s.putBlocks t d (outs.map fun q => (q.1, q.2.2)) (f.wform == 0) (fun _ => f.wform ≠ 0) poison
      .ok ⟨s', (outs.map fun q => d.blkIvs q.1 (f.wform == 0)).flatten, if f.wform = 0 then outs else []⟩
  else
    let os := vals.map fun p => (p.1, d.convElem p.2 p.1 f s.seed s.step)
    let cv := os.foldl (fun c p => c ||| p.2.cvst) 0
    .ok ⟨s.putElems t d (os.map fun p => (p.1, p.2.enc)) cv poison, (vals.map fun p => d.elemIvs p.1).flatten, []⟩

/-- A head-and-tail write into two FP32 destinations, each with the values by its own element indices (R90). -/
def State.writePairs (s : State) (t : Nat) (d e : TDesc) (heads tails : List (Nat × ASum)) (poison : Bool) : Written :=
  let cv := (heads ++ tails).foldl (fun c p => c ||| (headTail p.2).2.2) 0
  let s := s.putElems t d (heads.map fun p => (p.1, (headTail p.2).1.toNat)) cv poison
  let s := s.putElems t e (tails.map fun p => (p.1, (headTail p.2).2.1.toNat)) cv poison
  ⟨s, (heads.flatMap fun p => d.elemIvs p.1) ++ tails.flatMap fun p => e.elemIvs p.1, []⟩

/-- A physical tile's drift period, 2^DRIFT_PERIOD_LOG2 (R125, R596). -/
def State.driftPeriod (s : State) : Nat := 2 ^ bitsOf (s.reg 0x40000) 16 5

/-- The drift watch is enabled (R596). -/
def State.driftOn (s : State) : Bool := bitOf (s.reg 0x40000) 1

/-- A tourbillon's countdown has reached zero (R120): it is reloaded with the period, and the next thing of the pointed of `n` units is
selected. A pointed unit that has brought none since is passed over. -/
def Tour.arm (r : Tour) (period n : Nat) : Tour := ⟨period, if r.armed then (r.ptr + 1) % n else r.ptr, true⟩

/-- A thing that a tourbillon counts comes by on one of its `n` units: the tourbillon afterwards, and whether it selects the thing (R120,
R125). -/
def Tour.enter (r : Tour) (period n unit : Nat) : Tour × Bool :=
  let r := if r.count = 0 then r.arm period n else r
  let hit := r.armed && r.ptr == unit
  let r := if hit then { r with armed := false, ptr := (unit + 1) % n } else r
  ({ r with count := r.count - 1 }, hit)

/-- One fresh block write passes a drift tourbillon (R125). `unit` is the conversion stage: F 0, B0 1, B1 2, vector 3. A selected
block is kept for its record. -/
def PTile.driftCount (p : PTile) (period unit : Nat) (d : TDesc) (grad : Bool) (step : W32) (b : Nat × List ASum × BlockOut) : PTile :=
  let (r, hit) := p.drift.enter period 4 unit
  { p with drift := r, driftBlk := if hit then p.driftBlk ++ [⟨d.tid, step, b.1, d.fmt, grad, b.2.1, b.2.2⟩] else p.driftBlk }

/-- Count the fresh blocks of a write at the drift tourbillon of the tile's physical tile (R125). While the drift watch is off nothing is
counted (log 50). -/
def State.driftWrites (s : State) (t unit : Nat) (d : TDesc) (grad : Bool) (w : List (Nat × List ASum × BlockOut)) : State :=
  if s.driftOn then
    let k := s.plc.phys t
    s.setPtile k (w.foldl (fun p b => p.driftCount s.driftPeriod unit d grad s.step b) (s.ptile k))
  else s

end Sys2Proof.Machine
end

