-- ==== Sys2Proof/Machine/ArrayRun.lean ====
section
/-! DEFINITION. Machine/ArrayRun.lean: what the matrix arrays do after issue: planes, moving rows, commit groups,
completion, split-K reductions and retry (R128 to R158, R414 to R418). -/

namespace Sys2Proof.Machine

/-- Array `i` of a tile: F 0, B0 1, B1 2. -/
def Tile.arr (x : Tile) (i : Nat) : Arr := if i = 0 then x.f else if i = 1 then x.b0 else x.b1

/-- Change an array. -/
def Tile.setArr (x : Tile) (i : Nat) (a : Arr) : Tile :=
  if i = 0 then { x with f := a } else if i = 1 then { x with b0 := a } else { x with b1 := a }

/-- The sibling of an array (R415). -/
def sibling (i : Nat) : Nat := if i = 0 then 1 else if i = 1 then 2 else 1

/-- Passes of an operation: six for .cx (R151). -/
def passes (op : Nat) : Nat := if isCx op then 6 else 1

/-- Problems of an operation (R134). -/
def AOp.probs (o : AOp) : List Nat := if isSplit o.op then [0, 1] else [0]

/-- Moving rows of each problem; for mma.diag, groups of 256 elements. -/
def AOp.moving (o : AOp) : Nat := if o.op = opDiag then cdiv o.r.m 256 else o.r.m

/-- A problem of an instruction. -/
def AInst.pr (q : AInst) (k : Nat) : Prob := if k = 0 then q.p0 else q.p1

/-- Change a problem. -/
def AInst.setPr (q : AInst) (k : Nat) (p : Prob) : AInst := if k = 0 then { q with p0 := p } else { q with p1 := p }

/-- Rows of problem `k` to enter, over all passes. -/
def AInst.total (q : AInst) (k : Nat) : Nat := passes q.o.op * (q.o.moving - (q.pr k).base)

/-- Every moving row of a problem has entered. -/
def AInst.probFed (q : AInst) (k : Nat) : Bool := (q.pr k).entered == q.total k

/-- Every moving row has entered. -/
def AInst.fed (q : AInst) : Bool := q.o.probs.all q.probFed

/-- The pass and the moving row that enter next of problem `k`. -/
def AInst.nextRow (q : AInst) (k : Nat) : Nat × Nat :=
  let p := q.pr k
  let n := q.o.moving - p.base
  (p.entered / n, p.base + p.entered % n)

/-- The tick after the latest entry of an instruction that is fed. -/
def AInst.freeAt (q : AInst) : Nat := (q.o.probs.map fun k => (q.pr k).due).foldl max 0

/-- Some problem of the instruction is executed again (R156). -/
def AInst.retried (q : AInst) : Bool := q.o.probs.any fun k => (q.pr k).tries ≠ 0

/-- Number of commit groups of problem `k` (R141). -/
def AInst.groups (q : AInst) (k : Nat) : Nat := cdiv q.o.moving (groupRows q.o k)

/-- Every group of every problem is committed. -/
def AInst.committed (q : AInst) : Bool := q.o.probs.all fun k => decide (q.groups k ≤ (q.pr k).done)

/-- An array accepts an instruction in enabled tick `now`: the previous one entered its last row before (R137). An
array out of use shares its sibling's grid (R416). -/
def Tile.accepts (x : Tile) (i now : Nat) : Bool :=
  let ok := fun (a : Arr) => a.q.all fun q => q.fed && decide (q.freeAt ≤ now)
  let busy := fun (a : Arr) => a.q.any AInst.retried
  ok (x.arr i) && !busy (x.arr i) && (if (x.arr i).out then ok (x.arr (sibling i)) else true) &&
    (if (x.arr 0).out && i = 1 then ok (x.arr 0) else true) && (if (x.arr (sibling i)).out && i ≠ 0 then ok (x.arr (sibling i)) else true)

/-- The plane that an instruction uses at issue: the shadow where it swaps (R149, R605). -/
def Arr.entryPlane (a : Arr) (swap : Bool) : Plane := if swap then a.shadow else a.active

/-- The shadow plane is ready for a swap (R148, R149). -/
def Arr.ready (a : Arr) : Bool := a.loads.isEmpty

/-- A load joins those of its array: its rows arrive in 64 ticks from its issue, or from the ready tick of the load before it, which is
not known until that load has ended (R148, R149). -/
def Arr.addLoad (a : Arr) (now : Nat) (o : AOp) : Arr :=
  { a with loads := a.loads ++ [⟨now, if a.loads.isEmpty then now + 64 else 0, o⟩] }

/-- The loads after the first has ended, its plane ready in tick `ready`. -/
def nextLoads (ready : Nat) : List Load → List Load
  | [] => []
  | l :: ls => { l with ready := max l.at_ ready + 64 } :: ls

/-- One element of a Lumgan tensor by block and position: its code and mantissa (R37, R43, R45). -/
def TDesc.elemOf (d : TDesc) (m : Mem) (b r : Nat) : Nat × Int :=
  let i := b * d.bv + r
  let v := if d.fmt = 1 then mantOf 1 ((rd8 m (d.mbase + i / 2)).toNat / (if i % 2 = 0 then 1 else 16) % 16)
    else mantOf 0 (rd8 m (d.mbase + i)).toNat
  (d.rdCode m b, if d.isPad i then 0 else v)

/-- Coordinates with dimension `k` advanced. -/
def advDim (c : List Nat) (k n : Nat) : List Nat := c.set k (c.getD k 0 + n)

/-- The coordinates lie within the padded extents. -/
def TDesc.inside (d : TDesc) (c : List Nat) : Bool := (List.range 4).all fun k => decide (c.getD k 0 < d.padExt k)

/-- Block and position of coordinates. -/
def TDesc.at_ (d : TDesc) (c : List Nat) : Nat × Nat := d.locate (c.getD 0 0) (c.getD 1 0) (c.getD 2 0) (c.getD 3 0)

/-- An operand element by coordinates. Beyond the padded extents the spec states no element, so its code and
mantissa are free (log 32). -/
def TDesc.operand (d : TDesc) (m : Mem) (c : List Nat) (free : Nat) : Nat × Int :=
  if d.inside c then d.elemOf m (d.at_ c).1 (d.at_ c).2
  else (Config.freeNat (2 * free) % 256, mantOf d.fmt (Config.freeNat (2 * free + 1)))

/-- The coordinates of a moving row or plane column: start, the contracted dimension advanced by k and the other by n (R272). -/
def opCoords (st : List Nat) (otm : Bool) (k n : Nat) : List Nat := advDim (advDim st (cdim otm) k) (1 - cdim otm) n

/-- The elements of moving row `m` over the K range. -/
def TDesc.rowOf (d : TDesc) (mem : Mem) (st : List Nat) (otm : Bool) (klen m free : Nat) : List (Nat × Int) :=
  (List.range klen).map fun k => d.operand mem (opCoords st otm k m) (free + k)

/-- The bytes that the row's blocks hold. -/
def TDesc.rowReads (d : TDesc) (st : List Nat) (otm : Bool) (klen m : Nat) : List (Nat × Nat) :=
  (((List.range klen).filter fun k => d.inside (opCoords st otm k m)).map fun k => (d.at_ (opCoords st otm k m)).1).dedup.flatMap d.blkReads

/-- Elements that count in ST_NEG_EXTREME (R39, R57). -/
def TDesc.negs (d : TDesc) (es : List (Nat × Int)) : Nat :=
  (es.filter fun p => 1 ≤ p.1 && p.1 ≤ 0xFE && negExtreme d.fmt p.2).length

/-- Count −128 or −8 mantissas read as operands (R57). -/
def State.countNeg (s : State) (d : TDesc) (n : Nat) : State :=
  if s.metaOk d.stbase then s.metaOps (d.negOps n) else s

/-- The operand of each pass, with its start coordinates: .cx in the order of R151. -/
def AOp.movings (o : AOp) : List (TDesc × List Nat) :=
  if isCx o.op then
    [(o.mov0, o.r.mc0), (o.mov1, o.r.mc0), (o.xd0, o.r.mc0), (o.mov0, o.r.mc0), (o.mov1, o.r.mc0), (o.mov0, o.r.mc0)]
  else if isSplit o.op then [(o.mov0, o.r.mc0), (o.mov1, o.r.mc1)]
  else [(o.mov0, o.r.mc0)]

/-- Which fold each pass of .cx makes: hh, mh, lh, hm, mm, hl as numbered by R117. -/
def cxFold (p : Nat) : Nat := [0, 2, 5, 1, 4, 3].getD p 0

/-- The operand of pass `p` of problem `k`, with its start coordinates. -/
def AOp.operandOf (o : AOp) (k p : Nat) : TDesc × List Nat := o.movings.getD (if isCx o.op then p else k) (o.mov0, [])

/-- The accumulator row of moving row `m`, fold `j` (R138). -/
def AOp.accRow (o : AOp) (m j : Nat) : Nat := (o.r.accrow + passes o.op * m + j) % 512

/-- Entry marks of an accumulator row that an instruction's problem `k` reads or writes: a split-N problem has its own half (R138). -/
def AOp.accKeys (o : AOp) (row k : Nat) : List Nat := if isSplit o.op then [2 * row + k] else [2 * row, 2 * row + 1]

/-- The tick before which the next row may not enter because of the chain interval (R139). -/
def Arr.chainFrom (a : Arr) (q : AInst) (k : Nat) : Nat :=
  if q.o.op = opDiag || !q.o.acc then 0
  else
    let (p, m) := q.nextRow k
    ((q.o.accKeys (q.o.accRow m (if isCx q.o.op then cxFold p else 0)) k).map fun j => match sfind a.accAt j with
      | some t => t + (shapeOf q.o.op).chain
      | none => 0).foldl max 0

/-- The plane of pass `p` (R151). -/
def AInst.planeOf (q : AInst) (p : Nat) : Plane :=
  q.planes.getD (if isCx q.o.op then (if p < 3 then 0 else if p < 5 then 1 else 2) else 0) Plane.init

/-- Load a column set of a plane from an mld's source (R148, R272). `neg` counts its extremes. -/
def State.loadPlane (s : State) (o : AOp) (p : Plane) : Plane :=
  let r := o.r
  let d := o.mov0
  let cols := (List.range 128).filter fun n => r.colset = 0 || (r.colset = 1 && n < 64) || (r.colset = 2 && 64 ≤ n)
  let oth := 1 - cdim r.otm
  let cell := fun k n => opCoords r.mc0 r.otm (k - r.kstart) (if r.colset = 2 then n - 64 else n)
  let put := fun (m : SMap (Nat × Int)) (q : Nat × Nat) =>
    let c := cell q.1 q.2
    let v := if r.kstart ≤ q.1 && q.1 < r.kstart + r.klen && c.getD oth 0 < d.storedExt oth && d.inside c
      then d.elemOf s.mem (d.at_ c).1 (d.at_ c).2 else (0, 0)
    sput (cellDefault p.junk) m (q.1 * 128 + q.2) v
  let cells := ((List.range 256).flatMap fun k => cols.map fun n => (k, n)).foldl put p.cells
  let reads := (List.range cols.length).flatMap fun n => d.rowReads r.mc0 r.otm r.klen n
  let mt : PMeta := ⟨r.mc0.getD (cdim r.otm) 0, r.kstart, r.klen, (d.kext r.otm).getD 8, d.fmt, s.poisIvs reads, o⟩
  { cells := cells, lo := if r.colset = 2 then p.lo else some mt, hi := if r.colset = 1 then p.hi else some mt, junk := p.junk }

/-- Columns that a load brings from its source, counted from its start coordinate (R148). -/
def AOp.loadCols (o : AOp) : List Nat :=
  (List.range (if o.r.colset = 0 then 128 else 64)).filter fun c => o.r.mc0.getD (1 - cdim o.r.otm) 0 + c < o.mov0.storedExt (1 - cdim o.r.otm)

/-- The bytes that a load reads for plane rows `lo` to `hi` − 1. -/
def AOp.loadReads (o : AOp) (lo hi : Nat) : List (Nat × Nat) :=
  let a := max lo o.r.kstart
  let b := min hi (o.r.kstart + o.r.klen)
  if b ≤ a then [] else o.loadCols.flatMap fun c => o.mov0.rowReads (advDim o.r.mc0 (cdim o.r.otm) (a - o.r.kstart)) o.r.otm (b - a) c

/-- −128 or −8 elements that a load reads. -/
def State.loadNegs (s : State) (o : AOp) : Nat :=
  (o.loadCols.map fun c => o.mov0.negs (o.mov0.rowOf s.mem o.r.mc0 o.r.otm o.r.klen c 0)).sum

/-- Fill tracking holds the rows that arrive in tick `now` of a load whose plane is ready in tick `ready`: four plane rows a tick (R148). -/
def State.loadHeld (s : State) (t now ready : Nat) (o : AOp) : Bool :=
  decide (now < ready) && decide (ready ≤ now + 64) && s.readHeld t (o.loadReads (4 * (now + 64 - ready)) (4 * (now + 64 - ready) + 4))

/-- PLANE_READY (R148, R149): the earliest load of the array whose rows have all arrived. Extremes to count in a status record that may
not be updated are a job fault (R603). -/
def State.planeReady (s : State) (t i : Nat) : State :=
  let a := (s.tile t).arr i
  match a.loads with
  | [] => s
  | l :: ls =>
    let sh := s.loadPlane l.o a.shadow
    let negs := s.loadNegs l.o
    if 0 < negs && !s.metaOk l.o.mov0.stbase then s.jobFault (JF.region 0 l.o.mov0.stbase) (some t) else
    let s := s.countNeg l.o.mov0 negs
    let x := s.tile t
    let s := s.setTile t (x.setArr i { a with shadow := sh, loads := nextLoads l.ready ls })
    s.signal t l.o.r.syncen l.o.r.sync

/-- The first load may end now: its 64 ticks, and those that fill tracking added, have passed (R148). -/
def State.loadDue (s : State) (t i : Nat) : Bool :=
  match ((s.tile t).arr i).loads with
  | [] => false
  | l :: _ => decide (l.ready ≤ s.clk.etick)

/-- PLANE_READY. -/
def execPlaneReady (t : Fin 64) (a : Fin 3) (s : State) : Host.Outcome State Fault Refusal :=
  occurs (s.loadDue t a) (s.planeReady t a) s

/-- The load of a plane that a .cx instruction makes itself, B middle or B low, over its K range (R151). -/
def AOp.cxLoad (o : AOp) (d : TDesc) : AOp :=
  { o with mov0 := d, r := { o.r with mc0 := o.r.mc1, otm := false, colset := if (shapeOf o.op).cols = 64 then 1 else 0 } }

/-- The load that a .cx instruction has in the background of its next passes: B middle before pass 4, B low before pass 6 (R151). -/
def AInst.cxNext (q : AInst) : Option AOp :=
  if !isCx q.o.op || q.probFed 0 then none
  else match q.planes.length with
    | 1 => some (q.o.cxLoad q.o.xd1)
    | 2 => some (q.o.cxLoad q.o.xd2)
    | _ => none

/-- The next row of a .cx instruction is the first of a pass with a plane of its own. -/
def AInst.cxSwap (q : AInst) : Option AOp :=
  let (p, m) := q.nextRow 0
  if m = q.p0.base && (p = 3 || p = 5) then q.cxNext else none

/-- The watch period 2^PERIOD_LOG2 (R120, R596). -/
def State.tourPeriod (s : State) : Nat := 2 ^ bitsOf (s.reg 0x40000) 8 5

/-- The fault watch is enabled (R596). -/
def State.watchOn (s : State) : Bool := bitOf (s.reg 0x40000) 0

/-- The output tile that enters with moving row `row` of problem `k`, every eighth row and the rows that are left at the end: the tourbillon
counts it, and may select it (R120). Nothing is counted while the fault watch is off (log 50), nor a tile that enters again in a retry (R158). -/
def State.tourCount (s : State) (t i : Nat) (q : AInst) (k row : Nat) : State × AInst :=
  if !s.watchOn || isTree q.o.op || q.o.op = opDiag || row < (q.pr k).seen || row % 8 ≠ 0 then (s, q)
  else
    let n := s.plc.phys t
    let p := s.ptile n
    let (r, hit) := p.tour.enter s.tourPeriod 3 i
    (s.setPtile n { p with tour := r, wchSel := p.wchSel + (if hit then 1 else 0) }, if hit then { q with sel := some (k, row) } else q)

/-- Count into a chronograph counter of every bank of a physical tile that is in a mode with a target, from the tick after the bank was
enabled (R249 to R251, R600). -/
def State.chrAdd (s : State) (k mode target counter n : Nat) : State :=
  s.setPtile k ((List.range 4).foldl (fun p b =>
    let cfg := s.reg (0x100000 + 0x400 * k + 0x100 * b)
    if bitOf cfg 0 && (sfind s.lockWas (0x100000 + 0x400 * k + 0x100 * b)).isNone && bitsOf cfg 1 2 == mode && (if mode = 1 then bitsOf cfg 4 3 else bitsOf cfg 8 5) == target then
      { p with chr := smod zero64 p.chr (b * 16 + counter) (· + BitVec.ofNat 64 n) } else p) (s.ptile k))

/-- A target of a tile's chronograph stalls in this tick; the tick counts once, under its lowest-numbered cause, as it ends (R155,
R250). -/
def State.stallAt (s : State) (t target counter : Nat) : State :=
  let x := s.tile t
  s.setTile t { x with stall := smod zeroNat x.stall target fun c => if c = 0 then counter else min c counter }

/-- Put an instruction back into its array, by its place in the queue. -/
def State.setInst (s : State) (t i n : Nat) (q : AInst) (f : Arr → Arr) : State :=
  let x := s.tile t
  let a := x.arr i
  s.setTile t (x.setArr i (f { a with q := a.q.set n q }))

/-- An instruction that stands for none. -/
def AInst.blank : AInst := ⟨AOp.ofRec 0 (ARec.ofBytes 0 []) Tile.init, 0, 0, 0, [], 0, Prob.start 0, Prob.start 0, false, [], none, none⟩

/-- The operands of problem `k`'s next row, with their start coordinates. -/
def AInst.nextOps (q : AInst) (k : Nat) : List (TDesc × List Nat) := [q.o.operandOf k (q.nextRow k).1]

/-- The descriptors and elements that the next row of problem `k` brings: a moving row, or a group of each diagonal (R129, R153). -/
def State.entering (s : State) (q : AInst) (k : Nat) : List (TDesc × List (Nat × Int)) :=
  let o := q.o
  let m := (q.nextRow k).2
  if o.op = opDiag then
    let base := o.r.diagIdx + 256 * m
    let cnt := min 256 (o.r.m - 256 * m)
    [o.mov0, o.mov1].map fun d => (d, (List.range cnt).map fun j => d.elemOf s.mem ((base + j) / d.bv) ((base + j) % d.bv))
  else (q.nextOps k).map fun d => (d.1, d.1.rowOf s.mem d.2 o.r.otm o.r.klen m s.freeCtr)

/-- Tensors of which the next row reads extremes, with their number: its operands, and the plane that a .cx instruction swaps in with it
(R57, R69). -/
def State.enterNegs (s : State) (q : AInst) (k : Nat) : List (TDesc × Nat) :=
  (s.entering q k).map (fun d => (d.1, d.1.negs d.2)) ++ match q.cxSwap with
    | some o => [(o.mov0, s.loadNegs o)]
    | none => []

/-- The status record that the next row's extremes would have to be counted in and may not (R603). -/
def State.negBad (s : State) (q : AInst) (k : Nat) : Option Nat :=
  ((s.enterNegs q k).find? fun d => !s.metaOk d.1.stbase && decide (0 < d.2)).map fun d => d.1.stbase

/-- The bytes the next row's feeders read. -/
def AInst.nextReads (q : AInst) (k : Nat) : List (Nat × Nat) :=
  let o := q.o
  let m := (q.nextRow k).2
  if o.op = opDiag then
    let base := o.r.diagIdx + 256 * m
    let n := min 256 (o.r.m - 256 * m) / o.mov0.bv
    (List.range n).flatMap fun j => o.mov0.blkReads (base / o.mov0.bv + j) ++ o.mov1.blkReads (base / o.mov0.bv + j)
  else (q.nextOps k).flatMap fun d => d.1.rowReads d.2 o.r.otm o.r.klen m

/-- A plane carries a mark (R408). -/
def Plane.marked (p : Plane) : Bool := p.lo.elim false (·.poison) || p.hi.elim false (·.poison)

/-- Two rows enter in one tick where both operands are LG4 (R132). -/
def AInst.paired (q : AInst) (p : Nat) : Bool :=
  let ms := (q.planeOf p).metas q.o.op
  !isTree q.o.op && q.o.movings.all (fun d => d.1.fmt == 1) && ms.any Option.isSome && ms.all fun c => c.elim true (·.fmt == 1)

/-- A .cx instruction's swaps 2 and 3: the plane that it loaded itself becomes active, and the active one the shadow (R151). -/
def State.cxEnter (s : State) (t i : Nat) (q : AInst) : State × AInst :=
  match q.cxSwap with
  | none => (s, q)
  | some o =>
    let p := s.loadPlane o Plane.init
    let x := s.tile t
    let a := x.arr i
    (s.setTile t (x.setArr i { a with active := p, shadow := a.active }), { q with planes := q.planes ++ [p], cxAt := s.clk.etick + 64 })

/-- Accumulator rows that an instruction's committed groups wrote (R138, R141). -/
def AInst.accRows (q : AInst) : List Nat :=
  let o := q.o
  if o.op = opDiag then []
  else o.probs.flatMap fun k => (List.range (min ((q.pr k).done * groupRows o k) o.moving)).flatMap fun m =>
    (List.range (if isCx o.op then 6 else 1)).map (o.accRow m)

/-- Once an instruction consumes poison, what it wrote before takes the mark too (R408). -/
def State.markPast (s : State) (t i : Nat) (q : AInst) (pz : Bool) : State :=
  if pz && !q.poison then
    let s := s.markWrite q.wrote true
    let x := s.tile t
    let a := x.arr i
    s.setTile t (x.setArr i { a with accPois := q.accRows.foldl (fun m r => sput noFlag m r true) a.accPois })
  else s

/-- A moving row of problem `k`, or a group of diagonal elements, enters (R129, R132, R134, R150, R153). -/
def State.enterRow (s : State) (t i n : Nat) (q : AInst) (k : Nat) : State :=
  let o := q.o
  let now := s.clk.etick
  let (p, m) := q.nextRow k
  let els := (s.entering q k).map Prod.snd
  let pz := s.poisIvs (q.nextReads k)
  let s := (s.enterNegs q k).foldl (fun s d => s.countNeg d.1 d.2) (s.spend 512)
  let (s, q) := s.cxEnter t i q
  let b := q.pr k
  let at_ := m - b.done * groupRows o k
  let rows := if p = 0 then b.rows ++ [⟨now, els⟩] else b.rows.modify at_ fun r => ⟨now, r.passes ++ els⟩
  -- a swap tick stands before passes 4 and 6 of .cx (R151)
  let swap := isCx o.op && decide (m + 1 = o.moving) && (p = 2 || p = 4)
  let gap := if isTree o.op && decide (m + 1 < o.moving) then 2 else if swap then 2 else 1
  let due := if q.paired p && m % 2 == 0 && m + 1 < o.moving then now else now + gap
  let ppz := o.op ≠ opDiag && (q.planes.getLastD Plane.init).marked
  let s := s.markPast t i q (pz || ppz)
  let q := { q.setPr k { b with entered := b.entered + 1, due := due, rows := rows } with poison := q.poison || pz || ppz }
  let (s, q) := if p = 0 then s.tourCount t i q k m else (s, q)
  s.setInst t i n q fun a =>
    if o.op = opDiag then a
    else { a with accAt := (o.accKeys (o.accRow m (if isCx o.op then cxFold p else 0)) k).foldl (fun l j => sput zeroNat l j now) a.accAt }

/-- The place in the queue of the instruction whose rows are entering. -/
def Arr.feeding (a : Arr) : Option Nat := a.q.findIdx? fun q => !q.fed

/-- What keeps the next row of problem `k` of the instruction at place `n` out in this tick: nothing, or a stall counter, 0 for a tick that is not
yet its own (R139, R149, R151, R154, R155). -/
def State.feedHold (s : State) (t i n : Nat) (q : AInst) (k : Nat) : Option Nat :=
  let a := (s.tile t).arr i
  if s.clk.etick < (q.pr k).due || !((a.q.take n).all fun e => decide (e.freeAt ≤ s.clk.etick)) then some 0
  else if s.readHeld t (q.nextReads k) then some 1
  else if s.clk.etick < a.chainFrom q k then some 3
  else if q.cxSwap.isSome && decide (s.clk.etick ≤ q.cxAt) then some 4
  else none

/-- Let rows of problem `k` enter array `i` in this tick while they are due and nothing holds them; a held row stalls (R154, R155). A row
whose extremes may not be counted does not enter: the next TICK finds it (R603). -/
def State.feedProb (t i k : Nat) : Nat → State → State
  | 0, s => s
  | fuel + 1, s =>
    let a := (s.tile t).arr i
    match a.feeding with
    | none => s
    | some n =>
      let q := a.q.getD n AInst.blank
      if !q.o.probs.contains k || q.probFed k then s
      else match s.feedHold t i n q k with
        | some c => if c = 0 then s else s.stallAt t i c
        | none => if (s.negBad q k).isSome then s else State.feedProb t i k fuel (s.enterRow t i n q k)

/-- Rows that have entered an array's instructions. -/
def Arr.enteredRows (a : Arr) : Nat := (a.q.map fun q => q.p0.entered + q.p1.entered).sum

/-- The rows that enter array `i` in this tick, and the tick as one in which its feeders delivered (R250). -/
def State.feed (s : State) (t i : Nat) : State :=
  let s' := State.feedProb t i 1 2 (State.feedProb t i 0 2 s)
  s'.chrAdd (s'.plc.phys t) 1 i 0 (b2n (((s'.tile t).arr i).enteredRows != ((s.tile t).arr i).enteredRows))

/-- The job fault of a row that is due on array `i` and that only its status record keeps out (R603). -/
def State.feedFault (s : State) (t i : Nat) : Option JF :=
  let a := (s.tile t).arr i
  match a.feeding with
  | none => none
  | some n =>
    let q := a.q.getD n AInst.blank
    q.o.probs.findSome? fun k =>
      if q.probFed k || (s.feedHold t i n q k).isSome then none else (s.negBad q k).map fun d => JF.region 0 d

/-- The loads that bring a plane back from the sources of its column sets (R150, R156). -/
def Plane.sources (p : Plane) : List AOp :=
  let half := fun (o : AOp) (n : Nat) => if o.r.colset ≠ 0 then o
    else { o with r := { o.r with colset := n, mc0 := if n = 2 then advDim o.r.mc0 (1 - cdim o.r.otm) 64 else o.r.mc0 } }
  if p.lo = p.hi then (p.lo.map (·.src)).toList else ((p.lo.map fun m => half m.src 1).toList ++ (p.hi.map fun m => half m.src 2).toList)

/-- A plane is loaded again from its mld sources as they stand now; each load counts its extremes (R69, R150, R156). -/
def State.reloadPlane (s : State) (p : Plane) : State × Plane :=
  p.sources.foldl (fun (a : State × Plane) o => (a.1.countNeg o.mov0 (a.1.loadNegs o), a.1.loadPlane o a.2)) (s, p)

/-- The grid that works for array `i`: its own, or its sibling's while it is out of use (R415, R416). -/
def Tile.grid (x : Tile) (i : Nat) : Nat := if (x.arr i).out then sibling i else i

/-- A product of array `i` would find another array's plane on its grid (R416). -/
def Tile.regrids (x : Tile) (i : Nat) (o : AOp) : Bool := o.op ≠ opMld && o.op ≠ opDiag && (x.arr (x.grid i)).guest ≠ (x.arr i).out

/-- The grid changes hands before a product of array `i`: its plane is loaded again from its mld sources, which takes 64 ticks that count as RETRY
(R416). -/
def State.regrid (s : State) (t i : Nat) (o : AOp) : State :=
  if !(s.tile t).regrids i o then s
  else
    let a := (s.tile t).arr i
    let (s, p) := s.reloadPlane a.active
    let x := s.tile t
    let g := x.grid i
    let x := x.setArr g { x.arr g with guest := a.out }
    s.setTile t (x.setArr i { x.arr i with active := p, retryTo := s.clk.etick + 64 })

/-- Issue an array operation on array `i` in the current tick (R133, R137, R148, R149). mma.diag uses no plane, so its SWAP does nothing
(R153). The grid may have to change hands first (R416). A tree instruction's first row enters a tick later than R137's t + SWAP, so that its completion falls where R136 and R137 put it
(log 61). -/
def State.issueArray (s : State) (t i : Nat) (o : AOp) (sk : Option SkRec) : State :=
  let x := s.tile t
  let a := x.arr i
  let now := s.clk.etick
  if o.op = opMld then s.setTile t (x.setArr i (a.addLoad now o))
  else
    let iter := ((List.range 4).map fun k => (sget zero32 x.x (12 + k)).toNat % 65536 * 65536 ^ k).sum
    let swap := o.r.swap && o.op ≠ opDiag
    let late := x.regrids i o
    let s := (if swap then s.setTile t (x.setArr i { a with active := a.shadow, shadow := a.active }) else s).regrid t i o
    let x := s.tile t
    let a := x.arr i
    let e := now + b2n swap + (if isTree o.op then 1 else 0) + (if late then 64 else 0)
    let q : AInst :=
      { o := o, bidx := x.pc, iter := iter, at_ := now, planes := (if o.op = opDiag then [] else [a.active]), cxAt := e + 64,
        p0 := Prob.start e, p1 := Prob.start e, poison := o.op ≠ opDiag && a.active.marked, wrote := [], sk := sk, sel := none }
    let x := x.setArr i { a with q := a.q ++ [q] }
    let x := match sk with
      | some k => if k.root = t then { x with sk := x.sk ++ [⟨k, i, o.r.m, 0, 0, [], [], q⟩] } else x
      | none => x
    (s.setTile t x).feed t i

/-! Commit groups -/

/-- The K-blocks of a moving row against a plane column: block partials in ascending K (R64, R67, R130, R131). -/
def partials (row : List (Nat × Int)) (p : Plane) (kstart col kb : Nat) : List ASum :=
  (List.range (cdiv row.length kb)).map fun j =>
    let seg := (row.drop (j * kb)).take kb
    let cell := fun k => sget (cellDefault p.junk) p.cells ((kstart + j * kb + k) * 128 + col)
    blockPartial ((seg.headD (0, 0)).1) (seg.map Prod.snd) (cell 0).1 ((List.range seg.length).map fun k => (cell k).2)

/-- The fold's parts for one output column of a pass. -/
def AInst.parts (q : AInst) (row : List (Nat × Int)) (d : TDesc) (p col : Nat) : List ASum :=
  let pl := q.planeOf p
  let mt := if col < 64 then pl.lo else pl.hi
  partials row pl q.o.r.kstart col (kblock ((d.kext q.o.r.otm).getD 8) mt)

/-- An accumulator entry (R138). -/
def Arr.accOf (a : Arr) (row col : Nat) : ASum := sget (accDefault a.junk) a.acc (row * 128 + col)

/-- The folds of one moving row of problem `k`: for each fold its accumulator row and its sums by plane column (R78, R117, R138). -/
def Arr.rowFolds (a : Arr) (q : AInst) (k m : Nat) (r : MovRow) : List (Nat × List (Nat × ASum)) :=
  let o := q.o
  (List.range (passes o.op)).map fun p =>
    let j := if isCx o.op then cxFold p else 0
    (o.accRow m j, (List.range (shapeOf o.op).cols).map fun n =>
      (64 * k + n, columnSum (if o.acc then a.accOf (o.accRow m j) (64 * k + n) else asEmpty)
        (q.parts (r.passes.getD p []) (o.operandOf k p).1 p (64 * k + n))))

/-- Rows of the next group of problem `k`, by moving row number. -/
def AInst.groupOf (q : AInst) (k : Nat) : List (Nat × MovRow) :=
  let n := groupRows q.o k
  let p := q.pr k
  (((p.rows.take n).zipIdx (p.done * n)).map fun r => (r.2, r.1)).filter fun r => r.1 < q.o.moving

/-- The element index at which the destination takes moving row `m`, column `n` (R272). -/
def destIdx (d : TDesc) (dc : List Nat) (drow m n : Nat) : Nat :=
  let c := advDim (advDim dc drow m) (1 - drow) n
  d.slotOf (c.getD 0 0) (c.getD 1 0) (c.getD 2 0) (c.getD 3 0)

/-- The values that a group of rows writes into a destination: `rows` are moving row number and sums by column. -/
def destVals (o : AOp) (d : TDesc) (dc : List Nat) (rows : List (Nat × List ASum)) : List (Nat × ASum) :=
  let w := nExtent d o.r dc (shapeOf o.op).cols
  rows.flatMap fun p => (p.2.take w).zipIdx.map fun q => (destIdx d dc o.r.drow p.1 q.2, q.1)

/-- The destination of problem `k`, with its start coordinates (R269). -/
def AOp.destOf (o : AOp) (k : Nat) : TDesc × List Nat := if k = 0 then (o.dst0, o.r.dc0) else (o.dst1, o.r.dc1)

/-- The write of an operation is a head and a tail (R118, R133). -/
def AOp.pairs (o : AOp) : Bool := o.r.ht || isCx o.op

/-- Convert and write a commit group's sums (R86, R90, R118, R141). Head and tail lie each where its own descriptor places them (R269). -/
def State.writeGroup (s : State) (t : Nat) (o : AOp) (k : Nat) (rows : List (Nat × List ASum)) (poison : Bool) : Except JF Written :=
  let (d, dc) := o.destOf k
  if o.pairs then .ok (s.writePairs t d o.dst1 (destVals o d dc rows) (destVals o o.dst1 dc rows) poison)
  else s.writeVals t d (destVals o d dc rows) ⟨o.r.wform, o.r.grad⟩ poison

/-- The bytes that rows of problem `k` write in a destination. -/
def AOp.destIvs (o : AOp) (d : TDesc) (dc : List Nat) (rows : List Nat) : List (Nat × Nat) :=
  let idx := rows.flatMap fun m => (List.range (nExtent d o.r dc (shapeOf o.op).cols)).map fun c => destIdx d dc o.r.drow m c
  if d.lum then (idx.map (· / d.bv)).dedup.flatMap fun b => d.blkIvs b (o.r.wform == 0) else idx.flatMap d.elemIvs

/-- The intervals that group `g` of problem `k` writes, for fill tracking and spills (R179, R226). -/
def AOp.groupIvs (o : AOp) (k g : Nat) : List (Nat × Nat) :=
  let n := groupRows o k
  if !o.wr then []
  else if o.op = opDiag then
    let d := o.dst0
    let b0 := (o.r.diagIdx + 256 * g) / d.bv
    (List.range (min 256 (o.r.m - 256 * g) / d.bv)).flatMap fun j => d.blkIvs (b0 + j) (o.r.wform == 0)
  else
    let rows := ((List.range n).map (g * n + ·)).filter (· < o.r.m)
    let (d, dc) := o.destOf k
    o.destIvs d dc rows ++ (if o.pairs then o.destIvs o.dst1 dc rows else [])

/-- The product of two Lumgan elements in diagonal mode (R153). -/
def diagProd (a b : Nat × Int) : ASum := blockPartial a.1 [a.2] b.1 [b.2]

/-- Sums of a group's rows as they are written: .cx combines its six folds in the order of R117 (R118). -/
def rowSums (o : AOp) (fs : List (Nat × List (Nat × ASum))) : List ASum :=
  if isCx o.op then
    (List.range (shapeOf o.op).cols).map fun n =>
      let at_ := fun j => (((fs.getD ((List.range 6).find? (fun p => cxFold p = j) |>.getD 0) (0, [])).2).getD n (0, asEmpty)).2
      (List.range 5).foldl (fun a j => asumAdd a (at_ (j + 1))) (at_ 0)
  else (fs.headD (0, [])).2.map Prod.snd

/-- Keep the captured output tile for the watch (R121); a check that the buffer still holds is abandoned. Of a .cx instruction it is that
of its first fold (log 50). -/
def State.capture (s : State) (t i k : Nat) (a : Arr) (q : AInst) (rows : List (Nat × MovRow)) : State :=
  match q.sel with
  | none => s
  | some (k0, r0) =>
    let mine := rows.filter fun p => r0 ≤ p.1 && p.1 < r0 + 8
    if k0 ≠ k || mine.isEmpty then s
    else
      let o := q.o
      let n := s.plc.phys t
      let d := (o.operandOf k 0).1
      let mt := if k = 0 then (q.planeOf 0).lo else (q.planeOf 0).hi
      let es := mine.flatMap fun p => ((a.rowFolds q k p.1 p.2).take 1).flatMap fun f => f.2.map fun c =>
        (if o.acc then a.accOf f.1 c.1 else asEmpty, q.parts (p.2.passes.getD 0 []) d 0 c.1, c.2)
      let p := s.ptile n
      s.setPtile n { p with wchAbandon := p.wchAbandon + (if p.check.isSome then 1 else 0),
                            check := some ⟨t, i, o.op, d.fmt + 16 * mt.elim 0 (·.fmt), o.r.klen, kblock ((d.kext o.r.otm).getD 8) mt, q.planeOf 0,
                              mine.flatMap (·.2.passes.take 1), es, false, (s.tile t).pps⟩ }

/-- The last element of the next group of problem `k` reached the drain long enough ago (R136, R141). -/
def AInst.groupDue (q : AInst) (k now : Nat) : Bool :=
  let o := q.o
  let p := q.pr k
  let want := min (groupRows o k) (o.moving - p.done * groupRows o k)
  let rs := p.rows.take want
  decide (p.done < q.groups k) && decide (rs.length = want) &&
    rs.all fun r => decide (passes o.op ≤ r.passes.length) && decide (r.at_ + (shapeOf o.op).lat ≤ now + 1)

/-- The place in the queue of the instruction whose group is next to commit (R141). -/
def Arr.committing (a : Arr) : Option Nat := a.q.findIdx? fun q => !q.committed

/-- Offset in the root's SRAM of group `g`'s staging slot, and of a part in it (R145, log 61). -/
def SkRec.slotAt (k : SkRec) (o : AOp) (g : Nat) : Nat := k.stage + g % k.slots * stageLen o k.n
/-- Where a part stands. -/
def SkRec.partAt (k : SkRec) (o : AOp) (g part : Nat) : Nat := k.slotAt o g + part * partBytes o

/-- A part's sums as 64-bit words, 128 a row (R76, R145). -/
def stagedWords (rows : List (List ASum)) : List Byte :=
  rows.flatMap fun r => ((r ++ List.replicate (128 - r.length) asEmpty).take 128).flatMap fun a => natLe 8 (asumToWord a).toNat

/-- A part read back from the staging area. -/
def State.stagedRows (s : State) (t at_ rows cols : Nat) : List (List ASum) :=
  (List.range rows).map fun r => (List.range cols).map fun c =>
    asumOfWord (BitVec.ofNat 64 (leNat (s.sram t (at_ + 1024 * r + 8 * c) 8)))

/-- A contributor's group may go: its slot at the root has been granted (R145). The root's own part goes to its staging slot, which a fill
or a spill may hold (R179, R226). -/
def State.slotOk (s : State) (t : Nat) (q : AInst) : Bool :=
  match q.sk with
  | none => true
  | some k => match (s.tile k.root).sk.find? fun r => r.k.id = k.id with
    | some r => decide (q.p0.done < r.granted) &&
        (k.root ≠ t || !s.writeHeld t [(sramAt t + r.k.partAt r.inst.o q.p0.done (((List.range t).filter (bitOf k.mask)).length), partBytes r.inst.o)])
    | none => false

/-- The accumulator after a group. -/
def Arr.putFolds (a : Arr) (fs : List (Nat × List (Nat × ASum))) (poison : Bool) : Arr :=
  fs.foldl (fun a f =>
    { a with acc := f.2.foldl (fun m c => sput (accDefault a.junk) m (f.1 * 128 + c.1) c.2) a.acc,
             accPois := sput noFlag a.accPois f.1 poison }) a

/-- An accumulator row that the group reads carries a mark (R408). -/
def Arr.readsPois (a : Arr) (q : AInst) (fs : List (Nat × List (Nat × ASum))) : Bool :=
  q.o.acc && fs.any fun f => sget noFlag a.accPois f.1

/-- A part reaches the root's staging slot: its sums are stored as words, and the slot's 64 bytes of state change to what the spec does
not state (R76, R144, R145, log 61). -/
def State.stagePart (s : State) (t : Nat) (r : SkRed) (p : SkPart) : State :=
  let o := r.inst.o
  let a := sramAt t + r.k.partAt o p.group p.part
  let st := sramAt t + r.k.slotAt o p.group + r.k.n * partBytes o
  let w := stagedWords p.rows
  let s := (s.setMem (wrBytes (wrBytes s.mem a w) st (freshBytes s.freeCtr 64))).spend 64
  let s := s.markWrite [(a, w.length)] false
  let x := s.tile t
  s.setTile t { x with sk := x.sk.map fun e => if e.k.id = r.k.id then { e with parts := e.parts ++ [{ p with rows := [] }] } else e }

/-- Send a part to the root's split-K unit; fields that differ from the root's are a job fault there (R143, R146). -/
def State.sendPart (s : State) (t : Nat) (k : SkRec) (q : AInst) (p : SkPart) : Except JF State :=
  let root := s.tile k.root
  match root.sk.find? fun r => r.k.id = k.id with
  | none => .ok s
  | some r =>
    if !(r.k.n == k.n && r.k.mask == k.mask && r.m == q.o.r.m && groupRows r.inst.o 0 == groupRows q.o 0) then
      .error ⟨1, 0, r.inst.o.r.skrec, 0, some k.root⟩
    else if t = k.root then .ok (s.stagePart t r p)
    else .ok (s.setTile k.root { root with sk := root.sk.map fun e => if e.k.id = k.id then { e with flying := e.flying ++ [p] } else e })

/-- The index of a tile among a mask's bits (R142). -/
def partIndex (mask t : Nat) : Nat := ((List.range t).filter (bitOf mask)).length

/-- Element by element tree over the parts of a group, in ascending part index (R80, R144). -/
def combineParts (ps : List (List (List ASum))) (rows cols : Nat) : List (List ASum) :=
  (List.range rows).map fun r => (List.range cols).map fun c => splitkTree (ps.map fun p => (p.getD r []).getD c asEmpty)

/-- Parts of the group that the root writes next, in ascending part index. -/
def SkRed.headParts (r : SkRed) : List SkPart := (List.range r.k.n).filterMap fun j => r.parts.find? fun p => p.group = r.written && p.part = j

/-- The root writes its next group once every part of it is there and nothing holds the write (R144, R179, R226). -/
def State.rootWrite (s : State) (t : Nat) (r : SkRed) : Except JF State :=
  let mine := r.headParts
  let o := r.inst.o
  if mine.length < r.k.n || s.writeHeld t (o.groupIvs 0 r.written) then .ok s
  else do
    let n := groupRows o 0
    let rows := min n (r.m - r.written * n)
    let parts := (List.range r.k.n).map fun j => s.stagedRows t (r.k.partAt o r.written j) rows (shapeOf o.op).cols
    let sums := combineParts parts rows (shapeOf o.op).cols
    let pz := r.inst.poison || mine.any (·.poison)
    let s := if pz && !r.inst.poison then s.markWrite r.inst.wrote true else s
    let w ← s.writeGroup t o 0 (sums.zipIdx.map fun p => (r.written * n + p.2, p.1)) pz
    let s := w.s.driftWrites t r.arr o.dst0 o.r.grad w.fresh
    let x := s.tile t
    .ok (s.setTile t { x with sk := x.sk.map fun e => if e.k.id = r.k.id then
        { e with written := r.written + 1, parts := e.parts.filter (fun p => p.group ≠ r.written),
                 inst := { e.inst with wrote := e.inst.wrote ++ w.ivs, poison := pz } } else e })

/-- Write the complete groups of a reduction, in ascending index (R144). -/
def State.rootLoop (t id : Nat) : Nat → State → Except JF State
  | 0, s => .ok s
  | n + 1, s =>
    match (s.tile t).sk.find? fun r => r.k.id = id with
    | none => .ok s
    | some r => do State.rootLoop t id n (← s.rootWrite t r)

/-- Write what the root can write of a reduction. -/
def State.rootWrites (s : State) (t id : Nat) : Except JF State :=
  State.rootLoop t id (((s.tile t).sk.map fun r => r.parts.length).sum + 1) s

/-- Write what the root can write of every reduction of a tile. -/
def State.rootAll (s : State) (t : Nat) : Except JF State :=
  ((s.tile t).sk.map fun r => r.k.id).foldl (fun e id => do (← e).rootWrites t id) (.ok s)

/-- The instruction after group `g` of problem `k` has committed. -/
def AInst.groupGone (q : AInst) (k : Nat) (ivs : List (Nat × Nat)) (poison : Bool) : AInst :=
  let n := groupRows q.o k
  let p := q.pr k
  { q.setPr k { p with rows := p.rows.drop n, done := p.done + 1 } with
    wrote := q.wrote ++ ivs, poison := poison,
    sel := if (q.sel.any fun r => r.1 == k && decide (r.2 < (p.done + 1) * n)) then none else q.sel }

/-- The next group of mma.diag (R153). -/
def State.commitDiag (s : State) (t i n : Nat) (q : AInst) : Except JF State := do
  let o := q.o
  let r := q.p0.rows.headD ⟨0, []⟩
  let base := o.r.diagIdx + 256 * q.p0.done
  let vals := (List.zipWith diagProd (r.passes.getD 0 []) (r.passes.getD 1 [])).zipIdx.map fun p => (base + p.2, p.1)
  let w ← s.writeVals t o.dst0 vals ⟨o.r.wform, o.r.grad⟩ q.poison
  let s := w.s.driftWrites t i o.dst0 o.r.grad w.fresh
  .ok (s.setInst t i n (q.groupGone 0 w.ivs q.poison) id)

/-- The next group of problem `k` of a product: its folds enter the accumulator, and its sums are written or sent to the root
(R138, R141, R143, R157). -/
def State.commitFolds (s : State) (t i n : Nat) (q : AInst) (k : Nat) : Except JF State := do
  let o := q.o
  let a := (s.tile t).arr i
  let g := (q.pr k).done
  let rows := q.groupOf k
  let fs := rows.map fun p => (p.1, a.rowFolds q k p.1 p.2)
  let pz := q.poison || fs.any fun p => a.readsPois q p.2
  let s := (s.capture t i k a q rows).markPast t i q pz
  let a' := fs.foldl (fun a p => a.putFolds p.2 pz) ((s.tile t).arr i)
  let q' := q.groupGone k [] pz
  let s := s.setTile t ((s.tile t).setArr i { a' with q := a'.q.set n q' })
  if !o.wr then .ok s
  else
    let sums := fs.map fun p => (p.1, rowSums o p.2)
    match q.sk with
    | some r => do (← s.sendPart t r q ⟨g, partIndex r.mask t, sums.map Prod.snd, pz, s.plc.epoch⟩).rootWrites r.root r.id
    | none => do
      let w ← s.writeGroup t o k sums pz
      let s := w.s.driftWrites t i (o.destOf k).1 o.r.grad w.fresh
      .ok (s.setInst t i n { q' with wrote := q.wrote ++ w.ivs } id)

/-- The next group of problem `k` of the instruction at place `n` commits (R141, R143, R153). -/
def State.commitAt (s : State) (t i n k : Nat) : Except JF State :=
  let q := ((s.tile t).arr i).q.getD n AInst.blank
  if q.o.op = opDiag then s.commitDiag t i n q else s.commitFolds t i n q k

/-- Problems of the instruction whose next group is due, and those of them that a slot or their writes hold (R136, R141, R145, R179,
R226). -/
def State.groupHeld (s : State) (t : Nat) (q : AInst) (k : Nat) : Bool := !s.slotOk t q || (q.sk.isNone && s.writeHeld t (q.o.groupIvs k (q.pr k).done))

/-- Problems whose next group may commit now. -/
def State.commitProbs (s : State) (t : Nat) (q : AInst) : List Nat :=
  q.o.probs.filter fun k => q.groupDue k s.clk.etick && !s.groupHeld t q k

/-- A group of an array may commit now. -/
def State.commitDue (s : State) (t i : Nat) : Bool :=
  let a := (s.tile t).arr i
  match a.committing with
  | none => false
  | some n => !(s.commitProbs t (a.q.getD n AInst.blank)).isEmpty

/-- Every group is committed and, in a split-K reduction, taken or written by the root (R137, R146). -/
def State.instDone (s : State) (t : Nat) (q : AInst) : Bool :=
  q.committed && (match q.sk with
    | none => true
    | some k => match (s.tile k.root).sk.find? fun r => r.k.id = k.id with
      | none => true
      | some r => if k.root = t then decide (q.groups 0 ≤ r.written) else !r.flying.any fun p => p.part = partIndex k.mask t)

/-- The place of the first instruction of an array that has completed. -/
def State.doneAt (s : State) (t i : Nat) : Option Nat := ((s.tile t).arr i).q.findIdx? (s.instDone t)

/-- Check-value blocks that an operation is credited with, each once (R384). -/
def AOp.credits (o : AOp) (ivs : List (Nat × Nat)) : List CvBlk :=
  if !o.wr then [] else (o.dst0.cvTouched ivs ++ (if isSplit o.op || o.pairs then o.dst1.cvTouched ivs else [])).dedup

/-- An array instruction completes: its lane is credited and its object signalled (R137, R146, R384). -/
def State.completeInst (s : State) (t i n : Nat) : State :=
  let x := s.tile t
  let a := x.arr i
  let q := a.q.getD n AInst.blank
  let root := q.sk.bind fun k => if k.root = t then x.sk.find? fun r => r.k.id = k.id else none
  let ivs := match root with | some r => r.inst.wrote | none => if q.sk.isSome then [] else q.wrote
  let x := x.setArr i { a with q := a.q.eraseIdx n }
  let x := match root with | some r => { x with sk := x.sk.filter fun e => e.k.id ≠ r.k.id } | none => x
  let s := (s.setTile t x).credit t i q.bidx q.iter (q.o.credits ivs) s.step
  s.signal t q.o.r.syncen q.o.r.sync

/-- ARRAY_COMPLETE (R137, R146). -/
def execArrayComplete (t : Fin 64) (a : Fin 3) (s : State) : Host.Outcome State Fault Refusal :=
  match s.doneAt t a with
  | none => .next s
  | some n => .next (s.completeInst t a n)

/-- A staging slot is free for the next commit group (R145). -/
def SkRed.canGrant (r : SkRed) : Bool := decide (r.granted < r.written + r.k.slots) && decide (r.granted < r.inst.groups 0)

/-- SPLITK_SLOT_GRANT (R145): the root grants a slot of reduction `id` to its next commit group. -/
def execSplitkSlotGrant (t : Fin 64) (id : BitVec 16) (s : State) : Host.Outcome State Fault Refusal :=
  let x := s.tile t
  occurs (x.sk.any fun r => r.k.id == id.toNat && r.canGrant)
    (s.setTile t { x with sk := x.sk.map fun r => if r.k.id = id.toNat then { r with granted := r.granted + 1 } else r }) s

/-- The oldest part that crosses the mesh to reduction `id` of tile `t`. -/
def Tile.flyingPart (x : Tile) (id : Nat) : Option (SkRed × SkPart) :=
  (x.sk.find? fun r => r.k.id = id).bind fun r => r.flying.head?.map fun p => (r, p)

/-- It may be stored: nothing holds its place in the staging slot, and no move holds it (R179, R226, R248). -/
def State.partFree (s : State) (t : Nat) (r : SkRed) (p : SkPart) : Bool :=
  !s.writeHeld t [(sramAt t + r.k.partAt r.inst.o p.group p.part, partBytes r.inst.o)] &&
    !s.moveHolds t (s.stopOf (((List.range 64).filter (bitOf r.k.mask)).getD p.part 0)) 0 p.epoch

/-- The oldest part crossing the mesh reaches the unit. -/
def State.partArrive (s : State) (t id : Nat) : Except JF State :=
  let x := s.tile t
  match x.flyingPart id with
  | none => .ok s
  | some (r, p) =>
    let s := s.setTile t { x with sk := x.sk.map fun e => if e.k.id = id then { e with flying := e.flying.drop 1 } else e }
    (s.stagePart t r p).rootWrites t id

/-- SPLITK_PART_ARRIVE (R144, R146). -/
def execSplitkPartArrive (t : Fin 64) (id : BitVec 16) (s : State) : Host.Outcome State Fault Refusal :=
  occurs (((s.tile t).flyingPart id.toNat).any fun p => s.partFree t p.1 p.2) (s.orFault t (s.partArrive t id.toNat)) s

/-! Elastic drains (R154) -/

/-- Rows of problem `k`'s columns that have reached the drain by tick `now` (R136, R154). -/
def Arr.atDrain (a : Arr) (k now : Nat) : Nat :=
  (a.q.map fun q =>
    let p := q.pr (if isSplit q.o.op then k else 0)
    (p.rows.filter fun r => decide (passes q.o.op ≤ r.passes.length) && decide (r.at_ + (shapeOf q.o.op).lat ≤ now + 12)).length).sum

/-- The columns of array `i` are full: a group that is due is held, and eight rows beyond it stand in the drains (R154). -/
def State.drainFull (s : State) (t i : Nat) : Bool :=
  let a := (s.tile t).arr i
  match a.committing with
  | none => false
  | some n =>
    let q := a.q.getD n AInst.blank
    q.o.probs.any fun k => q.groupDue k s.clk.etick && s.groupHeld t q k && decide (groupRows q.o k + 8 ≤ a.atDrain k s.clk.etick)

/-- A problem's rows stand still for a tick: those that have not reached the drain, and those still to enter (R154). -/
def Prob.stall (p : Prob) (lat now : Nat) (fed : Bool) : Prob :=
  { p with rows := p.rows.map fun r => if r.at_ + lat ≤ now + 12 then r else { r with at_ := r.at_ + 1 }, due := if fed then p.due else max p.due (now + 1) + 1 }

/-- An instruction stands still for a tick. -/
def AInst.stall (q : AInst) (now : Nat) : AInst :=
  let lat := (shapeOf q.o.op).lat
  { q with p0 := q.p0.stall lat now (q.probFed 0), p1 := q.p1.stall lat now (q.probFed 1) }

/-- What the tick that ends delays on array `i`: rows behind full drains, loads whose source reads fill tracking holds, and a .cx
instruction's own (R148, R149, R151, R154). -/
def State.delayArray (s : State) (t i : Nat) : State :=
  let now := s.clk.etick
  let a := (s.tile t).arr i
  let a' := { a with loads := match a.loads with
    | l :: ls => (if s.loadHeld t now l.ready l.o then { l with ready := l.ready + 1 } else l) :: ls
    | [] => [] }
  let a' := { a' with q := a'.q.map fun q => match q.cxNext with
    | some o => if s.loadHeld t now q.cxAt o then { q with cxAt := q.cxAt + 1 } else q
    | none => q }
  let a' := if s.drainFull t i then { a' with q := a'.q.map fun q => q.stall now } else a'
  if a' = a then s else s.setTile t ((s.tile t).setArr i a')

end Sys2Proof.Machine
end

