-- ==== Sys2Proof/Machine/Bundle.lean ====
section
/-! DEFINITION. Machine/Bundle.lean: the five slots of a bundle, their fields, and what an encoding alone makes
illegal (R252, R253, R267, R268, R274 to R277). -/

namespace Sys2Proof.Machine

/-- S slot (R274). `bad` in every slot: a reserved bit or encoding makes it illegal. -/
structure SSlot where
  op : Nat
  ctx : Nat
  opr : Nat
  xreg : Nat
  xen : Bool
  bad : Bool
  deriving DecidableEq, Repr

/-- F slot (R267). -/
structure FSlot where
  op : Nat
  rec_ : Nat
  bad : Bool
  deriving DecidableEq, Repr

/-- B slot (R268). -/
structure BSlot where
  bop : Nat
  op0 : Nat
  rec0 : Nat
  op1 : Nat
  rec1 : Nat
  bad : Bool
  deriving DecidableEq, Repr

/-- V slot (R275): `vd` is VD, VR or KD. -/
structure VSlot where
  op : Nat
  vd : Nat
  va : Nat
  vb : Nat
  vc : Nat
  k : Nat
  lane : Nat
  drec : Nat
  xreg : Nat
  wform : Nat
  grad : Bool
  ht : Bool
  q : Nat
  bad : Bool
  deriving DecidableEq, Repr

/-- C slot (R277): `a` and `b` are OBJ, LVL, XREG, ADDR or LANE, and V, N, COUNT, IMM or DREC, as COP has them;
`c` and `d` the further fields: TILE; XREG of lp.x; XN and OBJ of sadv. -/
structure CSlot where
  op : Nat
  a : Nat
  b : Nat
  c : Nat
  d : Nat
  bad : Bool
  deriving DecidableEq, Repr

/-- A bundle (R252). -/
structure Bundle where
  lend : Nat
  s : SSlot
  f : FSlot
  b : BSlot
  v : VSlot
  c : CSlot
  /-- the header has a reserved bit set (R253) -/
  bad : Bool
  deriving DecidableEq, Repr

/-- No-operations. -/
def SSlot.nop : SSlot := ⟨0, 0, 0, 0, false, false⟩
/-- No-operation of the F slot. -/
def FSlot.nop : FSlot := ⟨0, 0, false⟩
/-- No-operation of the B slot. -/
def BSlot.nop : BSlot := ⟨0, 0, 0, 0, 0, false⟩
/-- No-operation of the V slot. -/
def VSlot.nop : VSlot := ⟨0, 0, 0, 0, 0, 0, 0, 0, 0, 0, false, false, 0, false⟩
/-- No-operation of the C slot. -/
def CSlot.nop : CSlot := ⟨0, 0, 0, 0, 0, false⟩
/-- The bundle that does nothing. -/
def Bundle.nop : Bundle := ⟨0, SSlot.nop, FSlot.nop, BSlot.nop, VSlot.nop, CSlot.nop, false⟩

/-- R274: what the S slot's fields alone make illegal. -/
def SSlot.check (x : SSlot) : SSlot :=
  { x with bad := x.bad || 5 ≤ x.op || (x.op == 2 && x.opr == 0) }

/-- R274. -/
def SSlot.decode (w : Nat) : SSlot :=
  SSlot.check { op := bitsOf w 0 6, ctx := bitsOf w 6 5, opr := bitsOf w 11 16, xreg := bitsOf w 27 4, xen := bitOf w 31,
                bad := bitsOf w 0 6 = 0 && w ≠ 0 }

/-- An OP value of R267, the no-operation included. -/
def opOk (op : Nat) : Bool := op == 0 || opKnown op

/-- R267: what the F slot's fields alone make illegal. -/
def FSlot.check (x : FSlot) : FSlot := { x with bad := x.bad || !opOk x.op || (x.op == 0 && x.rec_ ≠ 0) }

/-- R267. -/
def FSlot.decode (w : Nat) : FSlot :=
  FSlot.check { op := bitsOf w 0 6, rec_ := bitsOf w 6 19, bad := w / 2 ^ 25 ≠ 0 }

/-- A product shape, as mmb.pair asks (R268). -/
def isProduct (op : Nat) : Bool := opKnown op && op ≠ opMld

/-- R268: what the B slot's fields alone make illegal. -/
def BSlot.check (x : BSlot) : BSlot :=
  { x with bad := x.bad || 5 ≤ x.bop || !opOk x.op0 || !opOk x.op1 || (x.op0 == 0 && x.rec0 ≠ 0) || (x.op1 == 0 && x.rec1 ≠ 0) ||
      (x.bop < 3 && (x.op1 ≠ 0 || x.rec1 ≠ 0)) || (x.bop == 0 && x.op0 ≠ 0) ||
      (x.bop == 3 && !(isProduct x.op0 && isProduct x.op1)) }

/-- R268. -/
def BSlot.decode (w : Nat) : BSlot :=
  BSlot.check { bop := bitsOf w 0 4, op0 := bitsOf w 4 6, rec0 := bitsOf w 10 19, op1 := bitsOf w 29 6, rec1 := bitsOf w 35 19,
                bad := w / 2 ^ 54 ≠ 0 }

/-- Format of a VOP value: 0 R, 1 M, 2 D (R276). -/
def vFormat (op : Nat) : Option Nat :=
  if (1 ≤ op && op ≤ 0x0E) || (0x10 ≤ op && op ≤ 0x17) || (0x18 ≤ op && op ≤ 0x1C) || (0x20 ≤ op && op ≤ 0x25) then some 0
  else if (0x30 ≤ op && op ≤ 0x32) || op == 0x34 || op == 0x35 then some 1
  else if op == 0x33 then some 2
  else none

/-- R275, R276: what the V slot's fields alone make illegal. -/
def VSlot.check (x : VSlot) : VSlot :=
  { x with bad := x.bad || (x.op ≠ 0 && (vFormat x.op).isNone) || (x.op ≠ 0x32 && (x.wform ≠ 0 || x.grad || x.ht)) ||
      x.wform == 3 || ((x.op == 0x30 || x.op == 0x35) && x.k ≠ 0) || (x.op == 0x35 && x.xreg ≠ 0) ||
      (0x0B ≤ x.op && x.op ≤ 0x0E && 8 ≤ x.vd) || (x.op == 0x20 && (x.vd % 2 ≠ 0 || x.va % 2 ≠ 0 || x.vb % 2 ≠ 0)) ||
      (x.op == 0x21 && x.va % 2 ≠ 0) }

/-- R275. -/
def VSlot.decode (w : Nat) : VSlot :=
  let op := bitsOf w 0 8
  VSlot.check (match vFormat op with
    | some 0 => { VSlot.nop with op := op, vd := bitsOf w 8 5, va := bitsOf w 13 5, vb := bitsOf w 18 5, vc := bitsOf w 23 5,
                                 k := bitsOf w 28 3, lane := bitsOf w 31 9, bad := w / 2 ^ 40 ≠ 0 }
    | some 1 => { VSlot.nop with op := op, vd := bitsOf w 8 5, k := bitsOf w 13 3, drec := bitsOf w 16 16, xreg := bitsOf w 32 4,
                                 wform := bitsOf w 36 2, grad := bitOf w 38, ht := bitOf w 39, bad := w / 2 ^ 40 ≠ 0 }
    | some _ => { VSlot.nop with op := op, vd := bitsOf w 8 3, q := bitsOf w 11 16, drec := bitsOf w 27 16, xreg := bitsOf w 43 4,
                                 bad := w / 2 ^ 47 ≠ 0 }
    | none => { VSlot.nop with op := op, bad := w ≠ 0 })

/-- R277: what the C slot's fields alone make illegal. -/
def CSlot.check (x : CSlot) : CSlot :=
  { x with bad := x.bad || 0x14 ≤ x.op || (x.op == 0x0A && x.a % 2 ≠ 0) || (x.op == 0x06 && x.b == 0) }

/-- R277: the fields of each COP, as lowest bit and width; every other bit is reserved. -/
def cFields (op : Nat) : List (Nat × Nat) :=
  match op with
  | 0x01 => [(6, 8), (14, 24)]
  | 0x02 => [(6, 8), (14, 24)]
  | 0x03 => [(6, 8), (14, 16)]
  | 0x04 => [(6, 8), (14, 16), (30, 6)]
  | 0x05 => [(6, 8), (14, 24)]
  | 0x06 => [(6, 2), (8, 24)]
  | 0x07 => [(6, 2), (8, 4)]
  | 0x08 => [(6, 4), (10, 24)]
  | 0x09 => [(6, 4), (10, 24)]
  | 0x0A => [(6, 4)]
  | 0x0B => [(6, 4)]
  | 0x0D => [(6, 13)]
  | 0x0E => [(6, 16)]
  | 0x10 => [(6, 6), (12, 16)]
  | 0x11 => [(6, 6), (12, 16)]
  | 0x12 => [(6, 6), (12, 16)]
  | 0x13 => [(6, 16), (22, 4), (26, 4), (30, 8)]
  | _ => []

/-- R277. -/
def CSlot.decode (w : Nat) : CSlot :=
  let op := bitsOf w 0 6
  let fs := cFields op
  let at_ := fun i => match fs[i]? with
    | some f => bitsOf w f.1 f.2
    | none => 0
  let used := op + (fs.map fun f => bitsOf w f.1 f.2 * 2 ^ f.1).sum
  CSlot.check { op := op, a := at_ 0, b := at_ 1, c := at_ 2, d := at_ 3, bad := w ≠ used }

/-- R252, R253: the bundle that 256 bits spell. -/
def Bundle.decode (w : Nat) : Bundle :=
  { lend := bitsOf w 0 4, s := SSlot.decode (bitsOf w 16 32), f := FSlot.decode (bitsOf w 48 56), b := BSlot.decode (bitsOf w 104 64),
    v := VSlot.decode (bitsOf w 168 48), c := CSlot.decode (bitsOf w 216 40), bad := bitsOf w 4 12 ≠ 0 }

/-- A bundle holding one S-slot instruction. -/
def Bundle.ofS (x : SSlot) : Bundle := { Bundle.nop with s := x.check }
/-- A bundle holding one F-slot instruction. -/
def Bundle.ofF (x : FSlot) : Bundle := { Bundle.nop with f := x.check }
/-- A bundle holding one B-slot instruction. -/
def Bundle.ofB (x : BSlot) : Bundle := { Bundle.nop with b := x.check }
/-- A bundle holding one V-slot instruction. -/
def Bundle.ofV (x : VSlot) : Bundle := { Bundle.nop with v := x.check }
/-- A bundle holding one C-slot instruction. -/
def Bundle.ofC (x : CSlot) : Bundle := { Bundle.nop with c := x.check }

end Sys2Proof.Machine
end

