-- ==== Sys2Proof/Machine/VecOps.lean ====
section
/-! DEFINITION. Machine/VecOps.lean: the vector engine: registers and masks, lane arithmetic and reductions, loads,
the writes of vst, vcvt and vslice, dropout masks, and the holds of the V slot (R192 to R202, R275, R276, R609, R610). -/

namespace Sys2Proof.Machine

/-! Registers and masks (R192) -/

/-- Mask register `k`: k0 reads as all ones (R192). -/
def Tile.mask (x : Tile) (k : Nat) : BitVec 512 := if k = 0 then BitVec.allOnes 512 else sget (fun _ => 0) x.kreg k

/-- The 512 lanes of a vector register. -/
def Tile.lanesOf (x : Tile) (r : Nat) : List W32 :=
  let v := sget (fun _ => ([] : SMap W32)) x.vreg r
  (List.range 512).map (sget zero32 v)

/-- Lanes as a table. -/
def packLanes (l : List W32) : SMap W32 := l.zipIdx.foldl (fun m p => sput zero32 m p.2 p.1) []

/-- Write a vector register. -/
def Tile.setV (x : Tile) (r : Nat) (l : List W32) : Tile :=
  { x with vreg := sput (fun _ => ([] : SMap W32)) x.vreg r (packLanes l) }

/-- Set or clear a bit. -/
def bvPut {w : Nat} (b : BitVec w) (i : Nat) (v : Bool) : BitVec w :=
  let m := BitVec.ofNat w (2 ^ i)
  if v then b ||| m else b &&& ~~~m

/-- The mark of a vector register (R407). -/
def Tile.vMark (x : Tile) (r : Nat) : Bool := bitOf x.vpois.toNat r

/-- The mark of a mask register; k0 never has one. -/
def Tile.kMark (x : Tile) (k : Nat) : Bool := k ≠ 0 && bitOf x.kpois.toNat k

/-- Write a mask register with its mark: k0 ignores writes (R192). -/
def Tile.setMask (x : Tile) (k : Nat) (m : BitVec 512) (pz : Bool) : Tile :=
  if k = 0 then x else { x with kreg := sput (fun _ => (0 : BitVec 512)) x.kreg k m, kpois := bvPut x.kpois k pz }

/-- The mark a destination register takes: from its sources and mask, and its own where lanes stay (R408). -/
def Tile.markV (x : Tile) (d : Nat) (srcs : List Nat) (k : Nat) (keep : Bool) : Tile :=
  { x with vpois := bvPut x.vpois d (srcs.any x.vMark || x.kMark k || (keep && x.vMark d)) }

/-! Lane arithmetic -/

/-- Two-operand instructions by VOP (R198, R276). -/
def vBin (op : Nat) : Option (W32 → W32 → W32) :=
  match op with
  | 0x01 => some vaddF
  | 0x02 => some vsubF
  | 0x03 => some vmulF
  | 0x05 => some vminF
  | 0x06 => some vmaxF
  | 0x09 => some vcopysignF
  | 0x17 => some vdivF
  | _ => none

/-- One-operand instructions by VOP (R198, R276). -/
def vUn (op : Nat) : Option (W32 → W32) :=
  match op with
  | 0x07 => some vabsF
  | 0x08 => some vnegF
  | 0x10 => some vrcpF
  | 0x11 => some vsqrtF
  | 0x12 => some vrsqrtF
  | 0x13 => some vexpF
  | 0x14 => some vexp2F
  | 0x15 => some vlogF
  | 0x16 => some vlog2F
  | 0x18 => some sigmoidC
  | 0x19 => some tanhC
  | 0x1A => some geluTanhC
  | 0x1B => some erfC
  | 0x1C => some geluC
  | _ => none

/-- Compares by VOP: a NaN operand gives 0, or 1 for .ne (R198). -/
def vCmp (op : Nat) (a b : W32) : Bool :=
  match op with
  | 0x0B => feqF a b
  | 0x0C => !feqF a b
  | 0x0D => fltF a b
  | _ => fleF a b

/-- Lanes with the masked ones kept (R193). -/
def blend (m : BitVec 512) (old new : List W32) : List W32 :=
  (old.zip new).zipIdx.map fun p => if m.getLsbD p.2 then p.1.2 else p.1.1

/-- A lanewise write of a register. -/
def Tile.lanewise (x : Tile) (d k : Nat) (srcs : List Nat) (new : List W32) : Tile :=
  (x.markV d srcs k (k ≠ 0)).setV d (blend (x.mask k) (x.lanesOf d) new)

/-- The values of the lanes that a mask selects, in ascending lane order (R199). -/
def Tile.present (x : Tile) (r k : Nat) : List W32 :=
  ((x.lanesOf r).zipIdx.filter fun p => (x.mask k).getLsbD p.2).map Prod.fst

/-- The result of a reduction (R199, R201). -/
def vReduce (op : Nat) (l : List W32) : W32 :=
  if op = 0x22 || op = 0x23 then treeAdd l else if op = 0x24 then redMax l else redMin l

/-- The lane that a reduction writes (R199, R201). -/
def resultLane (v : VSlot) : Nat := if v.op = 0x23 then v.lane else 0

/-- What a register instruction does to the tile's registers (R193, R196 to R201, R113). -/
def Tile.execReg (x : Tile) (v : VSlot) : Tile :=
  let a := x.lanesOf v.va
  let b := x.lanesOf v.vb
  match vBin v.op with
  | some f => x.lanewise v.vd v.k [v.va, v.vb] (List.zipWith f a b)
  | none =>
    match vUn v.op with
    | some f => x.lanewise v.vd v.k [v.va] (a.map f)
    | none =>
      if v.op = 0x04 then
        x.lanewise v.vd v.k [v.va, v.vb, v.vc] (List.zipWith (fun p c => vfmaF p.1 p.2 c) (a.zip b) (x.lanesOf v.vc))
      else if v.op = 0x0A then
        (x.markV v.vd [v.va, v.vb] v.k false).setV v.vd (blend (x.mask v.k) b a)
      else if 0x0B ≤ v.op && v.op ≤ 0x0E then
        let kd := v.vd % 8
        let bits := ((a.zip b).zipIdx.foldl (fun (m : BitVec 512) p =>
          if (x.mask v.k).getLsbD p.2 then bvPut m p.2 (vCmp v.op p.1.1 p.1.2) else m) (x.mask kd))
        x.setMask kd bits (x.vMark v.va || x.vMark v.vb || x.kMark v.k || (v.k ≠ 0 && x.kMark kd))
      else if v.op = 0x20 then
        let rs := List.zipWith (fun p q => pairAdd p.1 p.2 q.1 q.2) (a.zip (x.lanesOf (v.va + 1))) (b.zip (x.lanesOf (v.vb + 1)))
        let src := [v.va, v.va + 1, v.vb, v.vb + 1]
        let y := (x.markV v.vd src v.k (v.k ≠ 0)).setV v.vd (blend (x.mask v.k) (x.lanesOf v.vd) (rs.map Prod.fst))
        { y with vpois := ((x.markV (v.vd + 1) src v.k (v.k ≠ 0)).vpois &&& BitVec.ofNat 32 (2 ^ (v.vd + 1))) |||
                   bvPut y.vpois (v.vd + 1) false }.setV (v.vd + 1) (blend (x.mask v.k) (x.lanesOf (v.vd + 1)) (rs.map Prod.snd))
      else if v.op = 0x21 then
        x.lanewise v.vd v.k [v.va, v.va + 1] (List.zipWith vaddF a (x.lanesOf (v.va + 1)))
      else
        (x.markV v.vd [v.va] v.k true).setV v.vd ((x.lanesOf v.vd).set (resultLane v) (vReduce v.op (x.present v.va v.k)))

/-! Timing (R197, R198) -/

/-- Row of R198 that a VOP stands in, named by its first VOP, with its latency and issue interval. -/
def vRow (op : Nat) : Nat × Nat × Nat :=
  if op ≤ 0x03 then (0x01, 4, 1)
  else if op = 0x04 then (0x04, 4, 1)
  else if op ≤ 0x06 then (0x05, 2, 1)
  else if op ≤ 0x09 then (0x07, 2, 1)
  else if op = 0x0A then (0x0A, 2, 1)
  else if op ≤ 0x0E then (0x0B, 2, 1)
  else if op ≤ 0x12 then (0x10, 12, 2)
  else if op ≤ 0x14 then (0x13, 14, 2)
  else if op ≤ 0x16 then (0x15, 16, 2)
  else if op = 0x17 then (0x17, 16, 4)
  else if op = 0x18 then (0x18, 32, 2)
  else if op = 0x19 then (0x19, 42, 4)
  else if op = 0x1A then (0x1A, 70, 4)
  else if op = 0x1B then (0x1B, 48, 4)
  else if op = 0x1C then (0x1C, 64, 4)
  else if op = 0x20 then (0x20, 36, 4)
  else if op = 0x21 then (0x21, 4, 1)
  else if op ≤ 0x23 then (0x22, 40, 1)
  else if op ≤ 0x25 then (0x24, 20, 1)
  else if op = 0x30 then (0x30, 6, 1)
  else if op = 0x31 then (0x31, 6, 1)
  else if op = 0x32 then (0x32, 12, 1)
  else if op = 0x33 then (0x33, 14, 1)
  else if op = 0x34 then (0x34, 24, 3)
  else (op, 0, 1)

/-- Registers an instruction reads and writes, mask register k as 32 + k (R197). -/
def vUses (v : VSlot) : List Nat × List Nat :=
  let k := 32 + v.k
  if v.op = 0x30 then ([], [v.vd])
  else if v.op = 0x31 || v.op = 0x32 then ([v.vd, k], [])
  else if v.op = 0x33 then ([], [32 + v.vd])
  else if v.op = 0x34 then ([k], [])
  else if v.op = 0 || v.op = 0x35 then ([], [])
  else if v.op = 0x04 then ([v.va, v.vb, v.vc, k], [v.vd])
  else if (vBin v.op).isSome || v.op = 0x0A then ([v.va, v.vb, k], [v.vd])
  else if 0x0B ≤ v.op && v.op ≤ 0x0E then ([v.va, v.vb, k], [32 + v.vd % 8])
  else if v.op = 0x20 then ([v.va, v.va + 1, v.vb, v.vb + 1, k], [v.vd, v.vd + 1])
  else if v.op = 0x21 then ([v.va, v.va + 1, k], [v.vd])
  else ([v.va, k], [v.vd])

/-- Timing marks of an issue in tick `now`. -/
def Tile.timed (x : Tile) (v : VSlot) (now : Nat) : Tile :=
  let (row, lat, iv) := vRow v.op
  { x with vnext := sput zeroNat x.vnext row (now + iv),
           vready := (vUses v).2.foldl (fun m r => if r = 32 then m else sput zeroNat m r (now + lat)) x.vready }

/-- A conversion is in progress in the conversion unit (R279). -/
def Tile.converting (x : Tile) : Bool := x.vwr.any fun w => w.kind ≠ 0

/-- A hold of the V slot: the counter of the issue target, and the vector target's own counter or 0 (R250, R289). -/
def Tile.vHold (x : Tile) (v : VSlot) (now : Nat) : Option (Nat × Nat) :=
  let (row, lat, _) := vRow v.op
  let (rs, ws) := vUses v
  let ready := fun r => if r = 32 then 0 else sget zeroNat x.vready r
  if v.op = 0 then none
  else if x.vupd.isSome then some (3, 4)
  else if (v.op = 0x32 || v.op = 0x34 || v.op = 0x35) && x.sadv.isSome then some (3, 0)
  else if now < sget zeroNat x.vnext row then some (3, 0)
  else if rs.any (fun r => now < ready r) || ws.any (fun r => now + lat < ready r) then some (3, 1)
  else none

/-! Memory instructions -/

/-- The counters X12 to X15 of an issue, as the trace record has them (R387). -/
def Tile.iterWord (x : Tile) : Nat := ((List.range 4).map fun k => (sget zero32 x.x (12 + k)).toNat % 65536 * 65536 ^ k).sum

/-- The first element index that the V slot names (R194, R275). -/
def State.elemAt (s : State) (t : Nat) (v : VSlot) : Except JF Nat :=
  let i := (s.tile t).xs v.xreg
  if i < 0 then .error (JF.illegal 0 0) else .ok (512 * i.toNat)

/-- A descriptor named through a 16-bit field, with `n` more after it within the first 4 MiB (R274, R275). -/
def State.descNear (s : State) (t drec n : Nat) : Except JF TDesc := do
  let off := drec * 64 + 64 * n
  illegalIf (0x400000 < off + 64) 0 off
  s.descAt t off

/-- The same, for a tensor that the instruction reads or writes in its own SRAM (R603). -/
def State.descLocal (s : State) (t drec n : Nat) : Except JF TDesc := do
  let d ← s.descNear t drec n
  illegalIf (!d.localTo t) 0 (drec * 64 + 64 * n)
  .ok d

/-- An element as vld loads it: a pad and a slot beyond the last as zero (R43, R194). -/
def TDesc.loadF (d : TDesc) (m : Mem) (i : Nat) : W32 :=
  if d.slots ≤ i || (d.lum && d.isPad i) then 0
  else if d.lum then
    let e := d.elemOf m (i / d.bv) (i % d.bv)
    BitVec.ofNat 32 (lumToF e.1 e.2).enc
  else if d.fmt = 2 then BitVec.ofNat 32 (d.rdEnc m i * 65536)
  else BitVec.ofNat 32 (d.rdEnc m i)

/-- Elements of a tensor among 512 from an index. -/
def TDesc.laneIdx (d : TDesc) (i0 : Nat) : List Nat := ((List.range 512).map (i0 + ·)).filter (· < d.slots)

/-- The CVST bits that the conversions of loaded elements set (R88, R92). -/
def TDesc.loadCv (d : TDesc) (m : Mem) (is : List Nat) : W32 :=
  if !d.lum then 0 else (is.filter fun i => decide (i < d.slots) && !d.isPad i).foldl (fun c i =>
    let e := d.elemOf m (i / d.bv) (i % d.bv)
    c ||| (lumToF e.1 e.2).cvst) 0

/-- The bytes that a read of elements takes. -/
def TDesc.idxReads (d : TDesc) (is : List Nat) : List (Nat × Nat) :=
  if d.lum then (is.map (· / d.bv)).dedup.flatMap d.blkReads else is.map fun i => (d.mbase + d.valueBytes i, d.valueBytes 1)

/-- The elements of a Lumgan tensor among given indices. -/
def TDesc.elemsAt (d : TDesc) (m : Mem) (is : List Nat) : List (Nat × Int) :=
  if d.lum then is.map fun i => d.elemOf m (i / d.bv) (i % d.bv) else []

/-- Count −128 or −8 mantissas read, where the status record may be updated (R57, R603). -/
def State.negChecked (s : State) (d : TDesc) (es : List (Nat × Int)) : Except JF Unit :=
  if 0 < d.negs es && !s.metaOk d.stbase then .error (JF.region 0 d.stbase) else .ok ()

/-- vld (R194, R408). -/
def State.vld (s : State) (t : Nat) (v : VSlot) (d : TDesc) (i0 : Nat) : State :=
  let is := d.laneIdx i0
  let l := (List.range 512).map fun k => d.loadF s.mem (i0 + k)
  let pz := s.poisIvs (d.idxReads is)
  let s := (s.setCvst t (d.loadCv s.mem is)).countNeg d (d.negs (d.elemsAt s.mem is))
  let x := s.tile t
  s.setTile t ({ x with vpois := bvPut x.vpois v.vd pz }.setV v.vd l)

/-- The mask that vdrop makes (R202). -/
def dropMask (seed : W64) (step : W32) (tid q i0 : Nat) : BitVec 512 :=
  (List.range 512).foldl (fun m i =>
    if q ≤ draw seed (BitVec.ofNat 32 (tid % 2 ^ 31 + 2 ^ 31)) step (i0 + i) then bvPut m i true else m) 0

/-- Queue a write of the vector engine (R609). -/
def State.pushWrite (s : State) (t : Nat) (v : VSlot) (kind : Nat) (ds : List TDesc) (i0 : Nat) (vals : List W32) (pz : Bool) : State :=
  let x := s.tile t
  let (_, lat, _) := vRow v.op
  s.setTile t { x with vwr := x.vwr ++ [{ land := s.clk.etick + lat, landed := false, kind := kind, tds := ds, i0 := i0, vals := vals, mask := x.mask v.k,
                                          wform := v.wform, grad := v.grad, poison := pz, bidx := x.pc, iter := x.iterWord }] }

/-- Logical coordinates from stored ones (R52). -/
def TDesc.logical (d : TDesc) (c : List Nat) : List Nat :=
  (List.range 4).map fun l => match (List.range 4).find? fun k => d.order.getD k k = l with
    | some k => c.getD k 0
    | none => 0

/-- The element of `a` that stands at the place of slot `i` of `d`, a tensor of the same logical extents; none for a pad. -/
def TDesc.sameAt (d a : TDesc) (i : Nat) : Option Nat :=
  if d.slots ≤ i || d.isPad i then none
  else
    let (c0, c1, c2, c3) := d.coordsOf i
    let l := d.logical [c0, c1, c2, c3]
    let at_ := fun k => l.getD (a.order.getD k k) 0
    some (a.slotOf (at_ 0) (at_ 1) (at_ 2) (at_ 3))

/-- What vslice needs of its descriptors (R114): the number of the first condition that fails. The dimension to be contracted is stored
dimension 0 of all three slices alike. -/
def sliceFault (a : TDesc) (hs : List TDesc) : Option Nat :=
  firstOf [hs.any sliceBad, hs.any fun h => h.rank ≠ a.rank || h.ext ≠ a.ext, !sliceDims hs, !(hs.map (·.tid)).Nodup]

/-- The reads of vslice's source (R225). -/
def sliceReads (a h : TDesc) (i0 : Nat) : List (Nat × Nat) := a.idxReads ((h.laneIdx i0).filterMap (h.sameAt a))

/-- What a V-slot instruction does when it issues: its checks, then its effect on the state. vslice's element index counts slots of the
high slice; an element of the source is found by its logical coordinates (log 83). -/
def State.prepV (s : State) (t : Nat) (v : VSlot) : Except JF (State → State) :=
  let timed := fun (s : State) => s.setTile t ((({ s.tile t with vAt := s.clk.etick } : Tile)).timed v s.clk.etick)
  if v.bad then .error (JF.illegal 0 0)
  else if v.op = 0 then .ok id
  else if v.op = 0x30 then do
    let i0 ← s.elemAt t v
    let d ← s.descLocal t v.drec 0
    s.negChecked d (d.elemsAt s.mem (d.laneIdx i0))
    .ok fun s => timed (s.vld t v d i0)
  else if v.op = 0x31 then do
    let i0 ← s.elemAt t v
    let d ← s.descLocal t v.drec 0
    illegalIf (d.fmt ≠ 3) 0 (v.drec * 64)
    .ok fun s => timed (s.pushWrite t v 0 [d] i0 ((s.tile t).lanesOf v.vd) ((s.tile t).vMark v.vd || (s.tile t).kMark v.k))
  else if v.op = 0x32 then do
    let i0 ← s.elemAt t v
    let d ← s.descLocal t v.drec 0
    illegalIf (formBad d v.wform v.grad v.ht) 0 (v.drec * 64)
    let ds ← if v.ht then do
        let e ← s.descLocal t v.drec 1
        illegalIf (e.fmt ≠ 3) 0 (v.drec * 64 + 64)
        Except.ok [d, e]
      else Except.ok [d]
    .ok fun s => timed (s.pushWrite t v 1 ds i0 ((s.tile t).lanesOf v.vd) ((s.tile t).vMark v.vd || (s.tile t).kMark v.k))
  else if v.op = 0x33 then do
    let i0 ← s.elemAt t v
    let d ← s.descNear t v.drec 0
    .ok fun s => timed (s.setTile t ((s.tile t).setMask v.vd (dropMask s.seed s.step d.tid v.q i0) false))
  else if v.op = 0x34 then do
    let i0 ← s.elemAt t v
    let a ← s.descLocal t v.drec 0
    let h ← s.descLocal t v.drec 1
    let m ← s.descLocal t v.drec 2
    let l ← s.descLocal t v.drec 3
    illegalIf (a.lum) 0 (v.drec * 64)
    match sliceFault a [h, m, l] with
    | some n => .error (JF.illegal n (v.drec * 64))
    | none =>
      .ok fun s =>
        let vals := (List.range 512).map fun k => match h.sameAt a (i0 + k) with
          | some i => a.loadF s.mem i
          | none => 0
        timed (s.pushWrite t v 2 [h, m, l] i0 vals (s.poisIvs (sliceReads a h i0) || (s.tile t).kMark v.k))
  else .ok fun s => timed (s.setTile t ((s.tile t).execReg v))

/-- Reads of the V slot that fill tracking may hold at issue (R225): vld's and vslice's elements. -/
def State.vReads (s : State) (t : Nat) (v : VSlot) : List (Nat × Nat) :=
  let e : Except JF (List (Nat × Nat)) :=
    if v.op = 0x30 then do
      let i0 ← s.elemAt t v
      let d ← s.descLocal t v.drec 0
      .ok (d.idxReads (d.laneIdx i0))
    else if v.op = 0x34 then do
      let i0 ← s.elemAt t v
      let a ← s.descLocal t v.drec 0
      let h ← s.descLocal t v.drec 1
      .ok (sliceReads a h i0)
    else .ok []
  match e with
  | .ok l => l
  | .error _ => []

/-! Landing (R609) -/

/-- Lanes of a write and their element indices: those of the tensor whose mask bit is 1 where `all` is false. -/
def VWrite.lanes (w : VWrite) (d : TDesc) (all : Bool) : List (Nat × Nat) :=
  ((List.range 512).map fun k => (k, w.i0 + k)).filter fun p => p.2 < d.slots && (all || w.mask.getLsbD p.1)

/-- The block of a slice tensor whose elements are those of block `b` of the high slice: the slices share their contracted dimension but
may place their blocks differently (R114, R115). -/
def sliceBlk (h d : TDesc) (b : Nat) : Nat := (h.sameAt d (b * 16)).elim b (· / 16)

/-- Blocks of the high slice that a vslice writes. -/
def VWrite.sliceBlks (w : VWrite) (h : TDesc) : List Nat := ((w.lanes h true).map fun p => p.2 / 16).dedup

/-- The bytes that a write will cover, for fill tracking and spills (R179, R226). -/
def VWrite.ivs (w : VWrite) : List (Nat × Nat) :=
  w.tds.flatMap fun d =>
    if w.kind = 2 then (w.sliceBlks (w.tds.headD d)).flatMap fun b => d.blkIvs (sliceBlk (w.tds.headD d) d b) true
    else if d.lum then ((w.lanes d true).map fun p => p.2 / d.bv).dedup.flatMap fun b => d.blkIvs b (w.wform == 0)
    else (w.lanes d false).flatMap fun p => d.elemIvs p.2

/-- The stored element that a masked lane brings into a block's write (R610). -/
def VWrite.masked (w : VWrite) (d : TDesc) (m : Mem) (i : Nat) : ASum :=
  if w.wform = 1 then asEmpty
  else
    let e := d.elemOf m (i / d.bv) (i % d.bv)
    lumToAsum e.1 e.2

/-- Blocks of a Lumgan destination with their sources. -/
def VWrite.blocks (w : VWrite) (d : TDesc) (m : Mem) (src : Nat → ASum) : List (Nat × List ASum) :=
  ((w.lanes d true).map fun p => p.2 / d.bv).dedup.map fun b =>
    (b, (List.range d.bv).map fun r =>
      let i := b * d.bv + r
      if w.mask.getLsbD (i - w.i0) then src (i - w.i0) else w.masked d m i)

/-- A block of a write has a masked element. -/
def VWrite.partly (w : VWrite) (d : TDesc) (b : Nat) : Bool :=
  (List.range d.bv).any fun r => !w.mask.getLsbD (b * d.bv + r - w.i0)

/-- Write blocks of one Lumgan destination (R59, R94 to R98, R606, R610); `part` says of a block that a masked element of it is read. The
mantissas that such a write reads count in no ST_NEG_EXTREME (log 63). -/
def State.landBlocks (s : State) (t : Nat) (w : VWrite) (d : TDesc) (bs : List (Nat × List ASum)) (part : Nat → Bool) : Except JF State :=
  let f : Form := ⟨w.wform, w.grad⟩
  let outs := bs.filterMap fun p => (d.convBlock s.mem p.1 p.2 f s.seed s.step).map fun o => (p.1, p.2, o)
  let os := outs.map fun q => (q.1, q.2.2)
  match s.metaBadAt d os with
  | some a => .error (JF.region 0 a)
  | none =>
    let s := s.putBlocks t d os (w.wform == 0) (fun b => w.wform ≠ 0 || part b) w.poison
    let s := if w.wform = 0 then s.driftWrites t 3 d w.grad outs else s
    let ivs := (os.map fun q => d.blkIvs q.1 (w.wform == 0)).flatten
    .ok (s.credit t 3 w.bidx w.iter (d.cvTouched ivs).dedup s.step)

/-- vst lands (R195). -/
def State.landVst (s : State) (t : Nat) (w : VWrite) (d : TDesc) : State :=
  let es := (w.lanes d false).map fun p => (p.2, (w.vals.getD p.1 0).toNat)
  let s := s.putElems t d es 0 w.poison
  s.credit t 3 w.bidx w.iter (d.cvTouched (es.flatMap fun p => d.elemIvs p.1)).dedup s.step

/-- vcvt lands (R86, R89, R90, R94, R97). Where the two tensors of a head-and-tail write differ in size, a lane beyond the head's last element
writes nothing, and one beyond the tail's last element the head alone (log 83). -/
def State.landVcvt (s : State) (t : Nat) (w : VWrite) (d : TDesc) : Except JF State :=
  let src := fun k => fp32ToAsum (w.vals.getD k 0)
  if d.lum then s.landBlocks t w d (w.blocks d s.mem src) (w.partly d)
  else
    let vals := (w.lanes d false).map fun p => (p.2, src p.1)
    match w.tds with
    | [_, e] =>
      let r := s.writePairs t d e vals (vals.filter fun p => p.1 < e.slots) w.poison
      let iv := fun (a : TDesc) => (vals.filter fun p => p.1 < a.slots).flatMap fun p => a.elemIvs p.1
      .ok (r.s.credit t 3 w.bidx w.iter (d.cvTouched (iv d) ++ e.cvTouched (iv e)).dedup s.step)
    | _ =>
      match s.writeVals t d vals ⟨0, w.grad⟩ w.poison with
      | .error e => .error e
      | .ok r => .ok (r.s.credit t 3 w.bidx w.iter (d.cvTouched r.ivs).dedup r.s.step)

/-- What a slice block leaves for the next slice (R115, R116): the exact residuals, invalid where the block is. -/
def residual (src : List ASum) (o : BlockOut) : List ASum :=
  (src.zip o.m).map fun p =>
    if o.code = 0xFF then asInvalid
    else if o.code = 0 then p.1
    else
      -- exact: mantissa difference at the smaller of the two exponents
      let e : Int := (o.code : Int) - 127
      let lo := min p.1.e e
      let v : Int := p.1.s * (2 ^ (p.1.e - lo).toNat : Nat) - p.2 * (2 ^ (e - lo).toNat : Nat)
      if p.1.inv then asInvalid else ⟨lo, v, false⟩

/-- vslice lands: three fresh writes of each block in turn, each block where its slice tensor places it (R115). -/
def State.landVslice (s : State) (t : Nat) (w : VWrite) (h m l : TDesc) : Except JF State := do
  let on := fun (b r : Nat) => w.mask.getLsbD (b * 16 + r - w.i0)
  let step := fun (d : TDesc) (b : Nat) (src : List ASum) =>
    src.zipIdx.map fun p => if on b p.2 then p.1 else w.masked d s.mem (sliceBlk h d b * 16 + p.2)
  let bs := (w.sliceBlks h).map fun b =>
    let v := (List.range 16).map fun r => if h.isPad (b * 16 + r) then asEmpty else fp32ToAsum (w.vals.getD (b * 16 + r - w.i0) 0)
    let sh := step h b v
    let oh := freshWrite sh 127 false (List.replicate 16 0) false
    let r1 := step m b (residual v oh)
    let om := freshWrite r1 127 false (List.replicate 16 0) false
    (b, sh, r1, step l b (residual (residual v oh) om))
  let part := fun (d : TDesc) (k : Nat) => (w.sliceBlks h).any fun b => sliceBlk h d b = k && (List.range 16).any fun r => !on b r
  let put := fun (s : State) (d : TDesc) (f : List ASum × List ASum × List ASum → List ASum) =>
    s.landBlocks t w d (bs.map fun p => (sliceBlk h d p.1, f p.2)) (part d)
  let s ← put s h (·.1)
  let s ← put s m (·.2.1)
  put s l (·.2.2)

/-- The oldest write whose latency has ended and that has not landed (R609). -/
def Tile.landing (x : Tile) (now : Nat) : Option Nat := x.vwr.findIdx? fun w => !w.landed && decide (w.land ≤ now)

/-- The bytes of a write change. -/
def State.landWrite (s : State) (t : Nat) (w : VWrite) : Except JF State :=
  match w.tds with
  | [h, m, l] => s.landVslice t w h m l
  | d :: _ => if w.kind = 0 then .ok (s.landVst t w d) else s.landVcvt t w d
  | [] => .ok s

/-- Every engine sees a write from the tick after it landed (R609). -/
def State.seeWrites (s : State) (t : Nat) : Except JF State :=
  let x := s.tile t
  let ws := x.vwr.filter (·.landed)
  if ws.isEmpty then .ok s
  else ws.foldl (fun e w => do (← e).landWrite t w) (.ok (s.setTile t { x with vwr := x.vwr.filter (!·.landed) }))

/-- VECTOR_WRITE_LAND (R609): the oldest due write of a tile lands, unless a pending fill or a spill holds it. -/
def execVectorWriteLand (t : Fin 64) (s : State) : Host.Outcome State Fault Refusal :=
  let x := s.tile t
  match x.landing s.clk.etick with
  | none => .next s
  | some n =>
    match x.vwr[n]? with
    | none => .next s
    | some w => occurs (!s.writeHeld t w.ivs && s.clk.enabled) (s.setTile t { x with vwr := x.vwr.set n { w with landed := true } }) s

end Sys2Proof.Machine
end

