-- ==== Sys2Proof/Machine/VecUpd.lean ====
section
/-! DEFINITION. Machine/VecUpd.lean: the parameter update vupd and the scale advance sadv on staged tensors
(R99, R100, R203 to R219, R279). -/

namespace Sys2Proof.Machine

/-- A descriptor's form against a group's format field: 0 FP32, 1 BF16, 2 carried LG8 (R204). -/
def TDesc.formIs (d : TDesc) (f : Nat) : Bool :=
  match f with
  | 0 => d.fmt == 3
  | 1 => d.fmt == 2
  | _ => d.fmt == 0 && d.smode

/-- R204: the number of the first condition that an entry fails. -/
def PGroup.fault (g : PGroup) : Option Nat :=
  firstOf [4 < g.rule || g.wfmt == 3 || g.mfmt == 3 || g.vfmt == 3 || 2 ≤ g.flags || g.rsv ≠ 0,
    isNan g.clip || fltF g.clip 0,
    g.rule == 4 && (g.pblk % 8 ≠ 0 || g.pblk < 8 || 256 < g.pblk || g.pt == 0),
    g.rule ≠ 4 && (g.pblk ≠ 0 || g.pt ≠ 0)]

/-- A rule uses a first moment. -/
def usesM (rule : Nat) : Bool := rule ≠ 0
/-- A rule uses a second moment. -/
def usesV (rule : Nat) : Bool := rule == 2
/-- A rule uses the preconditioner. -/
def usesP (rule : Nat) : Bool := rule == 4

/-- The staged tensors, absent ones TDesc.absent, in the order W, G, M, V, P. -/
structure Staged where
  w : TDesc
  g : TDesc
  m : TDesc
  v : TDesc
  p : TDesc
  deriving DecidableEq, Repr

/-- The tensors of an update in progress. -/
def VUpd.staged (u : VUpd) : Staged :=
  let at_ := fun i => u.tds.getD i TDesc.absent
  ⟨at_ 0, at_ 1, at_ 2, at_ 3, at_ 4⟩

/-- R207: the number of the first condition that fails once the record and entry are read. -/
def updFault (r : URecord) (g : PGroup) (d : Staged) : Option Nat :=
  let b := g.pblk
  firstOf [r.rsv0 ≠ 0 || r.rsv1 ≠ 0,
    r.ebase % 512 ≠ 0 || (usesP g.rule && (r.count % b ≠ 0 || r.ebase % b ≠ 0)),
    (r.dw == 0) || (r.dg == 0) || ((r.dm ≠ 0) ≠ (usesM g.rule : Prop)) || ((r.dv ≠ 0) ≠ (usesV g.rule : Prop)) ||
      ((r.dp ≠ 0) ≠ (usesP g.rule : Prop)),
    !d.w.formIs g.wfmt || (usesM g.rule && !d.m.formIs g.mfmt) || (usesV g.rule && !d.v.formIs g.vfmt),
    !(d.g.formIs 0 || d.g.formIs 2),
    usesP g.rule && d.p.fmt ≠ 3,
    d.w.slots ≠ r.count || d.g.slots ≠ r.count || (usesM g.rule && d.m.slots ≠ r.count) || (usesV g.rule && d.v.slots ≠ r.count),
    usesP g.rule && d.p.slots < (r.pstart + r.count / b) * (2 * b * b)]

/-- A staged tensor named by a record, or none where it is absent. -/
def State.stagedAt (s : State) (t off : Nat) : Except JF TDesc :=
  if off = 0 then .ok TDesc.absent
  else do
    let d ← s.descAt t off
    illegalIf (!d.localTo t) 0 off
    .ok d

/-- vupd's checks and its copies of the record, the entry and the descriptors (R203, R206, R207). -/
def State.checkUpd (s : State) (t off : Nat) : Except JF VUpd := do
  illegalIf (0x400000 < off + 64) 0 off
  let r := URecord.ofBytes (← s.recAt t off 64 64)
  illegalIf (r.rsv0 ≠ 0 || r.rsv1 ≠ 0) 1 off
  illegalIf (4096 ≤ r.group || r.count % 512 ≠ 0 || r.count < 512 || 262144 < r.count) 0 off
  let a := (match s.resCtx with | some (_, c) => c.rr.pgt | none => 0) + 64 * r.group
  let g := PGroup.ofBytes (rdBytes s.mem a 64)
  match g.fault with
  | some n => .error (JF.illegal n a)
  | none =>
    let w ← s.stagedAt t r.dw
    let gr ← s.stagedAt t r.dg
    let m ← s.stagedAt t r.dm
    let v ← s.stagedAt t r.dv
    let p ← s.stagedAt t r.dp
    match updFault r g ⟨w, gr, m, v, p⟩ with
    | some n => .error (JF.illegal n off)
    | none =>
      let x := s.tile t
      .ok ⟨s.clk.etick, r, g, [w, gr, m, v, p], x.pc, x.iterWord⟩

/-- vupd issues (R208, R210). -/
def State.startUpd (s : State) (t : Nat) (u : VUpd) : State :=
  let x := s.tile t
  let s := s.setTile t { x with vupd := some u }
  match s.resCtx with
  | some (n, c) => if u.pg.single then s.setCtx n { c with single := true } else s
  | none => s

/-- Elements of a staged tensor as fp32 (R211). -/
def TDesc.allF (d : TDesc) (m : Mem) (n : Nat) : List W32 := (List.range n).map (d.loadF m)

/-- Elements of a tensor in memory order from an index. -/
def TDesc.fromF (d : TDesc) (m : Mem) (i n : Nat) : List W32 := (List.range n).map fun k => d.loadF m (i + k)

/-- Rows of a matrix. -/
def rowsOf (b : Nat) (l : List W32) : List (List W32) := (List.range b).map fun i => (l.drop (i * b)).take b

/-- The results of an update. -/
structure UpdOut where
  w : List W32
  m : List W32
  v : List W32
  /-- per preconditioner block: C1, and H1 with what it counts -/
  p : List (List (List W32) × Refresh)
  deriving DecidableEq, Repr

/-- The staged block `k` of the preconditioner: C and H (R215). -/
def VUpd.block (u : VUpd) (m : Mem) (k : Nat) : List (List W32) × List (List W32) :=
  let b := u.pg.pblk
  let i := (u.ur.pstart + k) * (2 * b * b)
  (rowsOf b (u.staged.p.fromF m i (b * b)), rowsOf b (u.staged.p.fromF m (i + b * b) (b * b)))

/-- A refresh takes place in this step (R216). -/
def VUpd.refresh (u : VUpd) (step : W32) : Bool := step.toNat % u.pg.pt == 0

/-- The gradient of the range through grad_in (R211). -/
def VUpd.grads (u : VUpd) (m : Mem) : List W32 := (u.staged.g.allF m u.ur.count).map (gradIn u.pg u.ur.gamma)

/-- The preconditioned blocks (R216). -/
def VUpd.precond (u : VUpd) (m : Mem) (step : W32) : List PrecondOut :=
  let b := u.pg.pblk
  let g := u.grads m
  let w := u.staged.w.allF m u.ur.count
  let mo := u.staged.m.allF m u.ur.count
  let cut := fun (l : List W32) k => (l.drop (k * b)).take b
  (List.range (u.ur.count / b)).map fun k =>
    updPrecond u.pg (cut w k) (cut g k) (cut mo k) (u.block m k).1 (u.block m k).2 (u.refresh step)

/-- What vupd computes from the staged tensors (R211 to R217). -/
def VUpd.compute (u : VUpd) (m : Mem) (step : W32) : UpdOut :=
  let n := u.ur.count
  let d := u.staged
  let w := d.w.allF m n
  let g := u.grads m
  match u.pg.rule with
  | 0 => ⟨w, [], [], []⟩
  | 2 =>
    let o := ((w.zip g).zip ((d.m.allF m n).zip (d.v.allF m n))).map fun q => updAdamw u.pg q.1.1 q.1.2 q.2.1 q.2.2
    ⟨o.map (·.1), o.map (·.2.1), o.map (·.2.2), []⟩
  | 4 =>
    let o := u.precond m step
    ⟨o.flatMap (·.w1), o.flatMap (·.m1), [], o.map fun q => (q.c1, q.h1)⟩
  | r =>
    let f := if r = 1 then updSgdm else updSign
    let o := ((w.zip g).zip (d.m.allF m n)).map fun q => f u.pg q.1.1 q.1.2 q.2
    ⟨o.map Prod.fst, o.map Prod.snd, [], []⟩

/-- Damping trials that a refreshed block takes (R217, R219). -/
def trialsOf (p : PGroup) (c : List (List W32)) : Nat :=
  let ds : List W32 := [0, p.peps, vmulF p.peps 0x41200000#32, vmulF p.peps 0x42C80000#32]
  match ds.findIdx? fun d => (cholRows p.pivtol (dampM c d) []).isSome with
  | some i => i + 1
  | none => 4

/-- The tick in which vupd completes, if no read is held from now on (R219). -/
def State.updEnd (s : State) (u : VUpd) : Nat :=
  let trials := if u.pg.rule = 4 && u.refresh s.step then
      ((u.precond s.mem s.step).map fun o => trialsOf u.pg o.c1).sum else 0
  u.start + updTicks u.pg.rule u.ur.count u.pg.pblk trials - 1 + 40

/-- Ticks that each preconditioner block of an update takes (R219). -/
def State.preTicks (s : State) (u : VUpd) : List Nat :=
  let b := u.pg.pblk
  (u.precond s.mem s.step).map fun o =>
    cdiv (3 * b * b) 1024 + 4 + (if u.refresh s.step then trialsOf u.pg o.c1 * (cdiv (b * b * b) 768 + 8 * b) else 0)

/-- Elements that an update processes in a tick (R219). -/
def updRate (rule : Nat) : Nat := [512, 128, 32, 64].getD rule 0

/-- The bytes that an update reads when it has run for `p` ticks: the next elements of every staged tensor, or a preconditioner block that
begins (R219, R225). -/
def State.updReads (s : State) (u : VUpd) (p : Nat) : List (Nat × Nat) :=
  let d := u.staged
  let of := fun (l : List TDesc) (lo n : Nat) => l.flatMap fun d => if d.slots = 0 then [] else d.idxReads (((List.range n).map (lo + ·)).filter (· < u.ur.count))
  if u.pg.rule = 4 then
    let starts := (s.preTicks u).foldl (fun (a : List Nat × Nat) n => (a.1 ++ [a.2], a.2 + n)) ([], 0)
    match starts.1.findIdx? (· = p) with
    | some k =>
      let b := u.pg.pblk
      of [d.w, d.g, d.m] (k * b) b ++ d.p.idxReads ((List.range (2 * b * b)).map ((u.ur.pstart + k) * (2 * b * b) + ·))
    | none => []
  else of [d.w, d.g, d.m, d.v] (updRate u.pg.rule * p) (updRate u.pg.rule)

/-- A read that an update in progress makes in this tick is held (R219, R225). -/
def State.updStuck (s : State) (t : Nat) (u : VUpd) : Bool :=
  decide (u.start ≤ s.clk.etick) && s.readHeld t (s.updReads u (s.clk.etick - u.start))

/-- The bytes of the staged tensors (R219, R225). -/
def VUpd.reads (u : VUpd) : List (Nat × Nat) :=
  u.tds.flatMap fun d => if d.slots = 0 || d.mbase = 0 then [] else (d.mbase, d.mantBytes) :: (if d.lum then [(d.sbase, d.blocks)] else [])

/-- The outcomes of a REPL write of values into every block, with draws from weight element index `ebase` (R97, R213). -/
def TDesc.replBlocks (d : TDesc) (m : Mem) (vals : List W32) (sr : Bool) (seed : W64) (step : W32) (ebase : Nat) : List (Nat × BlockOut) :=
  ((List.range d.blocks).filter fun b => d.rdCode m b ≠ 0xFF).map fun b =>
    let src := (List.range d.bv).map fun r =>
      if d.isPad (b * d.bv + r) then asEmpty else fp32ToAsum (vals.getD (b * d.bv + r) 0)
    (b, carriedWrite (d.rdCode m b) (d.rdMants m b) src (limOf d.fmt) false sr
      (drawsFrom sr seed (BitVec.ofNat 32 d.tid) step (ebase + b * d.bv) d.bv))

/-- Write results in a state format (R213). -/
def State.storeUpd (s : State) (t : Nat) (d : TDesc) (vals : List W32) (sr pz : Bool) (ebase : Nat) : Except JF State :=
  if vals.isEmpty then .ok s
  else if d.lum then
    let outs := d.replBlocks s.mem vals sr s.seed s.step ebase
    match s.metaBadAt d outs with
    | some a => .error (JF.region 0 a)
    | none => .ok (s.putBlocks t d outs false (fun _ => true) pz)
  else if d.fmt = 3 then .ok (s.putElems t d (vals.zipIdx.map fun p => (p.2, p.1.toNat)) 0 pz)
  else
    let os := vals.zipIdx.map fun p => (p.2, toBinary (fp32ToAsum p.1) 8 sr
      (if sr then draw s.seed (BitVec.ofNat 32 d.tid) s.step (ebase + p.2) else 0))
    .ok (s.putElems t d (os.map fun p => (p.1, p.2.enc)) (os.foldl (fun c p => c ||| p.2.cvst) 0) pz)

/-- The gradient's alternate version is written as zero (R214). -/
def State.zeroGrad (s : State) (t : Nat) (d : TDesc) (n : Nat) (pz : Bool) : State :=
  if d.lum then
    let outs := (List.range d.blocks).map fun b =>
      let x := d.rdCode s.mem b
      (b, (⟨if x = 0 then 1 else x, List.replicate d.bv 0, 0, 0, false, false, false, 0⟩ : BlockOut))
    s.putBlocks t d outs false (fun _ => false) pz
  else s.putElems t d ((List.range n).map fun k => (k, 0)) 0 pz

/-- Preconditioner blocks written back (R215, R216). -/
def State.storePre (s : State) (t : Nat) (u : VUpd) (bs : List (List (List W32) × Refresh)) (pz : Bool) : State :=
  let b := u.pg.pblk
  let es := bs.zipIdx.flatMap fun q =>
    let i := (u.ur.pstart + q.2) * (2 * b * b)
    (q.1.1.flatten ++ q.1.2.h.flatten).zipIdx.map fun e => (i + e.2, e.1.toNat)
  if es.isEmpty then s else s.putElems t u.staged.p es 0 pz

/-- The group status counts and the journal records of refreshed blocks (R205, R218). -/
def State.countPre (s : State) (u : VUpd) (bs : List (List (List W32) × Refresh)) : State :=
  match s.resCtx with
  | none => s
  | some (n, c) =>
    let a := c.rr.gstat + 16 * u.ur.group
    let damped := (bs.filter fun q => q.2.damped).length
    let fb := (bs.zipIdx.filter fun q => q.1.2.fallback).map Prod.snd
    if damped = 0 && fb.isEmpty then s
    else
      let m := bumpLe (bumpLe s.mem a 4 damped) (a + 4) 4 fb.length
      let m := if fb.isEmpty then m else
        wrLe (wrLe m (a + 8) 4 (max (rdLe m (a + 8) 4) s.step.toNat)) (a + 12) 4 (Nat.lor (rdLe m (a + 12) 4) 1)
      let recs := fb.map fun k =>
        let e := u.ur.ebase + k * u.pg.pblk
        (⟨4, u.ur.group + 2 ^ 64 * e, packFields 32 [(0, 2, u.ur.group), (8, 8, e)]⟩ : JRec)
      ((s.setMem m).noteHbm a 16).setCtx n { c with recs := c.recs ++ recs }

/-- What reading the staged inputs counts and sets: −128 or −8 mantissas (R57), and CVST where an element overflows (R88, R92). -/
def State.countUpdReads (s : State) (t : Nat) (u : VUpd) : Except JF State :=
  u.tds.foldl (fun e d => do
    let s ← e
    let l := if d.slots = 0 then [] else d.elemsAt s.mem (List.range d.slots)
    s.negChecked d l
    .ok ((s.setCvst t (d.loadCv s.mem (List.range d.slots))).countNeg d (d.negs l))) (.ok s)

/-- vupd completes: every staged element is read, and every result written in place (R208 to R218). -/
def State.finishUpd (s : State) (t : Nat) (u : VUpd) : Except JF State := do
  let o := u.compute s.mem s.step
  let d := u.staged
  let pz := s.poisIvs u.reads
  let e := u.ur.ebase
  let s ← s.countUpdReads t u
  let s ← s.storeUpd t d.w o.w u.pg.srw pz e
  let s ← s.storeUpd t d.m o.m u.pg.srs pz e
  let s ← s.storeUpd t d.v o.v u.pg.srs pz e
  let s := (s.zeroGrad t d.g u.ur.count pz).storePre t u o.p pz
  let s := s.countPre u o.p
  let x := s.tile t
  let s := s.setTile t { x with vupd := none }
  let blk := fun (d : TDesc) (used : Bool) => if used then d.cvTouched ((d.mbase, d.mantBytes) :: (if d.lum then [(d.sbase, d.blocks)] else [])) else []
  let pb := if o.p.isEmpty then [] else
    let n := 2 * u.pg.pblk * u.pg.pblk
    d.p.cvTouched [(d.p.mbase + 4 * n * u.ur.pstart, 4 * n * o.p.length)]
  .ok (s.credit t 3 u.bidx u.iter (blk d.w true ++ blk d.g true ++ blk d.m (usesM u.pg.rule) ++ blk d.v (usesV u.pg.rule) ++ pb) (s.step + 1))

/-- The update has processed its last element 40 ticks ago (R219), nothing holds its writes, and no earlier write of the vector engine still
waits (R179, R226, R609). -/
def State.updDue (s : State) (t : Nat) (u : VUpd) : Bool :=
  decide (s.updEnd u ≤ s.clk.etick) && !s.writeHeld t u.reads && (s.tile t).vwr.isEmpty

/-- VUPD_COMPLETE (R208, R219). -/
def execVupdComplete (t : Fin 64) (s : State) : Host.Outcome State Fault Refusal :=
  match (s.tile t).vupd with
  | none => .next s
  | some u => occurs (s.updDue t u && s.clk.enabled) (s.orFault t (s.finishUpd t u)) s

/-! sadv -/

/-- sadv's checks (R99, R279, R603): C-slot fields DREC, XB, XN and OBJ. -/
def State.checkSadv (s : State) (t drec xb xn obj : Nat) : Except JF Sadv := do
  let d ← s.descLocal t drec 0
  illegalIf (!d.lum || !d.smode) 0 (drec * 64)
  let x := s.tile t
  let b := x.xs xb
  let n := x.xs xn
  match firstOf [b < 0, n < 1, (d.blocks : Int) < b + n] with
  | some k => .error (JF.illegal k 0)
  | none => .ok ⟨s.clk.etick + cdiv n.toNat 8, d, b.toNat, n.toNat, obj, x.pc, x.iterWord⟩

/-- The bytes of blocks that a scale advance reads and may write (R225, R279). -/
def Sadv.span (d : TDesc) (first count : Nat) : List (Nat × Nat) :=
  [(d.mbase + d.valueBytes (first * d.bv), d.valueBytes (count * d.bv)), (d.sbase + first, count)]

/-- All that a scale advance reads. -/
def Sadv.reads (a : Sadv) : List (Nat × Nat) := Sadv.span a.td a.first a.count

/-- Bitmap bytes of blocks (R46). -/
def Sadv.bits (d : TDesc) (first count : Nat) : List Nat := ((List.range count).map fun k => d.obase + (first + k) / 8).dedup

/-- A read that a scale advance makes in this tick, of the next 8 blocks, is held (R225, R279). -/
def State.sadvStuck (s : State) (t : Nat) (a : Sadv) : Bool :=
  let p := 8 * (s.clk.etick + cdiv a.count 8 - a.done)
  decide (s.clk.etick < a.done) && decide (p < a.count) &&
    (s.readHeld t (Sadv.span a.td (a.first + p) (min 8 (a.count - p))) || s.metaReadHeld (Sadv.bits a.td (a.first + p) (min 8 (a.count - p))))

/-- One block of a scale advance: memory with its unit, whether its code changed, the CVST bits, and the updates of the status record and
the bitmap (R99, R100). -/
def Sadv.block (d : TDesc) (m : Mem) (b : Nat) : Mem × Bool × W32 × List MetaOp :=
  let x := d.rdCode m b
  let flag := d.rdOvf m b
  let o := scaleAdvance x (d.rdMants m b) (smallOf d.fmt) flag d.retreat
  (if o.code ≠ x then d.putBlock m b o.code o.m else m, o.code ≠ x, if o.madeInvalid then cvLOVF else 0,
    d.adds [(24, 4, b2n o.advanced), (28, 4, b2n o.retreated), (20, 4, b2n o.madeInvalid)] ++ (if flag then [d.ovfOp b false] else []))

/-- sadv completes (R100, R279, R408, R603). The mantissas that it reads count in no ST_NEG_EXTREME (log 63). -/
def State.finishSadv (s : State) (t : Nat) (a : Sadv) : Except JF State :=
  let d := a.td
  match (Sadv.bits d a.first a.count).find? fun b => !s.metaOk b with
  | some b => .error (JF.region 0 b)
  | none =>
    let pz := s.poisIvs a.reads
    let r := ((List.range a.count).map (a.first + ·)).foldl (fun (acc : Mem × List Nat × W32 × List MetaOp) b =>
      let (m, c, v, os) := Sadv.block d acc.1 b
      (m, if c then acc.2.1 ++ [b] else acc.2.1, acc.2.2.1 ||| v, acc.2.2.2 ++ os)) (s.mem, [], 0, [])
    match s.opsBad r.2.2.2 with
    | some b => .error (JF.region 0 b)
    | none =>
      let ivs := r.2.1.flatMap fun b => d.blkIvs b false
      let s := (((s.setMem r.1).metaOps r.2.2.2).markWrite ivs pz).setCvst t r.2.2.1
      let s := s.setTile t { s.tile t with sadv := none }
      .ok ((s.credit t 3 a.bidx a.iter (d.cvTouched ivs).dedup s.step).signal t true a.obj)

/-- A scale advance has done its blocks, 8 per enabled tick, and nothing holds its writes or the bitmap bytes that it reads (R179, R225,
R226, R279). -/
def State.sadvDue (s : State) (t : Nat) (a : Sadv) : Bool :=
  decide (a.done ≤ s.clk.etick) && !s.writeHeld t a.reads && !s.metaReadHeld (Sadv.bits a.td a.first a.count)

/-- SADV_COMPLETE (R279). -/
def execSadvComplete (t : Fin 64) (s : State) : Host.Outcome State Fault Refusal :=
  match (s.tile t).sadv with
  | none => .next s
  | some a => occurs (s.sadvDue t a && s.clk.enabled) (s.orFault t (s.finishSadv t a)) s

end Sys2Proof.Machine
end

