-- ==== Sys2Proof/Machine/HbmOps.lean ====
section
/-! DEFINITION. Machine/HbmOps.lean: the HBM controllers: arbitration, reads under correction, repairs, accepted
writes and refresh (R229 to R231, R237, R245, R401, R402, R441). -/

namespace Sys2Proof.Machine

/-! Arbitration (R245) -/

/-- Agents of the quadrants' hubs that have requests waiting at a controller: quadrant, agent of `hubKey`, address (R245). -/
abbrev Hubs := List (Nat × Nat × Nat)

/-- Credit keys of active hub agents, and of their quadrants. -/
def hubKeys (hs : Hubs) : List Nat := hs.flatMap fun h => [h.1, hubKey h.1 h.2.1]

/-- One grant through the global, quadrant and tile arbiters: the key of the winning stream context or hub agent, and the credits
afterwards (R245). A quadrant's children are its tiles, then its hub agents. -/
def Hctl.grant (c : Hctl) (phys : Nat → Nat) (hs : Hubs) : Option Nat × SMap Int :=
  let rs := c.requesters
  let weight := fun (f : Nat × Nat → Bool) => (rs.filter f).length
  let here := fun q h => b2n (hs.any fun e => e.1 = q && e.2.1 = h)
  let (q, cr) := fuseeGrant c.credit ((List.range 4).map fun q =>
    (q, (weight fun r => phys r.1 / 17 == q) + ((List.range 9).map (here q)).sum))
  match q with
  | none => (none, cr)
  | some q =>
    let (k, cr) := fuseeGrant cr (((List.range 17).map fun i => (tileKey (17 * q + i), weight fun r => phys r.1 == 17 * q + i)) ++
      (List.range 9).map fun h => (hubKey q h, here q h))
    match k with
    | none => (none, cr)
    | some k =>
      if 3000 ≤ k then (some k, cr)
      else fuseeGrant cr ((List.range 32).map fun i => (ctxKey (k - 4) i, weight fun r => phys r.1 == k - 4 && r.2 == i))

/-- The winner of a grant: the place of a stream context's oldest request, or a hub agent's request by its place in the list; with the
credits afterwards. -/
def Hctl.pick (c : Hctl) (phys : Nat → Nat) (hs : Hubs) : Option (Nat ⊕ Nat) × SMap Int :=
  match c.grant phys hs with
  | (none, cr) => (none, cr)
  | (some k, cr) =>
    if 3000 ≤ k then ((hs.findIdx? fun h => hubKey h.1 h.2.1 = k).map .inr, cr)
    else ((c.queue.findIdx? fun q => ctxKey (phys q.tile) q.ctx = k).map .inl, cr)

/-- Queue a request at the controller of its granule. -/
def State.ask (s : State) (r : HReq) : State :=
  let i := (hbmMap r.addr).1
  let c := s.hbm.ctlOf i
  { s with hbm := s.hbm.setCtl i { c with queue := c.queue ++ [r] } }

/-- Take requests that satisfy a test off every controller. -/
def State.unask (s : State) (gone : HReq → Bool) : State := { s with hbm := s.hbm.sift s.plc.phys gone fun _ => false }

/-! Repairs (R230, R441) -/

/-- A row's key: its pseudo-channel and its number. -/
def rowKey (addr : Nat) : Nat := pcOf addr * 2 ^ 32 + Config.rowOf (addr / 4096)

/-- Retire a granule into the pool, or report the controller exhausted (R441). -/
def State.retire (s : State) (i addr : Nat) : State :=
  let c := s.hbm.ctlOf i
  let g := addr / 4096
  if (sfind c.retired g).isSome then s
  else if 1024 ≤ c.retired.length then { s with hbm := s.hbm.setCtl i { c with exhausted := true } }
  else
    let slot := c.retired.length
    ({ s with hbm := s.hbm.setCtl i { c with retired := sins c.retired g slot } }).logEvent (.evHbmRetire g slot)

/-- A row takes a soft repair at once and a hard one at the next full-device reset; one that cannot be repaired has
the granule retired (R441). -/
def State.repairRow (s : State) (i addr : Nat) (can : Bool) : State :=
  if can then
    let c := s.hbm.ctlOf i
    let k := rowKey addr
    let s := { s with hbm := s.hbm.setCtl i { c with repairs := c.repairs + 1, corr := sdel c.corr k,
                                                     pendHard := if c.pendHard.contains k then c.pendHard else c.pendHard ++ [k] } }
    s.logEvent (.evHbmRepair i (hbmMap addr).2.1 (k % 2 ^ 32) false)
  else s.retire i addr

/-- Corrected accesses of the last 24 hours in a row, with `n` more now. -/
def Hctl.noteCorr (c : Hctl) (k n now : Nat) : Hctl × Nat :=
  let l := ((sfind c.corr k).getD []).filter fun t => decide (now < t + ticksPerDay)
  let l := l ++ List.replicate n now
  ({ c with corr := if l.isEmpty then sdel c.corr k else sins c.corr k l }, l.length)

/-- Errors of one 512 B read: corrected and uncorrectable 64 B accesses (R230). -/
def State.noteErrors (s : State) (i addr corrected uncorr : Nat) (can : Bool) : State :=
  let pc := pcOf addr
  let old := (sget zero32 s.hbm.cec pc).toNat
  let s := { s with hbm := { s.hbm with cec := sput zero32 s.hbm.cec pc (BitVec.ofNat 32 (min (old + corrected) 0xFFFFFFFF)) } }
  let (c, n) := (s.hbm.ctlOf i).noteCorr (rowKey addr) corrected s.now.toNat
  let s := { s with hbm := s.hbm.setCtl i { c with uncorr := c.uncorr + BitVec.ofNat 32 uncorr } }
  let s := if 0 < uncorr then
      let g := addr / 4096
      { s with hbm := s.hbm.setGran g { s.hbm.gran g with poison := true } }
    else s
  if 0 < uncorr || 16 < n then s.repairRow i addr can else s

/-! Serving requests -/

/-- Bytes of one 512 B read: those of an uncorrectable access are free (log 10). -/
def readPart (m : Mem) (addr : Nat) (bad : List Nat) (free : Nat) : List Byte :=
  (List.range 8).flatMap fun i => if 2 ≤ bad.getD i 0 then freshBytes (free + i) 64 else rdBytes m (addr + 64 * i) 64

/-- Change one flight of a stream. -/
def Tile.setFlight (x : Tile) (c j : Nat) (f : Flight → Flight) : Tile :=
  match sfind x.inb c with
  | none => x
  | some i => { x with inb := sins x.inb c { i with fl := i.fl.map fun q => if q.j = j then f q else q } }

/-- One 512 B read is served; the eighth completes the granule, with its check value and mark (R230, R403). -/
def State.serveRead (s : State) (i n : Nat) (hs : Hubs) (r : HReq) (bad : List Nat) (can : Bool) : State :=
  let a := r.addr + 512 * r.part
  let b := readPart s.mem a bad s.freeCtr
  let s := { s with freeCtr := s.freeCtr + 8 }
  let uncorr := ((bad.take 8).filter (2 ≤ ·)).length
  let s := s.noteErrors i r.addr ((bad.take 8).filter (· = 1)).length uncorr can
  let c := s.hbm.ctlOf i
  let last := r.part = 7
  let c := { c with queue := if last then c.queue.eraseIdx n else c.queue.set n { r with part := r.part + 1 } }
  let s := { s with hbm := s.hbm.setCtl i (c.prune s.plc.phys (hubKeys hs)) }
  let g := s.hbm.gran (r.addr / 4096)
  s.setTile r.tile ((s.tile r.tile).setFlight r.ctx r.j fun f =>
    { f with got := f.got ++ b, epoch := s.plc.epoch, cv := g.cv, cvv := g.cvv, poison := f.poison || 0 < uncorr || (last && g.poison) })

/-- A hub agent's read of 512 B is served: its errors are counted, and an uncorrectable one marks the granule. The agent's own command takes
the bytes and the mark (R230, log 66). -/
def State.serveHub (s : State) (i : Nat) (hs : Hubs) (addr : Nat) (bad : List Nat) (can : Bool) : State :=
  let s := s.noteErrors i (addr / 4096 * 4096) ((bad.take 8).filter (· = 1)).length ((bad.take 8).filter (2 ≤ ·)).length can
  { s with hbm := s.hbm.setCtl i ((s.hbm.ctlOf i).prune s.plc.phys (hubKeys hs)) }

/-- A controller grants one 512 B request, a read, and serves its eight 64 B accesses (R230, R245). `hs`: the hub agents whose requests wait
beside those of the streams. `bad` is each access's number of bad symbols; `can` says that a row that needs it can be repaired (R441). -/
def State.hbmRead (s : State) (stack : Nat) (hs : Hubs) (bad : List Nat) (can : Bool) : State :=
  let c := s.hbm.ctlOf stack
  match c.pick s.plc.phys hs with
  | (some (.inl n), cr) =>
    match c.queue[n]? with
    | none => s
    | some r => if r.write then s else { s with hbm := s.hbm.setCtl stack { c with credit := cr } }.serveRead stack n hs r bad can
  | (some (.inr n), cr) => ({ s with hbm := s.hbm.setCtl stack { c with credit := cr } }).serveHub stack hs ((hs[n]?).elim 0 (·.2.2)) bad can
  | (none, _) => s

/-- A granule of an outbound stream is accepted: the leading count, and a signal for each further multiple of SIGEVERY
that it reaches (R237). -/
def Outb.accept (o : Outb) (j : Nat) : Outb × Nat :=
  let acc := o.acc ++ [j]
  let lead := ((List.range (acc.length + 1)).find? fun k => !acc.contains (o.lead + k)).getD 0
  let o' := { o with acc := acc.filter fun k => o.lead + lead ≤ k, lead := o.lead + lead }
  (o', if o.sd.sigEvery = 0 then 0 else o'.lead / o.sd.sigEvery - o.lead / o.sd.sigEvery)

/-- Granule `j` of a tile's outbound stream is accepted. -/
def State.accepted (s : State) (t c j : Nat) : State :=
  let x := s.tile t
  match sfind x.outb c with
  | none => s
  | some o =>
    let (o, n) := o.accept j
    let x := { x with outb := sins x.outb c o }
    (s.setTile t (x.inc o.sd.sig n)).chrAdd (s.plc.phys t) 1 4 0 1

/-- The context has written a marked granule to HBM in this step (R411). -/
def State.noteWrotePoison (s : State) (poison : Bool) : State :=
  match s.resCtx with
  | some (n, c) => if poison then s.setCtx n { c with wrotePoison := true } else s
  | none => s

/-- One 512 B write is served; the eighth stores the granule and its entry (R402). -/
def State.serveWrite (s : State) (i n : Nat) (hs : Hubs) (r : HReq) : State :=
  let c := s.hbm.ctlOf i
  let last := r.part = 7
  let c := { c with queue := if last then c.queue.eraseIdx n else c.queue.set n { r with part := r.part + 1 } }
  let s := { s with hbm := s.hbm.setCtl i (c.prune s.plc.phys (hubKeys hs)) }
  if last then
    let s := { s with hbm := s.hbm.writeGran (r.addr / 4096) r.data r.cv r.poison }
    (s.noteWrotePoison r.poison).accepted r.tile r.ctx r.j
  else s

/-- The hub agents that a command names are agents, at addresses of the controller. -/
def hubsOk (stack : Nat) (hs : Hubs) : Bool := hs.all fun h => decide (h.1 < 4) && decide (h.2.1 < 9) && decide (h.2.2 < hbmEnd) && (hbmMap h.2.2).1 == stack

/-- HBM_WRITE_ACCEPT (R237, R245, R402): a controller grants one 512 B request, a write. A hub agent's write is done by the agent's own command. -/
def execHbmWriteAccept (stack : Fin 12 × Hubs) (s : State) : Host.Outcome State Fault Refusal :=
  let c := s.hbm.ctlOf stack.1
  match c.pick s.plc.phys stack.2 with
  | (some (.inl n), cr) =>
    match c.queue[n]? with
    | none => .next s
    | some r => occurs (r.write && hubsOk stack.1 stack.2) ({ s with hbm := s.hbm.setCtl stack.1 { c with credit := cr } }.serveWrite stack.1 n stack.2 r) s
  | (some (.inr _), cr) =>
    occurs (hubsOk stack.1 stack.2) { s with hbm := s.hbm.setCtl stack.1 (({ c with credit := cr } : Hctl).prune s.plc.phys (hubKeys stack.2)) } s
  | (none, _) => .next s

/-- HBM_REFRESH (R231): a refresh delays reads and changes no state. -/
def execHbmRefresh (_stack : Fin 12) (s : State) : Host.Outcome State Fault Refusal := .next s

end Sys2Proof.Machine
end

