-- ==== Sys2Proof/Machine/Streams.lean ====
section
/-! DEFINITION. Machine/Streams.lean: stream descriptors, inbound and outbound streams, demand and run-ahead, program
loads (R222, R228, R232 to R244, R261, R262, R403 to R405). -/

namespace Sys2Proof.Machine

/-! Descriptors (R233, R235) -/

/-- Near-side granules of a stream. -/
def SDesc.near (d : SDesc) : Nat := if d.ssize = 0 then d.n else d.ssize

/-- KIND names a part that the tensor descriptor lacks (R235). -/
def partLacks (kind : Nat) (td : TDesc) : Bool := (kind == 2 && !td.lum) || (kind == 3 && !td.flushmap)

/-- R235, R604: the number of the first failing condition, 0 for one that stands in no list. `td` is the named tensor. -/
def SDesc.fault (d : SDesc) (td : TDesc) : Option Nat :=
  match firstOf [d.rsv ≠ 0 || d.dir == 3 || 9 ≤ d.ahead,
    2 ^ 32 ≤ d.n || (List.range 4).any (fun k => d.ndim < k && d.cnt.getD k 1 ≠ 1),
    d.hi ≤ d.lo,
    d.soff % 4096 ≠ 0 || d.base % 4096 ≠ 0 || d.lo % 4096 ≠ 0 || d.hi % 4096 ≠ 0,
    d.ssize == 0 && sramSize < d.soff + 4096 * d.n,
    d.ssize ≠ 0 && (sramSize < d.soff + 4096 * d.ssize || !d.paced),
    d.paced && (d.dir ≠ 0 || hbmAvail < d.hi),
    d.dir == 2 && d.sigEvery ≠ 0,
    d.ahead ≠ 0 && !d.paced,
    ((d.kind == 0) ≠ (d.tdesc == 0)) || partLacks d.kind td] with
  | some n => some n
  | none => if d.cnt.any (· == 0) then some 0 else none

/-- A tensor part's base and its block-number offset (R236). -/
def partBase (kind : Nat) (td : TDesc) : Nat × Nat :=
  match kind with
  | 1 => (td.mbase, 0)
  | 2 => (td.sbase, 0x80000000)
  | _ => (td.fbase, 0xC0000000)

/-- The key of a far-side granule (R236): TID, block number, version. -/
def keyAt (d : SDesc) (td : TDesc) (step : W32) (a : Nat) : W32 × W32 × W32 :=
  let (b, o) := partBase d.kind td
  (BitVec.ofNat 32 td.tid, BitVec.ofNat 32 ((a - b) / 4096 + o), step + BitVec.ofNat 32 d.vsel)

/-- A walk granule as a device address, where it is one. -/
def SDesc.addr (d : SDesc) (j : Nat) : Nat := (d.walk j).1.toNat

/-- A walk granule outside the stream's bounds or below its part's base (R236, R240). -/
def SDesc.outside (d : SDesc) (td : TDesc) (j : Nat) : Bool :=
  let a := (d.walk j).1
  a < (d.lo : Int) || (d.hi : Int) ≤ a || (d.kind ≠ 0 && a < ((partBase d.kind td).1 : Int))

/-- A granule that the context may not access with permission bit `bit`: 0 R, 1 W (R228). -/
def State.refused (s : State) (t a bit : Nat) : Bool :=
  if sramAt t ≤ a && a < sramAt t + sramSize then false
  else match s.resCtx with
    | some (_, c) => !bitOf (permOf c.regs a) bit
    | none => true

/-- The near-side device address of walk granule `j`. -/
def SDesc.nearAt (d : SDesc) (t j : Nat) : Nat := sramAt t + (d.walk j).2

/-- Set or clear the pending bit of a granule of the tile's SRAM (R225). -/
def Tile.setPend (x : Tile) (off : Nat) (v : Bool) : Tile := { x with pend := sput noFlag x.pend (off / 4096) v }

/-- Stream contexts of a tile count into mode 2 of a chronograph bank (R251). -/
def State.ctr (s : State) (t c counter n : Nat) : State := s.chrAdd (s.plc.phys t) 2 c counter n

/-! Starting (R239) -/

/-- The stream's near-side granules go pending (R225). -/
def Tile.pendAll (x : Tile) (d : SDesc) (lo hi : Nat) : Tile :=
  ((List.range (hi - lo)).map (lo + ·)).foldl (fun x j => x.setPend (d.walk j).2 true) x

/-- A granule has arrived whole. -/
def Flight.whole (f : Flight) : Bool := f.got.length == 4096

/-- Granules become demanded, up to `n` (R225, R239, R251). -/
def State.demandTo (s : State) (t c n : Nat) : State :=
  let x := s.tile t
  match sfind x.inb c with
  | none => s
  | some i =>
    let n := min n i.sd.n
    let mine := i.fl.filter fun f => decide (i.demand ≤ f.j) && decide (f.j < n)
    let i' := { i with demand := n, fl := i.fl.map fun f => if i.demand ≤ f.j && f.j < n && !f.whole then { f with waited := true } else f }
    let x := { x with inb := sins x.inb c i' }
    let x := match i.use with
      | .load _ _ _ _ => x
      | _ => x.pendAll i.sd i.demand n
    (((s.setTile t x).ctr t c 0 (n - i.demand)).ctr t c 1 (mine.filter (·.whole)).length).ctr t c 2 (mine.filter (!·.whole)).length

/-- An inbound stream starts: a free-running one demands all its granules (R239). -/
def State.startIn (s : State) (t c : Nat) (raw : List Byte) (d : SDesc) (td : TDesc) (use : InbUse) : State :=
  let x := s.tile t
  let s := s.setTile t { x with inb := sins x.inb c ⟨raw, d, td, use, 0, 0, 0, [], []⟩ }
  if d.paced then s else s.demandTo t c d.n

/-- An outbound stream starts. -/
def State.startOut (s : State) (t c : Nat) (d : SDesc) (td : TDesc) (spill : Option (Nat × Nat)) : State :=
  let x := s.tile t
  s.setTile t { x with outb := sins x.outb c ⟨d, td, spill, 0, [], 0⟩ }

/-! Program loads (R261) -/

/-- A program load record (R261). -/
structure LoadRec where
  src : Nat
  dst : Nat
  cnt : Nat
  sig : Nat
  on : Bool
  bad : Bool
  deriving DecidableEq, Repr

/-- R261: a record from its 32 bytes. -/
def LoadRec.ofBytes (b : List Byte) : LoadRec :=
  let g := fieldLe b 12 4
  let src := fieldLe b 0 8
  let dst := fieldLe b 8 2
  let cnt := fieldLe b 10 2
  { src := src, dst := dst, cnt := cnt, sig := bitsOf g 0 8, on := bitOf g 8,
    bad := src % 32 ≠ 0 || cnt < 1 || 8192 < dst + cnt || g / 2 ^ 9 ≠ 0 || leNat (b.drop 16) ≠ 0 }

/-- The raw free-running stream that a program load is (R261). -/
def LoadRec.stream (l : LoadRec) : SDesc :=
  { dir := 0, paced := false, kind := 0, vsel := 0, ndim := 0, ahead := 0, sig := l.sig, sigEvery := 0, tdesc := 0, soff := 0,
    base := l.src / 4096 * 4096, cnt := [cdiv (l.src % 4096 + 32 * l.cnt) 4096, 1, 1, 1], str := [0, 0, 0], ssize := 0, lo := 0,
    hi := 2 ^ 64, rsv := 0 }

/-- A program load starts in a context's inbound direction. -/
def State.startLoad (s : State) (t c : Nat) (l : LoadRec) : State :=
  s.startIn t c [] l.stream TDesc.absent (.load l.dst l.cnt (l.src % 4096) l.on)

/-- A bundle index that a running load has still to write (R262). -/
def Tile.loading (x : Tile) (k : Nat) : Bool :=
  x.inb.any fun p => match p.2.use with
    | .load dst cnt skip _ => dst ≤ k && k < dst + cnt && p.2.written ≤ (skip + 32 * (k - dst)) / 4096
    | _ => false

/-- The load that a restore or a start performs first still runs: nothing issues and no stream context goes on (R264, R280). -/
def Tile.starting (x : Tile) : Bool := (sfind x.inb 32).any fun i => decide (i.written < i.sd.n)

/-- A stream context of a tile may make progress in this tick (R30, R264). -/
def State.streamOn (s : State) (t c : Nat) : Bool := s.clk.enabled && (c == 32 || !(s.tile t).starting)

/-- The bundles that granule `j` of a load brings (R261). -/
def loadBundles (dst cnt skip j : Nat) (b : List Byte) : List (Nat × Nat) :=
  ((List.range cnt).filter fun i => (skip + 32 * i) / 4096 = j).map fun i =>
    (dst + i, leNat ((b.drop (skip + 32 * i - 4096 * j)).take 32))

/-! Fetching -/

/-- Begin the read of walk granule `j`: from HBM through its controller, from a tile's SRAM at once (R231). -/
def State.fetch (s : State) (t c j : Nat) (ahead : Bool) : State :=
  let x := s.tile t
  match sfind x.inb c with
  | none => s
  | some i =>
    let a := i.sd.addr j
    let local_ := sramBase ≤ a
    let f : Flight :=
      { j := j, addr := a, runAhead := ahead, got := if local_ then rdBytes s.mem a 4096 else [], cv := if local_ then s.tagOff (a / 4096) else 0,
        cvv := false, poison := local_ && s.pois (a / 4096), again := false, waited := false, epoch := s.plc.epoch }
    let old := i.fl.find? fun q => q.j = j
    let f := match old with
      | some o => { f with again := o.again }
      | none => f
    let i' := { i with fl := (i.fl.filter fun q => q.j ≠ j) ++ [f], next := max i.next (j + 1), dropped := i.dropped.filter (· ≠ j) }
    let s := s.setTile t { x with inb := sins x.inb c i' }
    if local_ then s else s.ask ⟨t, c, j, a, false, 0, [], none, false⟩

/-- A fetch of tile `t` from a tile's SRAM is held by fill tracking there, or by that tile's move (R225, R248). -/
def State.farHeld (s : State) (t a : Nat) : Bool :=
  sramBase ≤ a && a < sramAt 64 &&
    (sget noFlag (s.tile (ownerOf a)).pend ((a - sramAt (ownerOf a)) / 4096) || (t ≠ ownerOf a && s.mustHold (ownerOf a) (s.stopOf t) 0))

/-- A write of a granule into a tile's SRAM, sent from a stop, is held by a fill, a spill or the tile's move (R179, R226, R248). -/
def State.farBlocked (s : State) (stop a : Nat) : Bool :=
  sramBase ≤ a && a < sramAt 64 && (s.writeHeld (ownerOf a) [(a, 4096)] || s.mustHold (ownerOf a) stop 0)

/-- The stop from which a granule comes to a stream (R19). -/
def State.sourceStop (s : State) (a : Nat) : Nat := if a < sramBase then hbmStop (hbmMap a).1 else s.stopOf (ownerOf a)

/-- The prefetch window entry of a flight (R242). -/
def State.winEntry (s : State) (t c j a : Nat) : Option PfEntry :=
  (s.hbm.ctlOf (hbmMap a).1).win.find? fun e => e.tile = t && e.ctx = c && e.j = j

/-- Free a window entry. -/
def State.freeEntry (s : State) (t c j a : Nat) : State :=
  let k := (hbmMap a).1
  let h := s.hbm.ctlOf k
  { s with hbm := s.hbm.setCtl k { h with win := h.win.filter fun e => !(e.tile = t && e.ctx = c && e.j = j) } }

/-- A demanded run-ahead granule whose window entry is stale (R242). -/
def State.staleFlight (s : State) (t c : Nat) (i : Inb) : Option Flight :=
  i.fl.find? fun f => f.runAhead && decide (f.j < i.demand) && (s.winEntry t c f.j f.addr).any (·.stale)

/-- A stale granule is discarded and read again by demand (R242). -/
def State.refetch (s : State) (t c : Nat) (f : Flight) : State :=
  let s := (s.freeEntry t c f.j f.addr).unask fun r => r.tile = t && r.ctx = c && r.j = f.j && !r.write
  let k := s.plc.phys t
  let s := s.setPtile k { s.ptile k with collisions := (s.ptile k).collisions + 1 }
  ((s.fetch t c f.j false).ctr t c 8 1).ctr t c 10 1

/-- The walk granule that the next demand fetch is for: a dropped one, or the next of the walk (R239, R241). -/
def Inb.wanted (i : Inb) : Option Nat :=
  match i.dropped.find? (· < i.demand) with
  | some j => some j
  | none => if i.next < i.demand then some i.next else none

/-- DEMAND_FETCH: refetch a stale granule, or fetch the next demanded one; a granule outside the bounds or refused by
the region table is a job fault once the granules before it are delivered (R228, R239 to R242). -/
def State.demandFetch (s : State) (t c : Nat) : State :=
  match sfind (s.tile t).inb c with
  | none => s
  | some i =>
    match s.staleFlight t c i with
    | some f => s.refetch t c f
    | none =>
      match i.wanted with
      | none => s
      | some j =>
        let a := i.sd.addr j
        if i.sd.outside i.td j then
          if i.written = j then s.jobFault ⟨3, 1, a, 0, none⟩ (some t) else s
        else if s.refused t a 0 then
          if i.written = j then s.jobFault (JF.region 1 a) (some t) else s
        else if 8 ≤ i.fl.length || s.farHeld t a then s
        else (s.fetch t c j false).ctr t c 10 1

/-- DEMAND_FETCH (R239). -/
def execDemandFetch (t : Fin 64) (c : BitVec 6) (s : State) : Host.Outcome State Fault Refusal :=
  occurs (s.streamOn t c.toNat) (s.demandFetch t c.toNat) s

/-- Run-ahead waits for a window table entry (R242, R251). -/
def State.aheadWaits (s : State) (t : Nat) (i : Inb) : Bool :=
  let j := i.next
  i.sd.paced && decide (i.demand ≤ j) && decide (j < i.demand + i.sd.ahead) && decide (j < i.sd.n) && decide (i.fl.length < 8) &&
    !i.sd.outside i.td j && !s.refused t (i.sd.addr j) 0 && decide (2048 ≤ (s.hbm.ctlOf (hbmMap (i.sd.addr j)).1).win.length)

/-- RUN_AHEAD_FETCH of a paced stream's next granule (R240 to R242). -/
def State.runAheadFetch (s : State) (t c : Nat) : State :=
  let x := s.tile t
  match sfind x.inb c with
  | none => s
  | some i =>
    let j := i.next
    let a := i.sd.addr j
    if !i.sd.paced || j < i.demand || i.demand + i.sd.ahead ≤ j || i.sd.n ≤ j || 8 ≤ i.fl.length || i.sd.outside i.td j then s
    else if s.refused t a 0 then
      let s := s.setTile t { x with inb := sins x.inb c { i with next := j + 1, dropped := i.dropped ++ [j] } }
      let k := s.plc.phys t
      (s.setPtile k { s.ptile k with drops := (s.ptile k).drops + 1 }).ctr t c 7 1
    else
      let k := (hbmMap a).1
      let h := s.hbm.ctlOf k
      if 2048 ≤ h.win.length then s
      else
        let e : PfEntry := ⟨t, c, j, a, false⟩
        let s := { s with hbm := s.hbm.setCtl k { h with win := h.win ++ [e] } }
        (s.fetch t c j true).ctr t c 4 1

/-- RUN_AHEAD_FETCH (R240). -/
def execRunAheadFetch (t : Fin 64) (c : BitVec 6) (s : State) : Host.Outcome State Fault Refusal :=
  occurs (s.streamOn t c.toNat) (s.runAheadFetch t c.toNat) s

/-! Delivery -/

/-- The key a granule is checked under: the barrel's own for a fill, the descriptor's otherwise (R180, R236). -/
def Inb.keyOf (i : Inb) (step : W32) (a : Nat) : W32 × W32 × W32 :=
  match i.use with
  | .fill _ _ => (BitVec.ofNat 32 Config.barrelTid, BitVec.ofNat 32 (a / 4096), 0)
  | _ => keyAt i.sd i.td step a

/-- How a keyed granule from HBM stands against its check value: fails, unchecked (R403, R404). -/
def Inb.fails (i : Inb) (step : W32) (f : Flight) : Bool :=
  let k := i.keyOf step f.addr
  i.sd.kind ≠ 0 && !f.poison && f.addr < hbmEnd && f.cvv && keyedCv (bareCv f.got) k.1 k.2.1 k.2.2 ≠ f.cv

/-- A granule is delivered without its check (R403). -/
def Inb.unchecked (i : Inb) (f : Flight) : Bool := i.sd.kind ≠ 0 && !f.poison && f.addr < hbmEnd && !f.cvv

/-- A CHECK_FAIL event (R404, R496). -/
def State.checkFail (s : State) (a : Nat) (k : W32 × W32 × W32) : State :=
  let n := match s.resCtx with | some (n, _) => n | none => 0xFF
  { s with cvFail := s.cvFail + 1 }.event 0x06 n [(0, 8, a), (8, 4, k.1.toNat), (12, 4, k.2.1.toNat), (16, 4, k.2.2.toNat)] []

/-- Put a delivered granule where it belongs: bundles for a load, else SRAM with its tag and mark (R225, R261, R400, R403). Between tiles a
keyed stream carries the tag's bare check value (R405). -/
def State.place (s : State) (t : Nat) (i : Inb) (f : Flight) (poison : Bool) : State :=
  let x := s.tile t
  match i.use with
  | .load dst cnt skip _ =>
    s.setTile t { x with ibuf := (loadBundles dst cnt skip f.j f.got).foldl (fun m p => sins m p.1 p.2) x.ibuf }
  | _ =>
    let a := i.sd.nearAt t f.j
    let s := (((s.setMem (wrBytes s.mem a f.got)).markWrite [(a, 4096)] poison).setTag (a / 4096)) (if i.sd.kind = 0 || f.addr < sramBase then 0 else f.cv)
    s.setTile t ((s.tile t).setPend (a - sramAt t) false)

/-- A granule's place in SRAM waits for a spill to read it, or the granule for the marker of a move of the tile (R179, R248). -/
def State.placeHeld (s : State) (t : Nat) (i : Inb) (f : Flight) : Bool :=
  (match i.use with
    | .load _ _ _ _ => false
    | _ => sget noFlag (s.tile t).spillHold ((i.sd.walk f.j).2 / 4096)) || s.moveHolds t (s.sourceStop f.addr) 1 f.epoch

/-- The flight that is next in walk order, arrived whole, demanded and not stale, with nothing that holds its place. -/
def State.deliverable (s : State) (t c : Nat) (i : Inb) : Option Flight :=
  match i.fl.find? fun f => f.j = i.written with
  | none => none
  | some f =>
    if f.whole && decide (f.j < i.demand) && !(f.runAhead && (s.winEntry t c f.j f.addr).any (·.stale)) && !s.placeHeld t i f then some f else none

/-- A frame that a fill has brought back whole is resident and spilled again (R173, R178). Its state stands in bits 2:1
of FR_FLAGS. -/
def setFrState (m : Mem) (a v : Nat) : Mem :=
  let b := (rd8 m (a + 3)).toNat
  wr8 m (a + 3) (BitVec.ofNat 8 (b - bitsOf b 1 2 * 2 + v * 2))

/-- A barrel lane. -/
def Tile.laneOf (x : Tile) (l : Nat) : Lane := sget (fun _ => Lane.init) x.lanes l

/-- LN_SSIZE (R169). -/
def Lane.ssize (l : Lane) : Nat := fieldLe l.rec_ 4 4

/-- Device address of the record of frame `k` of a lane (R173). -/
def Lane.frAt (l : Lane) (k : Nat) : Nat := fieldLe l.rec_ 32 8 + 32 * k

/-- A fill ends when its last granule is written. -/
def State.endFill (s : State) (t c : Nat) (i : Inb) : State :=
  match i.use with
  | .fill lane frame =>
    let x := s.tile t
    let s := s.setTile t { x with inb := sdel x.inb c }
    let a := (x.laneOf lane).frAt frame
    if frame < (x.laneOf lane).depth then ((s.setMem (setFrState s.mem a 1)).noteHbm a 32) else s
  | _ => s

/-- INBOUND_GRANULE_WRITE: the next granule in walk order is checked and written (R225, R237, R403, R404). -/
def State.deliver (s : State) (t c : Nat) : State :=
  match sfind (s.tile t).inb c with
  | none => s
  | some i =>
    match s.deliverable t c i with
    | none => s
    | some f =>
      if i.fails s.step f && !f.again then
        -- the reading unit reads the granule once more
        let i' := { i with fl := i.fl.map fun q => if q.j = f.j then { q with got := [], again := true } else q }
        let x := s.tile t
        (s.setTile t { x with inb := sins x.inb c i' }).ask ⟨t, c, f.j, f.addr, false, 0, [], none, false⟩
      else
        let bad := i.fails s.step f
        let s := if bad then s.checkFail f.addr (i.keyOf s.step f.addr) else s
        let s := if i.unchecked f then { s with cvUnchecked := s.cvUnchecked + 1 } else s
        let s := s.place t i f (f.poison || bad)
        let s := if f.runAhead then (s.freeEntry t c f.j f.addr).ctr t c 5 1 else s
        let i' := { i with written := i.written + 1, fl := i.fl.filter fun q => q.j ≠ f.j }
        let x := s.tile t
        let x := { x with inb := sins x.inb c i' }
        let x := if i.sd.sigEvery ≠ 0 && i'.written % i.sd.sigEvery = 0 then x.inc i.sd.sig 1 else x
        let s := (s.setTile t x).chrAdd (s.plc.phys t) 1 4 0 1
        if i'.written = i.sd.n then s.endFill t c i' else s

/-- INBOUND_GRANULE_WRITE (R237). -/
def execInboundGranuleWrite (t : Fin 64) (c : BitVec 6) (s : State) : Host.Outcome State Fault Refusal :=
  occurs s.clk.enabled (s.deliver t c.toNat) s

/-! Outbound streams (R237) -/

/-- Granules of an outbound stream that are on their way. -/
def Outb.flying (o : Outb) : Nat := o.sent - o.lead - o.acc.length

/-- The key of an outbound granule. -/
def Outb.keyOf (o : Outb) (step : W32) (a : Nat) : W32 × W32 × W32 :=
  match o.spill with
  | some _ => (BitVec.ofNat 32 Config.barrelTid, BitVec.ofNat 32 (a / 4096), 0)
  | none => keyAt o.sd o.td step a

/-- The next near-side granule may be taken: room in the write queue, no pending fill on it, and nothing that holds the write on the far side
where that is a tile's SRAM (R179, R225, R226, R238, R248). -/
def State.canSend (s : State) (t : Nat) (o : Outb) : Bool :=
  o.sd.dir == 1 && decide (o.sent < o.sd.n) && decide (o.flying < 4) &&
    !sget noFlag (s.tile t).pend ((o.sd.walk o.sent).2 / 4096) && !s.farBlocked (s.stopOf t) (o.sd.addr o.sent)

/-- The tag of a near-side granule does not fit its bytes, which an outbound keyed transfer finds; a poisoned granule is not checked (R403,
R404). -/
def State.tagFails (s : State) (kind near : Nat) : Bool := kind ≠ 0 && !s.pois (near / 4096) && s.tagOff (near / 4096) ≠ 0

/-- A granule of a spill has been read: writes to it are no longer held (R179). -/
def Tile.release (x : Tile) (o : Outb) : Tile :=
  match o.spill with
  | some _ => { x with spillHold := sput noFlag x.spillHold ((o.sd.walk o.sent).2 / 4096) false }
  | none => x

/-- Take the next granule from the near side and send it: to a controller with its keyed check value, or to a tile's
SRAM, which accepts it at once (R237, R402, R405). -/
def State.sendOut (s : State) (t c : Nat) (o : Outb) : State :=
  let j := o.sent
  let a := o.sd.addr j
  if o.sd.outside o.td j then
    if o.lead = j then s.jobFault ⟨3, 1, a, 0, none⟩ (some t) else s
  else if s.refused t a 1 then
    if o.lead = j then s.jobFault (JF.region 1 a) (some t) else s
  else
    let near := o.sd.nearAt t j
    let b := rdBytes s.mem near 4096
    let bad := s.tagFails o.sd.kind near
    let pz := s.pois (near / 4096) || bad
    let k := o.keyOf s.step a
    let s := if bad then s.checkFail near k else s
    let x := (s.tile t).release o
    let s := s.setTile t { x with outb := sins x.outb c { o with sent := j + 1 } }
    if a < hbmEnd then
      s.ask ⟨t, c, j, a, true, 0, b, if o.sd.kind = 0 then none else some (keyedCv (bareCv b) k.1 k.2.1 k.2.2), pz⟩
    else (((s.setMem (wrBytes s.mem a b)).markWrite [(a, 4096)] pz).setTag (a / 4096) 0).accepted t c j

/-- One outbound granule of a tile goes to the mesh, of the contexts that can send the first from `from_` on, in rotation. -/
def State.pump (s : State) (t from_ : Nat) : State :=
  let x := s.tile t
  match ((List.range 32).map fun k => (from_ + k) % 32).find? fun c => (sfind x.outb c).any (s.canSend t) with
  | none => s
  | some c =>
    match sfind x.outb c with
    | none => s
    | some o => s.sendOut t c o

/-! Completion (R237) -/

/-- A spill ends: a frame that no push has evicted meanwhile is resident and spilled (R177). -/
def State.endSpill (s : State) (t : Nat) (o : Outb) : State :=
  match o.spill with
  | some (lane, frame) =>
    let x := s.tile t
    let l := x.laneOf lane
    let a := l.frAt frame
    let s := s.setTile t { x with lanes := sput (fun _ => Lane.init) x.lanes lane { l with owed := l.owed.filter (· ≠ frame) } }
    if frame < l.depth && bitsOf (rd8 s.mem (a + 3)).toNat 1 2 = 0 then (s.setMem (setFrState s.mem a 1)).noteHbm a 32 else s
  | none => s

/-- STREAM_COMPLETE of a context: its inbound stream where `out` is false, else its outbound one. -/
def State.streamComplete (s : State) (t c : Nat) (out : Bool) : State :=
  let x := s.tile t
  if out then
    match sfind x.outb c with
    | none => s
    | some o =>
      if o.sd.dir = 1 && o.lead = o.sd.n then
        let s := s.setTile t { x with outb := sdel x.outb c }
        if o.spill.isSome then s.endSpill t o else s.signal t true o.sd.sig
      else s
  else
    match sfind x.inb c with
    | none => s
    | some i =>
      match i.use with
      | .stream => if i.written = i.sd.n then (s.setTile t { x with inb := sdel x.inb c }).signal t true i.sd.sig else s
      | _ => s

/-- STREAM_COMPLETE (R237). -/
def execStreamComplete (t : Fin 64) (c : BitVec 6) (out : Bool) (s : State) : Host.Outcome State Fault Refusal :=
  .next (s.streamComplete t c.toNat out)

/-- ILOAD_COMPLETE: a program load whose bundles are all written signals PL_SIG (R261). -/
def execIloadComplete (t : Fin 64) (c : BitVec 6) (s : State) : Host.Outcome State Fault Refusal :=
  let x := s.tile t
  match sfind x.inb c.toNat with
  | none => .next s
  | some i =>
    match i.use with
    | .load _ _ _ on => occurs (i.written == i.sd.n) ((s.setTile t { x with inb := sdel x.inb c.toNat }).signal t on i.sd.sig) s
    | _ => .next s

/-! The S slot (R232, R274) -/

/-- The descriptor that an sgo names, with XEN applied to its copy of SD_BASE (R274). -/
def State.sgoDesc (s : State) (t : Nat) (v : SSlot) : Except JF (List Byte × SDesc × TDesc) := do
  let off := v.opr * 64
  let b ← s.recAt t off 64 64
  let d0 := SDesc.ofBytes b
  let td ← if d0.tdesc = 0 then Except.ok TDesc.absent else s.descAt t d0.tdesc
  let add : Int := if v.xen then 4096 * (s.tile t).xs v.xreg else 0
  let d := { d0 with base := unsgn ((d0.base : Int) + add) 64 }
  let raw := b.take 16 ++ natLe 8 d.base ++ b.drop 24 ++ (if d.tdesc = 0 then List.replicate 64 0 else s.sram t d.tdesc 64)
  match d.fault td with
  | some n => .error (JF.illegal n off)
  | none =>
    illegalIf (d.dir == 2 && 65535 < d.n) 1 off
    .ok (raw, d, td)

/-- Some lane of the barrel is configured and not unused (R169, R180). -/
def Tile.barrelOn (x : Tile) : Bool := x.lanes.any fun p => p.2.ssize ≠ 0

/-- n of an sdem or sdem.x (R274). -/
def Tile.demandN (x : Tile) (v : SSlot) : Int := if v.op = 2 then v.opr else x.xs v.xreg

/-- sdem acts only on a running paced inbound stream (R239). -/
def State.sdem (s : State) (t : Nat) (v : SSlot) : State :=
  match sfind (s.tile t).inb v.ctx with
  | none => s
  | some i =>
    match i.use with
    | .stream => if i.sd.paced then s.demandTo t v.ctx (i.demand + ((s.tile t).demandN v).toNat) else s
    | _ => s

/-- The direction that an sgo names, read from its descriptor's bytes: true for outbound. -/
def State.sgoOut (s : State) (t : Nat) (v : SSlot) : Nat := (SDesc.ofBytes (s.sram t (v.opr * 64) 64)).dir

/-- The S slot is held: the context's stream in that direction runs, or every link send descriptor is taken (R232, R238). -/
def State.sHold (s : State) (t : Nat) (v : SSlot) (linkFull outBusy : Bool) : Bool :=
  let x := s.tile t
  let busyIn := (sfind x.inb v.ctx).isSome
  let busyOut := (sfind x.outb v.ctx).isSome || outBusy
  if v.op = 1 then
    let d := s.sgoOut t v
    if d = 0 then busyIn else if d = 2 then busyOut || linkFull else busyOut
  else if v.op = 4 then busyIn
  else false

end Sys2Proof.Machine
end

