-- ==== Sys2Proof/Machine/Barrel.lean ====
section
/-! DEFINITION. Machine/Barrel.lean: the activation stash: lane records, frames, pushes and pops, spills and fills
(R169 to R181, R278). Log 34 says what the spec leaves open of it. -/

namespace Sys2Proof.Machine

/-! Lane records (R169) -/

/-- LN_SBASE. -/
def Lane.sbase (l : Lane) : Nat := fieldLe l.rec_ 0 4
/-- LN_AHEAD. -/
def Lane.ahead (l : Lane) : Nat := fieldLe l.rec_ 8 4
/-- LN_RCOUNT. -/
def Lane.rcount (l : Lane) : Nat := fieldLe l.rec_ 12 4
/-- LN_HBASE. -/
def Lane.hbase (l : Lane) : Nat := fieldLe l.rec_ 16 8
/-- LN_HSIZE. -/
def Lane.hsize (l : Lane) : Nat := fieldLe l.rec_ 24 8

/-- A lane record that breaks an alignment, a limit or a reserved field of R169. -/
def laneBad (b : List Byte) : Bool :=
  let l : Lane := ⟨b, 0, 0, 0, []⟩
  l.sbase % 4096 ≠ 0 || l.ssize % 4096 ≠ 0 || sramSize < l.sbase + l.ssize || l.ahead % 4096 ≠ 0 || l.ssize < l.ahead ||
    l.rcount < 1 || 65535 < l.rcount || l.hbase % 4096 ≠ 0 || fieldLe b 32 8 % 64 ≠ 0 || leNat (b.drop 40) ≠ 0

/-- A barrel job fault (R290, R427). -/
def JF.barrel (cause addr : Nat) : JF := ⟨cause, 3, addr, 0, none⟩

/-- Change a barrel lane. -/
def Tile.setLane (x : Tile) (l : Nat) (v : Lane) : Tile := { x with lanes := sput (fun _ => Lane.init) x.lanes l v }

/-- bcfg: the lane record is loaded and the cursors are zero (R169 to R171). -/
def State.prepBcfg (s : State) (t lane drec : Nat) : Except JF (State → State) := do
  let b ← s.recAt t (drec * 64) 64 64
  illegalIf (laneBad b) 0 (drec * 64)
  if ((s.tile t).laneOf lane).depth ≠ 0 then .error (JF.barrel 5 (drec * 64))
  else .ok fun s => s.setTile t ((s.tile t).setLane lane ⟨b, 0, 0, 0, []⟩)

/-! Frames (R172, R173) -/

/-- R172 place: the cumulative offset of a frame. -/
def placeFrame (pushed size ssize : Nat) : Nat :=
  let off := pushed % ssize
  if ssize < off + size then pushed + (ssize - off) else pushed

/-- A push record (R278). -/
structure PushRec where
  mb : Nat
  vs : Nat
  flags : Nat
  layer : Nat
  rsv : Nat
  size : Nat
  addr : Nat
  deriving DecidableEq, Repr

/-- R278: a record from its 16 bytes. -/
def PushRec.ofBytes (b : List Byte) : PushRec :=
  { mb := fieldLe b 0 2, vs := fieldLe b 2 1, flags := fieldLe b 3 1, layer := fieldLe b 4 2, rsv := fieldLe b 6 2,
    size := fieldLe b 8 4, addr := fieldLe b 12 4 }

/-- A reserved bit of a push record is set, or its virtual stage is above 63 (R173, R604). -/
def PushRec.bad (r : PushRec) : Bool := 2 ≤ r.flags || r.rsv ≠ 0 || 64 ≤ r.vs

/-- State of frame `k` of a lane: 0 resident, 1 resident and spilled, 2 evicted, 3 filling (R173). -/
def Lane.frState (l : Lane) (m : Mem) (k : Nat) : Nat := bitsOf (rd8 m (l.frAt k + 3)).toNat 1 2
/-- FR_OFF. -/
def Lane.frOff (l : Lane) (m : Mem) (k : Nat) : Nat := rdLe m (l.frAt k + 8) 8
/-- FR_SIZE. -/
def Lane.frSize (l : Lane) (m : Mem) (k : Nat) : Nat := rdLe m (l.frAt k + 16) 4

/-- SRAM granules of frame `k`, by number within the tile. -/
def Lane.frGrans (l : Lane) (m : Mem) (k : Nat) : List Nat :=
  (List.range (l.frSize m k / 4096)).map fun i => (l.sbase + l.frOff m k % l.ssize) / 4096 + i

/-- The spill condition of frame `k` (R177). -/
def Lane.spillWanted (l : Lane) (m : Mem) (k : Nat) : Bool :=
  l.frState m k == 0 && decide (l.frOff m k + l.ssize < l.pushed + l.ahead)

/-- A push has passed frame `k`'s window (R177). -/
def Lane.passed (l : Lane) (m : Mem) (k : Nat) : Bool := decide (l.frOff m k + l.ssize < l.pushed)

/-- Set the hold bits of granules. -/
def holdAll (m : SMap Bool) (gs : List Nat) (v : Bool) : SMap Bool := gs.foldl (fun m g => sput noFlag m g v) m

/-- The frame that a running spill or fill of a lane moves. -/
def Tile.spilling (x : Tile) : Option (Nat × Nat) := (sfind x.outb 31).bind (·.spill)
/-- The same of a fill. -/
def Tile.filling (x : Tile) : Option (Nat × Nat) :=
  match sfind x.inb 31 with
  | some i => match i.use with
    | .fill l k => some (l, k)
    | _ => none
  | none => none

/-- Write a frame state into its record. -/
def State.setFr (s : State) (l : Lane) (k v : Nat) : State := (s.setMem (setFrState s.mem (l.frAt k) v)).noteHbm (l.frAt k) 32

/-- A fill of frame `k` is abandoned, and its granules are no longer pending (R175, R177). -/
def State.dropFill (s : State) (t lane : Nat) (k : Nat) : State :=
  let x := s.tile t
  let l := x.laneOf lane
  if l.frState s.mem k ≠ 3 then s
  else
    let gs := l.frGrans s.mem k
    if x.filling = some (lane, k) then
      (s.setTile t { x with inb := sdel x.inb 31, pend := holdAll x.pend gs false }).unask fun r => r.tile = t && r.ctx = 31 && !r.write
    else s.setTile t { x with pend := holdAll x.pend gs false }

/-- A spill of a popped frame ends with the granules it has taken; the rest are not held any more. -/
def State.dropSpill (s : State) (t lane : Nat) (k : Nat) : State :=
  let x := s.tile t
  let l := x.laneOf lane
  if !l.owed.contains k then s
  else
    let x := x.setLane lane { l with owed := l.owed.filter (· ≠ k) }
    let x := { x with spillHold := holdAll x.spillHold (l.frGrans s.mem k) false }
    if x.spilling = some (lane, k) then
      match sfind x.outb 31 with
      | some o => s.setTile t { x with outb := sins x.outb 31 { o with sd := { o.sd with cnt := [o.sent, 1, 1, 1] }, spill := some (64, 0) } }
      | none => s
    else s.setTile t x

/-- Frames that a push passes become evicted; a fill of one is abandoned (R177). -/
def State.evict (s : State) (t lane : Nat) : State :=
  (List.range ((s.tile t).laneOf lane).depth).foldl (fun s k =>
    let l := (s.tile t).laneOf lane
    if l.passed s.mem k && l.frState s.mem k ≠ 2 then (s.dropFill t lane k).setFr l k 2 else s) s

/-- The spills that have to begin: writes to their frames are held until each granule is read (R177, R179). -/
def State.beginSpills (s : State) (t lane : Nat) : State :=
  let x := s.tile t
  let l := x.laneOf lane
  let ks := (List.range l.depth).filter fun k => l.spillWanted s.mem k && !l.owed.contains k
  s.setTile t { x.setLane lane { l with owed := l.owed ++ ks } with
    spillHold := holdAll x.spillHold (ks.flatMap (l.frGrans s.mem)) true }

/-- Evicted frames whose window a pop frees are to be filled: their granules go pending, but for those that a spill
has still to read, which hold what they held (R178, R179). -/
def State.wantFills (s : State) (t lane : Nat) : State :=
  (List.range ((s.tile t).laneOf lane).depth).foldl (fun s k =>
    let x := s.tile t
    let l := x.laneOf lane
    let gs := l.frGrans s.mem k
    if l.frState s.mem k = 2 && !l.passed s.mem k then
      (s.setTile t { x with pend := holdAll x.pend (gs.filter fun g => !sget noFlag x.spillHold g) true }).setFr l k (if gs.isEmpty then 1 else 3)
    else s) s

/-! bpush and bpop (R174, R175) -/

/-- A push record, checked. -/
def State.pushRec (s : State) (t drec : Nat) : Except JF PushRec := do
  let r := PushRec.ofBytes (← s.recAt t (drec * 64) 16 16)
  illegalIf r.bad 0 (drec * 64)
  .ok r

/-- Why a push is a job fault: 5 misuse, 6 overflow (R174). -/
def Lane.pushFault (l : Lane) (r : PushRec) : Option Nat :=
  if l.ssize = 0 || r.size % 4096 ≠ 0 || l.ssize < r.size then some 5
  else
    let o := placeFrame l.pushed r.size l.ssize
    if r.addr ≠ l.sbase + o % l.ssize then some 5
    else if l.depth = l.rcount || l.hsize < o + r.size then some 6 else none

/-- A frame record (R173). -/
def frameBytes (r : PushRec) (o seq : Nat) : List Byte :=
  packFields 32 [(0, 2, r.mb), (2, 1, r.vs), (3, 1, r.flags % 2), (4, 2, r.layer), (8, 8, o), (16, 4, r.size), (20, 4, seq)]

/-- A push takes effect (R174, R177). -/
def State.doPush (s : State) (t lane : Nat) (r : PushRec) : State :=
  let x := s.tile t
  let l := x.laneOf lane
  let o := placeFrame l.pushed r.size l.ssize
  let a := l.frAt l.depth
  let s := (s.setMem (wrBytes s.mem a (frameBytes r o (l.pushes % 2 ^ 32)))).noteHbm a 32
  let s := s.setTile t (x.setLane lane { l with pushed := o + r.size, depth := l.depth + 1, pushes := l.pushes + 1 })
  (s.beginSpills t lane).evict t lane

/-- bpush (R174). -/
def State.prepBpush (s : State) (t lane drec : Nat) : Except JF (State → State) := do
  let r ← s.pushRec t drec
  match ((s.tile t).laneOf lane).pushFault r with
  | some c => .error (JF.barrel c (drec * 64))
  | none => .ok fun s => s.doPush t lane r

/-- The record of frame `k` has the key and the RECOMP bit that a pop names (R175). -/
def Lane.keyIs (l : Lane) (m : Mem) (k : Nat) (r : PushRec) : Bool :=
  let a := l.frAt k
  rdLe m a 2 == r.mb && rdLe m (a + 2) 1 == r.vs && rdLe m (a + 4) 2 == r.layer && rdLe m (a + 3) 1 % 2 == r.flags % 2

/-- A pop takes effect (R175, R178). -/
def State.doPop (s : State) (t lane : Nat) : State :=
  let k := ((s.tile t).laneOf lane).depth - 1
  let s := (s.dropFill t lane k).dropSpill t lane k
  let x := s.tile t
  let l := x.laneOf lane
  (s.setTile t (x.setLane lane { l with pushed := l.frOff s.mem k, depth := k })).wantFills t lane

/-- bpop (R175). -/
def State.prepBpop (s : State) (t lane drec : Nat) : Except JF (State → State) := do
  let r ← s.pushRec t drec
  let l := (s.tile t).laneOf lane
  if l.depth = 0 || !l.keyIs s.mem (l.depth - 1) r then .error (JF.barrel 5 (drec * 64))
  else .ok fun s => s.doPop t lane

/-! Spill and fill (R177 to R180) -/

/-- The stream that moves a frame: one granule run in walk order between its spill address and its place in the window. -/
def frameStream (l : Lane) (m : Mem) (k dir : Nat) : SDesc :=
  { dir := dir, paced := false, kind := 1, vsel := 0, ndim := 0, ahead := 0, sig := 0, sigEvery := 0, tdesc := 0,
    soff := l.sbase + l.frOff m k % l.ssize, base := l.hbase + l.frOff m k, cnt := [l.frSize m k / 4096, 1, 1, 1], str := [0, 0, 0],
    ssize := 0, lo := 0, hi := 2 ^ 64, rsv := 0 }

/-- The frame of a lane that spills next, in ascending order (R177). -/
def State.nextSpill (s : State) (t lane : Nat) : Option Nat := ((s.tile t).laneOf lane).owed.head?

/-- BARREL_SPILL (R177, R180): the next spill of a lane starts on stream context 31. -/
def execBarrelSpill (t : Fin 64) (lane : BitVec 6) (s : State) : Host.Outcome State Fault Refusal :=
  match s.nextSpill t lane.toNat with
  | none => .next s
  | some k =>
    occurs ((sfind (s.tile t).outb 31).isNone && s.streamOn t 31)
      (s.startOut t 31 (frameStream ((s.tile t).laneOf lane.toNat) s.mem k 1) TDesc.absent (some (lane.toNat, k))) s

/-- The frame of a lane that fills next: the highest that has to, once no spill of it is owed (R178). -/
def State.nextFill (s : State) (t lane : Nat) : Option Nat :=
  let l := (s.tile t).laneOf lane
  match (List.range l.depth).reverse.find? fun k => l.frState s.mem k = 3 with
  | some k => if l.owed.contains k then none else some k
  | none => none

/-- BARREL_FILL (R178, R180): the next fill of a lane starts on stream context 31. -/
def execBarrelFill (t : Fin 64) (lane : BitVec 6) (s : State) : Host.Outcome State Fault Refusal :=
  match s.nextFill t lane.toNat with
  | none => .next s
  | some k =>
    occurs ((sfind (s.tile t).inb 31).isNone && s.streamOn t 31)
      (s.startIn t 31 [] (frameStream ((s.tile t).laneOf lane.toNat) s.mem k 0) TDesc.absent (.fill lane.toNat k)) s

/-! Micro-batch slots (R184 to R186). The input streams carry slot records to a program as data; no command names one, so no command of the
table meets a record that R185 calls an illegal encoding (log 84). -/

/-- A slot record (R184). -/
structure SlotRec where
  mb : Nat
  tok0 : Nat
  ntok : Nat
  part : Nat
  npart : Nat
  rsv : Nat
  deriving DecidableEq, Repr

/-- R184: a record from its 16 bytes. -/
def SlotRec.ofBytes (b : List Byte) : SlotRec :=
  { mb := fieldLe b 0 4, tok0 := fieldLe b 4 4, ntok := fieldLe b 8 4, part := fieldLe b 12 1, npart := fieldLe b 13 1, rsv := fieldLe b 14 2 }

/-- R184: the 16 bytes of a record. -/
def SlotRec.bytes (r : SlotRec) : List Byte :=
  packFields 16 [(0, 4, r.mb), (4, 4, r.tok0), (8, 4, r.ntok), (12, 1, r.part), (13, 1, r.npart), (14, 2, r.rsv)]

/-- R185: the number of the first condition that a record fails, for a token capacity `tc`. -/
def SlotRec.fault (r : SlotRec) (tc : Nat) : Option Nat :=
  firstOf [r.npart ≤ r.part, r.tok0 ≠ r.part * tc, r.part + 1 < r.npart && r.ntok ≠ tc, r.rsv ≠ 0]

/-- R185: the slot records of micro-batch `mb` of `len` tokens, none where it cannot be carried. -/
def SlotRec.split (mb len tc : Nat) : List SlotRec :=
  let n := cdiv len tc
  if 64 < n then [] else (List.range n).map fun p => ⟨mb, p * tc, min ((p + 1) * tc) len - p * tc, p, n, 0⟩

end Sys2Proof.Machine
end

