-- ==== Sys2Proof/Machine/Link.lean ====
section
/-! DEFINITION. Machine/Link.lean: the link layer of the Turain ports: flits, credits, retry, bring-up, lane sparing,
fabric time and transceivers (R295 to R314, R326 to R336, R593, R594, R607). -/

namespace Sys2Proof.Machine

/-! Flits (R298 to R300) -/

/-- The link header of a flit (R299); `rsv` is bit 7. -/
structure FlHdr where
  kind : Nat
  vc : Nat
  rsv : Bool
  seq : Nat
  ack : Nat
  len : Nat
  cred : Nat
  deriving DecidableEq, Repr

/-- R299: the header of a flit's bytes. -/
def FlHdr.ofBytes (f : List Byte) : FlHdr :=
  let w := fieldLe f 0 8
  { kind := bitsOf w 0 4, vc := bitsOf w 4 3, rsv := bitOf w 7, seq := bitsOf w 8 12, ack := bitsOf w 20 12, len := bitsOf w 32 8,
    cred := bitsOf w 40 24 }

/-- A reserved kind or header encoding (R299, R300). -/
def FlHdr.bad (h : FlHdr) : Bool :=
  6 ≤ h.kind || h.rsv || (if h.kind = 1 then h.len < 1 || 244 < h.len else h.vc ≠ 0 || h.seq ≠ 0 || h.len ≠ 0)

/-- A flit's CRC is good (R300). -/
def flitCrcOk (f : List Byte) : Bool := (crc32 (f.take 252)).toNat == fieldLe f 252 4

/-- Credits that a flit can return for a channel (R299): at most 7. -/
def LinkPort.credWord (x : LinkPort) : Nat := ((List.range 8).map fun v => min 7 (sget zeroNat x.owed v) * 8 ^ v).sum

/-- A flit is made and leaves, with its acknowledgement, credit returns and CRC (R299, R302). -/
def LinkPort.emit (x : LinkPort) (kind vc seq len : Nat) (body : List Byte) : LinkPort :=
  let ack := (x.rxSeq - 1).toNat
  let h := kind + vc * 2 ^ 4 + seq * 2 ^ 8 + ack * 2 ^ 20 + len * 2 ^ 32 + x.credWord * 2 ^ 40
  let b := natLe 8 h ++ (body ++ List.replicate 244 0).take 244
  { x with out := x.out ++ [b ++ natLe 4 (crc32 b).toNat],
           owed := (List.range 8).foldl (fun m v => smod zeroNat m v fun n => n - min 7 n) x.owed }

/-- The receive depth of a channel (R301). -/
def vcDepth (v : Nat) : Nat := [512, 32, 8, 8, 8, 8, 4, 4].getD v 0

/-- The INIT body (R312). -/
def initBody (dev port : Nat) (lanes : BitVec 4) : List Byte :=
  natLe 2 dev ++ natLe 1 port ++ natLe 1 lanes.toNat ++ (List.range 8).flatMap (fun v => natLe 2 (vcDepth v)) ++ [1]

/-- A TIME body (R327): kind, TS_SEQ and the four timestamps. -/
def timeBodyOf (kind : Nat) (seq : W16) (t1 t2 t3 t4 : Nat) : List Byte :=
  natLe 2 kind ++ natLe 2 seq.toNat ++ natLe 10 t1 ++ natLe 10 t2 ++ natLe 10 t3 ++ natLe 10 t4

/-- The timestamp with another part of a tick (R327). -/
def timePart (stamp part : Nat) : Nat := stamp / 65536 * 65536 + part % 65536

/-- Bytes of a control flit's body and its kind. `dt` and `ft` are device time and fabric time as the flit leaves (R327, log 37). -/
def Ctl.body (dev port : Nat) (lanes : BitVec 4) (dt ft : Nat) : Ctl → Nat × List Byte
  | .retry n => (2, natLe 2 n)
  | .init => (3, initBody dev port lanes)
  | .timeReq n t1 t2 part t4 => (4, timeBodyOf 0 n t1 t2 (timePart dt part) t4)
  | .timeResp n t2 t3 t4 => (4, timeBodyOf 1 n ft t2 t3 t4)
  | .lane l => (5, natLe 1 l)

/-- A channel has waiting data and credits (R303). -/
def LinkPort.ready (x : LinkPort) (v : Nat) : Bool :=
  0 < sget zeroNat x.credit v && !(sget (fun _ => ([] : List Byte)) x.txq v).isEmpty

/-- A waiting TC0 channel is due: seven DATA flits have passed it by, or six where the other has been passed by as often (R303, log 36). -/
def LinkPort.bulkDue (x : LinkPort) : Option Nat :=
  let n := fun v => if x.ready v then sget zeroNat x.starved v else 0
  if 7 ≤ n 0 then some 0 else if 7 ≤ n 1 then some 1 else if 6 ≤ n 0 && 6 ≤ n 1 then some 1 else none

/-- The channel that sends next: TC2, TC1, TC3, TC0, hop class 1 first; each waiting TC0 channel in one of every 8 (R303). -/
def LinkPort.choose (x : LinkPort) : Option Nat :=
  match x.bulkDue with
  | some v => some v
  | none => [5, 4, 3, 2, 7, 6, 1, 0].find? x.ready

/-- How often each TC0 channel has been passed by, once channel `v` has been chosen (R303). -/
def LinkPort.passBy (x : LinkPort) (v : Nat) : SMap Nat :=
  [0, 1].foldl (fun m w => sput zeroNat m w (if w ≠ v && x.ready w then sget zeroNat x.starved w + 1 else 0)) x.starved

/-- The next new DATA flit (R303 to R305). -/
def LinkPort.sendData (x : LinkPort) (v : Nat) : LinkPort :=
  let q := sget (fun _ => ([] : List Byte)) x.txq v
  let n := min 244 q.length
  let f : TxFlit := ⟨x.txSeq.toNat, v, n, q.take n⟩
  let x := { x with kept := x.kept ++ [f], replay := x.kept.length + 1, txSeq := x.txSeq + 1,
                    starved := x.passBy v,
                    txq := sput (fun _ => ([] : List Byte)) x.txq v (q.drop n), credit := smod zeroNat x.credit v (· - 1) }
  x.emit 1 v f.seq n f.body

/-- States in which a port sends flits. -/
def PortSt.sends : PortSt → Bool
  | .init => true
  | .calibrating => true
  | .up => true
  | .sparing => true
  | _ => false

/-- One flit slot: a control flit, a replayed flit, a new DATA flit or IDLE (R299, R305, R306, R309). Control flits go
first (log 36). -/
def LinkPort.sendSlot (x : LinkPort) (dev port dt ft : Nat) : LinkPort :=
  match x.ctl with
  | c :: cs =>
    let (k, b) := c.body dev port x.lanes dt ft
    { x with ctl := cs, timeT3 := (match c with | .timeReq _ _ _ part _ => some (timePart dt part) | _ => x.timeT3) }.emit k 0 0 0 b
  | [] =>
    if x.state ≠ .up then x.emit 0 0 0 0 []
    else match x.kept[x.replay]? with
      | some f => { x with replay := x.replay + 1 }.emit 1 f.vc f.seq f.len f.body
      | none =>
        if 512 ≤ x.kept.length then x.emit 0 0 0 0 []
        else match x.choose with
          | some v => x.sendData v
          | none => x.emit 0 0 0 0 []

/-- Thousandths of a tick that a flit takes: at four lanes 2.816 ticks, at three 3.755 (R298). -/
def LinkPort.slotCost (x : LinkPort) : Nat := if x.lanes = 15 then 2816 else 3755

/-- A tick passes on a port; `dt` and `ft` are the timestamps of a flit that leaves in it (R327). -/
def LinkPort.tick (x : LinkPort) (dev port dt ft : Nat) : LinkPort :=
  if !x.state.sends then x
  else if x.slotCost ≤ x.slot + 1000 then { x with slot := x.slot + 1000 - x.slotCost }.sendSlot dev port dt ft
  else { x with slot := x.slot + 1000 }

/-! Receiving -/

/-- Credits and acknowledgement of a flit whose CRC is good (R302, R305). -/
def LinkPort.takeHdr (x : LinkPort) (h : FlHdr) : LinkPort :=
  let credit := (List.range 8).foldl (fun m v => smod zeroNat m v (· + h.cred / 8 ^ v % 8)) x.credit
  match x.kept.findIdx? fun f => f.seq = h.ack with
  | some i => { x with credit := credit, kept := x.kept.drop (i + 1), replay := x.replay - (i + 1) }
  | none => { x with credit := credit }

/-- Queue a RETRY for the expected number and count it (R306, R308). -/
def LinkPort.askRetry (x : LinkPort) (now : W64) : LinkPort :=
  { x with ctl := x.ctl ++ [.retry x.rxSeq.toNat], retryAt := some now, retry := x.retry + 1, winRetry := x.winRetry + 1 }

/-- A discarded flit or one out of sequence: RETRY at once, unless one is outstanding (R306). -/
def LinkPort.gap (x : LinkPort) (now : W64) : LinkPort :=
  if x.retryAt.isNone then x.askRetry now else x

/-- Corrected FEC symbols that came with a flit, by lane, in the window of R308. -/
def LinkPort.noteFec (x : LinkPort) (corr : List Nat) (now : W64) : LinkPort :=
  let x := if x.winAt.toNat + 2 ^ 20 ≤ now.toNat then { x with winAt := now, winRetry := 0, winCorr := [] } else x
  { x with feccorr := x.feccorr + BitVec.ofNat 32 (corr.take 4).sum,
           winCorr := (corr.take 4).zipIdx.foldl (fun m p => smod zeroNat m p.2 (· + p.1)) x.winCorr }

/-- A DATA flit is accepted in sequence (R304, R305). -/
def LinkPort.acceptData (x : LinkPort) (h : FlHdr) (f : List Byte) (now : W64) : LinkPort :=
  if h.seq ≠ x.rxSeq.toNat then x.gap now
  else
    let q := sget (fun _ => RxCh.init) x.rxq h.vc
    { x with rxSeq := x.rxSeq + 1, retryAt := none,
             rxq := sput (fun _ => RxCh.init) x.rxq h.vc ⟨q.buf ++ (f.drop 8).take h.len, q.lens ++ [h.len]⟩ }

/-! Packets (R304, R316, R317) -/

/-- The transport header (R316). -/
structure Th where
  typ : Nat
  flags : Nat
  dst : Nat
  src : Nat
  dtile : Nat
  stile : Nat
  job : Nat
  tag : W16
  pidx : Nat
  pcnt : Nat
  len : Nat
  addr : Nat
  aux : Nat
  deriving DecidableEq, Repr

/-- R316: the header of a packet. -/
def Th.ofBytes (b : List Byte) : Th :=
  { typ := fieldLe b 0 1, flags := fieldLe b 1 1, dst := fieldLe b 2 2, src := fieldLe b 4 2, dtile := fieldLe b 6 1 % 64,
    stile := fieldLe b 7 1 % 64, job := fieldLe b 8 4, tag := BitVec.ofNat 16 (fieldLe b 12 2), pidx := fieldLe b 14 2,
    pcnt := fieldLe b 16 2, len := fieldLe b 18 2, addr := fieldLe b 20 8, aux := fieldLe b 28 2 }

/-- TH_HCRC of the first 30 bytes (R316). -/
def hcrc (b : List Byte) : Nat := (crc32cUpdate 0 (b.take 30)).toNat % 65536

/-- R316: the bytes of a header. -/
def Th.bytes (h : Th) : List Byte :=
  let b := packFields 30 [(0, 1, h.typ), (1, 1, h.flags), (2, 2, h.dst), (4, 2, h.src), (6, 1, h.dtile), (7, 1, h.stile), (8, 4, h.job),
    (12, 2, h.tag.toNat), (14, 2, h.pidx), (16, 2, h.pcnt), (18, 2, h.len), (20, 8, h.addr), (28, 2, h.aux)]
  b ++ natLe 2 (hcrc b)

/-- Bytes of the packet at the front of a channel, where enough have arrived to tell: header, payload, and the trailer of a
WRITE and of a COLL data or result packet (R316 to R318, R347). -/
def packetLen (b : List Byte) : Option Nat :=
  if b.length < 33 then none
  else
    let h := Th.ofBytes b
    some (32 + h.len + (if h.typ = 1 || (h.typ = 3 && fieldLe b 32 1 < 2) then 8 else 0))

/-- The packet of a header without payload is 32 bytes; `packetLen` reads one byte past it where it can. -/
def frontLen (b : List Byte) : Option Nat :=
  if b.length = 32 && (Th.ofBytes b).len = 0 && (Th.ofBytes b).typ ≠ 1 && (Th.ofBytes b).typ ≠ 3 then some 32 else packetLen b

/-- The whole packet at the front of a channel. -/
def RxCh.front (q : RxCh) : Option (List Byte) :=
  match frontLen q.buf with
  | some n => if n ≤ q.buf.length then some (q.buf.take n) else none
  | none => none

/-- Buffered flits that taking `n` bytes empties. -/
def freed : List Nat → Nat → List Nat × Nat
  | [], _ => ([], 0)
  | l :: ls, n => if l ≤ n then (let r := freed ls (n - l); (r.1, r.2 + 1)) else ((l - n) :: ls, 0)

/-- A packet that is discarded and counted: a bad header check or a reserved type, or a reserved message kind (R316,
R317, R347, R505). -/
def packetBad (b : List Byte) : Bool :=
  let h := Th.ofBytes b
  hcrc b ≠ fieldLe b 30 2 || !([0x01, 0x02, 0x03, 0x04, 0x08, 0x09, 0x0A, 0x10].contains h.typ) ||
    (h.typ == 0x03 && 8 ≤ fieldLe b 32 1) || (h.typ == 0x10 && !(1 ≤ fieldLe b 32 1 && fieldLe b 32 1 ≤ 6)) ||
    (h.typ == 0x04 && 2 ≤ fieldLe b 32 1) || (h.typ == 0x09 && 4 ≤ h.aux)

/-- Take `n` bytes off a channel; emptied flits give their credits back (R302). -/
def LinkPort.takeBytes (x : LinkPort) (v n : Nat) : LinkPort :=
  let q := sget (fun _ => RxCh.init) x.rxq v
  let (ls, k) := freed q.lens n
  { x with rxq := sput (fun _ => RxCh.init) x.rxq v ⟨q.buf.drop n, ls⟩, owed := smod zeroNat x.owed v (· + k) }

/-- Drop bad packets from the front of a channel; the number dropped. -/
def LinkPort.clean (v : Nat) : Nat → LinkPort × Nat → LinkPort × Nat
  | 0, a => a
  | n + 1, (x, k) =>
    match (sget (fun _ => RxCh.init) x.rxq v).front with
    | some b => if packetBad b then LinkPort.clean v n (x.takeBytes v b.length, k + 1) else (x, k)
    | none => (x, k)

/-- Put a port back with its channel's bad packets dropped and counted. -/
def State.putLink (s : State) (p v : Nat) (x : LinkPort) : State :=
  let (x, k) := LinkPort.clean v ((sget (fun _ => RxCh.init) x.rxq v).buf.length + 1) (x, 0)
  { s.setLink p x with lnk := { s.lnk with hdrDrops := s.lnk.hdrDrops + BitVec.ofNat 32 k } }

/-- The packet at the front of channel `v` of port `p`. -/
def State.packet (s : State) (p v : Nat) : Option (List Byte) := (sget (fun _ => RxCh.init) (s.link p).rxq v).front

/-- Take the packet at the front of a channel. -/
def State.dropPacket (s : State) (p v : Nat) : State :=
  match s.packet p v with
  | some b => s.putLink p v ((s.link p).takeBytes v b.length)
  | none => s

/-- The number of the pseudo-port that carries a device's transfers to itself over the mesh (R315). -/
def loopPort : Nat := 24

/-- A packet goes to the channel of its class, hop class 0 or 1, of a port; over the mesh it arrives at once (R301, R315). -/
def State.sendPacket (s : State) (p cls hop : Nat) (b : List Byte) : State :=
  let v := 2 * cls + hop
  let x := s.link p
  if p = loopPort then
    let q := sget (fun _ => RxCh.init) x.rxq v
    s.putLink p v { x with rxq := sput (fun _ => RxCh.init) x.rxq v ⟨q.buf ++ b, q.lens⟩ }
  else s.setLink p { x with txq := smod (fun _ => ([] : List Byte)) x.txq v (· ++ b) }

/-! Port states (R311, R593, R594, R607) -/

/-- LNK_DEVID. -/
def State.devId (s : State) : Nat := s.reg 0x20008 % 65536

/-- Port `p` is enabled: LNK_CTRL.EN and LNK_Pn_CTRL.EN (R594). -/
def State.portOn (s : State) (p : Nat) : Bool := bitOf (s.reg 0x20000) 0 && bitOf (s.reg (0x20100 + 0x40 * p)) 0

/-- The parent port, of a device that is not the time root. -/
def State.timeParent (s : State) : Option Nat :=
  let w := s.reg 0x20010
  if bitOf w 0 || 24 ≤ bitsOf w 1 5 then none else some (bitsOf w 1 5)

/-- LNK_Pn_CTRL.MODE (R295): 0 KR, 1 CR, 2 C2M. -/
def State.portMode (s : State) (p : Nat) : Nat := bitsOf (s.reg (0x20100 + 0x40 * p)) 1 2

/-- One sixteenth of an hour in units of 2^-16 tick (R528). -/
def laserUnit : Nat := 65536 * 225 * ticksPerSec

/-- The LASER record of a cage, written at every read of 24 hours and when the port goes down (R335). -/
def State.writeLaser (s : State) (p : Nat) : State :=
  let x := s.link p
  match x.cage with
  | none => s
  | some g =>
    if !g.optical then s
    else (s.setLink p { x with cage := some { g with recAt := s.now } }).logLaser (.laser g.id.serial g.id.oui g.id.part (g.eqAcc / laserUnit) g.incomplete)

/-- What a port keeps when its link goes: counters, status events, its cage, and packets that have not been made into flits
are lost with it (R311, R320). -/
def LinkPort.cleared (x : LinkPort) (st : PortSt) (now : W64) : LinkPort :=
  { LinkPort.init with
    state := st, tlock := x.tlock, peer := x.peer, peerPort := x.peerPort, spared := x.spared, sparedAt := x.sparedAt,
    downev := x.downev || x.state == .up, downevAt := if x.state = .up then some now else x.downevAt, delay := x.delay, skew := x.skew,
    badflit := x.badflit, retry := x.retry, feccorr := x.feccorr, since := now, wasFailed := x.wasFailed, cage := x.cage, out := x.out,
    timeSeq := x.timeSeq }

/-- A port leaves its state for another that carries nothing; leaving UP sets DOWNEV and writes the laser record
(R314, R335). -/
def State.portTo (s : State) (p : Nat) (st : PortSt) : State :=
  let x := s.link p
  let s := if x.state = .up || x.state = .sparing then s.writeLaser p else s
  s.setLink p ((s.link p).cleared st s.now)

/-- A port begins bring-up from step 1, or waits DOWN while it is not enabled, its failure forgotten (R311, R594, R607). -/
def State.bringUp (s : State) (p : Nat) : State :=
  if s.portOn p then s.portTo p .training
  else
    let s := s.portTo p .down
    s.setLink p { s.link p with wasFailed := false }

/-- The LINK_STATE event (R496, R607). -/
def State.linkEvent (s : State) (p : Nat) : State := s.event 0x09 0xFF [(0, 1, p), (4, 4, s.portStatus p)] []

/-- The application that training needs is there: C2M a suitable transceiver, CR a passive assembly (R333). -/
def State.cageFits (s : State) (p : Nat) : Bool :=
  match s.portMode p, (s.link p).cage with
  | 0, _ => true
  | _, none => false
  | 1, some g => g.passive
  | _, some g => g.suitable

/-- LNK_Pn_ASYM, in 1/256 tick. -/
def State.asym (s : State) (p : Nat) : Int := sgn (s.reg (0x20110 + 0x40 * p) % 65536) 16

/-- The state of port `p` when hairspring calibration has set D and a: `delay` is D and what the lane skews and the PMA latencies
contribute to a, in 1/256 tick (R330, log 37). -/
def State.calibrated (s : State) (p : Nat) (x : LinkPort) (delay : BitVec 24 × BitVec 16) : LinkPort :=
  { x with state := .up, delay := delay.1, skew := s.asym p + delay.2.toInt, winAt := s.now, winRetry := 0, winCorr := [] }

/-- PORT_BRINGUP (R311, R330): one step of a port's bring-up ends: training with lock and alignment; the exchange of INIT;
calibration, with the delay and the skew that it measures. -/
def execPortBringup (p : Fin 24) (delay : BitVec 24 × BitVec 16) (s : State) : Host.Outcome State Fault Refusal :=
  let x := s.link p
  if !s.portOn p then .next s
  else match x.state with
    | .down => .next (s.bringUp p)
    | .training =>
      if s.portMode p ≠ 0 && x.cage.isSome && !s.cageFits p then .next (s.portTo p .unsupported)
      else occurs (s.cageFits p)
        (s.setLink p { x with state := .init, lanes := 15, initGot := false, initAt := s.now, ctl := [.init],
                              cage := x.cage.map fun g => { g with txOn := true } }) s
    | .init => occurs x.initGot (s.setLink p { x with state := .calibrating }) s
    | .calibrating =>
      let s' := s.setLink p { s.calibrated p x delay with wasFailed := false }
      let s' := if s.timeParent = some p.val then { s' with lnk := { s'.lnk with steered := false, reqAt := none } } else s'
      .next (if x.wasFailed then s'.linkEvent p else s')
    | _ => .next s

/-- 300 ms (R311). -/
def bringUpTicks : Nat := 330000000

/-- PORT_BRINGUP_TIMEOUT (R607). -/
def execPortBringupTimeout (p : Fin 24) (s : State) : Host.Outcome State Fault Refusal :=
  let x := s.link p
  let trying := x.state = .training || x.state = .init || x.state = .calibrating
  let s' := s.setLink p { (x.cleared .failed s.now) with wasFailed := true }
  occurs (trying && decide (x.since.toNat + bringUpTicks ≤ s.now.toNat)) (if x.wasFailed then s' else s'.linkEvent p) s

/-- PORT_BRINGUP_RETRY (R607). -/
def execPortBringupRetry (p : Fin 24) (s : State) : Host.Outcome State Fault Refusal :=
  let x := s.link p
  occurs (x.state == .failed && s.portOn p && decide (x.since.toNat + 2 ^ 30 ≤ s.now.toNat)) (s.bringUp p) s

/-- INIT_REPEAT (R311). -/
def execInitRepeat (p : Fin 24) (s : State) : Host.Outcome State Fault Refusal :=
  let x := s.link p
  occurs (x.state == .init && decide (x.initAt.toNat + 2 ^ 16 ≤ s.now.toNat)) (s.setLink p { x with initAt := s.now, ctl := x.ctl ++ [.init] }) s

/-! Flit commands. `bad`: the flit lies in an uncorrectable FEC codeword; `corr`: corrected symbols by lane. -/

/-- A flit reaches port `p`: discarded, or its header taken and its kind's own effect applied (R300, R302, R306). -/
def State.rxFlit (s : State) (p kind : Nat) (flit : List Byte) (bad : Bool) (corr : List Nat)
    (act : State → FlHdr → LinkPort → State) : Host.Outcome State Fault Refusal :=
  if flit.length ≠ 256 then .fault .malformed
  else
    let x := (s.link p).noteFec corr s.now
    let h := FlHdr.ofBytes flit
    if !x.state.sends then .next s
    else if bad || !flitCrcOk flit then .next (s.setLink p { x.gap s.now with badflit := x.badflit + 1 })
    else if h.bad then .next (s.setLink p { (x.takeHdr h).gap s.now with badflit := x.badflit + 1 })
    else occurs (h.kind == kind) (act s h (x.takeHdr h)) s

/-- FLIT_DATA (R305, R306). -/
def execFlitData (p : Fin 24) (flit : List Byte) (bad : Bool) (corr : List Nat) (s : State) : Host.Outcome State Fault Refusal :=
  s.rxFlit p 1 flit bad corr fun s h x => s.putLink p h.vc (x.acceptData h flit s.now)

/-- FLIT_IDLE (R302). -/
def execFlitIdle (p : Fin 24) (flit : List Byte) (bad : Bool) (corr : List Nat) (s : State) : Host.Outcome State Fault Refusal :=
  s.rxFlit p 0 flit bad corr fun s _ x => s.setLink p x

/-- Replay from a number: the next new number needs none; one outside the buffer takes the port down (R306). -/
def State.replayFrom (s : State) (p : Nat) (x : LinkPort) (n : Nat) : State :=
  match x.kept.findIdx? fun f => f.seq = n with
  | some i => s.setLink p { x with replay := i }
  | none => if n = x.txSeq.toNat then s.setLink p x else (s.setLink p x).portTo p .down

/-- FLIT_RETRY (R306). -/
def execFlitRetry (p : Fin 24) (flit : List Byte) (bad : Bool) (corr : List Nat) (s : State) : Host.Outcome State Fault Refusal :=
  s.rxFlit p 2 flit bad corr fun s _ x => s.replayFrom p x (fieldLe flit 8 2)

/-- The peer's INIT: identity, depths, and MISWIRED where it is not the expected device (R312, R313). -/
def State.takeInit (s : State) (p : Nat) (x : LinkPort) (f : List Byte) : State :=
  let dev := fieldLe f 8 2
  let x := { x with peer := BitVec.ofNat 16 dev, peerPort := BitVec.ofNat 5 (fieldLe f 10 1) }
  let wrong := dev = s.devId || (!bitOf (s.reg 0x20004) 0 && dev ≠ s.reg (0x20104 + 0x40 * p) % 65536)
  match x.state with
  | .init =>
    if wrong then s.setLink p (x.cleared .miswired s.now)
    else s.setLink p { x with initGot := true, credit := (List.range 8).foldl (fun m v => sput zeroNat m v (fieldLe f (12 + 2 * v) 2)) [] }
  | .calibrating => s.setLink p { x with ctl := x.ctl ++ [.init] }
  | _ => s.setLink p x

/-- FLIT_INIT (R312, R313). -/
def execFlitInit (p : Fin 24) (flit : List Byte) (bad : Bool) (corr : List Nat) (s : State) : Host.Outcome State Fault Refusal :=
  s.rxFlit p 3 flit bad corr fun s _ x => s.takeInit p x flit

/-- Sparing starts: DOWNEV is set as the port leaves UP, the lane is named to the peer, DATA stops, and the window that led to it is over
(R308, R309, R314). A second lane fault takes the port down (R310). -/
def State.spareLane (s : State) (p l : Nat) (answered : Bool) : State :=
  let x := s.link p
  if x.lanes ≠ 15 then s.portTo p .down
  else s.setLink p { x with state := .sparing, downev := true, downevAt := some s.now, laneOut := some l, laneAns := answered,
                            laneOwn := !answered, laneAt := s.now, ctl := x.ctl ++ [.lane l], winAt := s.now, winRetry := 0, winCorr := [] }

/-- A LANE flit names lane `l` (R309, R310, log 36): a lane in use starts sparing at an end that is UP; one that is being spared, or is
spared, was named by the end that found it, and the other end answers again. Another lane is a second fault. -/
def State.takeLane (s : State) (p : Nat) (x : LinkPort) (l : Nat) : State :=
  let again := s.setLink p { x with laneAns := true, ctl := if x.laneOwn then x.ctl else x.ctl ++ [.lane l] }
  match x.state with
  | .up => if bitOf x.lanes.toNat l then (s.setLink p x).spareLane p l true else again
  | .sparing => if x.laneOut = some l then again else (s.setLink p x).portTo p .down
  | _ => s.setLink p x

/-- FLIT_LANE (R309). -/
def execFlitLane (p : Fin 24) (flit : List Byte) (bad : Bool) (corr : List Nat) (s : State) : Host.Outcome State Fault Refusal :=
  s.rxFlit p 5 flit bad corr fun s _ x => s.takeLane p x (fieldLe flit 8 1)

/-- RETRY_REPEAT (R306): every 2D + 64 ticks. -/
def execRetryRepeat (p : Fin 24) (s : State) : Host.Outcome State Fault Refusal :=
  let x := s.link p
  match x.retryAt with
  | none => .next s
  | some t => occurs (x.state.sends && decide (t.toNat + 2 * cdiv x.delay.toNat 256 + 64 ≤ s.now.toNat)) (s.setLink p (x.askRetry s.now)) s

/-- A lane is in use: bit `l` of LANES is set, and it is not the one being spared (R309, R310). -/
def LinkPort.laneUsed (x : LinkPort) (l : Nat) : Bool := bitOf x.lanes.toNat l && x.laneOut != some l

/-- The lane to spare, if any (R308): the lane in use that lost lock, else the one with the most corrected symbols. -/
def LinkPort.laneDue (x : LinkPort) (lost : Option (Fin 4)) : Option Nat :=
  match lost with
  | some l => if x.laneUsed l then some l.val else none
  | none =>
    let used := (List.range 4).filter x.laneUsed
    let c := fun l => sget zeroNat x.winCorr l
    let worst := used.foldl (fun b l => if c b < c l then l else b) (used.headD 0)
    if 64 < x.winRetry || used.any (fun l => 65536 < c l) then some worst else none

/-- LANE_SPARE (R308 to R310): `lost` is the lane that lost signal or lock, if one did. -/
def execLaneSpare (p : Fin 24) (lost : Option (Fin 4)) (s : State) : Host.Outcome State Fault Refusal :=
  let x := s.link p
  match x.laneDue lost with
  | none => .next s
  | some l => occurs (x.state == .up || x.state == .sparing) (if x.state = .up then s.spareLane p l false else s.portTo p .down) s

/-- LANE_REPEAT (R309). -/
def execLaneRepeat (p : Fin 24) (s : State) : Host.Outcome State Fault Refusal :=
  let x := s.link p
  match x.laneOut with
  | none => .next s
  | some l =>
    occurs (x.state == .sparing && !x.laneAns && decide (x.laneAt.toNat + 64 ≤ s.now.toNat))
      (s.setLink p { x with laneAt := s.now, ctl := x.ctl ++ [.lane l] }) s

/-- LANE_SPARE_COMPLETE (R309, R314, R330): three lanes align, the delay and the skew are measured again, and RETRY resumes traffic. -/
def execLaneSpareComplete (p : Fin 24) (delay : BitVec 24 × BitVec 16) (s : State) : Host.Outcome State Fault Refusal :=
  let x := s.link p
  match x.laneOut with
  | none => .next s
  | some l =>
    let y := { s.calibrated p x delay with
      lanes := x.lanes &&& ~~~(BitVec.ofNat 4 (2 ^ l)), spared := true, sparedAt := some s.now, laneOut := none, laneAns := false }
    occurs (x.state == .sparing && x.laneAns) (s.setLink p (y.askRetry s.now)) s

/-! Fabric time (R326 to R330) -/

/-- R328: the target offset in units of 2^-16 tick, from the four timestamps in those units and the asymmetry in 1/256 tick. A half unit
is rounded by a free value (log 10). -/
def offTarget (t1 t2 t3 t4 asym : Int) (half : Nat) : Int :=
  let x := (t1 - t2) + (t4 - t3) + asym * 256
  -- t1 + d + a/2 − t2 with d = ((t2 − t1) + (t4 − t3)) / 2
  (x + (half % 2 : Nat)) / 2

/-- Device time as a timestamp: `frac` is how far into the tick the flit's first bit crosses the PMA, less its lane's skew (R327, log 37). -/
def State.devStamp (s : State) (frac : Nat) : Nat := (s.now.toNat * 65536 + frac % 65536) % 2 ^ 80

/-- Fabric time as a timestamp. -/
def State.fabStamp (s : State) (frac : Nat) : Nat := unsgn ((s.now.toNat * 65536 + frac % 65536 : Nat) + s.lnk.off) 80

/-- 2^-10 tick per tick: in units of 2^-16 tick per tick, and of 2^-32 (R328). -/
def steerMax : Nat := 64
/-- The greatest rate. -/
def rateMax : Nat := steerMax * 65536

/-- A number as a bounded integer: from −n to n. -/
def within (v n : Nat) : Int := ((v % (2 * n + 1) : Nat) : Int) - n

/-- The exchange is applied (R328, R329): the first after the port comes UP sets OFF; later ones set the target of the steering and a new
estimate of the rate, a free value within the bound of R328 (log 37). -/
def State.exchange (s : State) (p : Nat) (target : Int) : State :=
  let c := s.lnk
  let agree := if (target - c.off).natAbs ≤ 7208 then min 4 (c.agree + 1) else 0
  let s := { s with
    freeCtr := s.freeCtr + 1
    lnk := { c with off := if c.steered then c.off else target, target := target, rate := if c.steered then within (Config.freeNat s.freeCtr) rateMax else c.rate,
                    exAt := s.now, agree := agree, steered := true } }
  let x := s.link p
  s.setLink p { x with tlock := x.tlock || agree = 4 }

/-- OFF in one tick at a rate: what it is, what is left beyond whole units, and how far it moved. -/
def coast (c : LinkCommon) : LinkCommon × Int :=
  let m := (c.rate + c.frac) / 65536
  ({ c with off := c.off + m, target := c.target + m, frac := ((c.rate + c.frac) % 65536).toNat }, m)

/-- Steering in one tick (R328, R329): OFF goes on at the rate, and while the parent port is UP it also moves toward the target by a free
amount that keeps the whole movement within 2^-10 tick (log 37). The root's OFF is never adjusted (R326). -/
def State.steer (s : State) : State :=
  match s.timeParent with
  | none => s
  | some p =>
    let (c, m) := coast s.lnk
    let gap := c.target - c.off
    let room := min gap.natAbs (steerMax - m.natAbs)
    let step : Int := (Config.freeNat s.freeCtr % (room + 1) : Nat)
    if s.lnk.steered && (s.link p).state == .up then
      { s with freeCtr := s.freeCtr + 1, lnk := { c with off := if 0 ≤ gap then c.off + step else c.off - step } }
    else { s with lnk := c }

/-- LNK_TIME_CTRL has changed (R326): firmware sets the root's OFF, to a value that the spec does not give (log 37); another node keeps its
OFF until an exchange with its parent. -/
def State.timeCtrl (s : State) : State :=
  let s := { s with lnk := { s.lnk with steered := false, reqAt := none, agree := 0, rate := 0, frac := 0 },
                    links := s.links.filterMap fun (p : Nat × LinkPort) =>
                      let x := { p.2 with tlock := false, timeT3 := none }
                      if x = LinkPort.init then none else some (p.1, x) }
  if bitOf (s.reg 0x20010) 0 then
    { s with freeCtr := s.freeCtr + 1, lnk := { s.lnk with off := sgn (Config.freeNat s.freeCtr) 80 } }
  else s

/-- TIME_EXCHANGE (R327): every 2^16 ticks a node sends its parent a request; the parent's response completes the exchange. What the request
holds as t1, t2 and t4 is open; `t3` is the part of the tick in which its first bit crosses the PMA (log 37). -/
def execTimeExchange (p : Fin 24) (t1 t2 : BitVec 80) (t3 : BitVec 16) (t4 : BitVec 80) (s : State) : Host.Outcome State Fault Refusal :=
  let x := s.link p
  let n := x.timeSeq + 1
  occurs (s.timeParent == some p.val && x.state == .up && s.lnk.reqAt.all fun t => t.toNat + 2 ^ 16 ≤ s.now.toNat)
    ({ s with lnk := { s.lnk with reqAt := some s.now } }.setLink p { x with ctl := x.ctl ++ [Ctl.timeReq n t1.toNat t2.toNat t3.toNat t4.toNat], timeSeq := n, timeT3 := none }) s

/-- A TIME flit's body is kept (R327). A request is answered, with its receive time t4 in fabric time, t2 open; the response to the outstanding
request of the parent port ends the exchange, its receive time t2 in device time. -/
def State.takeTime (s : State) (p : Nat) (x : LinkPort) (b : List Byte) (frac : Nat) : State :=
  let y := { x with timeBody := b }
  let seq := BitVec.ofNat 16 (fieldLe b 2 2)
  if fieldLe b 0 2 = 0 then { s with freeCtr := s.freeCtr + 1 }.setLink p
    { y with ctl := y.ctl ++ [Ctl.timeResp seq (Config.freeNat s.freeCtr) (fieldLe b 24 10) (s.fabStamp frac)] }
  else match x.timeT3 with
    | none => s.setLink p y
    | some t3 =>
      if s.timeParent = some p && x.state = .up && seq = x.timeSeq then
        let u := { s with freeCtr := s.freeCtr + 1 }.setLink p { y with timeT3 := none }
        let t := fun k => sgn (fieldLe b k 10) 80
        u.exchange p (offTarget (t 4) (s.devStamp frac) t3 (t 34) x.skew (Config.freeNat s.freeCtr))
      else s.setLink p y

/-- FLIT_TIME (R327): `frac` is how far into the tick the flit's first bit crossed the PMA, less its lane's skew, in 2^-16 tick (log 37). -/
def execFlitTime (p : Fin 24) (flit : List Byte) (bad : Bool) (corr : List Nat) (frac : BitVec 16) (s : State) :
    Host.Outcome State Fault Refusal :=
  s.rxFlit p 4 flit bad corr fun s _ x => s.takeTime p x ((flit.drop 8).take 44) frac.toNat

/-- TIME_LOCK_TIMEOUT (R329). -/
def execTimeLockTimeout (s : State) : Host.Outcome State Fault Refusal :=
  match s.timeParent with
  | none => .next s
  | some p =>
    let x := s.link p
    occurs (x.tlock && decide (s.lnk.exAt.toNat + 2 ^ 26 ≤ s.now.toNat))
      ({ s.setLink p { x with tlock := false } with lnk := { s.lnk with agree := 0 } }) s

/-! Transceivers (R332 to R336) -/

/-- Equivalent hours in force for a serial number, in 1/16 hour (R335, R528). -/
def State.laserHours (s : State) (serial : List Byte) : Option (Nat × Bool) :=
  match s.flash.transceiver.latest fun b => match b with
    | .laser sn _ _ _ _ => sn == serial
    | _ => false with
  | some r => match r.body with
    | .laser _ _ _ h i => some (h, i)
    | _ => none
  | none => none

/-- TRANSCEIVER_INSERT (R333, R335, R607): identity, and what the module offers. -/
def execTransceiverInsert (p : Fin 24) (serial : List Byte) (oui : List Byte × List Byte) (part : List Byte × List Byte × List Byte) (optical passive suitable : Bool) (s : State) :
    Host.Outcome State Fault Refusal :=
  let x := s.link p
  let k : XId := ⟨serial, oui.2, oui.1, part.1, part.2.1, part.2.2⟩
  let h := (s.laserHours k.serial).getD (0, true)
  let g : Cage := ⟨k, optical, passive, suitable, false, h.1 * laserUnit, h.2, s.now, s.now, Monitor.init⟩
  let s' := s.setLink p { x with cage := some g }
  let s' := if !optical || (s.laserHours k.serial).isSome then s' else s'.writeLaser p
  occurs (s.up && x.cage.isNone) (if [.down, .failed, .unsupported].contains x.state && s.portOn p then s'.bringUp p else s') s

/-- TRANSCEIVER_REMOVE (R333, R335): the port goes DOWN, whatever its state, with its LASER record. -/
def execTransceiverRemove (p : Fin 24) (s : State) : Host.Outcome State Fault Refusal :=
  let st := (s.link p).state
  let s' := (if st = .up || st = .sparing then s else s.writeLaser p).portTo p .down
  occurs ((s.link p).cage.isSome) (s'.setLink p { s'.link p with cage := none }) s

/-- 24 hours in ticks (R335). -/
def laserTicks : Nat := 24 * 3600 * ticksPerSec

/-- The greatest number of 20 bits whose 100th power is at most 2^n. -/
def root100 (n : Nat) : Nat := (List.range 20).reverse.foldl (fun x b => if (x + 2 ^ b) ^ 100 ≤ 2 ^ n then x + 2 ^ b else x) 0

/-- Equivalent laser time of an interval: the factor 2^((T − 50) / 10) of R335, limited to 0.25 to 8, in units of 2^-16. Where
it is no whole number of units, a free value rounds it down or up (log 38). -/
def laserFactor (t10 : Int) (free : Nat) : Nat :=
  if t10 ≤ 300 then 16384 else if 800 ≤ t10 then 524288
  else if (t10 - 300) % 100 = 0 then 16384 * 2 ^ ((t10 - 300) / 100).toNat
  else root100 (1100 + t10.toNat) + free % 2

/-- Alarm flags among the flag bytes that R496 lists, by byte and mask: CMIS lower memory page bytes 8 to 11, then bytes 134 to 153 of page
11h: the high and low alarms of the module's monitors, of each lane's transmit power and bias, and of its receive power (log 86). -/
def alarmMasks : List (Nat × Nat) :=
  [(1, 0x33), (2, 0x33), (3, 0x33), (9, 0x0F), (10, 0x0F), (13, 0x0F), (14, 0x0F), (19, 0x0F), (20, 0x0F)]

/-- Alarm flags that are set. -/
def alarmCount (flags : List Byte) : Nat :=
  (alarmMasks.map fun p => ((List.range 8).filter fun i => bitOf p.2 i && bitOf (flags.getD p.1 0).toNat i).length).sum

/-- The module's high-temperature alarm (R334, log 86). -/
def hotFlag (flags : List Byte) : Bool := bitOf (flags.getD 1 0).toNat 0

/-- TRANSCEIVER_POLL (R334, R335): what firmware reads: module temperature in 0.1 °C, the 24 flag bytes of R496, supply voltage, and by lane
transmit bias, transmit power and receive power. Each alarm flag raises an event; a high-temperature alarm disables the transmitters
and takes the port down. -/
def execTransceiverPoll (p : Fin 24) (t10 : Int) (flags : List Byte) (volt : Nat) (lanes : List Nat × List Nat × List Nat) (s : State) :
    Host.Outcome State Fault Refusal :=
  let x := s.link p
  match x.cage with
  | none => .next s
  | some g =>
    let dt := s.now.toNat - g.pollAt.toNat
    let add := if g.optical && g.txOn then dt * laserFactor t10 (Config.freeNat s.freeCtr) else 0
    let g' := { g with eqAcc := g.eqAcc + add, pollAt := s.now, mon := ⟨t10, volt, lanes.1, lanes.2.1, lanes.2.2, flags⟩ }
    let s' := { s with freeCtr := s.freeCtr + 1 }.setLink p { x with cage := some g' }
    let s' := (List.range (alarmCount flags)).foldl (fun u _ =>
      u.event 0x0A 0xFF [(0, 1, p.val), (4, 4, leNat (flags.take 4)), (8, 20, leNat ((flags.drop 4).take 20))] []) s'
    let s' := if hotFlag flags then
        let y := s'.portTo p .down
        y.setLink p { y.link p with cage := ((y.link p).cage).map fun g => { g with txOn := false } }
      else s'
    occurs (s.up && decide (2 ^ 30 ≤ dt)) s' s

/-- LASER_RECORD_WRITE (R335). -/
def execLaserRecordWrite (p : Fin 24) (s : State) : Host.Outcome State Fault Refusal :=
  occurs (((s.link p).cage.any fun g => g.optical && decide (g.recAt.toNat + laserTicks ≤ s.now.toNat)) && s.up) (s.writeLaser p) s

end Sys2Proof.Machine
end

