-- ==== Sys2Proof/Machine/Transport.lean ====
section
/-! DEFINITION. Machine/Transport.lean: transfers end to end: paths, send and receive descriptors, the packets of remote
writes and increments and their answers (R315 to R324, R405). -/

namespace Sys2Proof.Machine

/-- T_E2E in ticks (R319, R593). -/
def State.e2e (s : State) : Nat := s.reg 0x2000C % 2 ^ 25

/-! Paths (R324) -/

/-- Ports that are UP, ascending. -/
def State.upPorts (s : State) : List Nat := (List.range 24).filter fun p => (s.link p).state == .up

/-- LNK_Pn_PEER. -/
def State.peerOf (s : State) (p : Nat) : Nat := s.reg (0x20104 + 0x40 * p) % 65536

/-- The lowest-numbered device through which a destination is reached in direct mode, as the port that leads to it. -/
def State.via (s : State) (dst path : Nat) : Option Nat :=
  (s.upPorts.filter fun p => Config.farPortUp (s.peerOf p) dst path).foldl (fun b p => match b with
    | none => some p
    | some q => if s.peerOf p < s.peerOf q then some p else b) none

/-- The port of a transfer: the mesh for the device itself; in switched mode the k-th UP port; in direct mode the port
whose peer it is, or that of a forwarding device. -/
def State.route (s : State) (dst stile tag path : Nat) : Option Nat :=
  if dst = s.devId then some loopPort
  else if bitOf (s.reg 0x20004) 0 then
    let ps := s.upPorts
    if ps.isEmpty then none else ps[(stile + tag + path) % ps.length]?
  else match s.upPorts.find? fun p => s.peerOf p = dst with
    | some p => some p
    | none => s.via dst path

/-- Send a packet on its path; without one it is discarded. -/
def State.sendOn (s : State) (cls : Nat) (h : Th) (path : Nat) (payload : List Byte) : State :=
  match s.route h.dst h.stile h.tag.toNat path with
  | some p => s.sendPacket p cls 0 (h.bytes ++ payload)
  | none => s

/-- A MGMT packet: kind, step, the job identifier in every body but REJOIN_ACK's, and the rest of the body (R505, log 48). -/
def State.sendMgmt (s : State) (job : Nat) (step : W32) (dst kind : Nat) (body : List Byte) : State :=
  let b := packFields 8 [(0, 1, kind), (4, 4, step.toNat)] ++ (if kind = 2 then [] else natLe 4 job) ++ body
  s.sendOn 3 ⟨0x10, 0, dst, s.devId, 0, 0, job, 0, 0, 1, b.length, 0, 0⟩ 0 b

/-- An answer to a packet goes back to its sender (R319 to R322). -/
def State.respond (s : State) (h : Th) (typ pidx aux : Nat) : State :=
  s.sendOn 1 { h with typ := typ, flags := 0, dst := h.src, src := s.devId, dtile := h.stile, stile := h.dtile, pidx := pidx,
                      len := 0, addr := 0, aux := aux } 0 []

/-- ACK. -/
def State.ack (s : State) (h : Th) : State := s.respond h 0x08 h.pidx 0
/-- NACK with a cause: 0 GAP, 1 BUSY, 2 NOTRES, 3 PERM. -/
def State.nack (s : State) (h : Th) (pidx cause : Nat) : State := s.respond h 0x09 pidx cause

/-- A packet for another device: in direct mode it is forwarded once, in hop class 1; without a path, or already
forwarded, it is discarded (R324). -/
def State.forward (s : State) (cls : Nat) (h : Th) (b : List Byte) : State :=
  if bitOf h.flags 0 || bitOf (s.reg 0x20004) 0 then s
  else match s.upPorts.find? fun p => s.peerOf p = h.dst with
    | some p => s.sendPacket p cls 1 ({ h with flags := h.flags + 1 }.bytes ++ b.drop 32)
    | none => s

/-- A packet of type `typ` at the front of its class's channel is taken and acted on, or forwarded. `p` is a port, or 24
for the device's own mesh; `hop` the hop class. One that `held` says must wait stays. -/
def State.recvPkt (s : State) (p : Nat) (hop : Bool) (cls typ : Nat) (sel : List Byte → Bool) (held : State → List Byte → Th → Bool)
    (act : State → List Byte → Th → State) : Host.Outcome State Fault Refusal :=
  let v := 2 * cls + b2n hop
  match s.packet p v with
  | none => .next s
  | some b =>
    let h := Th.ofBytes b
    if h.typ ≠ typ || !sel b then .next s
    else if h.dst ≠ s.devId then .next ((s.dropPacket p v).forward cls h b)
    else if held s b h then .next s
    else .next (act (s.dropPacket p v) b h)

/-! Send descriptors (R238, R319) -/

/-- A free send descriptor of a tile. -/
def State.freeSend (s : State) (t : Nat) : Option Nat := (List.range 16).find? fun i => (sfind s.lnk.send (16 * t + i)).isNone

/-- The next `n` tags of a tile may be used: none within 8 × T_E2E of its last RELEASE (R319). -/
def State.tagsOk (s : State) (t n : Nat) : Bool :=
  let g := (sget (fun _ => (0 : W16)) s.lnk.tag t).toNat
  (List.range n).all fun i => match sfind s.lnk.released (65536 * t + (g + i) % 65536) with
    | some r => decide (r - 1 + 8 * s.e2e ≤ s.now.toNat)
    | none => true

/-- The next tag of a tile may be used. -/
def State.tagOk (s : State) (t : Nat) : Bool := s.tagsOk t 1

/-- The job identifier of the resident context (R321). -/
def State.jobId (s : State) : Option Nat := s.resCtx.map fun c => c.2.rr.job

/-- A transfer takes a send descriptor and the tile's next tag. -/
def State.openSend (s : State) (t dst dtile pcnt : Nat) (cargo : Cargo) : State :=
  match s.freeSend t with
  | none => s
  | some i =>
    let g := sget (fun _ => (0 : W16)) s.lnk.tag t
    let d : SendD := ⟨g, dst, dtile, s.jobId.getD 0, pcnt, cargo, 0, 0, 0, none, s.now⟩
    { s with lnk := { s.lnk with send := sins s.lnk.send (16 * t + i) d, tag := sput (fun _ => (0 : W16)) s.lnk.tag t (g + 1) } }

/-- The send descriptor at a key. -/
def State.sendAt (s : State) (k : Nat) : Option SendD := sfind s.lnk.send k

/-- Change a send descriptor. -/
def State.setSend (s : State) (k : Nat) (d : SendD) : State := { s with lnk := { s.lnk with send := sins s.lnk.send k d } }

/-- A send descriptor is freed, and RELEASE sent where the transfer completed (R319). -/
def State.closeSend (s : State) (k : Nat) (d : SendD) (release : Bool) : State :=
  let t := k / 16
  let s := { s with lnk := { s.lnk with send := sdel s.lnk.send k } }
  if release then
    let s := { s with lnk := { s.lnk with released := sins s.lnk.released (65536 * t + d.tag.toNat) (s.now.toNat + 1) } }
    s.sendOn 1 ⟨0x0A, 0, d.dst, s.devId, d.dtile, t, d.job, d.tag, 0, d.pcnt, 0, 0, 0⟩ d.path []
  else s

/-- The send descriptor that an answer names. -/
def State.findSend (s : State) (h : Th) : Option (Nat × SendD) :=
  (((List.range 16).map (16 * h.dtile + ·)).filterMap fun k => (s.sendAt k).map fun d => (k, d)).find? fun p =>
    p.2.dst == h.src && p.2.tag == h.tag && p.2.dtile == h.stile

/-- An sgo to the links starts: the stream holds a send descriptor until it completes (R238, R315). The destination tile is
the owner of an address in tile SRAM, else the sender's own index. -/
def State.startLink (s : State) (t c : Nat) (d : SDesc) (td : TDesc) : State :=
  let dst := d.base / 2 ^ 48
  let d := { d with base := d.base % 2 ^ 48 }
  let a := d.base
  let dtile := if sramBase ≤ a && a < sramAt 64 then (a - sramBase) / sramSize else t
  (s.startOut t c d td none).openSend t dst dtile d.n (.stream c)

/-- The trailer of a granule (R318). -/
def trailer (cv : Nat) (cvv poison : Bool) : List Byte := natLe 4 cv ++ natLe 4 (b2n cvv + 2 * b2n poison)

/-- The header of packet `next` of a transfer. -/
def State.sendHdr (s : State) (t : Nat) (d : SendD) (typ len addr aux : Nat) : Th :=
  ⟨typ, 0, d.dst, s.devId, d.dtile, t, d.job, d.tag, d.next, d.pcnt, len, addr, aux⟩

/-- The WRITE packet of a stream's granule, with its check value in the destination's form and its mark, and the state where the granule's tag
is found not to fit (R318, R403 to R405). -/
def State.writePacket (s : State) (t : Nat) (d : SendD) (o : Outb) : List Byte × State :=
  let near := o.sd.nearAt t d.next
  let b := rdBytes s.mem near 4096
  let a := o.sd.addr d.next
  let k := o.keyOf s.step a
  let bad := s.tagFails o.sd.kind near
  let cv := if o.sd.kind = 0 then 0 else if sramBase ≤ a then (bareCv b).toNat else (keyedCv (bareCv b) k.1 k.2.1 k.2.2).toNat
  ((s.sendHdr t d 0x01 4096 a o.sd.sig).bytes ++ b ++ trailer cv (o.sd.kind ≠ 0) (s.pois (near / 4096) || bad), if bad then s.checkFail near k else s)

/-! Receive descriptors (R321, R322) -/

/-- The receive descriptor of a packet's transfer at its destination tile. -/
def State.findRecv (s : State) (h : Th) : Option (Nat × RecvD) :=
  (((List.range 16).map (16 * h.dtile + ·)).filterMap fun k => (sfind s.lnk.recv k).map fun d => (k, d)).find? fun p =>
    p.2.src == h.src && p.2.stile == h.stile && p.2.tag == h.tag

/-- Change a receive descriptor. -/
def State.setRecv (s : State) (k : Nat) (d : RecvD) : State := { s with lnk := { s.lnk with recv := sins s.lnk.recv k d } }

/-- Free a receive descriptor. -/
def State.freeRecv (s : State) (k : Nat) : State := { s with lnk := { s.lnk with recv := sdel s.lnk.recv k } }

/-- A free receive descriptor of a tile. -/
def State.roomRecv (s : State) (t : Nat) : Option Nat := (List.range 16).find? fun i => (sfind s.lnk.recv (16 * t + i)).isNone

/-- A granule may be written from a link: permission bit LIN (R227, R321). -/
def State.linOk (s : State) (a : Nat) : Bool :=
  match s.resCtx with
  | some (_, c) => bitOf (permOf c.regs a) 2
  | none => false

/-- The stop at which a packet from port `p` enters the mesh: the port's, or its sender's own (R19). -/
def State.entryStop (s : State) (p : Nat) (h : Th) : Nat := if p < 24 then portStop p else s.stopOf h.stile

/-- A write from a link into a granule that waits for a fill, or that a spill has still to read, or of a tile that moves or whose tick is gated,
is held (R30, R179, R226, R248). -/
def State.farWriteHeld (s : State) (stop a : Nat) : Bool :=
  sramBase ≤ a && a < sramAt 64 && (!s.clk.enabled || s.farBlocked stop a)

/-- A granule arrives with its trailer: HBM takes the check value and the mark, SRAM the mark and, with CVV, the check value as its tag (R318,
R400, R402). -/
def State.landGranule (s : State) (a : Nat) (b : List Byte) (tr : Nat) : State :=
  let pz := bitOf tr 33
  if a < hbmEnd then
    { s with hbm := s.hbm.writeGran (a / 4096) b (if bitOf tr 32 then some (BitVec.ofNat 32 (tr % 2 ^ 32)) else none) pz }
  else (((s.setMem (wrBytes s.mem (a / 4096 * 4096) b)).markWrite [(a / 4096 * 4096, 4096)] pz).setTag (a / 4096))
    (if bitOf tr 32 then BitVec.ofNat 32 (tr % 2 ^ 32) ^^^ bareCv b else 0)

/-- The effect of a packet at its expected index: a WRITE's granule, an INC's increment (R317, R321). -/
def State.landPacket (s : State) (stop : Nat) (b : List Byte) (h : Th) : State :=
  if h.typ = 0x01 then s.landGranule h.addr ((b.drop 32).take 4096) (fieldLe b 4128 8)
  else s.incFrom stop h.dtile (h.aux % 256) (h.addr % 2 ^ 32)

/-- A packet meets the descriptor of its transfer (R321 3 and 4, R322). -/
def State.meetRecv (s : State) (stop k : Nat) (d : RecvD) (b : List Byte) (h : Th) : State :=
  let d := { d with pktAt := s.now }
  if d.completed then (s.setRecv k { d with ackAt := s.now }).ack h
  else if h.typ = 0x01 && !s.linOk h.addr then (s.freeRecv k).nack h h.pidx 3
  else if h.pidx = d.expected then (s.landPacket stop b h).setRecv k { d with expected := d.expected + 1 }
  else if h.pidx < d.expected then s.setRecv k d
  else if d.gapAt.any fun g => s.now.toNat < g.toNat + s.e2e / 16 then s.setRecv k d
  else (s.setRecv k { d with gapAt := some s.now }).nack h d.expected 0

/-- The receiver's rules for a WRITE or INC packet that enters the mesh at a stop (R321). -/
def State.recvData (s : State) (stop : Nat) (b : List Byte) (h : Th) : State :=
  if s.jobId ≠ some h.job then
    (match s.findRecv h with | some (k, _) => s.freeRecv k | none => s).nack h h.pidx 2
  else match s.findRecv h with
    | some (k, d) => s.meetRecv stop k d b h
    | none =>
      if h.pidx ≠ 0 then s.nack h 0 0
      else match s.roomRecv h.dtile with
        | none => s.nack h 0 1
        | some i => s.meetRecv stop (16 * h.dtile + i) ⟨h.src, h.stile, h.tag, h.job, h.pcnt, 0, h.aux % 256, h.typ == 0x01, false, s.now, s.now, none⟩ b h

/-- WRITE (R321). A write to a granule that a fill or a spill holds waits (R226). -/
def execWrite (p : Fin 25) (hop : Bool) (s : State) : Host.Outcome State Fault Refusal :=
  s.recvPkt p hop 0 0x01 (fun _ => true) (fun s _ h => s.farWriteHeld (s.entryStop p h) (h.addr / 4096 * 4096)) fun s b h => s.recvData (s.entryStop p h) b h

/-- INC (R317, R321). -/
def execInc (p : Fin 25) (hop : Bool) (s : State) : Host.Outcome State Fault Refusal :=
  s.recvPkt p hop 2 0x02 (fun _ => true) (fun _ _ _ => false) fun s b h => s.recvData (s.entryStop p h) b h

/-- TRANSFER_RECEIVE_COMPLETE (R322) of a tile's receive descriptor: every packet is written. An INC's object has taken its
increment already. -/
def execTransferReceiveComplete (t : Fin 64) (i : Fin 16) (s : State) : Host.Outcome State Fault Refusal :=
  let k := 16 * t.val + i.val
  match sfind s.lnk.recv k with
  | none => .next s
  | some d =>
    let s' := s.setRecv k { d with completed := true, ackAt := s.now }
    let s' := s'.signal t d.counts d.obj
    occurs (!d.completed && d.expected == d.pcnt) (s'.ack ⟨0x08, 0, s.devId, d.src, t, d.stile, d.job, d.tag, d.pcnt - 1, d.pcnt, 0, 0, 0⟩) s

/-- DESCRIPTOR_IDLE_FREE (R322): 8 × T_E2E after the last ACK or the last packet. -/
def execDescriptorIdleFree (t : Fin 64) (i : Fin 16) (s : State) : Host.Outcome State Fault Refusal :=
  let k := 16 * t.val + i.val
  match sfind s.lnk.recv k with
  | none => .next s
  | some d =>
    let last := if d.completed then min d.ackAt.toNat d.pktAt.toNat else d.pktAt.toNat
    occurs (decide (last + 8 * s.e2e ≤ s.now.toNat)) (s.freeRecv k) s

/-- RELEASE (R322). -/
def execRelease (p : Fin 25) (hop : Bool) (s : State) : Host.Outcome State Fault Refusal :=
  s.recvPkt p hop 1 0x0A (fun _ => true) (fun _ _ _ => false) fun s _ h =>
    match s.findRecv h with
    | some (k, _) => s.freeRecv k
    | none => s

/-! The sender's answers (R319) -/

/-- ACK: a stream completes and adds one to its object; RELEASE is sent and the descriptor freed. -/
def State.takeAck (s : State) (h : Th) : State :=
  match s.findSend h with
  | none => s
  | some (k, d) =>
    let s := s.closeSend k d true
    match d.cargo with
    | .stream c =>
      let x := s.tile (k / 16)
      match sfind x.outb c with
      | some o => (s.setTile (k / 16) { x with outb := sdel x.outb c }).signal (k / 16) true o.sd.sig
      | none => s
    | .copy _ =>
      if s.lnk.send.any fun p => p.2.dst == d.dst && (match p.2.cargo with | .copy _ => true | _ => false) then s
      else s.sendMgmt d.job s.step d.dst 4 (natLe 4 0)
    | _ => s

/-- ACK (R319). A restore's last copy is followed by RESTORE_DONE (R413, log 48). -/
def execAck (p : Fin 25) (hop : Bool) (s : State) : Host.Outcome State Fault Refusal :=
  s.recvPkt p hop 1 0x08 (fun _ => true) (fun _ _ _ => false) fun s _ h => s.takeAck h

/-- A NACK of one cause is taken. -/
def State.recvNack (s : State) (p : Nat) (hop : Bool) (cause : Nat) (act : State → Th → Nat → SendD → State) :
    Host.Outcome State Fault Refusal :=
  s.recvPkt p hop 1 0x09 (fun b => fieldLe b 28 2 == cause) (fun _ _ _ => false) fun s _ h =>
    match s.findSend h with
    | some (k, d) => act s h k { d with timeouts := 0 }
    | none => s

/-- NACK_GAP (R319): resend from the expected index. -/
def execNackGap (p : Fin 25) (hop : Bool) (s : State) : Host.Outcome State Fault Refusal :=
  s.recvNack p hop 0 fun s h k d => s.setSend k { d with next := min h.pidx d.pcnt }

/-- NACK_BUSY (R319): wait T_E2E / 16. -/
def execNackBusy (p : Fin 25) (hop : Bool) (s : State) : Host.Outcome State Fault Refusal :=
  s.recvNack p hop 1 fun s _ k d => s.setSend k { d with backoff := some (s.now + BitVec.ofNat 64 (s.e2e / 16)) }

/-- NACK_NOTRES (R319): wait T_E2E. -/
def execNackNotres (p : Fin 25) (hop : Bool) (s : State) : Host.Outcome State Fault Refusal :=
  s.recvNack p hop 2 fun s _ k d => s.setSend k { d with backoff := some (s.now + BitVec.ofNat 64 s.e2e) }

/-- The far-side address of the packet that was refused. -/
def State.refusedAddr (s : State) (k : Nat) (d : SendD) (pidx : Nat) : Nat :=
  match d.cargo with
  | .stream c => (match sfind (s.tile (k / 16)).outb c with | some o => o.sd.addr pidx | none => 0)
  | _ => 0

/-- NACK_PERM (R319): the transfer is abandoned, with a job fault REGION_VIOLATION. -/
def execNackPerm (p : Fin 25) (hop : Bool) (s : State) : Host.Outcome State Fault Refusal :=
  s.recvNack p hop 3 fun s h k d =>
    let src := match d.cargo with | .stream _ => 1 | _ => 2
    (s.closeSend k d false).jobFault (JF.region src (s.refusedAddr k d h.pidx)) (some (k / 16))

/-- BACKOFF_EXPIRY (R319): the wait after NACK BUSY or NOTRES ends, and packet 0 is sent again (log 35). -/
def execBackoffExpiry (t : Fin 64) (i : Fin 16) (s : State) : Host.Outcome State Fault Refusal :=
  let k := 16 * t.val + i.val
  match s.sendAt k with
  | none => .next s
  | some d => match d.backoff with
    | none => .next s
    | some w => occurs (decide (w ≤ s.now)) (s.setSend k { d with backoff := none, next := 0, sentAt := s.now }) s

end Sys2Proof.Machine
end

