-- ==== Sys2Proof/Machine/Save.lean ====
section
/-! DEFINITION. Machine/Save.lean: reads under a key, and the saved image of a tile: saving it to the switch save area or
the rollback area and restoring it (R244, R264, R364, R403, R404, R456 to R458). Log 13 says what the spec leaves open of
the image; log 40 how a context first starts. -/

namespace Sys2Proof.Machine

/-! Granules under keys (R399 to R404) -/

/-- A granule read under a key: its bytes, its mark, and what the check counts and reports (R403, R404). One in SRAM is checked against its
tag. -/
def State.readKeyed (s : State) (a : Nat) (k : W32 × W32 × W32) : List Byte × Bool × State :=
  let b := rdBytes s.mem a 4096
  let g := s.hbm.gran (a / 4096)
  if g.poison then (b, true, s)
  else if hbmEnd ≤ a then (if s.tagFails 1 a then (b, true, s.checkFail a k) else (b, false, s))
  else if !g.cvv then (b, false, { s with cvUnchecked := s.cvUnchecked + 1 })
  else if keyedCv (bareCv b) k.1 k.2.1 k.2.2 = g.cv then (b, false, s)
  else (b, true, s.checkFail a k)

/-- A granule written under a key; in SRAM only the bytes and the mark (R400, R402). -/
def State.writeKeyed (s : State) (a : Nat) (b : List Byte) (pz : Bool) (k : W32 × W32 × W32) : State :=
  if a < hbmEnd then { s with hbm := s.hbm.writeGran (a / 4096) b (some (keyedCv (bareCv b) k.1 k.2.1 k.2.2)) pz }
  else (s.setMem (wrBytes s.mem a b)).markWrite [(a, 4096)] pz

/-! The image (R456) -/

/-- Bytes of a tile's image. -/
def imageSize : Nat := 98304

/-- A byte string brought to `n` bytes with zeros. -/
def padTo (n : Nat) (l : List Byte) : List Byte := (l ++ List.replicate n 0).take n

/-- The number that stands for a tile's run state in its image. -/
def Run.code : Run → Nat
  | .off => 0
  | .on => 1
  | .halted => 2
  | .stopped => 3

/-- A stream context in the image: descriptor copies, demand count, walk position, running (R244). -/
def Inb.saved (i : Inb) : List Byte := padTo 192 (padTo 128 i.raw ++ natLe 8 i.demand ++ natLe 8 i.written ++ [1])

/-- A barrel lane in the image (R171). -/
def Lane.saved (l : Lane) : List Byte := padTo 64 l.rec_ ++ natLe 8 l.pushed ++ natLe 4 l.depth ++ natLe 4 l.pushes

/-- Index registers, loop levels, BPHASE, CVST and poison bits in the image. -/
def Tile.miscSaved (x : Tile) : List Byte :=
  padTo 256 ((List.range 16).flatMap (fun k => natLe 4 (sget zero32 x.x k).toNat) ++ (List.range 4).flatMap (fun n => natLe 4 (x.level n).count) ++
    natLe 1 ((List.range 4).map fun n => b2n (x.level n).active * 2 ^ n).sum ++ natLe 3 (b2n x.bphase) ++ natLe 4 x.cvst.toNat ++
    natLe 4 x.vpois.toNat ++ natLe 1 x.kpois.toNat ++ natLe 3 x.run.code ++ natLe 4 x.pps ++
    (List.range 4).flatMap fun n => natLe 2 (x.level n).start)

/-- The 98,304-byte image of a tile (R456), with copies of its segment record and program load record (R264). -/
def Tile.image (x : Tile) (seg load : List Byte) : List Byte :=
  padTo imageSize ((List.range 32).flatMap (fun r => (x.lanesOf r).flatMap fun w => natLe 4 w.toNat) ++
    (List.range 8).flatMap (fun k => natLe 64 (x.mask k).toNat) ++
    (List.range 256).flatMap (fun o => natLe 4 (sget zero32 x.sync o).toNat) ++
    (List.range 32).flatMap (fun c => match sfind x.inb c with
      | some i => i.saved
      | none => List.replicate 192 0) ++
    (List.range 64).flatMap (fun l => (x.laneOf l).saved) ++ x.miscSaved ++
    (List.range 5).flatMap (fun l => natLe 8 (x.lane l).sum.toNat ++ natLe 8 (x.lane l).cnt.toNat) ++
    padTo 32 seg ++ padTo 32 load)

/-- Words of 4 bytes at an offset, as a table. -/
def wordsAt (b : List Byte) (off n : Nat) : SMap W32 :=
  (List.range n).foldl (fun m i => sput zero32 m i (BitVec.ofNat 32 (fieldLe b (off + 4 * i) 4))) []

/-- A stream context of an image, where one runs. -/
def inbOf (b : List Byte) : Option Inb :=
  if fieldLe b 144 1 = 0 then none
  else
    let sd := SDesc.ofBytes (b.take 64)
    some { raw := b.take 128, sd := sd, td := if sd.tdesc = 0 then TDesc.absent else TDesc.ofBytes ((b.drop 64).take 64), use := .stream,
           demand := fieldLe b 128 8, next := fieldLe b 136 8, written := fieldLe b 136 8, fl := [], dropped := [] }

/-- Stream contexts of an image. -/
def inbsOf (b : List Byte) : SMap Inb :=
  (List.range 32).filterMap fun c => (inbOf ((b.drop (67072 + 192 * c)).take 192)).map fun i => (c, i)

/-- A barrel lane of an image. -/
def laneOfBytes (b : List Byte) : Lane :=
  let n := fieldLe b 0 64
  ⟨if n = 0 then [] else b.take 64, fieldLe b 64 8, fieldLe b 72 4, fieldLe b 76 4, []⟩

/-- Planes and accumulators after a restore hold free values (R458, log 10). -/
def Arr.restored (junk : Nat) : Arr :=
  { Arr.init with active := { Plane.init with junk := junk }, shadow := { Plane.init with junk := junk + 2 ^ 20 }, junk := junk + 2 ^ 21 }

/-- Architectural state from an image (R456). -/
def Tile.ofImage (b : List Byte) (junk : Nat) : Tile :=
  let m := 78336
  let act := fieldLe b (m + 80) 1
  let halted := fieldLe b (m + 93) 1 = 2
  let seg := (b.drop 78672).take 32
  { Tile.init with
    run := if halted then .halted else .on, pc := fieldLe seg 12 4, x := wordsAt b m 16,
    lv := (List.range 4).foldl (fun t n => sput (fun _ => (⟨0, 0, false⟩ : Level)) t n
      ⟨fieldLe b (m + 64 + 4 * n) 4, fieldLe b (m + 100 + 2 * n) 2, bitOf act n⟩) [],
    bphase := fieldLe b (m + 81) 1 = 1, cvst := BitVec.ofNat 32 (fieldLe b (m + 84) 4), sync := wordsAt b 66048 256,
    vreg := (List.range 32).foldl (fun t r => sput (fun _ => ([] : SMap W32)) t r (wordsAt b (2048 * r) 512)) [],
    kreg := (List.range 7).foldl (fun t k => sput (fun _ => (0 : BitVec 512)) t (k + 1) (BitVec.ofNat 512 (fieldLe b (65600 + 64 * k) 64))) [],
    vpois := BitVec.ofNat 32 (fieldLe b (m + 88) 4), kpois := BitVec.ofNat 8 (fieldLe b (m + 92) 1), inb := inbsOf b,
    lanes := (List.range 64).foldl (fun t l => sput (fun _ => Lane.init) t l (laneOfBytes ((b.drop (73216 + 80 * l)).take 80))) [],
    dl := (List.range 5).foldl (fun t l => sput (fun _ => (⟨0, 0⟩ : DLane)) t l
      ⟨BitVec.ofNat 64 (fieldLe b (78592 + 16 * l) 8), BitVec.ofNat 32 (fieldLe b (78600 + 16 * l) 4)⟩) [],
    f := Arr.restored junk, b0 := Arr.restored (junk + 2 ^ 22), b1 := Arr.restored (junk + 2 ^ 23),
    seg := Seg.ofBytes seg, pps := fieldLe b (m + 96) 4, saveSeg := seg, saveLoad := (b.drop 78704).take 32 }

/-! Live ranges (R457) -/

/-- The live-range list of a segment record, as it stands in the tile's SRAM. -/
def State.liveOf (s : State) (t : Nat) (g : Seg) : List (Nat × Nat) :=
  (List.range g.liven).map fun i =>
    let a := sramAt t + g.live + 8 * i
    (rdLe s.mem a 4, rdLe s.mem (a + 4) 4)

/-- Two ranges overlap. -/
def rangesMeet (p q : Nat × Nat) : Bool := p.1 < q.1 + q.2 && q.1 < p.1 + p.2

/-- A list that fails R457: alignment, overlap, size, or the end of SRAM. -/
def liveBad (maxlive : Nat) (l : List (Nat × Nat)) : Bool :=
  l.any (fun p => p.1 % 4096 ≠ 0 || p.2 % 4096 ≠ 0 || sramSize < p.1 + p.2) || !decide (l.Pairwise fun p q => rangesMeet p q = false) ||
    maxlive < (l.map Prod.snd).sum

/-! Areas -/

/-- Bytes of one tile's place in a save area. -/
def Ctx.stride (c : Ctx) : Nat := imageSize + c.rr.maxlive

/-- Device address of a tile's place in the switch save area, or in the rollback area. -/
def Ctx.placeOf (c : Ctx) (rb : Bool) (t : Nat) : Nat :=
  (if rb then c.rr.rollback else c.rr.save) + (c.tiles.filter (· < t)).length * c.stride

/-- The key of a granule of an area (R457). -/
def Ctx.areaKey (c : Ctx) (n : Nat) (rb : Bool) (ver : W32) (a : Nat) : W32 × W32 × W32 :=
  let base := if rb then c.rr.rollback else c.rr.save
  (BitVec.ofNat 32 ((if rb then 0x7FFFFFF8 else 0x7FFFFFF0) + n), BitVec.ofNat 32 ((a - base) / 4096), ver)

/-- A granule on its way to an area: its bytes, its mark, and its address in SRAM where its tag does not fit (R403, R404). -/
abbrev AreaGran := List Byte × Bool × Option Nat

/-- Write granules to an area in order, each with its mark. -/
def State.putArea (s : State) (n : Nat) (c : Ctx) (rb : Bool) (ver : W32) (a : Nat) : List AreaGran → State
  | [] => s
  | g :: gs =>
    let k := c.areaKey n rb ver a
    let s := match g.2.2 with
      | some b => s.checkFail b k
      | none => s
    (s.writeKeyed a g.1 (g.2.1 || g.2.2.isSome) k).putArea n c rb ver (a + 4096) gs

/-- The granules of a live range. -/
def State.liveGrans (s : State) (t : Nat) (p : Nat × Nat) : List AreaGran :=
  (List.range (p.2 / 4096)).map fun i =>
    let a := sramAt t + p.1 + 4096 * i
    (rdBytes s.mem a 4096, s.pois (a / 4096), if s.tagFails 1 a then some a else none)

/-- Save a tile of the resident context: its image, then its live ranges; a halted tile has no segment record (R280). -/
def State.saveTile (s : State) (n : Nat) (c : Ctx) (rb : Bool) (ver : W32) (t : Nat) : State × SavedTile :=
  let x := s.tile t
  let halted := x.run = .halted
  let img := x.image (if halted then [] else x.saveSeg) (if halted then [] else x.saveLoad)
  let live := if halted then [] else s.liveOf t (Seg.ofBytes x.saveSeg)
  let gs := ((List.range (imageSize / 4096)).map fun i => ((img.drop (4096 * i)).take 4096, false, none)) ++ live.flatMap (s.liveGrans t)
  (s.putArea n c rb ver (c.placeOf rb t) gs, ⟨ver, live⟩)

/-- Read granules of an area in order, checked. -/
def State.getArea (s : State) (n : Nat) (c : Ctx) (rb : Bool) (ver : W32) (a : Nat) : Nat → List (List Byte × Bool) × State
  | 0 => ([], s)
  | k + 1 =>
    let r := s.readKeyed a (c.areaKey n rb ver a)
    let q := State.getArea r.2.2 n c rb ver (a + 4096) k
    ((r.1, r.2.1) :: q.1, q.2)

/-- A tile's SRAM and tags go (R419); what is not then written counts as memory that nothing has written (R458, log 4). -/
def State.clearSramBut (s : State) (t : Nat) (live : List (Nat × Nat)) : State :=
  let out := fun a => decide (a < sramAt t) || decide (sramAt t + sramSize ≤ a) ||
    live.any fun p => decide (sramAt t + p.1 ≤ a) && decide (a < sramAt t + p.1 + p.2)
  { s with hbm := { s.hbm with mem := s.hbm.mem.filter (fun p => out p.1), tab := s.hbm.tab.filter (fun p => out (p.1 * 4096)) } }

/-- The same with no range that stays. -/
def State.clearSram (s : State) (t : Nat) : State := s.clearSramBut t []

/-- Put granules into a tile's live ranges. -/
def State.putLive (s : State) (t : Nat) : List (Nat × Nat) → List (List Byte × Bool) → State
  | [], _ => s
  | p :: ps, gs =>
    let k := p.2 / 4096
    let s := ((gs.take k).zipIdx).foldl (fun s g =>
      let a := sramAt t + p.1 + 4096 * g.2
      (s.setMem (wrBytes s.mem a g.1.1)).markWrite [(a, 4096)] g.1.2) s
    s.putLive t ps (gs.drop k)

/-- The granules being spilled go on being held (R179): frames in spill are complete when a tile is saved, so none is. A
tile's stream contexts, its lanes and its registers come back; its buffer is loaded before it issues (R264). -/
def State.restoreTile (s : State) (n : Nat) (c : Ctx) (rb : Bool) (t : Nat) (v : SavedTile) : State :=
  let k := imageSize / 4096
  let place := c.placeOf rb t
  let (img, s) := s.getArea n c rb v.ver place k
  let (gs, s) := s.getArea n c rb v.ver (place + imageSize) ((v.live.map fun p => p.2 / 4096).sum)
  let b := img.flatMap Prod.fst
  let x := Tile.ofImage b (s.freeCtr + 1)
  let bad := img.any Prod.snd
  let x := if bad then { x with vpois := BitVec.allOnes 32, kpois := BitVec.allOnes 8 } else x
  let s := ((s.spend (2 ^ 24)).clearSram t).putLive t v.live gs
  let s := s.setTile t (x.keepOut (s.tile t))
  if x.run = .halted then s else s.startLoad t 32 { LoadRec.ofBytes x.saveLoad with on := false }

/-! The first start (R444, log 40) -/

/-- A segment record that breaks R263 (R604). -/
def segBad (g : Seg) : Bool := g.rsv ≠ 0 || g.load = 0 || 8191 < g.resume

/-- What a tile starts with: its segment record, its program load record, and the ranges that its live-range list names,
each at its offset from CR_START; an illegal one is a job fault. -/
def State.startOf (s : State) (c : Ctx) (t : Nat) : Except JF (List Byte × List Byte × List (Nat × Nat)) := do
  let a := c.rr.start + 32 * t
  let seg := rdBytes s.mem a 32
  let g := Seg.ofBytes seg
  let la := c.rr.start + g.load
  let load := rdBytes s.mem la 32
  if segBad g then .error (JF.illegal 0 a)
  else if (LoadRec.ofBytes load).bad then .error (JF.illegal 0 la)
  else
    let ll := c.rr.start + g.live
    let live := (List.range g.liven).map fun i => (rdLe s.mem (ll + 8 * i) 4, rdLe s.mem (ll + 8 * i + 4) 4)
    if liveBad c.rr.maxlive live then .error (JF.illegal 0 ll) else .ok (seg, load, live)

/-- A tile starts: registers zero, the live ranges from its place in the save area under version 0, its buffer loaded from
its start-table entry. -/
def State.firstStart (s : State) (n : Nat) (c : Ctx) (t : Nat) : Except JF State := do
  let (seg, load, live) ← s.startOf c t
  let (gs, s) := s.getArea n c false 0 (c.placeOf false t + imageSize) ((live.map fun p => p.2 / 4096).sum)
  let g := Seg.ofBytes seg
  let x := { Tile.init with run := .on, pc := g.resume, seg := g, saveSeg := seg, saveLoad := load }
  let s := (s.clearSram t).putLive t live gs
  .ok ((s.setTile t (x.keepOut (s.tile t))).startLoad t 32 { LoadRec.ofBytes load with on := false })

/-! When a tile can be saved (R244, R263) -/

/-- Array instructions, vupd and sadv of a tile have completed. -/
def Tile.enginesIdle (x : Tile) : Bool :=
  x.vupd.isNone && x.sadv.isNone && (List.range 3).all fun i => (x.arr i).q.isEmpty && (x.arr i).loads.isEmpty

/-- Every demanded granule is delivered, every outbound stream, load, fill and spill is complete, and every vector write has
landed (R171, R244). -/
def Tile.streamsIdle (x : Tile) : Bool :=
  x.outb.isEmpty && x.vwr.isEmpty && x.sk.isEmpty && (x.inb.all fun p => match p.2.use with
    | .stream => decide (p.2.demand ≤ p.2.written) && decide (p.2.written < p.2.sd.n)
    | _ => false) && (x.lanes.all fun p => p.2.owed.isEmpty)

/-- Discard run-ahead, which is counted (R244, R251). -/
def State.dropAhead (s : State) (t : Nat) : State :=
  let s := (s.tile t).inb.foldl (fun s p => s.ctr t p.1 6 (p.2.fl.filter fun f => f.runAhead && decide (p.2.demand ≤ f.j)).length) s
  let x := s.tile t
  let s := s.setTile t { x with inb := x.inb.map fun p => (p.1, { p.2 with fl := [], next := p.2.written, dropped := [] }) }
  { s with hbm := s.forget fun q => q == t }

/-- No fill of a barrel frame is still to be made. -/
def State.noFills (s : State) (t : Nat) : Bool :=
  (List.range 64).all fun l =>
    let ln := (s.tile t).laneOf l
    (List.range ln.depth).all fun k => ln.frState s.mem k ≠ 3

/-- A tile can be saved now. -/
def State.canSave (s : State) (t : Nat) : Bool :=
  (s.tile t).enginesIdle && (s.tile t).streamsIdle && s.noFills t && !s.metaQ.any fun o => ownerOf o.addr == t

/-- Save the active tiles of the resident context into an area, one version for them all. -/
def State.saveAll (s : State) (n : Nat) (rb : Bool) (ver : W32) (ts : List Nat) : State :=
  match sfind s.ctxs n with
  | none => s
  | some c =>
    let (s, m) := ts.foldl (fun (acc : State × SMap SavedTile) t =>
      let (s, v) := (acc.1.dropAhead t).saveTile n c rb ver t
      (s, sins acc.2 t v)) (s, if rb then c.rb else c.saved)
    match sfind s.ctxs n with
    | none => s
    | some c => s.setCtx n (if rb then { c with rb := m, rbSaves := ver } else { c with saved := m, saves := ver })

/-- Restore tiles from an area. -/
def State.restoreAll (s : State) (n : Nat) (rb : Bool) (ts : List Nat) : State :=
  match sfind s.ctxs n with
  | none => s
  | some c => ts.foldl (fun s t => match sfind (if rb then c.rb else c.saved) t with
      | some v => s.restoreTile n c rb t v
      | none => s) s

end Sys2Proof.Machine
end

