-- ==== Sys2Proof/Machine/CollBase.lean ====
section
/-! DEFINITION. Machine/CollBase.lean: group tables, collective descriptors and the signal tree (R338 to R342). -/

namespace Sys2Proof.Machine

/-- A collective descriptor (R342); `rsv` is the reserved flag. -/
structure CDesc where
  op : Nat
  fp32 : Bool
  policy : Nat
  step : Bool
  grad : Bool
  wform : Nat
  rsv : Bool
  group : Nat
  tile : Nat
  trig : Nat
  done : Nat
  trigN : Nat
  count : Nat
  root : Nat
  srcd : Nat
  dstd : Nat
  stat : Nat
  gamma : Nat
  stage : Nat
  srce : Nat
  dste : Nat
  dline : Nat
  dstride : Nat
  deriving DecidableEq, Repr

/-- R342: a descriptor from its 64 bytes. -/
def CDesc.ofBytes (b : List Byte) : CDesc :=
  let f := fieldLe b 1 1
  { op := fieldLe b 0 1, fp32 := bitOf f 0, policy := bitsOf f 1 2, step := bitOf f 3, grad := bitOf f 4, wform := bitsOf f 5 2,
    rsv := bitOf f 7, group := fieldLe b 2 1, tile := fieldLe b 3 1, trig := fieldLe b 4 1, done := fieldLe b 5 1,
    trigN := fieldLe b 6 2, count := fieldLe b 8 4, root := fieldLe b 12 4, srcd := fieldLe b 16 4, dstd := fieldLe b 20 4,
    stat := fieldLe b 24 4, gamma := fieldLe b 28 4, stage := fieldLe b 32 8, srce := fieldLe b 40 8, dste := fieldLe b 48 8,
    dline := fieldLe b 56 4, dstride := fieldLe b 60 4 }

/-- Descriptor `i` of a context's collective table, as bytes. -/
def State.cdRaw (s : State) (c : Ctx) (i : Nat) : List Byte := rdBytes s.mem (c.rr.coll + 64 * i) 64

/-- Descriptor `i` of a context's collective table. -/
def State.cd (s : State) (c : Ctx) (i : Nat) : CDesc := CDesc.ofBytes (s.cdRaw c i)

/-- A context whose table has a descriptor of a kind. -/
def State.hasCd (s : State) (c : Ctx) (p : CDesc → Bool) : Bool := (List.range c.rr.ncoll).any fun i => p (s.cd c i)

/-- A context that runs steps: its table has an ESCAPE with STEP (R342, R358). -/
def State.hasStep (s : State) (c : Ctx) : Bool := s.hasCd c fun d => d.op == 5 && d.step

/-- A context that writes clicks: its table has a COMMIT (R362, R451). -/
def State.clicks (s : State) (c : Ctx) : Bool := s.hasCd c fun d => d.op == 7

/-- A group entry (R338). -/
structure GEntry where
  n : Nat
  rank : Nat
  flags : Nat
  rsv : Nat
  devs : Nat
  live : Nat
  repl : Nat
  deriving DecidableEq, Repr

/-- Entry `g` of a context's group table. -/
def State.group (s : State) (c : Ctx) (g : Nat) : GEntry :=
  let b := rdBytes s.mem (c.rr.groups + 48 * g) 48
  { n := fieldLe b 0 4, rank := fieldLe b 4 4, flags := fieldLe b 8 4, rsv := fieldLe b 12 4 + fieldLe b 40 8, devs := fieldLe b 16 8,
    live := fieldLe b 24 8, repl := fieldLe b 32 8 }

/-- The device at a rank. -/
def State.devAt (s : State) (g : GEntry) (r : Nat) : Nat := rdLe s.mem (g.devs + 2 * r) 2

/-- The replica index of a rank of group 0, if it has one. -/
def State.replAt (s : State) (g : GEntry) (r : Nat) : Option Nat :=
  if g.repl = 0 then none
  else
    let v := rdLe s.mem (g.repl + 2 * r) 2
    if v = 0xFFFF then none else some v

/-- A rank is live (R339). -/
def State.liveRank (s : State) (g : GEntry) (r : Nat) : Bool := bitOf (rd8 s.mem (g.live + r / 8)).toNat (r % 8)

/-- Live ranks, ascending. -/
def State.liveRanks (s : State) (g : GEntry) : List Nat := (List.range g.n).filter (s.liveRank g)

/-- The rank of a device in a group. -/
def State.rankOf (s : State) (g : GEntry) (dev : Nat) : Option Nat := (List.range g.n).find? fun r => s.devAt g r = dev

/-- The group hash (R340). -/
def State.groupHash (s : State) (g : GEntry) : Nat := (crc32cUpdate 0 (rdBytes s.mem g.devs (2 * g.n))).toNat

/-- The parent of a live rank in the signal tree, where it is not the root (R341). -/
def parentRank (live : List Nat) (r : Nat) : Option Nat :=
  match live.idxOf? r with
  | none => none
  | some 0 => none
  | some (i + 1) => live[i / 2]?

/-- The children of a live rank (R341). -/
def childRanks (live : List Nat) (r : Nat) : List Nat := live.filter fun q => parentRank live q = some r

/-- The site of piece `j`: the next live rank at or after it, cyclically (R348). -/
def siteOf (live : List Nat) (j : Nat) : Nat := (live.find? (j ≤ ·)).getD (live.headD 0)

/-- A context whose job has other devices (R338): its preemptions stop only between steps. -/
def State.multi (s : State) (c : Ctx) : Bool := s.hasCd c (fun _ => true) && decide (1 < (s.group c 0).n)

/-- Raw bytes written by an engine to any device address (R402). -/
def State.rawWrite (s : State) (a : Nat) (b : List Byte) : State :=
  if a < hbmEnd then { s with hbm := Hbm.writeRaw (fun _ => false) (b.length + 1) s.hbm a b } else s.setMem (wrBytes s.mem a b)

/-- A REPLAY context (R390). -/
def Ctx.replay (c : Ctx) : Bool := bitOf c.rr.flags 0

/-- A bitmap of ranks. -/
def rankMap (l : List Nat) : Nat := (l.map (2 ^ ·)).sum

end Sys2Proof.Machine
end

