-- ==== Sys2Proof/Machine/Fence.lean ====
section
/-! DEFINITION. Machine/Fence.lean: fencing a physical tile and rebinding its logical tile (R13, R14, R18, R247, R419 to
R424, R496). -/

namespace Sys2Proof.Machine

/-- Column and row of a physical tile's mesh stop (R18). -/
def meshAt (p : Nat) : Int × Int :=
  let k := p % 17
  let q := p / 17
  (if q % 2 = 0 then (k % 6 : Nat) else 11 - (k % 6 : Nat), if q / 2 = 0 then (k / 6 : Nat) else 5 - (k / 6 : Nat))

/-- Mesh hops between two physical tiles (R20). -/
def meshHops (p k : Nat) : Nat :=
  ((meshAt p).1 - (meshAt k).1).natAbs + ((meshAt p).2 - (meshAt k).2).natAbs

/-- The spare that a fenced tile's logical tile goes to (R13). -/
def Placement.target (pl : Placement) (p : Nat) : Option Nat :=
  match pl.freeSpare (p / 17) with
  | some k => some k
  | none => ((List.range 4).filterMap pl.freeSpare).foldl (fun b k => match b with
      | none => some k
      | some m => if meshHops p k < meshHops p m then some k else b) none

/-- The logical tile bound to a physical tile. -/
def Placement.logical (pl : Placement) (p : Nat) : Option Nat := (List.range 64).find? fun t => pl.phys t == p

/-- A logical tile moves to a physical tile: the epoch advances and the old one drains (R13, R247, R248). -/
def Placement.rebind (pl : Placement) (t k : Nat) : Placement :=
  { pl with bind := sput bindDefault pl.bind t k, epoch := pl.epoch + 1, drains := pl.drains ++ [⟨t, pl.phys t, k, [], pl.epoch + 1⟩] }

/-- No spare is free: every context that is resident, or is becoming or ceasing to be, stops, and none starts or resumes again; the
others stay registered as they are (R14, log 23). -/
def State.loseCapacity (s : State) : State :=
  let s := { s with plc := { s.plc with lost := true } }
  (List.range 8).foldl (fun s n => match sfind s.ctxs n with
    | some c => if c.st == .running || c.st == .waiting || c.st == .switching then s.stopCtx n 0x04 else s
    | none => s) s

/-- A physical tile is fenced: it is recorded, its SRAM and tags go, its logical tile is rebound to a cleared spare, and both hosts are told (R13, R14, R419 steps 2
to 4 and 6, R421, R424, R496). `cause` is a cause of R436. -/
def State.fenceTile (s : State) (p cause : Nat) : State :=
  if bitOf s.plc.fenced.toNat p then s
  else
    let old := s.plc.logical p
    let s := { s with plc := { s.plc with fenced := s.plc.fenced ||| BitVec.ofNat 68 (2 ^ p) } }
    let s := s.logEvent (.evFence p cause)
    let s := match old with
      | none => s
      | some t => match s.plc.target p with
        | some k => ({ s with plc := s.plc.rebind t k }.clearSram t).setTile t ((s.tile t).keepOut Tile.init)
        | none => (s.clearSram t).loseCapacity
    s.event 0x08 (match s.sched.resident with | some n => n | none => 0xFF)
      [(0, 1, p), (1, 1, old.getD 0xFF), (4, 4, s.plc.epoch.toNat)] []

/-- A fence at a boundary of a tile that has an array out of use: the saved state comes back on the new binding (R420). -/
def State.fenceAtPp (s : State) (t : Nat) : State :=
  if (List.range 3).any fun i => ((s.tile t).arr i).out then s.fenceTile (s.plc.phys t) 0 else s

end Sys2Proof.Machine
end

