-- ==== Sys2Proof/Machine/Rollout.lean ====
section
/-! DEFINITION. Machine/Rollout.lean: journal records as bytes, the supplied run of a replayed step, expulsions, and rollout
decisions (R369, R376 to R379, R389 to R391, R463 to R468). Log 44 says what is left out of rollout batching. -/

namespace Sys2Proof.Machine

/-! Journal records (R376, R377) -/

/-- A record's bytes in the run of step `step`: header with its check, and body (R377). -/
def JRec.bytes (r : JRec) (step : Nat) : List Byte :=
  let units := cdiv (32 + r.body.length) 64
  let mk := fun (crc : Nat) => padTo (64 * units) (packFields 16 [(0, 1, r.kind), (1, 1, 1), (2, 2, units), (4, 4, crc), (8, 8, step)] ++ natLe 16 r.key ++ r.body)
  mk (crc32cUpdate 0 (mk 0)).toNat

/-- JH_RING of a journal area. -/
def State.ringOfJ (s : State) (base : Nat) : Nat := rdLe s.mem (base + 24) 8

/-- The device address of a journal offset (R376). -/
def jAddr (base ring o : Nat) : Nat := base + 64 + o % ring

/-- Units of a journal area from an offset. -/
def State.jRead (s : State) (base ring o n : Nat) : List Byte :=
  (List.range n).flatMap fun k => rdBytes s.mem (jAddr base ring (o + 64 * k)) 64

/-- A record's check, revision and step are right (R390). -/
def jrecOk (b : List Byte) (step : Nat) : Bool :=
  fieldLe b 1 1 == 1 && fieldLe b 8 8 == step && [1, 2, 3, 4, 15].contains (fieldLe b 0 1) &&
    (crc32cUpdate 0 (b.take 4 ++ [0, 0, 0, 0] ++ b.drop 8)).toNat == fieldLe b 4 4

/-- The run of a step from an offset, to its STEP record, and the offset after it; none where a check fails (R390). -/
def State.jRun (s : State) (base ring step : Nat) : Nat → Nat → List JRec → Option (List JRec × Nat)
  | 0, _, _ => none
  | k + 1, o, acc =>
    let n := fieldLe (s.jRead base ring o 1) 2 2
    let b := s.jRead base ring o n
    if n = 0 || !jrecOk b step then none
    else
      let r : JRec := ⟨fieldLe b 0 1, fieldLe b 16 16, b.drop 32⟩
      if r.kind = 15 then (if fieldLe r.body 0 4 = acc.length then some (acc ++ [r], o + 64 * n) else none)
      else s.jRun base ring step k (o + 64 * n) (acc ++ [r])

/-! Expulsion (R369) -/

/-- Clear a rank's live bit. -/
def State.clearLive (s : State) (g : GEntry) (r : Nat) : State :=
  let a := g.live + r / 8
  let b := (rd8 s.mem a).toNat
  if bitOf b (r % 8) then s.rawWrite a [BitVec.ofNat 8 (b - 2 ^ (r % 8))] else s

/-- A replica is expelled: its bit in every REPLICA group, and its ranks' in group 0; a device of it stops (R369). -/
def State.expel (s : State) (n idx : Nat) : State :=
  match sfind s.ctxs n with
  | none => s
  | some c =>
    let g0 := s.group c 0
    let gone := (List.range g0.n).filter fun r => s.replAt g0 r = some idx
    let mine := s.replAt g0 g0.rank = some idx
    let s := (List.range 64).foldl (fun s k =>
      let g := s.group c k
      if k ≠ 0 && bitOf g.flags 0 && idx < g.n then s.clearLive g idx else s) s
    let s := gone.foldl (fun s r => s.clearLive g0 r) s
    if mine then s.stopCtx n 0x07 else s

/-- The supplied run of the step that is about to begin is read, checked, and its expulsions applied (R390, R391). -/
def State.loadRun (s : State) (n : Nat) : State :=
  match sfind s.ctxs n with
  | none => s
  | some c =>
    if !c.replay || !c.supplied.isEmpty || c.st = .stopped then s
    else
      let ring := s.ringOfJ c.rr.jin
      match s.jRun c.rr.jin ring c.step.toNat (ring / 64) c.jinAt [] with
      | none => s.stopCtx n 0x0C
      | some (rs, o) =>
        let ex := (rs.filter fun r => r.kind == 1).map fun r => r.key % 2 ^ 32
        let s := s.setCtx n { c with supplied := rs, jinAt := o, recs := c.recs ++ rs.filter fun r => r.kind == 1 }
        ex.foldl (fun s k => s.expel n k) s

/-! Rollout decisions (R463 to R468) -/

/-- The rollout area's header (R463). -/
structure RoArea where
  pages : Nat
  pagetok : Nat
  nseq : Nat
  maxpg : Nat
  reqn : Nat
  seqt : Nat
  pgt : Nat
  req : Nat
  free : Nat
  deriving DecidableEq, Repr

/-- R463: the header in a context's rollout area. -/
def State.ro (s : State) (c : Ctx) : RoArea :=
  let b := rdBytes s.mem c.rr.rollout 64
  { pages := fieldLe b 0 4, pagetok := fieldLe b 4 4, nseq := fieldLe b 12 4, maxpg := fieldLe b 16 4, reqn := fieldLe b 20 4,
    seqt := fieldLe b 32 8, pgt := fieldLe b 40 8, req := fieldLe b 48 8, free := fieldLe b 56 8 }

/-- A request of the ring (R465): kind, tokens and sequence. -/
structure RoReq where
  at_ : Nat
  join : Bool
  maxtok : Nat
  seq : Nat
  /-- a reserved kind or a nonzero reserved byte (R5) -/
  bad : Bool
  /-- device address of the entry -/
  addr : Nat
  deriving DecidableEq, Repr

/-- RQ_HEAD and RQ_TAIL. -/
def State.roHead (s : State) (r : RoArea) : Nat := rdLe s.mem (r.req + 8) 8
/-- RQ_TAIL. -/
def State.roTail (s : State) (r : RoArea) : Nat := rdLe s.mem r.req 8

/-- The requests between two counts of the ring. -/
def State.roReqs (s : State) (r : RoArea) (lo hi : Nat) : List RoReq :=
  (List.range (min (hi - lo) r.reqn)).map fun k =>
    let a := r.req + 64 + 32 * ((lo + k) % r.reqn)
    let b := rdBytes s.mem a 32
    ⟨lo + k, fieldLe b 0 1 == 0, fieldLe b 4 4, fieldLe b 8 8, decide (1 < fieldLe b 0 1) || fieldLe b 1 3 ≠ 0 || fieldLe b 24 8 ≠ 0, a⟩

/-- A live sequence of the table (R464): slot, identifier, pages, DONE. -/
structure RoSeq where
  slot : Nat
  id : Nat
  npg : Nat
  done : Bool
  deriving DecidableEq, Repr

/-- The live sequences. -/
def State.roSeqs (s : State) (r : RoArea) : List RoSeq :=
  (List.range r.nseq).filterMap fun k =>
    let b := rdBytes s.mem (r.seqt + 32 * k) 32
    let f := fieldLe b 16 4
    if bitOf f 0 then some ⟨k, fieldLe b 0 8, fieldLe b 12 4, bitOf f 1⟩ else none

/-- A page is free. -/
def State.roFree (s : State) (r : RoArea) (p : Nat) : Bool := bitOf (rd8 s.mem (r.free + p / 8)).toNat (p % 8)

/-- Ascending order without repeats. -/
def ascending (l : List Nat) : List Nat := (l.mergeSort (· ≤ ·)).dedup

/-- Pages that a join takes. -/
def RoArea.need (r : RoArea) (q : RoReq) : Nat := cdiv q.maxtok r.pagetok

/-- Joins that are admitted while slots and pages last, and those deferred (R466). -/
def takeIn (r : RoArea) : List RoReq → Nat → Nat → List Nat → List Nat × List Nat
  | [], _, _, adm => (adm, [])
  | q :: qs, slots, pages, adm =>
    if 0 < slots && r.need q ≤ pages then takeIn r qs (slots - 1) (pages - r.need q) (adm ++ [q.seq])
    else (adm, (q :: qs).map (·.seq))

/-- What the root decides: leaves, rejected joins, joins and deferrals (R466). -/
def State.roDecide (s : State) (r : RoArea) : List Nat × List Nat × List Nat × List Nat :=
  let qs := s.roReqs r (s.roHead r) (s.roTail r)
  let live := s.roSeqs r
  let cancels := (qs.filter fun q => !q.join).map (·.seq)
  let leaves := live.filter fun e => e.done || cancels.contains e.id
  let stay := (live.filter fun e => !leaves.contains e).map (·.id)
  let js := qs.filter fun q => q.join && !cancels.contains q.seq
  let (ok, no) := js.foldl (fun (a : List RoReq × List Nat) q =>
    if stay.contains q.seq || a.1.any (fun p => p.seq == q.seq) || r.maxpg < r.need q then (a.1, a.2 ++ [q.seq]) else (a.1 ++ [q], a.2)) ([], [])
  let pages := ((List.range r.pages).filter (s.roFree r)).length + (leaves.map (·.npg)).sum
  let (adm, def_) := takeIn r ok (r.nseq - stay.length) pages []
  (ascending (leaves.map (·.id)), no, adm, ascending def_)

/-- The rollout root of a context that runs rollout batching. -/
def State.roRoot (s : State) (c : Ctx) : Bool := bitOf c.rr.flags 1 && (s.group c 0).rank == 0

/-- The supplied ROLLOUT record, as leaves, joins and deferrals (R378, R391). -/
def Ctx.roSupplied (c : Ctx) : Option (List Nat × List Nat × List Nat) :=
  (c.supplied.find? fun r => r.kind == 3).map fun r =>
    let a := fieldLe r.body 0 4
    let b := fieldLe r.body 4 4
    let e := fieldLe r.body 8 4
    let ids := fun (k n : Nat) => (List.range n).map fun i => fieldLe r.body (16 + 8 * (k + i)) 8
    (ids 0 a, ids a b, ids (a + b) e)

/-- A replayed step is held until the ring holds every JOIN that its record names (R467). -/
def State.rolloutHeld (s : State) : Bool :=
  match s.resCtx with
  | none => false
  | some (_, c) => c.replay && s.roRoot c && (match c.roSupplied with
    | none => false
    | some (_, js, _) =>
      let r := s.ro c
      let qs := s.roReqs r (s.roHead r) (s.roTail r)
      !js.all fun j => qs.any fun q => q.join && q.seq == j)

/-- The queued JOIN that a decision took or deferred under an identifier: the first whose pages a slot can hold (R466). -/
def RoArea.taken (r : RoArea) (qs : List RoReq) (id : Nat) : Option RoReq :=
  qs.find? fun q => q.join && q.seq == id && decide (r.need q ≤ r.maxpg)

/-- The root decides at the first snapshot of a step; joins that it rejects are reported (R466). In replay the record is
supplied (R467). A ring entry with a reserved kind or a nonzero reserved byte is an illegal encoding of the context (R5, log 42). -/
def State.decideRollout (s : State) (n : Nat) : State :=
  let s := s.loadRun n
  match sfind s.ctxs n with
  | none => s
  | some c =>
    if !s.roRoot c || c.rollout.isSome || c.st = .stopped then s
    else
      let r := s.ro c
      if c.replay then
        let (l, j, d) := c.roSupplied.getD ([], [], [])
        s.setCtx n { c with rollout := some ⟨s.roTail r, l, j, d⟩ }
      else
        match (s.roReqs r (s.roHead r) (s.roTail r)).find? (·.bad) with
        | some q => s.jobFault ⟨1, 2, q.addr, 0, none⟩ none
        | none =>
          let (l, no, j, d) := s.roDecide r
          let s := s.setCtx n { c with rollout := some ⟨s.roTail r, l, j, d⟩ }
          no.foldl (fun s q => s.event 0x0C n [(0, 8, q)] []) s

/-- Bytes of an area as they stand. -/
def State.keepBytes (s : State) (a n : Nat) : Nat × List Byte := (a, rdBytes s.mem a n)

/-- A sequence leaves: its slot is cleared and its pages are free (R466). -/
def State.roLeave (s : State) (r : RoArea) (id : Nat) : State :=
  match (s.roSeqs r).find? fun e => e.id == id with
  | none => s
  | some e =>
    let s := (List.range e.npg).foldl (fun s i =>
      let p := rdLe s.mem (r.pgt + 4 * (e.slot * r.maxpg + i)) 4
      let a := r.free + p / 8
      s.rawWrite a [rd8 s.mem a ||| BitVec.ofNat 8 (2 ^ (p % 8))]) s
    s.rawWrite (r.seqt + 32 * e.slot) (List.replicate 32 0)

/-- A join takes the lowest free slot and the lowest free pages (R464, R466). -/
def State.roJoin (s : State) (r : RoArea) (q : RoReq) : State :=
  let used := (s.roSeqs r).map (·.slot)
  match (List.range r.nseq).find? fun k => !used.contains k with
  | none => s
  | some k =>
    let ps := ((List.range r.pages).filter (s.roFree r)).take (r.need q)
    let s := ps.zipIdx.foldl (fun s p =>
      let a := r.free + p.1 / 8
      let s := s.rawWrite a [rd8 s.mem a &&& ~~~BitVec.ofNat 8 (2 ^ (p.1 % 8))]
      s.rawWrite (r.pgt + 4 * (k * r.maxpg + p.2)) (natLe 4 p.1)) s
    s.rawWrite (r.seqt + 32 * k) (packFields 32 [(0, 8, q.seq), (8, 4, q.maxtok), (12, 4, ps.length), (16, 4, 1)])

/-- The decision is applied at the release; what the areas held is kept for an abort, and the record joins the run (R467,
R468). -/
def State.applyRollout (s : State) (n : Nat) : State :=
  match sfind s.ctxs n with
  | none => s
  | some c =>
    match c.rollout with
    | none => s
    | some d =>
      let r := s.ro c
      let old := [s.keepBytes r.seqt (32 * r.nseq), s.keepBytes r.pgt (4 * r.nseq * r.maxpg), s.keepBytes r.free (cdiv r.pages 8), s.keepBytes (r.req + 8) 8]
      let qs := s.roReqs r (s.roHead r) d.tail
      let s := d.leaves.foldl (fun s id => s.roLeave r id) s
      let s := d.joins.foldl (fun s id => match r.taken qs id with
        | some q => s.roJoin r q
        | none => s) s
      let head := match (d.defers.filterMap fun id => (r.taken qs id).map (·.at_)).min? with
        | some a => a
        | none => d.tail
      let s := s.rawWrite (r.req + 8) (natLe 8 head)
      let any := !d.leaves.isEmpty || !d.joins.isEmpty || !d.defers.isEmpty
      let rec_ : JRec := ⟨3, 0, packFields 16 [(0, 4, d.leaves.length), (4, 4, d.joins.length), (8, 4, d.defers.length)] ++
        (d.leaves ++ d.joins ++ d.defers).flatMap (natLe 8)⟩
      s.setCtx n { c with rollout := none, roSnap := old, recs := if any then c.recs ++ [rec_] else c.recs }

end Sys2Proof.Machine
end

