-- ==== Sys2Proof/Machine/Sched.lean ====
section
/-! DEFINITION. Machine/Sched.lean: windows, deadlines, the choice of the resident context and preemption requests (R265,
R448 to R462, R485). -/

namespace Sys2Proof.Machine

/-- Deadline of the first window; none for +∞ (R451). -/
def Ctx.dline (c : Ctx) : Option Nat :=
  match c.wins.head? with
  | some w => if c.rr.rdline = 0 then none else some (w.rel + c.rr.rdline)
  | none => none

/-- A context is blocked: no window is released that has not ended (R449). -/
def Ctx.blocked (c : Ctx) : Bool := c.wins.isEmpty

/-- A context can run: it has not stopped, and it is not blocked. -/
def Ctx.runnable (c : Ctx) : Bool := c.st ≠ .stopped && !c.blocked

/-- The state that a context has (R448). -/
def State.ctxSt (s : State) (n : Nat) (c : Ctx) : CtxSt :=
  if c.st = .stopped then .stopped
  else if s.sched.switching && s.sched.incoming = some n then .switching
  else if s.sched.resident = some n then (if c.blocked then .waiting else .running)
  else if c.blocked then .idle else .ready

/-- Every context takes the state that R448 gives it. -/
def State.settle (s : State) : State := { s with ctxs := s.ctxs.map fun p => (p.1, { p.2 with st := s.ctxSt p.1 p.2 }) }

/-- The first deadline is earlier than the second. -/
def earlier (a b : Option Nat) : Bool :=
  match a, b with
  | some x, some y => decide (x < y)
  | some _, none => true
  | none, _ => false

/-- The context of a list with the earliest deadline; equal deadlines go to the lower index (R453). -/
def earliest (l : SMap Ctx) : Option (Nat × Ctx) :=
  l.foldl (fun b p => match b with
    | none => some p
    | some q => if earlier p.2.dline q.2.dline then some p else b) none

/-- The runnable context with the earliest deadline, once capacity is not lost (R14, R453). -/
def State.best (s : State) : Option Nat :=
  if s.plc.lost then none else (earliest (s.ctxs.filter fun p => p.2.runnable)).map Prod.fst

/-- Bytes that a context declares (R459): those of its latest switch point, or of its largest (log 46). -/
def Ctx.declared (c : Ctx) : Nat :=
  if c.saved.isEmpty then c.tiles.length * c.stride
  else (c.saved.map fun p => imageSize + (p.2.live.map Prod.snd).sum).sum

/-- A switch between two contexts, in units of 1/120,000 tick (R459). -/
def switchCost (a b : Ctx) : Nat := 1980 * 120000 + 11 * (a.declared + b.declared)

/-- Deadline of a blocked context's next window (R460). -/
def Ctx.nextDline (c : Ctx) : Option Nat :=
  match c.nextRel with
  | some r => if c.rr.rdline = 0 then none else some (r + c.rr.rdline)
  | none => none

/-- Slack of a blocked context in units of 1/120,000 of a tick times the duty (R452); none for +∞. -/
def Ctx.slack (c : Ctx) (now duty : Nat) : Option Int :=
  c.nextDline.map fun d => ((d : Int) - now) * 120000 * duty - (c.rr.wwcet : Int) * dutyFull * 120000

/-- R460: the READY context may be swapped in for a blocked resident one. -/
def State.swapOk (s : State) (r x : Ctx) : Bool :=
  let duty := s.power.duty
  let b := (s.ctxs.filter fun p => p.2.blocked && p.2.st ≠ .stopped).foldl (fun (b : Option (Ctx × Int)) p =>
    match p.2.slack s.now.toNat duty, b with
    | none, _ => b
    | some v, none => some (p.2, v)
    | some v, some (_, w) => if v < w then some (p.2, v) else b) none
  match b with
  | none => decide (0 < duty)
  | some (b, slack) =>
    decide (0 < duty) &&
      decide (((switchCost r x + switchCost x b) * duty : Nat) + ((x.rr.segmax * dutyFull * 120000 : Nat) : Int) < slack)

/-- A preemption is requested: k is one more than the most pp instructions that a tile has issued (R265). -/
def State.preempt (s : State) (r : Nat) (c : Ctx) (inc : Option Nat) : State :=
  let k := (c.tiles.map fun t => (s.tile t).pps).foldl max 0 + 1
  let s := if c.preempt.isSome then s else s.setCtx r { c with preempt := some k }
  { s with sched := { s.sched with incoming := inc } }

/-- The scheduler's choice is made again (R453, R460). -/
def State.resched (s : State) : State :=
  let s := s.settle
  if s.sched.switching || s.sched.test then s
  else
    match s.resCtx, s.best with
    | some (r, c), some x =>
      if x = r then s
      else match sfind s.ctxs x with
        | none => s
        | some cx =>
          if !c.blocked then (if earlier cx.dline c.dline then s.preempt r c (some x) else s)
          else if s.swapOk c cx then s.preempt r c (some x) else s
    | _, _ => s

/-- The first window of a context ends; an aperiodic context's next one is released then (R451). -/
def State.endWindow (s : State) (n : Nat) : State :=
  match sfind s.ctxs n with
  | none => s
  | some c =>
    if c.blocked then s
    else
      let c := { c with wins := c.wins.drop 1, used := 0 }
      let c := if c.rr.period = 0 then { c with wins := c.wins ++ [⟨c.nextK, s.now.toNat, false⟩], nextK := c.nextK + 1 } else c
      (s.setCtx n c).resched

/-- Every tile of the resident context has stopped (R265). -/
def State.allStopped (s : State) (c : Ctx) : Bool := c.tiles.all fun t => (s.tile t).run == .stopped || (s.tile t).run == .halted

/-- A context that is to stop at its boundary has reached it (R485). -/
def State.boundary (s : State) : State :=
  match s.resCtx with
  | none => s
  | some (n, c) => match c.stopReq with
    | some st => if s.allStopped c then (s.stopCtx n st).resched else s
    | none => s

/-- A tile has halted: a context that writes no clicks ends its window when all have (R451). -/
def State.haltEnd (s : State) : State :=
  match s.resCtx with
  | none => s
  | some (n, c) =>
    let s := if c.tiles.all (fun t => (s.tile t).run == .halted) && !s.clicks c then s.endWindow n else s
    s.boundary

end Sys2Proof.Machine
end

