-- ==== Sys2Proof/Machine/Issue.lean ====
section
/-! DEFINITION. Machine/Issue.lean: the issue of bundles: holds, checks, the slots' effects, loop ends, preemption points
(R252 to R289). Every row of a single slot issues a bundle that holds it alone; log 6 says how that differs from
BUNDLE_ISSUE. -/

namespace Sys2Proof.Machine

/-! Holds (R225, R254, R289) -/

/-- A 32-bit word of a tile's SRAM. -/
def State.sramWord (s : State) (t off : Nat) : Nat := leNat (s.sram t off 4)

/-- Intervals of a tile's SRAM as device addresses. -/
def spans (t : Nat) (l : List (Nat × Nat)) : List (Nat × Nat) := l.map fun p => (sramAt t + p.1, p.2)

/-- The record and descriptors that an array operation reads at issue. -/
def State.arrayRecs (s : State) (t op rec : Nat) : List (Nat × Nat) :=
  if op = 0 then []
  else
    let off := rec * 128
    (off, 128) :: (([0, 4, 8, 12, 96, 100, 104, 124].map fun k => s.sramWord t (off + k)).filter (· ≠ 0)).map fun d => (d, 64)

/-- What the B slot sends: array, OP and record (R165, R268). -/
def BSlot.halves (b : BSlot) (ph : Bool) : List (Nat × Nat × Nat) :=
  let l := match b.bop with
    | 1 => [(1, b.op0, b.rec0)]
    | 2 => [(2, b.op0, b.rec0)]
    | 3 => [(1 + b2n ph, b.op0, b.rec0), (2 - b2n ph, b.op1, b.rec1)]
    | 4 => [(1, b.op0, b.rec0), (2, b.op1, b.rec1)]
    | _ => []
  l.filter fun h => h.2.1 ≠ 0

/-- What the F and B slots send to the arrays. -/
def Bundle.sends (b : Bundle) (ph : Bool) : List (Nat × Nat × Nat) :=
  (if b.f.op = 0 then [] else [(0, b.f.op, b.f.rec_)]) ++ b.b.halves ph

/-- The record of a segment and the records that it names, as SRAM intervals (R263). -/
def State.segReads (s : State) (t off : Nat) : List (Nat × Nat) :=
  let g := Seg.ofBytes (s.sram t off 32)
  [(off, 32), (g.load, 32), (g.live, 8 * g.liven)]

/-- The records and descriptors that a bundle reads as it issues. -/
def State.bundleRecs (s : State) (t : Nat) (b : Bundle) : List (Nat × Nat) :=
  let v := b.v.drec * 64
  let c := b.c
  ((b.sends (s.tile t).bphase).flatMap fun h => s.arrayRecs t h.2.1 h.2.2) ++
  (if b.s.op = 1 then
      let o := b.s.opr * 64
      let d := s.sramWord t (o + 8)
      (o, 64) :: (if d = 0 then [] else [(d, 64)])
    else if b.s.op = 4 then [(b.s.opr * 64, 32)] else []) ++
  (if b.v.op < 0x30 then [] else if b.v.op = 0x34 then [(v, 256)] else if b.v.op = 0x32 && b.v.ht then [(v, 128)]
    else if b.v.op = 0x35 then (v, 64) :: (((List.range 5).map fun k => s.sramWord t (v + 24 + 4 * k)).filter (· ≠ 0)).map fun d => (d, 64)
    else [(v, 64)]) ++
  (if c.op = 0x0E then s.segReads t (c.a * 64) else if c.op = 0x10 then [(c.b * 64, 64)]
    else if c.op = 0x11 || c.op = 0x12 then [(c.b * 64, 16)] else if c.op = 0x13 then [(c.a * 64, 64)] else [])

/-- A hold: the issue target's counter, and the held engine's target and counter (8, 0 for none). -/
abbrev Hold := Nat × Nat × Nat

/-- A product to array `i` is held: the array does not accept, or its shadow is not ready for SWAP (R137, R149). -/
def State.arrayHold (s : State) (t : Nat) (h : Nat × Nat × Nat) : List Hold :=
  let x := s.tile t
  if h.2.1 = opMld then []
  else
    let r := ARec.ofBytes (h.2.2 * 128) (s.sram t (h.2.2 * 128) 128)
    (if x.accepts h.1 s.clk.etick then [] else [(2, 8, 0)]) ++
    (if r.swap && h.2.1 ≠ opDiag && !(x.arr h.1).ready then [(2, h.1, 4)] else [])

/-- A send starts a split-K reduction at this tile (R142, R147). -/
def State.startsSk (s : State) (t : Nat) (h : Nat × Nat × Nat) : Bool :=
  let k := s.sramWord t (h.2.2 * 128 + 124)
  h.2.1 ≠ opMld && k ≠ 0 && (SkRec.ofBytes (s.sram t k 64)).root == t

/-- A fifth split-K reduction at one root (R147). -/
def State.skHold (s : State) (t : Nat) (hs : List (Nat × Nat × Nat)) : List Hold :=
  let n := (hs.filter (s.startsSk t)).length
  if 0 < n && 4 < (s.tile t).sk.length + n then [(2, 8, 0)] else []

/-- Work of the tile that names an object for its completion and has not signalled (R284). -/
def State.owes (s : State) (t obj : Nat) : Bool :=
  let x := s.tile t
  ((List.range 3).any fun i =>
    (x.arr i).q.any (fun q => q.o.r.syncen && q.o.r.sync == obj) || (x.arr i).loads.any fun l => l.o.r.syncen && l.o.r.sync == obj) ||
  (x.inb.any fun p => match p.2.use with
    | .stream => p.2.sd.sig == obj
    | .load _ _ _ on => on && p.2.sd.sig == obj
    | .fill _ _ => false) ||
  (x.outb.any fun p => p.2.spill.isNone && p.2.sd.sig == obj) || x.sadv.any (fun a => a.obj == obj) ||
  (match s.resCtx with
   | none => false
   | some (_, c) => c.running.any fun i =>
      let d := CDesc.ofBytes i.raw
      d.tile == t && d.done == obj)

/-- A preemption stops the tile at its next pp (R265); a context with other devices stops only between steps (R454). -/
def State.ppStops (s : State) (t : Nat) : Bool :=
  match s.resCtx with
  | none => false
  | some (_, c) => match c.preempt with
    | none => false
    | some k => decide (k ≤ (s.tile t).pps + 1) && (!s.multi c || !c.stepOpen)

/-- The state is kept for a rollback at a pp outside a step (R364, log 41). -/
def State.ppKeeps (s : State) : Bool :=
  match s.resCtx with
  | none => false
  | some (_, c) => s.hasStep c && !c.stepOpen

/-- An increment of a counter of the tile is held, or one by `n` would be (R283). -/
def Tile.incHeld (x : Tile) (obj n : Nat) : Bool :=
  let top := (sget zero32 x.sync obj).toNat + sget zeroNat x.landed obj
  2 ^ 32 ≤ top + n || (match x.incs.find? fun p => p.obj == obj with
    | some p => decide (2 ^ 32 ≤ top + p.amount)
    | none => false)

/-- The collective engine of a tile writes a result through the conversion unit (R279, R337). -/
def State.collWrites (s : State) (t : Nat) : Bool :=
  match s.resCtx with
  | none => false
  | some (_, c) => c.running.any fun i => (CDesc.ofBytes i.raw).tile == t && i.conv.isSome && !i.written

/-- Holds of the C slot. -/
def State.cHolds (s : State) (t : Nat) (c : CSlot) : List Hold :=
  let x := s.tile t
  let at_ := (sget zero32 x.sync c.a).toNat
  match c.op with
  | 0x01 => if at_ < c.b then [(1, 8, 0)] else []
  | 0x02 => if at_ < c.b then [(1, 8, 0)] else []
  | 0x03 => if x.incHeld c.a c.b then [(1, 8, 0)] else []
  | 0x05 => if s.owes t c.a then [(1, 8, 0)] else []
  | 0x0E => if (s.ppStops t && !x.enginesIdle) || (s.ppKeeps && (!s.canSave t || s.rolloutHeld)) then [(1, 8, 0)] else []
  | 0x13 => if x.converting || x.vupd.isSome || x.sadv.isSome || s.collWrites t then [(3, 8, 0)] else []
  | _ => []

/-- Holds of the S slot (R232, R238, R319). -/
def State.sHolds (s : State) (t : Nat) (v : SSlot) : List Hold :=
  let full := (s.freeSend t).isNone || !s.tagOk t
  if !s.sHold t v full false then [] else if v.op = 1 && s.sgoOut t v = 2 && full then [(4, 4, 3)] else [(4, 8, 0)]

/-- Holds of the V slot, its reads of pending granules among them (R197, R208, R225, R279, R337). -/
def State.vHolds (s : State) (t : Nat) (v : VSlot) : List Hold :=
  (match (s.tile t).vHold v s.clk.etick with
   | none => []
   | some (c, n) => [(c, if n = 0 then 8 else 3, n)]) ++
  (if (v.op = 0x32 || v.op = 0x34 || v.op = 0x35) && s.collWrites t then [(3, 8, 0)] else []) ++
  (if s.readHeld t (s.vReads t v) then [(5, 3, 3)] else [])

/-- What holds a bundle in this tick (R289). Nothing of a bundle that is not loaded yet, or of a tile whose first load still runs, is looked
at (R262, R264). -/
def State.holds (s : State) (t : Nat) (b : Bundle) (fetched : Bool) : List Hold :=
  let x := s.tile t
  let sends := b.sends x.bphase
  if x.starting || (fetched && x.loading x.pc) then [(5, 8, 0)] else
  (if s.readHeld t (spans t (s.bundleRecs t b)) then [(5, 8, 0)] else []) ++
  sends.flatMap (s.arrayHold t) ++ s.skHold t sends ++ s.vHolds t b.v ++ s.sHolds t b.s ++ s.cHolds t b.c

/-- A held attempt: the issue target and the engines that hold it stall in this tick (R250, R288, R289). -/
def State.noteHold (s : State) (t : Nat) (hs : List Hold) : State :=
  let s := hs.foldl (fun s h => (s.stallAt t 5 h.1)) s
  let s := (hs.filter fun h => h.2.1 < 5).foldl (fun s h => s.stallAt t h.2.1 h.2.2) s
  let x := s.tile t
  s.setTile t { x with issued := s.clk.etick, held := x.held + 1 }

/-! The slots: checks, then effects (R255) -/

/-- The S slot. -/
def State.prepS (s : State) (t : Nat) (v : SSlot) : Except JF (State → State) :=
  let x := s.tile t
  let on31 := v.ctx = 31 && x.barrelOn
  if v.bad then .error (JF.illegal 0 0)
  else if v.op = 0 then .ok id
  else if v.op = 1 then do
    let (raw, d, td) ← s.sgoDesc t v
    if on31 then .error (JF.barrel 5 (v.opr * 64))
    else .ok fun s => if d.dir = 0 then s.startIn t v.ctx raw d td .stream
      else if d.dir = 1 then s.startOut t v.ctx d td none else s.startLink t v.ctx d td
  else if v.op = 4 then do
    let l := LoadRec.ofBytes (← s.recAt t (v.opr * 64) 32 32)
    illegalIf l.bad 0 (v.opr * 64)
    if on31 then .error (JF.barrel 5 (v.opr * 64)) else .ok fun s => s.startLoad t v.ctx l
  else do
    illegalIf (x.demandN v < 1) 0 0
    .ok fun s => s.sdem t v

/-- One send to an array: the operation checked against the plane that it will use, then issued. -/
def State.prepArray (s : State) (t : Nat) (h : Nat × Nat × Nat) : Except JF (State → State) := do
  let (i, op, rec) := h
  let r := ARec.ofBytes (rec * 128) (s.sram t (rec * 128) 128)
  let o ← s.arrayOp t op rec (i == 0) (((s.tile t).arr i).entryPlane r.swap)
  let k ← s.skOf t o
  .ok fun s => s.issueArray t i o k

/-- The F slot. -/
def State.prepF (s : State) (t : Nat) (v : FSlot) : Except JF (State → State) :=
  if v.bad then .error (JF.illegal 0 0) else if v.op = 0 then .ok id else s.prepArray t (0, v.op, v.rec_)

/-- The B slot: each half to its array; mmb.pair then flips BPHASE (R165 to R167). -/
def State.prepB (s : State) (t : Nat) (v : BSlot) : Except JF (State → State) :=
  if v.bad then .error (JF.illegal 0 0)
  else do
    let fs ← (v.halves (s.tile t).bphase).mapM (s.prepArray t)
    .ok fun s =>
      let s := fs.foldl (fun s f => f s) s
      if v.bop = 3 then s.setTile t { s.tile t with bphase := !(s.tile t).bphase } else s

/-- The V slot; vupd stands apart from the others (R208). -/
def State.prepVslot (s : State) (t : Nat) (v : VSlot) : Except JF (State → State) :=
  if !v.bad && v.op = 0x35 then do
    let u ← s.checkUpd t (v.drec * 64)
    .ok fun s => s.startUpd t u
  else s.prepV t v

/-- Write an index register. -/
def Tile.setX (x : Tile) (i : Nat) (v : W32) : Tile := { x with x := sput zero32 x.x i v }

/-- Some loop level is active. -/
def Tile.looping (x : Tile) : Bool := (List.range 4).any fun n => (x.level n).active

/-- The register is the counter of an active level (R259). -/
def Tile.counts (x : Tile) (i : Nat) : Bool := 12 ≤ i && (x.level (i - 12)).active

/-- A loop level opens (R257). -/
def Tile.open_ (x : Tile) (n count start : Nat) : Tile :=
  { x with lv := sput (fun _ => (⟨0, 0, false⟩ : Level)) x.lv n ⟨count, start, true⟩ }.setX (12 + n) 0

/-- An lp that names an active level, or one above an active level (R259). -/
def Tile.lpBad (x : Tile) (n : Nat) : Bool := (List.range (n + 1)).any fun k => (x.level k).active

/-- A segment record at an offset with its program load record, checked (R263, R457, R604). No rule aligns either: pp's operand is a multiple
of 64 by its encoding, a start store and SG_LOAD take any offset. -/
def State.segAt_ (s : State) (t off : Nat) : Except JF (List Byte × List Byte) := do
  let b ← s.recAt t off 32 1
  let g := Seg.ofBytes b
  illegalIf (segBad g) 0 off
  let l ← s.recAt t g.load 32 1
  illegalIf (LoadRec.ofBytes l).bad 0 g.load
  .ok (b, l)

/-- A watch check of the tile that has not finished is abandoned as its segment ends (R122). -/
def State.abandonCheck (s : State) (t : Nat) : State :=
  let k := s.plc.phys t
  let p := s.ptile k
  if p.check.any fun c => c.ltile == t && !c.done then s.setPtile k { p with check := none, wchAbandon := p.wchAbandon + 1 } else s

/-- A pp passes: the segment ends and the next begins; at a stop the tile stops there (R263, R265, R287). Where the state is kept, which a
stop of a context with other devices always does (R454), a tile that goes on with an array out of use is fenced there, and the rollout root
decides (R364, R420, R466). -/
def State.doPp (s : State) (t : Nat) (seg load : List Byte) (stops keeps : Bool) : State :=
  let x := s.tile t
  let g := Seg.ofBytes seg
  let x := { x with pps := x.pps + 1, pc := g.resume, seg := g, segAt := some s.clk.etick, segOver := false, saveSeg := seg, saveLoad := load,
                    run := if stops then .stopped else x.run }
  let s := (s.setTile t x).abandonCheck t
  match s.resCtx with
  | none => s
  | some (n, c) =>
    let s := if !keeps then s
      else
        let ts := (c.tiles.filter fun u => (s.tile u).run == .halted && s.canSave u && u ≠ t) ++ [t]
        let s := (s.saveAll n true (c.rbSaves + 1) ts).decideRollout n
        let s := if stops then s else s.fenceAtPp t
        match s.resCtx with
        | some (m, c) => s.setCtx m { c with snap := c.tiles.all fun u => (sfind c.rb u).isSome }
        | none => s
    if stops then s.boundary else s

/-- The C slot. `next` is the bundle after this one. -/
def State.prepC (s : State) (t : Nat) (v : CSlot) (next : Nat) : Except JF (State → State) :=
  let x := s.tile t
  let on := fun (f : Tile → Tile) => Except.ok fun (s : State) => s.setTile t (f (s.tile t))
  let imm := BitVec.ofNat 32 (unsgn (sgn v.b 24) 32)
  if v.bad then .error (JF.illegal 0 0)
  else match v.op with
  | 0x01 => on fun x => { x with sync := sput zero32 x.sync v.a (sget zero32 x.sync v.a - BitVec.ofNat 32 v.b) }
  | 0x03 => on fun x => { x with landed := sput zeroNat x.landed v.a (sget zeroNat x.landed v.a + v.b) }
  | 0x04 => do
    illegalIf (match s.resCtx with | some (_, c) => !bitOf c.rr.tiles.toNat v.c | none => true) 0 0
    .ok fun s => s.incFrom (s.stopOf t) v.c v.a v.b
  | 0x05 => on fun x => { x with sync := sput zero32 x.sync v.a (BitVec.ofNat 32 v.b) }
  | 0x06 => do
    illegalIf (x.lpBad v.a) 1 0
    on fun x => x.open_ v.a v.b next
  | 0x07 => do
    illegalIf (x.lpBad v.a) 1 0
    illegalIf (x.xs v.b ≤ 0) 2 0
    on fun x => x.open_ v.a (sget zero32 x.x v.b).toNat next
  | 0x08 => do
    illegalIf (x.counts v.a) 3 0
    on fun x => x.setX v.a imm
  | 0x09 => do
    illegalIf (x.counts v.a) 3 0
    on fun x => x.setX v.a (sget zero32 x.x v.a + imm)
  | 0x0A => do
    illegalIf (x.counts v.a || x.counts (v.a + 1)) 3 0
    .ok fun s => s.setTile t (((s.tile t).setX v.a (s.now.truncate 32)).setX (v.a + 1) ((s.now >>> 32).truncate 32))
  | 0x0B => on fun x => x.setX v.a x.cvst
  | 0x0C => on fun x => { x with cvst := 0 }
  | 0x0D => do
    illegalIf x.looping 4 0
    on fun x => { x with pc := v.a }
  | 0x0E => do
    illegalIf x.looping 4 0
    let (b, l) ← s.segAt_ t (v.a * 64)
    illegalIf (match s.resCtx with | some (_, c) => liveBad c.rr.maxlive (s.liveOf t (Seg.ofBytes b)) | none => false) 0 (v.a * 64)
    let stops := s.ppStops t
    let keeps := s.ppKeeps
    .ok fun s => s.doPp t b l stops keeps
  | 0x0F => .ok fun s => (s.setTile t { s.tile t with run := .halted }).haltEnd
  | 0x10 => s.prepBcfg t v.a v.b
  | 0x11 => s.prepBpush t v.a v.b
  | 0x12 => s.prepBpop t v.a v.b
  | 0x13 => do
    let a ← s.checkSadv t v.a v.b v.c v.d
    on fun x => { x with sadv := some a }
  | _ => .ok id

/-- One level's end-of-bundle step (R258): the tile, and the branch if one is taken. -/
def Tile.loopEnd (x : Tile) (n : Nat) : Tile × Option Nat :=
  let l := x.level n
  let i := sget zero32 x.x (12 + n)
  if i.toNat + 1 < l.count then (x.setX (12 + n) (i + 1), some l.start)
  else ({ x with lv := sput (fun _ => (⟨0, 0, false⟩ : Level)) x.lv n { l with active := false } }, none)

/-- The LEND bits of a bundle that name levels active before it, ascending, until a branch is taken (R258). -/
def Tile.loopEnds (x : Tile) (ls : List Nat) : Tile × Option Nat :=
  ls.foldl (fun a n => match a.2 with
    | some _ => a
    | none => a.1.loopEnd n) (x, none)

/-- The tile's segment is timed from the first issue in it (R287). -/
def Tile.stamp (x : Tile) (now : Nat) : Tile :=
  { x with issued := now, held := 0, segAt := match x.segAt with | none => some now | some a => some a }

/-- The program counter after a bundle: the C slot has set it at a jmp or pp; else a loop's start, or the next bundle. -/
def State.advance (s : State) (t : Nat) (b : Bundle) (fetched : Bool) (levels : List Nat) : State :=
  let (x, br) := (s.tile t).loopEnds levels
  s.setTile t (if b.c.op = 0x0D || b.c.op = 0x0E then x else match br with
    | some k => { x with pc := k }
    | none => if fetched then { x with pc := x.pc + 1 } else x)

/-- All checks of a bundle, and what it then does (R254, R255, R258). -/
def State.prepBundle (s : State) (t : Nat) (b : Bundle) (fetched : Bool) : Except JF State := do
  let x := s.tile t
  illegalIf (fetched && 8191 < x.pc) 5 0
  illegalIf b.bad 0 0
  let f ← s.prepF t b.f
  let g ← s.prepB t b.b
  let v ← s.prepVslot t b.v
  let i ← s.prepS t b.s
  let c ← s.prepC t b.c (if fetched then x.pc + 1 else x.pc)
  let levels := (List.range 4).filter fun n => bitOf b.lend n && (x.level n).active
  let k := s.plc.phys t
  let s := (s.setTile t (x.stamp s.clk.etick)).chrAdd k 1 5 0 1
  let s := if b.v.op = 0 then s else s.chrAdd k 1 3 0 1
  .ok ((c (i (v (g (f s))))).advance t b fetched levels)

/-- The resident context waits for its next window: its tiles issue nothing, but to the boundary of a pending preemption (R448, R460, log
46). -/
def State.waits (s : State) : Bool :=
  match s.resCtx with
  | some (_, c) => c.blocked && c.preempt.isNone
  | none => false

/-- A bundle reaches issue on tile `t`: in an enabled tick in which the tile has not issued, no move of it drains (R248) and its context
does not wait for a window, it is held or it issues whole. -/
def State.issue (s : State) (t : Nat) (b : Bundle) (fetched : Bool) : Host.Outcome State Fault Refusal :=
  let x := s.tile t
  if x.run ≠ .on || !s.clk.enabled || s.clk.etick ≤ x.issued || s.plc.drains.any (fun d => d.ltile == t) || s.waits then .next s
  else
    let hs := if fetched && decide (8191 < x.pc) then [] else s.holds t b fetched
    if hs.isEmpty then .next (s.orFault t (s.prepBundle t b fetched)) else .next (s.noteHold t hs)

/-- The bundle at the tile's program counter; an entry no load has written holds free bits (log 33). -/
def State.fetched (s : State) (t : Nat) : Bundle :=
  let x := s.tile t
  Bundle.decode (match sfind x.ibuf x.pc with
    | some w => w
    | none => Config.freeBundle s.freeCtr % 2 ^ 256)

/-- BUNDLE_ISSUE (R254, R255). -/
def execBundleIssue (t : Fin 64) (s : State) : Host.Outcome State Fault Refusal :=
  { s with freeCtr := s.freeCtr + 1 }.issue t (s.fetched t) true

/-- A bundle that holds one slot issues. -/
def State.only (s : State) (t : Nat) (b : Bundle) : Host.Outcome State Fault Refusal := s.issue t b false

/-! Watching the program (R287, R288) -/

/-- WATCHDOG (R288): a hold of longer than CR_WDOG ticks is a job fault. -/
def execWatchdog (t : Fin 64) (s : State) : Host.Outcome State Fault Refusal :=
  match s.resCtx with
  | none => .next s
  | some (_, c) =>
    occurs ((s.tile t).run == .on && decide (c.rr.wdog < (s.tile t).held)) (s.jobFault ⟨4, 0, 0, 0, none⟩ (some t.val)) s

/-- The excess of the running segment over SG_LEN exceeds SG_IB and has not been reported (R287). -/
def Tile.overrun (x : Tile) (now : Nat) : Bool :=
  !x.segOver && (match x.segAt with
    | some a => decide (x.seg.len + x.seg.ib < now - a)
    | none => false)

/-- INTRUSION_OVERRUN (R287, R461): reported once in a segment; the context's count rises. -/
def execIntrusionOverrun (t : Fin 64) (s : State) : Host.Outcome State Fault Refusal :=
  match s.resCtx with
  | none => .next s
  | some (n, c) =>
    let x := s.tile t
    let s' := (s.setTile t { x with segOver := true }).setCtx n { c with ovr := c.ovr + 1 }
    let s' := s'.event 0x04 n [(0, 1, t.val), (4, 4, x.seg.id), (8, 4, (c.ovr + 1).toNat)] []
    occurs (x.run == .on && x.overrun s.clk.etick) s' s

/-! Synchronisation from outside (R280 to R285) -/

/-- A counter can take an increment (R283). -/
def Tile.takes (x : Tile) (p : Incr) : Bool :=
  decide ((sget zero32 x.sync p.obj).toNat + sget zeroNat x.landed p.obj + p.amount < 2 ^ 32)

/-- The increment at an index has come to the counters: no marker of a move holds it (R248), and what its source sent earlier has come,
landed or held by its own counter (R21). -/
def State.incCome (s : State) (t i : Nat) (p : Incr) : Bool :=
  let x := s.tile t
  !s.moveHolds t p.stop 2 p.epoch &&
    (p.stop == 72 || (x.incs.take i).all fun q => q.stop ≠ p.stop || (!x.takes q && !s.moveHolds t q.stop 2 q.epoch))

/-- SYNC_INCREMENT_LAND (R21, R248, R282, R283): the oldest increment of a counter that has come to it reaches it, or goes on being held. -/
def execSyncIncrementLand (t : Fin 64) (obj : BitVec 8) (s : State) : Host.Outcome State Fault Refusal :=
  let x := s.tile t
  match x.incs.zipIdx.find? fun p => p.1.obj == obj.toNat && s.incCome t p.2 p.1 with
  | none => .next s
  | some (p, i) =>
    occurs (x.takes p)
      (s.setTile t { x with incs := x.incs.eraseIdx i, landed := sput zeroNat x.landed p.obj (sget zeroNat x.landed p.obj + p.amount) }) s

/-- SYNC_WINDOW_STORE (R285): a 32-bit store by a control program of the resident context; `t`: its core among those of clusters 1 to 3,
counted from 0, and the logical tile stored to. The increment leaves from the cluster's hub. -/
def execSyncWindowStore (t : Fin 12 × Fin 64) (obj : BitVec 8) (v : BitVec 32) (s : State) : Host.Outcome State Fault Refusal :=
  occurs (match s.resCtx with | some (_, c) => bitOf c.rr.tiles.toNat t.2.val | none => false)
    (s.incFrom (hubStop (t.1.val / 4 + 1)) t.2 obj.toNat v.toNat) s

/-- A halted tile starts from the segment record at an offset (R280). -/
def State.startHalted (s : State) (t off : Nat) : Except JF State := do
  let (b, l) ← s.segAt_ t off
  let x := s.tile t
  let g := Seg.ofBytes b
  let x := { x with run := .on, pc := g.resume, seg := g, segAt := none, segOver := false, held := 0, saveSeg := b, saveLoad := l }
  -- a start load whose end is not yet signalled ends first
  let s := match sfind (s.tile t).inb 32 with
    | some i => (match i.use with
        | .load _ _ _ on => s.signal t on i.sd.sig
        | _ => s)
    | none => s
  .ok ((s.setTile t { x with incs := (s.tile t).incs }).startLoad t 32 (LoadRec.ofBytes l))

/-- TILE_START_STORE (R280). -/
def execTileStartStore (t : Fin 64) (off : BitVec 32) (s : State) : Host.Outcome State Fault Refusal :=
  occurs ((s.tile t).run == .halted) (s.orFault t (s.startHalted t off.toNat)) s

end Sys2Proof.Machine
end

