-- ==== Sys2Proof/Machine/Coll.lean ====
section
/-! DEFINITION. Machine/Coll.lean: data collectives: instances, pieces, contributions and their transfers, agreement,
reduction and completion (R343 to R357, R384, R387). Log 42 says what the spec leaves open of them. -/

namespace Sys2Proof.Machine

/-! Instances (R343, R344) -/

/-- The instance's descriptor. -/
def CInst.d (i : CInst) : CDesc := CDesc.ofBytes i.raw

/-- The running instance of a descriptor. -/
def Ctx.inst (c : Ctx) (cid : Nat) : Option CInst := c.running.find? fun i => i.cid == cid

/-- Change a running instance. -/
def Ctx.setInst (c : Ctx) (i : CInst) : Ctx := { c with running := c.running.map fun j => if j.cid = i.cid then i else j }

/-- Change a running instance of the state. -/
def State.setInstance (s : State) (n : Nat) (i : CInst) : State :=
  match sfind s.ctxs n with
  | some c => s.setCtx n (c.setInst i)
  | none => s

/-- Elements that a piece, and a first element, must be a multiple of (R344). -/
def pieceUnit (d : TDesc) : Nat := if d.lum then 4096 * d.bv else if d.fmt = 2 then 2048 else 1024

/-- A data operation. -/
def CDesc.data (d : CDesc) : Bool := d.op < 5

/-- Bytes of a piece with its parts (R349). -/
def TDesc.pieceSize (d : TDesc) (p : Nat) : Nat := d.valueBytes p + (if d.lum then p / d.bv else 0)

/-- Slots of the staging area (R349). -/
def CDesc.stageSlots (d : CDesc) (n : Nat) : Nat := if d.policy = 1 then 3 * n else n

/-- One region covers a range with all of some permission bits. -/
def regionCovers (rs : List Region) (a n flags : Nat) : Bool :=
  rs.any fun r => decide (r.base ≤ a) && decide (a + n ≤ r.base + r.len) && Nat.land r.flags flags == flags

/-- Reserved fields of a group entry that are not zero: GR_REPL belongs to group 0 alone (R5, R338). -/
def GEntry.bad (g : GEntry) (k : Nat) : Bool := g.rsv ≠ 0 || 2 ≤ g.flags || (k ≠ 0 && g.repl ≠ 0)

/-- R344: the number of the first condition that a descriptor, with its group's entry, fails. -/
def CDesc.fault (d : CDesc) (c : Ctx) (g : GEntry) (src dst : TDesc) : Option Nat :=
  let n := g.n
  firstOf [8 ≤ d.op || d.rsv || g.bad d.group || d.policy == 3 || d.wform == 3 || 64 ≤ d.group || 64 ≤ d.tile || d.trigN == 0,
    (d.data && d.policy == 0 && d.dline ≠ 0) || (d.policy ≠ 0 && d.dline == 0),
    d.policy == 1 && 3 ≤ d.op,
    d.data && (d.count % pieceUnit src ≠ 0 || d.count % pieceUnit dst ≠ 0),
    d.data && (d.srce % pieceUnit src ≠ 0 || d.dste % pieceUnit dst ≠ 0),
    (d.op == 3 || d.op == 4) && (src.fmt ≠ dst.fmt || src.bshape ≠ dst.bshape),
    d.op < 3 && formBad dst d.wform d.grad false,
    d.data && !regionCovers c.regs d.stage (d.stageSlots n * (src.pieceSize d.count + 64)) 7]

/-- A job fault of the collective engine. -/
def JF.coll (detail addr : Nat) : JF := ⟨1, 2, addr, detail, none⟩

/-- The tensor descriptors that a data operation copies at its start (R343, R54). -/
def State.collDescs (s : State) (d : CDesc) : Except JF (TDesc × TDesc) := do
  if !d.data then .ok (TDesc.absent, TDesc.absent)
  else
    let a ← s.descAt d.tile d.srcd
    let b ← s.descAt d.tile d.dstd
    .ok (a, b)

/-- COLLECTIVE_TRIGGER: the trigger is subtracted and an instance starts, checked (R343, R344). -/
def State.trigger (s : State) (n : Nat) (c : Ctx) (cid : Nat) : Except JF State := do
  let raw := s.cdRaw c cid
  let d := CDesc.ofBytes raw
  let x := s.tile d.tile
  let (src, dst) ← s.collDescs d
  match d.fault c (s.group c d.group) src dst with
  | some k => .error (JF.coll k (c.rr.coll + 64 * cid))
  | none =>
    let k := sget zeroNat c.insts cid
    let i : CInst :=
      { cid := cid, inst := k, raw := raw, src := src, dst := dst, began := s.now.toNat, sent := 0, opened := false, final := none,
        upSent := false, agreed := none, written := false, conv := none, resSent := 0, resGot := [], resGap := [], late := 0 }
    let s := s.setTile d.tile { x with sync := sput zero32 x.sync d.trig (sget zero32 x.sync d.trig - BitVec.ofNat 32 d.trigN) }
    let c := { c with insts := sput zeroNat c.insts cid (k + 1), running := c.running ++ [i],
                      com := if d.op = 7 then { c.com with trig := some (s.fabric, cid),
                                                           abort := c.com.abort || c.wrotePoison, forPoison := c.com.forPoison || c.wrotePoison }
                             else c.com }
    .ok (s.setCtx n c)

/-- The trigger of descriptor `cid` has been reached, and no instance of it runs. -/
def State.triggers (s : State) (c : Ctx) (cid : Nat) : Bool :=
  let d := s.cd c cid
  decide (cid < c.rr.ncoll) && (c.inst cid).isNone && (s.tile d.tile).run ≠ .off &&
    decide (0 < d.trigN) && decide (d.trigN ≤ (sget zero32 (s.tile d.tile).sync d.trig).toNat)

/-- COLLECTIVE_TRIGGER (R343): descriptor `cid` of the resident context. -/
def execCollectiveTrigger (cid : BitVec 10) (s : State) : Host.Outcome State Fault Refusal :=
  match s.resCtx with
  | none => .next s
  | some (n, c) => occurs (s.triggers c cid.toNat) (s.orFault (s.cd c cid.toNat).tile (s.trigger n c cid.toNat)) s

/-! Pieces (R345) -/

/-- The group of an instance. -/
def State.groupOf (s : State) (c : Ctx) (i : CInst) : GEntry := s.group c i.d.group

/-- The contributions that this device sends, as piece and destination rank. -/
def State.plan (s : State) (c : Ctx) (i : CInst) : List (Nat × Nat) :=
  let g := s.groupOf c i
  let live := s.liveRanks g
  match i.d.op with
  | 0 => [(0, siteOf live i.d.root)]
  | 1 => (List.range g.n).map fun j => (j, siteOf live j)
  | 3 => live.map fun r => (g.rank, r)
  | _ => live.map fun j => (j, j)

/-- The pieces that this device receives from a rank. -/
def State.expects (s : State) (c : Ctx) (i : CInst) (r : Nat) : List Nat :=
  let g := s.groupOf c i
  let live := s.liveRanks g
  match i.d.op with
  | 0 => if siteOf live i.d.root = g.rank then [0] else []
  | 1 => (List.range g.n).filter fun j => siteOf live j = g.rank
  | 3 => [r]
  | _ => [g.rank]

/-- First source element of a piece. -/
def CInst.srcElem (i : CInst) (j : Nat) : Nat := i.d.srce + (if i.d.op = 0 || i.d.op = 3 then 0 else j * i.d.count)

/-- First destination element of a piece, or of a rank's piece. -/
def CInst.dstElem (i : CInst) (j : Nat) : Nat := i.d.dste + (if i.d.op = 0 then 0 else j * i.d.count)

/-- Granules of `p` elements of a tensor from element `e`, mantissas first, as device address and block number (R346). -/
def TDesc.pieceGrans (d : TDesc) (e p : Nat) : List (Nat × Nat) :=
  let part := fun (base off n blk : Nat) => (List.range (cdiv n 4096)).map fun k => (base + off + 4096 * k, (off + 4096 * k) / 4096 + blk)
  part d.mbase (d.valueBytes e) (d.valueBytes p) 0 ++ (if d.lum then part d.sbase (e / d.bv) (p / d.bv) 0x80000000 else [])

/-- The key of a granule of a tensor in step `step` (R399). -/
def TDesc.keyOf (d : TDesc) (blk : Nat) (step : W32) : W32 × W32 × W32 := (BitVec.ofNat 32 d.tid, BitVec.ofNat 32 blk, step)

/-! Staging slots (R349) -/

/-- The contribution in a slot. -/
def Ctx.slot (c : Ctx) (cid inst : Nat) (step : W32) (piece rank : Nat) : Option Contrib :=
  c.slots.find? fun x => x.cid == cid && x.inst == inst && x.step == step && x.piece == piece && x.rank == rank

/-- Put a contribution into its slot. -/
def Ctx.putSlot (c : Ctx) (v : Contrib) : Ctx :=
  { c with slots := c.slots.filter (fun x => !(x.cid == v.cid && x.inst == v.inst && x.step == v.step && x.piece == v.piece && x.rank == v.rank)) ++ [v] }

/-- An empty slot, for a contribution of step `step`. -/
def Contrib.empty (cid inst : Nat) (step : W32) (piece rank : Nat) : Contrib :=
  ⟨cid, inst, step, piece, rank, 0, [], [], none, [], step, none, none⟩

/-- A slot's place in the staging area: `size` the bytes of a piece, 64 bytes of state after them (R349). -/
def CDesc.slotAt (d : CDesc) (n size bank rank : Nat) : Nat := d.stage + (bank * n + rank) * (size + 64)

/-- The contributions whose slot of a bank another takes lose it. -/
def Ctx.leaveHome (c : Ctx) (v : Contrib) (bank : Nat) : Ctx :=
  { c with slots := c.slots.map fun x => if x.cid = v.cid && x.rank = v.rank && x.home = some bank then { x with home := none } else x }

/-- The current slot of the rank is free for a new contribution: no other piece of the same instance has it. -/
def Ctx.slotFree (c : Ctx) (v : Contrib) : Bool :=
  !c.slots.any fun x => x.cid == v.cid && x.rank == v.rank && x.home == some 0 && x.inst == v.inst && x.step == v.step

/-- A granule of a contribution stands in its slot: its bytes, and the slot's state, whose content the spec does not give (R349, log 42). -/
def State.showGran (s : State) (d : CDesc) (n size : Nat) (v : Contrib) (k : Nat) (b : List Byte) : State :=
  match v.home with
  | none => s
  | some bank =>
    let a := d.slotAt n size bank v.rank
    (((s.rawWrite (a + 4096 * k) b).rawWrite (a + size) (freshBytes s.freeCtr 64)).spend 1)

/-- Read the granules of a piece under their keys (R346): the bytes, the marked granules. -/
def State.readPiece (s : State) (d : TDesc) (step : W32) : List (Nat × Nat) → Nat → List Byte × List Nat × State
  | [], _ => ([], [], s)
  | g :: gs, k =>
    let r := s.readKeyed g.1 (d.keyOf g.2 step)
    let q := State.readPiece r.2.2 d step gs (k + 1)
    (r.1 ++ q.1, if r.2.1 then k :: q.2.1 else q.2.1, q.2.2)

/-- The first granule that the engine may not access (R228). -/
def State.barred (s : State) (t bit : Nat) (gs : List (Nat × Nat)) : Option Nat := (gs.find? fun g => s.refused t g.1 bit).map Prod.fst

/-- The granules of a list as intervals. -/
def granIvs (gs : List (Nat × Nat)) : List (Nat × Nat) := gs.map fun g => (g.1, 4096)

/-- This device's own contribution to a piece is placed in its slot. -/
def State.placeOwn (s : State) (n : Nat) (c : Ctx) (i : CInst) (j : Nat) : Except JF State := do
  let gs := i.src.pieceGrans (i.srcElem j) i.d.count
  match s.barred i.d.tile 0 gs with
  | some a => .error (JF.region 2 a)
  | none =>
    let (b, bad, s) := s.readPiece i.src c.step gs 0
    let g := s.groupOf c i
    let cvs := gs.zipIdx.map fun q =>
      let k := i.src.keyOf q.1.2 c.step
      (keyedCv (bareCv ((b.drop (4096 * q.2)).take 4096)) k.1 k.2.1 k.2.2, true)
    let v : Contrib := ⟨i.cid, i.inst, c.step, j, g.rank, gs.length, b, bad, some s.fabric, cvs, c.step, none, none⟩
    let (v, c) := if c.slotFree v then ({ v with home := some 0 }, c.leaveHome v 0) else (v, c)
    .ok ((s.showGran i.d g.n (i.src.pieceSize i.d.count) v 0 b).setCtx n (c.putSlot v))

/-- The bytes of a contribution as its slot holds them now. -/
def State.slotBytes (s : State) (i : CInst) (n : Nat) (v : Contrib) : List Byte :=
  match v.home with
  | some bank => rdBytes s.mem (i.d.slotAt n (i.src.pieceSize i.d.count) bank v.rank) v.data.length
  | none => v.data

/-- How granule `k` of a contribution reads: marked; where it is not, fails its check, or is unchecked (R399, R403, R404). -/
def State.slotGran (s : State) (i : CInst) (n : Nat) (v : Contrib) (k : Nat) (b : List Byte) : Bool × Bool × Bool :=
  let a := (i.d.slotAt n (i.src.pieceSize i.d.count) (v.home.getD 0) v.rank) + 4096 * k
  let key := i.src.keyOf (((i.src.pieceGrans (i.srcElem v.piece) i.d.count).getD k (0, 0)).2) v.step
  let cv := v.cvs.getD k (0, false)
  if v.bad.contains k || (v.home.isSome && s.poisIn a 4096) then (true, false, false)
  else if !cv.2 then (false, false, true)
  else (false, keyedCv (bareCv b) key.1 key.2.1 key.2.2 ≠ cv.1, false)

/-- The engine reads a contribution from its slot, each granule checked under the slot's key: its bytes and marks, and what the checks
count and report (R346, R399, R403, R404). -/
def State.readSlot (s : State) (i : CInst) (n : Nat) (v : Contrib) : Contrib × State :=
  let b := s.slotBytes i n v
  (List.range (b.length / 4096)).foldl (fun (acc : Contrib × State) k =>
    let r := s.slotGran i n v k ((b.drop (4096 * k)).take 4096)
    let a := (i.d.slotAt n (i.src.pieceSize i.d.count) (v.home.getD 0) v.rank) + 4096 * k
    let q := i.src.keyOf (((i.src.pieceGrans (i.srcElem v.piece) i.d.count).getD k (0, 0)).2) v.wstep
    let u := if r.2.1 then acc.2.checkFail a q else if r.2.2 then { acc.2 with cvUnchecked := acc.2.cvUnchecked + 1 } else acc.2
    ({ acc.1 with bad := if (r.1 || r.2.1) && !acc.1.bad.contains k then acc.1.bad ++ [k] else acc.1.bad }, u)) ({ v with data := b }, s)

/-! Presence (R354, R355) -/

/-- Every contribution that this device receives from a rank is present. -/
def State.rankPresent (s : State) (c : Ctx) (i : CInst) (step : W32) (r : Nat) : Bool :=
  (s.expects c i r).all fun j => (c.slot i.cid i.inst step j r).any fun v => v.at_.isSome

/-- The live ranks as a bitmap. -/
def State.liveMap (s : State) (c : Ctx) (i : CInst) : Nat := rankMap (s.liveRanks (s.groupOf c i))

/-- The presence bitmap. -/
def State.presentMap (s : State) (c : Ctx) (i : CInst) : Nat :=
  rankMap ((s.liveRanks (s.groupOf c i)).filter (s.rankPresent c i c.step))

/-- Ranks whose contribution was deferred out of an instance. -/
def Ctx.deferredOf (c : Ctx) (cid inst : Nat) (step : W32) : Nat :=
  match c.deferred.find? fun d => d.1 == cid && d.2.1 == inst && d.2.2.1 == step with
  | some d => d.2.2.2
  | none => 0

/-- Ranks whose carry into the instance is pending. -/
def CInst.pending (i : CInst) (c : Ctx) : Nat := if i.d.policy = 1 then c.deferredOf i.cid i.inst (c.step - 1) else 0

/-- The carry bitmap. -/
def State.carryMap (s : State) (c : Ctx) (i : CInst) : Nat :=
  rankMap ((List.range (s.groupOf c i).n).filter fun r => bitOf (i.pending c) r && s.rankPresent c i (c.step - 1) r)

/-- All bits of `a` are in `b`. -/
def mapIn (a b : Nat) : Bool := Nat.land a b == a

/-- Bits of `a` that are not in `b`. -/
def mapMinus (a b : Nat) : Nat := a - Nat.land a b

/-- Fabric time of the deadline (R353). -/
def CInst.deadline (i : CInst) (c : Ctx) : Nat := c.tStep + i.d.dline + i.inst * i.d.dstride

/-! Segments (R347) -/

/-- A segment header (R347). -/
structure Ch where
  kind : Nat
  flags : Nat
  cid : Nat
  inst : Nat
  srank : Nat
  step : W32
  piece : Nat
  gran : Nat
  ghash : Nat
  arg : Nat
  deriving DecidableEq, Repr

/-- R347: a header from a packet's payload. -/
def Ch.ofBytes (b : List Byte) : Ch :=
  { kind := fieldLe b 0 1, flags := fieldLe b 1 1, cid := fieldLe b 2 2, inst := fieldLe b 4 2, srank := fieldLe b 6 2,
    step := BitVec.ofNat 32 (fieldLe b 8 4), piece := fieldLe b 12 4, gran := fieldLe b 16 4, ghash := fieldLe b 20 4, arg := fieldLe b 24 8 }

/-- R347: the bytes of a header. -/
def Ch.bytes (h : Ch) : List Byte :=
  packFields 32 [(0, 1, h.kind), (1, 1, h.flags), (2, 2, h.cid), (4, 2, h.inst), (6, 2, h.srank), (8, 4, h.step.toNat), (12, 4, h.piece),
    (16, 4, h.gran), (20, 4, h.ghash), (24, 8, h.arg)]

/-- Control packets of a message: the parts, each cut into 4,096 bytes (R347). -/
def ctlPackets (h : Ch) (parts : List (List Byte)) : List (List Byte) :=
  parts.zipIdx.flatMap fun p => (List.range (max 1 (cdiv p.1.length 4096))).map fun k =>
    { h with flags := h.flags + p.2, gran := k }.bytes ++ padTo 4096 (p.1.drop (4096 * k))

/-- `k` send descriptors of a tile are free, and its next tag may be used. -/
def State.roomSend (s : State) (t k : Nat) : Bool :=
  decide (k ≤ ((List.range 16).filter fun i => (sfind s.lnk.send (16 * t + i)).isNone).length) && s.tagsOk t k

/-- Send a control message to ranks of a group (R347). -/
def State.sendCtl (s : State) (c : Ctx) (g : GEntry) (t : Nat) (ranks : List Nat) (h : Ch) (parts : List (List Byte)) : State :=
  let pk := ctlPackets { h with srank := g.rank, step := c.step, ghash := s.groupHash g } parts
  ranks.foldl (fun s r => s.openSend t (s.devAt g r) t pk.length (.control h.cid pk)) s

/-- Bytes of a bitmap over `n` ranks. -/
def mapPart (n v : Nat) : List Byte := natLe (cdiv n 8) v

/-- A message of the inbox that is complete. -/
def Ctx.heardFrom (c : Ctx) (kind cid inst rank : Nat) : Option CMsg :=
  c.inbox.find? fun m => m.kind == kind && m.cid == cid && m.inst == inst && m.rank == rank && m.pkts.length == m.pcnt

/-- A part of a message's body. -/
def CMsg.part (m : CMsg) (k : Nat) : List Byte :=
  (m.pkts.filter fun p => (Ch.ofBytes p).flags % 2 == k).flatMap fun p => (p.drop 32).take 4096

/-! Agreement (R354, R356) -/

/-- The STRAGGLER record supplied for an instance in replay, as excluded and carried-in bitmaps (R379, R391). -/
def Ctx.stragglerOf (c : Ctx) (cid inst n : Nat) : Option (Nat × Nat) :=
  (c.supplied.find? fun r => r.kind == 2 && r.key % 2 ^ 32 == cid + 65536 * inst).map fun r =>
    let form := fieldLe r.body 1 1
    let read := fun (k off cnt : Nat) =>
      if bitOf form k then (leNat ((r.body.drop off).take (4 * cdiv n 32)), 4 * cdiv n 32)
      else (rankMap ((List.range cnt).map fun q => fieldLe r.body (off + 4 * q) 4), 4 * cnt)
    let e := read 0 16 (fieldLe r.body 4 4)
    (e.1, (read 1 (16 + e.2) (fieldLe r.body 8 4)).1)

/-- What a replayed instance includes: presence and carries (R391). -/
def State.replaySets (s : State) (c : Ctx) (i : CInst) : Nat × Nat :=
  match c.stragglerOf i.cid i.inst (s.groupOf c i).n with
  | some (ex, ci) => (mapMinus (s.liveMap c i) ex, ci)
  | none => (s.liveMap c i, i.pending c)

/-- A device's final bitmaps go up the tree once those of its children are there; the root's go down as agreed. -/
def State.agreeUp (s : State) (n : Nat) (c : Ctx) (i : CInst) (fin : Nat × Nat) : State :=
  let g := s.groupOf c i
  let live := s.liveRanks g
  let kids := childRanks live g.rank
  let msgs := kids.map fun r => c.heardFrom 2 i.cid i.inst r
  let i := { i with final := some fin }
  if !msgs.all (·.isSome) then s.setCtx n (c.setInst i)
  else
    let comb := msgs.foldl (fun a m => match m with
      | some m => (Nat.land a.1 (leNat (m.part 0)), Nat.land a.2 (leNat (m.part 1)))
      | none => a) fin
    match parentRank live g.rank with
    | none =>
      if !s.roomSend i.d.tile kids.length then s.setCtx n (c.setInst i)
      else
        let ag := (Nat.land comb.1 (rankMap live), Nat.land comb.2 (rankMap live))
        let s := s.sendCtl c g i.d.tile kids ⟨3, 0, i.cid, i.inst, 0, 0, 0, 0, 0, 0⟩ [mapPart g.n ag.1, mapPart g.n ag.2]
        s.setCtx n (c.setInst { i with upSent := true, agreed := some ag })
    | some p =>
      if !s.roomSend i.d.tile 1 then s.setCtx n (c.setInst i)
      else
        let s := s.sendCtl c g i.d.tile [p] ⟨2, 0, i.cid, i.inst, 0, 0, 0, 0, 0, 0⟩ [mapPart g.n comb.1, mapPart g.n comb.2]
        s.setCtx n (c.setInst { i with upSent := true })

/-- Agreement of an instance goes on as far as it can (R353, R354, R391). `due`: its deadline has passed. -/
def State.agree (s : State) (n cid : Nat) (due : Bool) : State :=
  match sfind s.ctxs n with
  | none => s
  | some c =>
    match c.inst cid with
    | none => s
    | some i =>
      if i.agreed.isSome || i.upSent || !i.d.data then s
      else if c.replay then
        let w := s.replaySets c i
        if mapIn w.1 (s.presentMap c i) && mapIn w.2 (s.carryMap c i) then s.setCtx n (c.setInst { i with agreed := some w }) else s
      else
        let pm := s.presentMap c i
        let all := mapIn (s.liveMap c i) pm
        if i.d.policy = 0 then (if all then s.setCtx n (c.setInst { i with agreed := some (pm, 0) }) else s)
        else match i.final with
          | some f => s.agreeUp n c i f
          | none => if all || due then s.agreeUp n c i (pm, s.carryMap c i) else s

/-- COLLECTIVE_DEADLINE (R353): the device's bitmaps become final. -/
def execCollectiveDeadline (cid : BitVec 10) (s : State) : Host.Outcome State Fault Refusal :=
  match s.resCtx with
  | none => .next s
  | some (n, c) =>
    match c.inst cid.toNat with
    | none => .next s
    | some i => occurs (i.d.data && i.d.policy ≠ 0 && !c.replay && decide (i.deadline c ≤ s.fabric)) (s.agree n cid.toNat true) s

/-! Reduction (R350, R351, R355) -/

/-- A tensor whose elements from `se` on, `p` of them, stand in a contribution's bytes, with those bytes as memory: each element keeps its
index, so that pads are found where they lie (R43, R346). -/
def TDesc.partOf (d : TDesc) (se p : Nat) (b : List Byte) : TDesc × Mem :=
  let d0 := { d with mbase := 0, sbase := 2 ^ 62 }
  let n := d.valueBytes p
  (d0, wrBytes (wrBytes [] (d.valueBytes se) (b.take n)) (2 ^ 62 + se / d.bv) (b.drop n))

/-- Element `i` of a tensor's part as an aligned sum; pads and slots beyond the last as EMPTY (R43, R87, R88, R350). -/
def TDesc.partAsum (d : TDesc) (m : Mem) (i : Nat) : ASum :=
  if d.slots ≤ i || (d.lum && d.isPad i) then asEmpty
  else if d.lum then
    let q := d.elemOf m (i / d.bv) (i % d.bv)
    lumToAsum q.1 q.2
  else if d.fmt = 2 then bf16ToAsum (d.rdEnc m i)
  else fp32ToAsum (BitVec.ofNat 32 (d.rdEnc m i))

/-- The leaves of piece `j`: the carried and the current contribution of each rank that is included (R350). -/
def State.leaves (s : State) (c : Ctx) (i : CInst) (inc : Nat × Nat) (j : Nat) : List (Option Contrib × Option Contrib) :=
  (List.range (s.groupOf c i).n).map fun r =>
    (if bitOf inc.2 r then c.slot i.cid i.inst (c.step - 1) j r else none, if bitOf inc.1 r then c.slot i.cid i.inst c.step j r else none)

/-- The contributions of piece `j` as the engine reads them from their slots (R399). -/
def State.readLeaves (s : State) (i : CInst) (n : Nat) : List (Option Contrib × Option Contrib) → List (Option Contrib × Option Contrib) × State
  | [] => ([], s)
  | l :: ls =>
    let rd := fun (s : State) (v : Option Contrib) => match v with
      | some v => let r := s.readSlot i n v; (some r.1, r.2)
      | none => (none, s)
    let a := rd s l.1
    let b := rd a.2 l.2
    let q := State.readLeaves b.2 i n ls
    ((a.1, b.1) :: q.1, q.2)

/-- One element of the reduced piece from element `se` of its source, before conversion (R350, R351): `e` its place in the piece. -/
def CInst.reduced (i : CInst) (se : Nat) (ls : List (Option Contrib × Option Contrib)) (e : Nat) : ASum :=
  let at_ := fun (v : Contrib) => i.src.partOf se i.d.count v.data
  if i.d.fp32 then
    let f := fun (v : Option Contrib) => match v with | some v => (at_ v).1.loadF (at_ v).2 (se + e) | none => 0
    fp32ToAsum (treeAdd (ls.map fun l => vaddF (f l.1) (f l.2)))
  else
    let f := fun (v : Option Contrib) => match v with | some v => (at_ v).1.partAsum (at_ v).2 (se + e) | none => asEmpty
    splitkTree (ls.map fun l => asumAdd (f l.1) (f l.2))

/-- The CVST bits that present entries set as they enter, as a vld would (R88, R92, R350). -/
def CInst.entryCv (i : CInst) (se : Nat) (ls : List (Option Contrib × Option Contrib)) : W32 :=
  let f := fun (v : Option Contrib) => match v with
    | some v => let m := i.src.partOf se i.d.count v.data; m.1.loadCv m.2 ((List.range i.d.count).map (se + ·))
    | none => 0
  if i.d.fp32 then ls.foldl (fun c l => c ||| f l.1 ||| f l.2) 0 else 0

/-- A contribution or a carry that enters a piece is poisoned: the whole of the piece's result is (R408). -/
def tainted (ls : List (Option Contrib × Option Contrib)) : Bool := ls.any fun l => l.1.any (·.bad ≠ []) || l.2.any (·.bad ≠ [])

/-- Check-value blocks in HBM that the engine has written take their check values and marks (R56, R346, R399, R411). -/
def State.seal (s : State) (d : TDesc) (step : W32) (bs : List CvBlk) : State :=
  bs.foldl (fun s g =>
    if g.addr < hbmEnd then
      (s.writeKeyed g.addr (rdBytes s.mem g.addr 4096) (s.pois (g.addr / 4096)) (d.keyOf g.blk step)).noteWrotePoison (s.pois (g.addr / 4096))
    else s) s

/-- Reduced pieces are written one after another, each with its mark (R351, R408). -/
def State.writePieces (t : Nat) (d : TDesc) (f : Form) : List (List (Nat × ASum) × Bool) → State → Except JF Written
  | [], s => .ok ⟨s, [], []⟩
  | p :: ps, s => do
    let w ← s.writeVals t d p.1 f p.2
    let q ← State.writePieces t d f ps w.s
    .ok ⟨q.s, w.ivs ++ q.ivs, w.fresh ++ q.fresh⟩

/-- The pieces reduced here are converted and written (R350, R351, R384, R387). -/
def State.reduceHere (s : State) (c : Ctx) (i : CInst) (inc : Nat × Nat) (js : List Nat) : Except JF State := do
  let t := i.d.tile
  let n := (s.groupOf c i).n
  match s.barred t 1 (js.flatMap fun j => i.dst.pieceGrans (i.dstElem j) i.d.count) with
  | some a => .error (JF.region 2 a)
  | none =>
    let (ps, s) := js.foldl (fun (acc : List (List (Nat × ASum) × Bool) × State) j =>
      let (ls, u) := acc.2.readLeaves i n (s.leaves c i inc j)
      let se := i.srcElem j
      (acc.1 ++ [((List.range i.d.count).map fun e => (i.dstElem j + e, i.reduced se ls e), tainted ls)], u.setCvst t (i.entryCv se ls))) ([], s)
    let w ← State.writePieces t i.dst ⟨i.d.wform, i.d.grad⟩ ps s
    let bs := (i.dst.cvTouched w.ivs).dedup
    let s := (w.s.driftWrites t 3 i.dst i.d.grad w.fresh).seal i.dst c.step bs
    .ok (s.credit t 4 i.cid i.inst bs c.step)

/-- Enabled ticks in which the conversion unit takes the leaves of the pieces reduced here, 512 a tick, and writes their elements, 256 a
tick (R351). -/
def CInst.convTicks (i : CInst) (n pieces : Nat) : Nat := max (cdiv (n * i.d.count * pieces) 512) (cdiv (i.d.count * pieces) 256)

/-- The conversion unit of a tile has no other user (R279, R337). -/
def Tile.unitFree (x : Tile) : Bool := !x.converting && x.vupd.isNone && x.sadv.isNone

/-- The pieces reduced here enter the conversion unit once it is free; they are written when it has taken them and nothing holds their
granules (R226, R279, R337, R351). -/
def State.reduceGo (s : State) (n : Nat) (c : Ctx) (i : CInst) (inc : Nat × Nat) : Except JF State :=
  let t := i.d.tile
  let g := s.groupOf c i
  let js := s.expects c i g.rank
  match i.conv with
  | none =>
    if (s.tile t).unitFree && !s.collWrites t then .ok (s.setInstance n { i with conv := some (s.clk.etick + i.convTicks g.n js.length) }) else .ok s
  | some e =>
    if s.clk.etick < e || s.writeHeld t (granIvs (js.flatMap fun j => i.dst.pieceGrans (i.dstElem j) i.d.count)) then .ok s
    else do
      let s ← s.reduceHere c i inc js
      .ok (s.setInstance n { i with written := true })

/-- Granules written unchanged under the destination's key; those of a poisoned piece are all marked (R408). -/
def State.putGrans (s : State) (d : TDesc) (step : W32) (gs : List (Nat × Nat)) (b : List Byte) (bad : Bool) : State :=
  gs.zipIdx.foldl (fun s g =>
    (s.writeKeyed g.1.1 ((b.drop (4096 * g.2)).take 4096) bad (d.keyOf g.1.2 step)).noteWrotePoison (bad && decide (g.1.1 < hbmEnd))) s

/-- ALLGATHER and ALLTOALL: each rank's piece is written at its position; an absent one as zero bytes, code 0x00 or +0 (R345, R355). R61
says that the device never writes code 0x00 in a carried tensor and R355 that it writes zero blocks of that code here: DESIGN CHOICE, code
0x00 is written whatever the destination's SMODE (log 42). -/
def State.gatherHere (s : State) (c : Ctx) (i : CInst) (inc : Nat) : Except JF State :=
  let n := (s.groupOf c i).n
  let all := (List.range n).flatMap fun r => i.dst.pieceGrans (i.dstElem r) i.d.count
  match s.barred i.d.tile 1 all with
  | some a => .error (JF.region 2 a)
  | none => .ok ((List.range n).foldl (fun s r =>
      let gs := i.dst.pieceGrans (i.dstElem r) i.d.count
      match if bitOf inc r then (s.expects c i r).head?.bind fun j => c.slot i.cid i.inst c.step j r else none with
      | some v => let q := s.readSlot i n v; q.2.putGrans i.dst c.step gs q.1.data (q.1.bad ≠ [])
      | none => s.putGrans i.dst c.step gs (List.replicate (4096 * gs.length) 0) false) s)

/-- The pieces that ranks gather here are written once nothing holds their granules (R226). -/
def State.gatherGo (s : State) (n : Nat) (c : Ctx) (i : CInst) (inc : Nat) : Except JF State :=
  if s.writeHeld i.d.tile (granIvs ((List.range (s.groupOf c i).n).flatMap fun r => i.dst.pieceGrans (i.dstElem r) i.d.count)) then .ok s
  else do
    let s ← s.gatherHere c i inc
    .ok (s.setInstance n { i with written := true })

/-- The results that a site of ALLREDUCE sends: piece and rank (R352). -/
def State.resultPlan (s : State) (c : Ctx) (i : CInst) : List (Nat × Nat) :=
  if i.d.op ≠ 1 then []
  else
    let g := s.groupOf c i
    (s.expects c i g.rank).flatMap fun j => ((s.liveRanks g).filter (· ≠ g.rank)).map fun r => (j, r)

/-- The next thing that an instance does here: a contribution placed or sent, agreement, the reduction, a result sent. -/
def State.advanceInst (s : State) (n : Nat) (c : Ctx) (i : CInst) : Except JF State := do
  let g := s.groupOf c i
  let t := i.d.tile
  match (s.plan c i)[i.sent]? with
  | some (j, r) =>
    if r = g.rank && s.readHeld t (granIvs (i.src.pieceGrans (i.srcElem j) i.d.count)) then .ok s
    else if r = g.rank then do
      let s ← s.placeOwn n c i j
      .ok ((s.setInstance n { i with sent := i.sent + 1 }).agree n i.cid false)
    else if s.roomSend t 1 then
      let s := s.openSend t (s.devAt g r) t (i.src.pieceGrans (i.srcElem j) i.d.count).length (.piece i.cid i.inst j false)
      .ok (s.setInstance n { i with sent := i.sent + 1 })
    else .ok s
  | none =>
    match i.agreed with
    | none => .ok (s.agree n i.cid false)
    | some inc =>
      if !i.written then (if i.d.op < 3 then s.reduceGo n c i inc else s.gatherGo n c i inc.1)
      else match (s.resultPlan c i)[i.resSent]? with
        | none => .ok s
        | some (j, r) =>
          if s.roomSend t 1 then
            let s := s.openSend t (s.devAt g r) t (i.dst.pieceGrans (i.dstElem j) i.d.count).length (.piece i.cid i.inst j true)
            .ok (s.setInstance n { i with resSent := i.resSent + 1 })
          else .ok s

/-- A data operation's row: its running instance goes on. -/
def dataRow (op : Nat) (cid : BitVec 10) (s : State) : Host.Outcome State Fault Refusal :=
  match s.resCtx with
  | none => .next s
  | some (n, c) =>
    match c.inst cid.toNat with
    | none => .next s
    | some i => occurs (i.d.op == op) (s.orFault i.d.tile (s.advanceInst n c i)) s

/-- REDUCE (R345). -/
def execReduce (cid : BitVec 10) (s : State) : Host.Outcome State Fault Refusal := dataRow 0 cid s
/-- ALLREDUCE (R345, R352). -/
def execAllreduce (cid : BitVec 10) (s : State) : Host.Outcome State Fault Refusal := dataRow 1 cid s
/-- REDUCESCATTER (R345). -/
def execReducescatter (cid : BitVec 10) (s : State) : Host.Outcome State Fault Refusal := dataRow 2 cid s
/-- ALLGATHER (R345). -/
def execAllgather (cid : BitVec 10) (s : State) : Host.Outcome State Fault Refusal := dataRow 3 cid s
/-- ALLTOALL (R345). -/
def execAlltoall (cid : BitVec 10) (s : State) : Host.Outcome State Fault Refusal := dataRow 4 cid s

/-! Receipt (R346 to R349, R354) -/

/-- Where a COLL packet belongs. -/
structure CollAt where
  n : Nat
  c : Ctx
  ch : Ch
  d : CDesc
  g : GEntry
  deriving DecidableEq, Repr

/-- How a packet's instance stands to this device's: 0 past, 1 the running one, 2 to come (R348). -/
def CollAt.age (a : CollAt) : Nat :=
  if a.ch.step = a.c.step then
    match a.c.inst a.ch.cid with
    | some i => if a.ch.inst = i.inst then 1 else if a.ch.inst < i.inst then 0 else 2
    | none => if a.ch.inst < sget zeroNat a.c.insts a.ch.cid then 0 else 2
  else if 0 < (a.ch.step - a.c.step).toInt then 2 else 0

/-- A packet of another job is answered NOTRES; one of another group is discarded and counted, one of no descriptor discarded, each after
its ACK (R321, R340, R348). -/
def State.withColl (s : State) (b : List Byte) (h : Th) (act : CollAt → State) : State :=
  match s.resCtx with
  | none => s.nack h h.pidx 2
  | some (n, c) =>
    if c.rr.job ≠ h.job then s.nack h h.pidx 2
    else
      let ch := Ch.ofBytes (b.drop 32)
      let d := s.cd c ch.cid
      let g := s.group c d.group
      if c.rr.ncoll ≤ ch.cid then s.ack h
      else if s.groupHash g ≠ ch.ghash then (s.setCtx n { c with ghash := sput zeroNat c.ghash ch.cid (sget zeroNat c.ghash ch.cid + 1) }).ack h
      else act ⟨n, c, ch, d, g⟩

/-- The expected index of a transfer: answered as R321 and R322 say; of NACK GAP at most one goes out every T_E2E / 16, `gap` the last and
`late` what notes one. `take` accepts the packet at its place. -/
def State.inOrder (s : State) (h : Th) (got : Nat) (gap : Option W64) (late take : State) : State :=
  if got = h.pcnt then s.ack h
  else if h.pidx = got then (if got + 1 = h.pcnt then take.ack h else take)
  else if h.pidx < got then s
  else if gap.any fun g => s.now.toNat < g.toNat + s.e2e / 16 then s
  else late.nack h got 0

/-- The slot of a data packet's contribution. -/
def CollAt.slot (a : CollAt) : Option Contrib := a.c.slot a.ch.cid a.ch.inst a.ch.step a.ch.piece a.ch.srank

/-- A contribution that has become present after its instance excluded it moves to the carry slot of the next step's parity (R355). -/
def State.toCarry (s : State) (n : Nat) (d : CDesc) (gn : Nat) (v : Contrib) : State :=
  match sfind s.ctxs n with
  | none => s
  | some c =>
    let bank := 1 + (v.step + 1).toNat % 2
    let w := { v with home := some bank, wstep := c.step }
    let s := s.setCtx n ((c.leaveHome v bank).putSlot w)
    s.showGran d gn v.data.length w 0 v.data

/-- A granule of a contribution reaches its slot with its check value, which the engine checks when it reads the slot (R346, R399). One
that comes after its instance excluded the rank goes to the carry slot once it is whole (R355). -/
def State.takeData (s : State) (a : CollAt) (b : List Byte) (h : Th) (carry : Bool) : State :=
  let v0 := Contrib.empty a.ch.cid a.ch.inst a.ch.step a.ch.piece a.ch.srank
  let (v, c) := match a.slot with
    | some v => (v, a.c)
    | none => if !carry && a.c.slotFree v0 then ({ v0 with home := some 0 }, a.c.leaveHome v0 0) else (v0, a.c)
  let g := (b.drop 64).take 4096
  let tr := fieldLe b 4160 8
  let whole := v.got + 1 = h.pcnt
  let v' := { v with got := v.got + 1, data := v.data ++ g, bad := if bitOf tr 33 then v.bad ++ [h.pidx] else v.bad,
                     cvs := v.cvs ++ [(BitVec.ofNat 32 (tr % 2 ^ 32), bitOf tr 32)], at_ := if whole then some s.fabric else none }
  let size := match a.c.inst a.ch.cid with
    | some i => i.src.pieceSize i.d.count
    | none => 4096 * h.pcnt
  let c := c.putSlot v'
  let c := match c.inst a.ch.cid with
    | some i => if !carry && whole && i.d.policy ≠ 0 && i.deadline c < s.fabric then c.setInst { i with late := max i.late (s.fabric - i.deadline c) } else c
    | none => c
  let s := (s.setCtx a.n c).showGran a.d a.g.n size v' h.pidx g
  if !whole then s else if carry then s.toCarry a.n a.d a.g.n v' else s.agree a.n a.ch.cid false

/-- A contribution's last NACK GAP is noted. -/
def State.slotGap (s : State) (a : CollAt) : State :=
  match a.slot with
  | some v => s.setCtx a.n (a.c.putSlot { v with gapAt := some s.now })
  | none => s

/-- COLL_DATA (R346, R348, R349, R355). -/
def execCollData (p : Fin 25) (hop : Bool) (s : State) : Host.Outcome State Fault Refusal :=
  s.recvPkt p hop 0 0x03 (fun b => fieldLe b 32 1 == 0) (fun _ _ _ => false) fun s b h => s.withColl b h fun a =>
    let got := (a.slot.map (·.got)).getD 0
    let late := bitOf (a.c.deferredOf a.ch.cid a.ch.inst a.ch.step) a.ch.srank
    if a.age = 1 || (a.age = 0 && late) then s.inOrder h got (a.slot.bind (·.gapAt)) (s.slotGap a) (s.takeData a b h (a.age == 0))
    else if a.age = 0 then s.ack h
    else s.nack h 0 1

/-- The granule of this rank's result that a packet brings: address and block number (R352). -/
def CInst.resultAt (i : CInst) (piece k : Nat) : Option (Nat × Nat) := (i.dst.pieceGrans (i.dstElem piece) i.d.count)[k]?

/-- A fill or a spill holds the granule that a RESULT packet is for: the packet waits (R179, R226). -/
def State.resultHeld (s : State) (b : List Byte) (h : Th) : Bool :=
  match s.resCtx with
  | none => false
  | some (_, c) =>
    let ch := Ch.ofBytes (b.drop 32)
    match c.inst ch.cid with
    | none => false
    | some i => (i.resultAt ch.piece h.pidx).any fun q => s.writeHeld i.d.tile [(q.1, 4096)]

/-- RESULT (R352): the granule is written unchanged at this rank, with the check value and the mark that it carries. -/
def execResult (p : Fin 25) (hop : Bool) (s : State) : Host.Outcome State Fault Refusal :=
  s.recvPkt p hop 0 0x03 (fun b => fieldLe b 32 1 == 1) State.resultHeld fun s b h => s.withColl b h fun a =>
    match a.c.inst a.ch.cid with
    | none => if a.age = 0 then s.ack h else s.nack h 0 1
    | some i =>
      if a.age = 0 then s.ack h
      else if a.age = 2 then s.nack h 0 1
      else
        let got := sget zeroNat i.resGot a.ch.piece
        match i.resultAt a.ch.piece h.pidx with
        | none => s.nack h h.pidx 3
        | some q =>
          if s.refused a.d.tile q.1 1 then s.jobFault (JF.region 2 q.1) (some a.d.tile)
          else
            let late := s.setCtx a.n (a.c.setInst { i with resGap := sins i.resGap a.ch.piece s.now })
            let tr := fieldLe b 4160 8
            let c' := a.c.setInst { i with resGot := sput zeroNat i.resGot a.ch.piece (got + 1) }
            let s' := s.landGranule q.1 ((b.drop 64).take 4096) tr
            s.inOrder h got (sfind i.resGap a.ch.piece) late ((s'.setCtx a.n c').noteWrotePoison (bitOf tr 33 && decide (q.1 < hbmEnd)))

/-- A packet of a control message is kept; `done` follows when the message is complete (R347, R348). -/
def State.takeCtl (s : State) (a : CollAt) (b : List Byte) (h : Th) (done : State → CMsg → State) : State :=
  let key := fun (m : CMsg) => m.kind == a.ch.kind && m.cid == a.ch.cid && m.inst == a.ch.inst && m.rank == a.ch.srank
  let m := (a.c.inbox.find? key).getD ⟨a.ch.kind, a.ch.cid, a.ch.inst, a.ch.srank, h.pcnt, [], none⟩
  let put := fun (m : CMsg) => s.setCtx a.n { a.c with inbox := a.c.inbox.filter (fun q => !key q) ++ [m] }
  let m' := { m with pkts := m.pkts ++ [(b.drop 32).take 4128] }
  let s' := put m'
  let late := if m.pkts.isEmpty then s else put { m with gapAt := some s.now }
  s.inOrder h m.pkts.length m.gapAt late (if m'.pkts.length = h.pcnt then done s' m' else s')

/-- AGREE_UP (R354). -/
def execAgreeUp (p : Fin 25) (hop : Bool) (s : State) : Host.Outcome State Fault Refusal :=
  s.recvPkt p hop 0 0x03 (fun b => fieldLe b 32 1 == 2) (fun _ _ _ => false) fun s b h => s.withColl b h fun a =>
    if a.age = 0 then s.ack h else if a.age = 2 then s.nack h 0 1
    else s.takeCtl a b h fun s _ => s.agree a.n a.ch.cid false

/-- AGREE_DOWN is taken: the sets are agreed, and go on to the children. -/
def State.agreeDown (s : State) (n cid : Nat) (m : CMsg) : State :=
  match sfind s.ctxs n with
  | none => s
  | some c => match c.inst cid with
    | none => s
    | some i =>
      let g := s.groupOf c i
      let kids := childRanks (s.liveRanks g) g.rank
      let ag := (leNat (m.part 0), leNat (m.part 1))
      let s := s.sendCtl c g i.d.tile kids ⟨3, 0, i.cid, i.inst, 0, 0, 0, 0, 0, 0⟩ [mapPart g.n ag.1, mapPart g.n ag.2]
      s.setCtx n (c.setInst { i with agreed := some ag })

/-- Send descriptors for the children of this device's group are not free: the packet waits. -/
def State.kidsHeld (s : State) (b : List Byte) (_h : Th) : Bool :=
  match s.resCtx with
  | none => false
  | some (_, c) =>
    let ch := Ch.ofBytes (b.drop 32)
    let d := s.cd c ch.cid
    let g := s.group c d.group
    decide (ch.cid < c.rr.ncoll) && !s.roomSend d.tile (childRanks (s.liveRanks g) g.rank).length

/-- AGREE_DOWN (R354). -/
def execAgreeDown (p : Fin 25) (hop : Bool) (s : State) : Host.Outcome State Fault Refusal :=
  s.recvPkt p hop 0 0x03 (fun b => fieldLe b 32 1 == 3) State.kidsHeld fun s b h => s.withColl b h fun a =>
    if a.age = 0 then s.ack h else if a.age = 2 then s.nack h 0 1
    else s.takeCtl a b h fun s m => s.agreeDown a.n a.ch.cid m

/-! Completion (R355 to R357, R379) -/

/-- A straggler list in its form (R379). -/
def rankList (n : Nat) (l : List Nat) : Bool × List Byte :=
  if n < 32 * l.length then (true, natLe (4 * cdiv n 32) (rankMap l)) else (false, l.flatMap (natLe 4))

/-- The STRAGGLER record of an instance (R356, R378, R379). -/
def stragglerRec (i : CInst) (n : Nat) (ex ci dr : List Nat) : JRec :=
  let a := rankList n ex
  let b := rankList n ci
  let e := rankList n dr
  ⟨2, i.cid + 65536 * i.inst, packFields 16 [(0, 1, i.d.group), (1, 1, b2n a.1 + 2 * b2n b.1 + 4 * b2n e.1), (4, 4, ex.length), (8, 4, ci.length),
    (12, 4, dr.length)] ++ a.2 ++ b.2 ++ e.2⟩

/-- Ranks of a bitmap, ascending. -/
def ranksOf (n v : Nat) : List Nat := (List.range n).filter (bitOf v)

/-- An instance's transfers are acknowledged. -/
def State.quiet (s : State) (i : CInst) : Bool :=
  !s.lnk.send.any fun p => match p.2.cargo with
    | .piece cid inst _ _ => cid == i.cid && inst == i.inst
    | _ => false

/-- Every result of another site has arrived. -/
def State.resultsIn (s : State) (c : Ctx) (i : CInst) : Bool :=
  i.d.op ≠ 1 ||
    (let g := s.groupOf c i
     (List.range g.n).all fun j => siteOf (s.liveRanks g) j == g.rank ||
       sget zeroNat i.resGot j == (i.dst.pieceGrans (i.dstElem j) i.d.count).length)

/-- A data instance is complete. -/
def State.instComplete (s : State) (c : Ctx) (i : CInst) : Bool :=
  i.d.data && decide ((s.plan c i).length ≤ i.sent) && i.agreed.isSome && i.written && decide ((s.resultPlan c i).length ≤ i.resSent) &&
    s.quiet i && s.resultsIn c i

/-- The status record (R357). -/
def statusRec (i : CInst) (ghash ninc nexcl ncarry ndrop esclate : Nat) : List Byte :=
  packFields 64 [(0, 4, i.inst), (4, 4, ninc), (8, 4, nexcl), (12, 4, ncarry), (16, 4, ndrop), (20, 4, min i.late 0xFFFFFFFF),
    (24, 4, ghash), (28, 4, esclate)]

/-- The packets discarded for their group hash since the descriptor's last status record, which the next one counts (R340, log 42). -/
def State.ghashOf (s : State) (n cid : Nat) : Nat :=
  match sfind s.ctxs n with
  | some c => sget zeroNat c.ghash cid
  | none => 0

/-- An instance's status record and reciprocal are written: `cnt` contributions and carries went in (R357). -/
def State.putStatus (s : State) (n : Nat) (i : CInst) (b : List Byte) (cnt : Nat) : State :=
  let s := match sfind s.ctxs n with
    | some c => s.setCtx n { c with ghash := sdel c.ghash i.cid }
    | none => s
  let t := i.d.tile
  let s := s.rawWrite (sramAt t + i.d.stat) b
  if i.d.gamma = 0 then s else s.rawWrite (sramAt t + i.d.gamma) (natLe 4 (if cnt = 0 then 0 else (vrcpF (roundRat cnt 1)).toNat))

/-- The status record and the reciprocal of an instance that includes no rank: ESCAPE, DIGEST and COMMIT (R357). -/
def State.writeStatus (s : State) (n : Nat) (i : CInst) (esclate : Nat) : State :=
  s.putStatus n i (statusRec i (s.ghashOf n i.cid) 0 0 0 0 esclate) 0

/-- A fill or a spill holds the status record or the reciprocal of an instance (R226). -/
def State.statusHeld (s : State) (i : CInst) : Bool :=
  let t := i.d.tile
  s.writeHeld t ((sramAt t + i.d.stat, 64) :: (if i.d.gamma = 0 then [] else [(sramAt t + i.d.gamma, 4)]))

/-- A data instance completes (R355 to R357). The carries that it used stay until the step is decided, for an abort executes it again (R364). -/
def State.completeData (s : State) (n : Nat) (c : Ctx) (i : CInst) : State :=
  let g := s.groupOf c i
  let live := s.liveMap c i
  let (inc, car) := i.agreed.getD (0, 0)
  let ex := mapMinus live inc
  let pend := mapMinus (i.pending c) car
  let dr := if i.d.policy = 2 then Nat.lor pend ex else pend
  let rs := ranksOf g.n
  let strag := ex ≠ 0 || car ≠ 0 || dr ≠ 0
  let late := if i.d.policy = 1 && ex ≠ 0 then [(i.cid, i.inst, c.step, ex)] else []
  let out := fun (v : Contrib) => v.cid == i.cid && v.inst == i.inst && v.step == c.step
  let keep := fun (v : Contrib) => !out v || (i.d.policy == 1 && bitOf ex v.rank)
  let waits := c.slots.filter fun v => out v && i.d.policy == 1 && bitOf ex v.rank && v.at_.isSome
  let c := { c with running := c.running.filter (fun j => j.cid ≠ i.cid), slots := c.slots.filter keep,
                    inbox := c.inbox.filter (fun m => !(m.cid == i.cid && m.inst == i.inst)), deferred := c.deferred ++ late,
                    recs := if strag then c.recs ++ [stragglerRec i g.n (rs ex) (rs car) (rs dr)] else c.recs }
  let s := waits.foldl (fun s v => s.toCarry n i.d g.n v) (s.setCtx n c)
  let s := s.putStatus n i (statusRec i (s.ghashOf n i.cid) (rs inc).length (rs ex).length (rs car).length (rs dr).length 0)
    ((rs inc).length + (rs car).length)
  let t := i.d.tile
  s.setTile t ((s.tile t).inc i.d.done 1)

end Sys2Proof.Machine
end

