-- ==== Sys2Proof/Machine/Escape.lean ====
section
/-! DEFINITION. Machine/Escape.lean: the escapement: arrival, schedule and release (R331, R353, R358 to R361, R385). -/

namespace Sys2Proof.Machine

/-- The first descriptor of a kind in a context's table. -/
def State.cdOf (s : State) (c : Ctx) (op : Nat) : Option (Nat × CDesc) :=
  ((List.range c.rr.ncoll).find? fun i => (s.cd c i).op == op).map fun i => (i, s.cd c i)

/-- The COMMIT descriptor of the step: the one that was triggered, or, before any was, the first of the table (R343, R362). -/
def State.commitCd (s : State) (c : Ctx) : Option (Nat × CDesc) :=
  match c.com.trig with
  | some (_, cid) => some (cid, s.cd c cid)
  | none => s.cdOf c 7

/-- The commit timeout in ticks (R362). -/
def State.commitTicks (s : State) (c : Ctx) : Nat :=
  match s.commitCd c with
  | some (_, d) => if d.dline = 0 then 2 ^ 24 else d.dline
  | none => 2 ^ 24

/-- An ESC payload: kind, descriptor, step and T (R359). -/
def escBytes (kind cid step t : Nat) : List Byte := packFields 32 [(0, 1, kind), (2, 2, cid), (4, 4, step), (8, 8, t)]

/-- An ESC packet goes to a rank (R358). -/
def State.sendEsc (s : State) (c : Ctx) (g : GEntry) (d : CDesc) (rank kind cid t : Nat) : State :=
  s.sendOn 2 ⟨0x04, 0, s.devAt g rank, s.devId, d.tile, d.tile, c.rr.job, 0, 0, 1, 32, 0, 0⟩ 0 (escBytes kind cid c.step.toNat t)

/-- The escapement goes on: once every live child's ARRIVE is there, ARRIVE goes to the parent, or the root sets T and sends
SCHEDULE (R358). -/
def State.escGo (s : State) (n : Nat) : State :=
  match sfind s.ctxs n with
  | none => s
  | some c => match c.esc with
    | none => s
    | some e =>
      let d := s.cd c e.cid
      let g := s.group c d.group
      let live := s.liveRanks g
      let kids := childRanks live g.rank
      if e.sent || !kids.all (fun r => c.heard.contains (e.cid, r)) then s
      else match parentRank live g.rank with
        | some p => (s.setCtx n { c with esc := some { e with sent := true } }).sendEsc c g d p 0 e.cid 0
        | none =>
          let t := s.fabric + (if d.dline = 0 then 8192 else d.dline)
          kids.foldl (fun s r => s.sendEsc c g d r 1 e.cid t) (s.setCtx n { c with esc := some { e with sent := true, t := some t } })

/-- The device arrives: its clock enable is gated from now on (R358). A replayed step's run is read before (R390). -/
def State.arrive (s : State) (n : Nat) (i : CInst) : State :=
  let s := if i.d.step then s.loadRun n else s
  match sfind s.ctxs n with
  | none => s
  | some c =>
    if c.st = .stopped then s
    else (s.setCtx n { c with esc := some ⟨i.cid, s.fabric, false, none, false, false⟩ }).escGo n

/-- ESCAPE (R358): the running instance of a descriptor arrives. -/
def execEscape (cid : BitVec 10) (s : State) : Host.Outcome State Fault Refusal :=
  match s.resCtx with
  | none => .next s
  | some (n, c) =>
    match c.inst cid.toNat with
    | none => .next s
    | some i => occurs (i.d.op == 5 && c.esc.isNone) (s.arrive n i) s

/-- What an ESC packet of the resident context's job says: descriptor, step and T. -/
def State.escOf (s : State) (b : List Byte) (h : Th) : Option (Nat × Ctx × Nat × W32 × Nat) :=
  match s.resCtx with
  | none => none
  | some (n, c) =>
    let cid := fieldLe b 34 2
    if c.rr.job = h.job && cid < c.rr.ncoll && (s.cd c cid).op == 5 then
      some (n, c, cid, BitVec.ofNat 32 (fieldLe b 36 4), fieldLe b 40 8) else none

/-- ARRIVE is noted; a root discards, and counts, one of another step (R358, R359). -/
def State.takeArrive (s : State) (b : List Byte) (h : Th) : State :=
  match s.escOf b h with
  | none => s
  | some (n, c, cid, step, _) =>
    let g := s.group c (s.cd c cid).group
    if (s.liveRanks g).head? = some g.rank && step ≠ c.step then s.setCtx n { c with escDrops := c.escDrops + 1 }
    else match s.rankOf g h.src with
      | none => s
      | some r => (s.setCtx n { c with heard := if c.heard.contains (cid, r) then c.heard else c.heard ++ [(cid, r)] }).escGo n

/-- ARRIVE (R358, R359). -/
def execArrive (p : Fin 25) (hop : Bool) (s : State) : Host.Outcome State Fault Refusal :=
  s.recvPkt p hop 2 0x04 (fun b => fieldLe b 32 1 == 0) (fun _ _ _ => false) State.takeArrive

/-- SCHEDULE is forwarded to the children and sets T; one that arrives after T is late (R358, R360). -/
def State.takeSchedule (s : State) (b : List Byte) (h : Th) : State :=
  match s.escOf b h with
  | none => s
  | some (n, c, cid, step, t) => match c.esc with
    | none => s
    | some e =>
      if e.cid ≠ cid || step ≠ c.step || e.t.isSome then s
      else
        let d := s.cd c cid
        let g := s.group c d.group
        let s := s.setCtx n { c with esc := some { e with t := some t, late := decide (t < s.fabric) } }
        (childRanks (s.liveRanks g) g.rank).foldl (fun s r => s.sendEsc c g d r 1 cid t) s

/-- SCHEDULE (R358, R360). -/
def execSchedule (p : Fin 25) (hop : Bool) (s : State) : Host.Outcome State Fault Refusal :=
  s.recvPkt p hop 2 0x04 (fun b => fieldLe b 32 1 == 1) (fun _ _ _ => false) State.takeSchedule

/-- The release of an ESCAPE with STEP opens the step: T becomes T_step, the digest lanes are zero, and the rollout decision
is applied (R353, R360, R385, R467). -/
def State.openStep (s : State) (n : Nat) (c : Ctx) (t : Nat) : State :=
  let s := c.tiles.foldl (fun s k => s.setTile k { s.tile k with dl := [] }) s
  match sfind s.ctxs n with
  | none => s
  | some c => (s.setCtx n { c with tStep := t, stepOpen := true }).applyRollout n

/-- The release: the clock enable is raised, one is added to CD_DONE on every tile, and the instance completes (R343, R357,
R360). -/
def State.escRelease (s : State) (n : Nat) (c : Ctx) (e : Esc) (t : Nat) : State :=
  let d := s.cd c e.cid
  let s := s.setCtx n { c with esc := none, heard := c.heard.filter (fun h => h.1 ≠ e.cid), running := c.running.filter fun i => i.cid ≠ e.cid }
  let s := match c.inst e.cid with
    | some i => s.writeStatus n i (b2n e.late)
    | none => s
  let s := c.tiles.foldl (fun s k => s.setTile k ((s.tile k).inc d.done 1)) s
  if d.step then s.openStep n c t else s

/-- ESCAPEMENT_RELEASE (R331, R360): in the first tick whose fabric time is at least T. -/
def execEscapementRelease (s : State) : Host.Outcome State Fault Refusal :=
  match s.resCtx with
  | none => .next s
  | some (n, c) => match c.esc with
    | none => .next s
    | some e => match e.t with
      | none => .next s
      | some t => occurs (decide (t ≤ s.fabric)) (s.escRelease n c e t) s

end Sys2Proof.Machine
end

