-- ==== Sys2Proof/Machine/Commit.lean ====
section
/-! DEFINITION. Machine/Commit.lean: the step commit: digests, READY, the decision, the click with its journal run, abort and
re-execution (R361 to R370, R380 to R382, R386, R392, R411 to R413, R419 to R425). Logs 41, 45 and 47 say what the spec
leaves open. -/

namespace Sys2Proof.Machine

/-! The run of a step (R378, R380 to R382, R386) -/

/-- Ascending order of JR_KIND, then of JR_KEY (R381). -/
def JRec.before (a b : JRec) : Bool := a.kind < b.kind || (a.kind == b.kind && a.key ≤ b.key)

/-- The step's tile digest entry (R386). -/
def State.tileEntry (s : State) (c : Ctx) : List Byte :=
  natLe 8 c.step.toNat ++ List.replicate 56 0 ++ (List.range 64).flatMap fun t => (List.range 5).flatMap fun l =>
    natLe 8 ((s.tile t).lane l).sum.toNat ++ natLe 4 ((s.tile t).lane l).cnt.toNat ++ List.replicate 4 0

/-- CK_FLAGS (R363): the version that the click makes current, and whether digests were exchanged. -/
def Ctx.ckFlags (c : Ctx) : Nat := (c.step.toNat + 1) % 2 + 2 * b2n c.com.exchanged

/-- The shard digest; zero where the step computed none. -/
def Ctx.shard (c : Ctx) : List Byte := c.com.digest.getD (List.replicate 64 0)

/-- The STEP record (R378, R386). -/
def State.stepRec (s : State) (c : Ctx) : JRec :=
  ⟨15, 0, packFields 16 [(0, 4, c.recs.length), (4, 4, c.ckFlags), (8, 8, fieldLe (sha3 (s.tileEntry c)) 0 8)] ++ c.shard⟩

/-- The step's run in canonical order. -/
def State.ownRun (s : State) (c : Ctx) : List JRec := c.recs.mergeSort JRec.before ++ [s.stepRec c]

/-- Bytes of a run. -/
def runBytes (rs : List JRec) (step : Nat) : List Byte := rs.flatMap fun r => r.bytes step

/-- JH_WRITTEN. -/
def State.jWritten (s : State) (c : Ctx) : Nat := rdLe s.mem (c.rr.journal + 8) 8

/-- The run fits in the ring (R382). -/
def State.jFits (s : State) (c : Ctx) : Bool :=
  decide (s.jWritten c + (runBytes (s.ownRun c) c.step.toNat).length - rdLe s.mem (c.rr.journal + 16) 8 ≤ s.ringOfJ c.rr.journal)

/-- Bytes of a run are written unit by unit from an offset. -/
def State.putRun (s : State) (base ring : Nat) (o : Nat) (b : List Byte) : State :=
  (List.range (b.length / 64)).foldl (fun s k => s.rawWrite (jAddr base ring (o + 64 * k)) ((b.drop (64 * k)).take 64)) s

/-- The step's tile digest entry is written (R386). -/
def State.putEntry (s : State) (c : Ctx) : State :=
  if c.rr.tddepth = 0 then s else s.rawWrite (c.rr.tdig + 5184 * (c.step.toNat % c.rr.tddepth)) (s.tileEntry c)

/-- Kind of the first record in which two runs differ. -/
def firstDiff (step : Nat) : List JRec → List JRec → Option Nat
  | [], [] => none
  | a :: _, [] => some a.kind
  | [], b :: _ => some b.kind
  | a :: as, b :: bs => if a.bytes step = b.bytes step then firstDiff step as bs else some a.kind

/-! The click (R363, R381, R392) -/

/-- The bytes of a click. -/
def clickBytes (c : Ctx) (arg jend : Nat) : List Byte :=
  packFields 32 [(0, 8, c.step.toNat), (8, 4, c.rr.job), (12, 4, c.ckFlags), (16, 8, arg), (24, 8, jend)] ++ c.shard.take 16 ++
    List.replicate 8 0 ++ natLe 8 (2 ^ 64 - 1 - c.step.toNat)

/-- A decision is kept with that of the step before (R366), and what the device held for the step is gone. -/
def Ctx.decide_ (c : Ctx) (committed : Bool) : Ctx :=
  { c with com := Com.init, stepOpen := false, wrotePoison := false, single := false, recs := [], roSnap := [], inbox := [], insts := [],
           esc := none, heard := [], rollout := none, decided := (c.step, committed) :: c.decided.take 1 }

/-- After a click: the next step, its version current; only deferred contributions go on (R355, R363). -/
def Ctx.nextStep (c : Ctx) : Ctx :=
  let defs := c.deferred.filter fun d => d.2.2.1 == c.step
  { c.decide_ true with
      step := c.step + 1, splits := 0, poisons := 0, fulls := 0, supplied := [], unreach := [], cur := if c.com.descs.isEmpty then c.cur else c.com.descs,
      running := c.running.filter (fun i => i.d.op < 6), deferred := defs,
      slots := c.slots.filter fun v => v.step == c.step && bitOf (c.deferredOf v.cid v.inst v.step) v.rank }

/-- DECIDE COMMIT: the run, the tile digest entry, the click and JH_WRITTEN are written, and the step number advances; a replay
whose run differs stops instead (R363, R381, R392). -/
def State.applyCommit (s : State) (n arg : Nat) : State :=
  match sfind s.ctxs n with
  | none => s
  | some c =>
    let own := s.ownRun c
    match if c.replay then firstDiff c.step.toNat own c.supplied else none with
    | some k => ((s.putEntry c).setCtx n { c with diverged := k }).stopCtx n 0x0D
    | none =>
      let ring := s.ringOfJ c.rr.journal
      let o := s.jWritten c
      let b := runBytes own c.step.toNat
      let s := ((s.putRun c.rr.journal ring o b).putEntry c).rawWrite c.rr.click (clickBytes c arg (o + b.length))
      let s := s.rawWrite (c.rr.journal + 8) (natLe 8 (o + b.length))
      let s := s.setCtx n c.nextStep
      let s := match s.commitCd c with
        | some (cid, d) =>
          let s := match c.inst cid with
            | some i => s.writeStatus n i 0
            | none => s
          s.setTile d.tile ((s.tile d.tile).inc d.done 1)
        | none => s
      s.endWindow n

/-! Shard digests (R367) -/

/-- Granules of a tensor's mantissa part and of its scale part, as address and block number. -/
def TDesc.cvParts (d : TDesc) : List (Nat × Nat) :=
  (List.range (cdiv d.mantBytes 4096)).map (fun k => (d.mbase + 4096 * k, k)) ++
    (if d.lum then (List.range (cdiv d.blocks 4096)).map fun k => (d.sbase + 4096 * k, 0x80000000 + k) else [])

/-- The check value of a tensor's granule: the table's where it is valid, else the one computed from the bytes (R400, R401, R403). -/
def State.cvOf (s : State) (d : TDesc) (ver : W32) (g : Nat × Nat) : W32 :=
  let e := s.hbm.gran (g.1 / 4096)
  if g.1 < hbmEnd && e.cvv then e.cv
  else keyedCv (bareCv (rdBytes s.mem g.1 4096)) (BitVec.ofNat 32 d.tid) (BitVec.ofNat 32 g.2) ver

/-- The shard digest over tensors written with version `ver`, for the click of step `step` (R367). -/
def State.digestOf (s : State) (job : Nat) (step ver : W32) (ds : List TDesc) : List Byte :=
  sha3 (natLe 4 job ++ natLe 8 step.toNat ++ ds.flatMap fun d =>
    natLe 4 d.tid ++ natLe 4 ver.toNat ++ natLe 8 d.cvParts.length ++ d.cvParts.flatMap fun g => natLe 4 (s.cvOf d ver g).toNat)

/-- The descriptors on a DIGEST list (R367). -/
def State.digestList (s : State) (a : Nat) : List TDesc :=
  (List.range (rdLe s.mem a 4)).map fun k => TDesc.ofBytes (rdBytes s.mem (rdLe s.mem (a + 4 + 8 * k) 8) 64)

/-- The granules of tensors are read under their keys: whether one is poisoned or fails its check, and what the checks count and report (R399,
R403, R404). -/
def State.readShard (s : State) (ver : W32) (ds : List TDesc) : Bool × State :=
  (ds.flatMap fun d => d.cvParts.map fun g => (g.1, d.keyOf g.2 ver)).foldl (fun (acc : Bool × State) q =>
    let r := acc.2.readKeyed q.1 q.2
    (acc.1 || r.2.1, r.2.2)) (false, s)

/-- Some granule of a tensor is poisoned. -/
def State.tensorPois (s : State) (d : TDesc) : Bool := d.cvParts.any fun g => s.pois (g.1 / 4096)

/-! Restores from replicas (R412, R413) -/

/-- Ranks of group 0 in a replica, ascending: a device's position is its place among them (R413). -/
def State.replica (s : State) (g : GEntry) (idx : Nat) : List Nat := (List.range g.n).filter fun r => s.replAt g r == some idx

/-- Number of replica indices of a context. -/
def State.replicas (s : State) (g : GEntry) : Nat := ((List.range g.n).filterMap (s.replAt g)).foldl max 0 + 1

/-- The rank at this device's position in the lowest other live replica that has not failed a restore (R413). -/
def State.donor (s : State) (g : GEntry) (failed : List Nat) : Option Nat :=
  match s.replAt g g.rank with
  | none => none
  | some mine => match (s.replica g mine).idxOf? g.rank with
    | none => none
    | some k => ((List.range (s.replicas g)).filter (· ≠ mine)).findSome? fun j =>
        match (s.replica g j)[k]? with
        | some r => if s.liveRank g r && !failed.contains r then some r else none
        | none => none

/-- The device at this one's position in the next live replica is asked for tensors; with none left the job stops (R413). -/
def State.askRestore (s : State) (n : Nat) (tids failed : List Nat) : State :=
  match sfind s.ctxs n with
  | none => s
  | some c =>
    let g := s.group c 0
    match s.donor g failed with
    | none => (s.setCtx n { c with restore := none }).stopCtx n 0x0B
    | some r => (s.setCtx n { c with restore := some ⟨tids, r, failed⟩ }).sendMgmt c.rr.job c.step (s.devAt g r) 3 (tids.flatMap (natLe 4))

/-! Abort (R364, R370, R412, R422) -/

/-- The step is executed again from the rollback area (R364, R468). -/
def State.restart (s : State) (n : Nat) : State :=
  match sfind s.ctxs n with
  | none => s
  | some c => if c.st = .stopped || c.restore.isSome then s else (s.restoreAll n true c.tiles).decideRollout n

/-- Transfers of the aborted step are abandoned, but for READY and DECIDE. -/
def State.dropSends (s : State) (ts : List Nat) (commit : Nat) : State :=
  { s with lnk := { s.lnk with send := s.lnk.send.filter fun p => !ts.contains (p.1 / 16) || (match p.2.cargo with
    | .control cid _ => cid == commit
    | _ => false) } }

/-- After an abort for poison: a second in a row stops the job; a poisoned tensor is restored first (R412). -/
def State.afterPoison (s : State) (n : Nat) (c : Ctx) : State :=
  if 1 < c.poisons then s.stopCtx n 0x0B
  else
    let ds := if c.cur.isEmpty then c.com.descs else c.cur
    let bad := (ds.filter s.tensorPois).map (·.tid)
    if bad.isEmpty then s else s.askRestore n bad []

/-- The status with which an abort stops a context that cannot execute the step again: a SINGLE group's update has issued
(R210), there is no snapshot (R422), SPLIT or JOURNAL_FULL twice in a row (R370, R382). -/
def Ctx.abortStop (c : Ctx) (split : Bool) : Option Nat :=
  if c.single then some 0x06
  else if split && 0 < c.splits then some 0x08
  else if c.com.full && 0 < c.fulls then some 0x0E
  else if !c.snap then some 0x05
  else none

/-- What a context holds after an abort: the step number is unchanged; the carries of its step stay (R364); what its cores loaded goes with
the step, and so does the core-poison flag (R411, DESIGN CHOICE, log 45). -/
def Ctx.undone (c : Ctx) (split : Bool) (exp : List JRec) : Ctx :=
  { c.decide_ false with
      corePoison := false, running := [], slots := c.slots.filter (fun v => v.step ≠ c.step), deferred := c.deferred.filter (fun d => d.2.2.1 ≠ c.step),
      recs := c.supplied.filter (fun r => r.kind == 1) ++ exp, splits := if split then c.splits + 1 else 0,
      poisons := if c.com.forPoison then c.poisons + 1 else 0, fulls := if c.com.full then c.fulls + 1 else 0 }

/-- DECIDE ABORT (R364, R369, R370, R412): the tiles stop, the step's records go, the expelled replicas are cleared, and the
step is executed again. -/
def State.applyAbort (s : State) (n expel : Nat) (split : Bool) : State :=
  match sfind s.ctxs n with
  | none => s
  | some c =>
    let own := c.com.expel
    let ids := ranksOf 65536 expel
    let exp := ids.map fun k => (⟨1, k, packFields 8 [(0, 1, if bitOf own k then 0 else 1), (4, 4, k)]⟩ : JRec)
    let commit := ((s.commitCd c).map (·.1)).getD 65536
    let s := (s.dropTiles c.tiles).dropSends c.tiles commit
    let s := c.roSnap.foldl (fun s p => s.rawWrite p.1 p.2) s
    let c' := c.undone split exp
    let s := ids.foldl (fun s k => s.expel n k) (s.setCtx n c')
    match c.abortStop split with
    | some st => s.stopCtx n st
    | none => (if c.com.forPoison then s.afterPoison n { c' with com := c.com } else s).restart n

/-! READY and the decision (R362, R366, R419) -/

/-- Ranks of the group that answer to this device: its children, and, where ranks are known to have failed and it has taken
their place, the children of those (R366, log 47). -/
def State.heads (s : State) (c : Ctx) (g : GEntry) : List Nat :=
  let live := s.liveRanks g
  if !c.com.root then childRanks live g.rank
  else
    let gone := fun r => (sfind c.failed r).isSome
    live.filter fun q => q ≠ g.rank && !gone q && (match parentRank live q with
      | none => true
      | some p => p == g.rank || gone p)

/-- READY of a rank. -/
def Ctx.readyOf (c : Ctx) (r : Nat) : Option CMsg := c.inbox.find? fun m => m.kind == 5 && m.rank == r && m.pkts.length == m.pcnt

/-- A flag of a message's header (R347). -/
def CMsg.flag (m : CMsg) (k : Nat) : Bool := m.pkts.any fun p => bitOf (Ch.ofBytes p).flags k

/-- READY and DECIDE carry the expel bitmap, SPLIT and ABORT (R347, R362). -/
def State.sendVerdict (s : State) (c : Ctx) (g : GEntry) (cid t : Nat) (ranks : List Nat) (kind expel : Nat) (split abort : Bool) (arg : Nat) : State :=
  s.sendCtl c g t ranks ⟨kind, 2 * b2n split + 4 * b2n abort, cid, 0, 0, 0, 0, 0, 0, arg⟩ [mapPart (s.replicas g) expel]

/-- The root decides, once DECIDE can go to those that answer to it; then the decision takes effect here (R362). -/
def State.decideAs (s : State) (n : Nat) (commit : Bool) (expel : Nat) (split : Bool) : State :=
  match sfind s.ctxs n with
  | none => s
  | some c =>
    let g := s.group c 0
    let go := fun (s : State) => if commit then s.applyCommit n s.fabric else s.applyAbort n expel split
    match s.commitCd c with
    | none => go s
    | some (cid, d) =>
      let hs := s.heads c g
      if !s.roomSend d.tile hs.length then s
      else go (s.sendVerdict c g cid d.tile hs 6 expel split (!commit) s.fabric)

/-- The commit goes on: READY goes up once this device's trigger and its children's READY are there and the run fits, or at
once where an abort is urgent; the root decides (R362, R382, R419). -/
def State.commitGo (s : State) (n : Nat) : State :=
  match sfind s.ctxs n with
  | none => s
  | some c =>
    if c.com.ready || c.st = .stopped then s
    else
      let g := s.group c 0
      let live := s.liveRanks g
      let hs := s.heads c g
      let ms := hs.filterMap c.readyOf
      let expel := ms.foldl (fun a m => Nat.lor a (leNat (m.part 0))) c.com.expel
      let split := c.com.split || ms.any (·.flag 1)
      let abort := c.com.abort || ms.any (·.flag 2)
      let whole := c.com.trig.isSome && ms.length == hs.length
      let now := !c.com.root && (c.com.urgent || ms.any (·.flag 2))
      if !now && !whole then s
      else if !now && !c.com.root && !s.jFits c then
        (if c.com.full then s else (s.setCtx n { c with com := { c.com with full := true } }).event 0x05 n [(0, 8, c.step.toNat)] [])
      else
        let c := if now then c else { c with com := { c.com with full := false } }
        let s := s.setCtx n c
        match if c.com.root then none else parentRank live g.rank with
        | none => s.decideAs n (!c.com.root && expel == 0 && !split && !abort) expel split
        | some p => match s.commitCd c with
          | none => s
          | some (cid, d) =>
            if !s.roomSend d.tile 1 then s
            else (s.sendVerdict c g cid d.tile [p] 5 expel split abort 0).setCtx n
              { c with com := { c.com with ready := true, trig := c.com.trig.or (some (s.fabric, cid)) } }

/-- The context's tiles stop at once and READY goes up with ABORT; a context without a snapshot stops (R417, R419, R422, R425). -/
def State.abortNow (s : State) (n : Nat) : State :=
  match sfind s.ctxs n with
  | none => s
  | some c =>
    if c.st = .stopped then s
    else if !c.snap then s.stopCtx n 0x05
    else ((s.dropTiles c.tiles).setCtx n { c with com := { c.com with abort := true, urgent := true, full := false } }).commitGo n

/-- A physical tile is fenced at once, and the step of the resident context that runs on it aborts (R419, R422, R423). -/
def State.fenceNow (s : State) (p cause : Nat) : State :=
  let hit := match s.resCtx, s.plc.logical p with
    | some (n, c), some t => if c.tiles.contains t then some n else none
    | _, _ => none
  let s := s.fenceTile p cause
  match hit with
  | some n => s.abortNow n
  | none => s

/-- COMMIT (R362, R382): the running instance of descriptor `cid` goes on. -/
def execCommit (cid : BitVec 10) (s : State) : Host.Outcome State Fault Refusal :=
  match s.resCtx with
  | none => .next s
  | some (n, c) =>
    let here := (c.inst cid.toNat).any fun i => i.d.op == 7
    let urgent := c.com.urgent && (s.commitCd c).any fun q => q.1 == cid.toNat
    occurs (here || urgent) (s.commitGo n) s

/-- A rank is heard from. -/
def Ctx.alive (c : Ctx) (r : Nat) : Ctx := { c with failed := sdel c.failed r }

/-- CH_ARG of the DECIDE of a step that this device has clicked: the click's CK_TIME, or for the click before it the time now. -/
def State.clickArg (s : State) (c : Ctx) (step : W32) : Nat :=
  if rdLe s.mem c.rr.click 8 = step.toNat then rdLe s.mem (c.rr.click + 16) 8 else s.fabric

/-- A rank asks about a step, by QUERY or by a READY of it, that this device has clicked: DECIDE COMMIT goes to it (R366). -/
def State.tellDecided (s : State) (a : CollAt) (r : Nat) : State :=
  if a.c.decided.contains (a.ch.step, true) && s.roomSend a.d.tile 1 then
    s.sendVerdict { a.c with step := a.ch.step } a.g a.ch.cid a.d.tile [r] 6 0 false false (s.clickArg a.c a.ch.step)
  else s

/-- READY (R362, R366): kept until the step's decision; one of another step is discarded after its ACK, and where this device has clicked that
step the decision goes back (log 47). -/
def execReady (p : Fin 25) (hop : Bool) (s : State) : Host.Outcome State Fault Refusal :=
  s.recvPkt p hop 0 0x03 (fun b => fieldLe b 32 1 == 5) (fun _ _ _ => false) fun s b h => s.withColl b h fun a =>
    if a.ch.step ≠ a.c.step then (s.tellDecided a a.ch.srank).ack h
    else s.takeCtl { a with c := a.c.alive a.ch.srank } b h fun s _ => s.commitGo a.n

/-- DECIDE is taken: it goes on to the children, and takes effect. -/
def State.takeDecide (s : State) (n : Nat) (m : CMsg) (cid : Nat) : State :=
  match sfind s.ctxs n with
  | none => s
  | some c =>
    let g := s.group c 0
    let abort := m.flag 2
    let expel := leNat (m.part 0)
    let arg := ((m.pkts.head?).map fun p => (Ch.ofBytes p).arg).getD 0
    let s := s.sendVerdict c g cid (s.cd c cid).tile (s.heads c g) 6 expel (m.flag 1) abort arg
    if abort then s.applyAbort n expel (m.flag 1) else s.applyCommit n arg

/-- A DECIDE packet of one kind; it waits while no send descriptor is free for the children. -/
def State.recvDecide (s : State) (p : Nat) (hop abort : Bool) : Host.Outcome State Fault Refusal :=
  s.recvPkt p hop 0 0x03 (fun b => fieldLe b 32 1 == 6 && bitOf (fieldLe b 33 1) 2 == abort) State.kidsHeld fun s b h => s.withColl b h fun a =>
    if a.ch.step ≠ a.c.step then s.ack h
    else s.takeCtl a b h fun s m => s.takeDecide a.n m a.ch.cid

/-- DECIDE_COMMIT (R363, R381). -/
def execDecideCommit (p : Fin 25) (hop : Bool) (s : State) : Host.Outcome State Fault Refusal := s.recvDecide p hop false

/-- DECIDE_ABORT (R364, R369). -/
def execDecideAbort (p : Fin 25) (hop : Bool) (s : State) : Host.Outcome State Fault Refusal := s.recvDecide p hop true

/-! Timeouts and a lost root (R361, R362, R366) -/

/-- ESC_TIMEOUT (R361): no SCHEDULE within the commit timeout after arrival. The device stays gated, and the step is to abort. -/
def execEscTimeout (s : State) : Host.Outcome State Fault Refusal :=
  match s.resCtx with
  | none => .next s
  | some (n, c) => match c.esc with
    | none => .next s
    | some e =>
      let c' := { c with esc := some { e with reported := true }, com := { c.com with abort := true, urgent := true } }
      occurs (e.t.isNone && !e.reported && decide (e.at_ + s.commitTicks c ≤ s.fabric)) ((s.setCtx n c').commitGo n) s

/-- Ranks are taken to have failed. -/
def Ctx.lose (c : Ctx) (rs : List Nat) (now : Nat) : Ctx :=
  { c with failed := rs.foldl (fun m r => if (sfind m r).isSome then m else sins m r now) c.failed }

/-- COMMIT_TIMEOUT (R362): the commit timeout has passed at the root without every READY. -/
def execCommitTimeout (s : State) : Host.Outcome State Fault Refusal :=
  match s.resCtx with
  | none => .next s
  | some (n, c) =>
    let g := s.group c 0
    match c.com.trig with
    | none => .next s
    | some (t, _) =>
      let lost := (s.heads c g).filter fun r => (c.readyOf r).isNone
      let ms := (s.heads c g).filterMap c.readyOf
      let expel := ms.foldl (fun a m => Nat.lor a (leNat (m.part 0))) c.com.expel
      let k := if c.com.root then 3 else 1
      occurs (((s.liveRanks g).head? == some g.rank || c.com.root) && !c.com.ready && decide (t + k * s.commitTicks c ≤ s.fabric))
        ((s.setCtx n (c.lose lost s.now.toNat)).decideAs n false expel (c.com.split || ms.any (·.flag 1))) s

/-- The live ranks before this device's own that are not known to have failed. -/
def State.ranksBelow (s : State) (c : Ctx) (g : GEntry) : List Nat :=
  ((s.liveRanks g).takeWhile (· ≠ g.rank)).filter fun r => (sfind c.failed r).isNone

/-- ROOT_TAKEOVER (R366): twice the commit timeout has passed without a decision for the root, and for each further live rank below this one;
it is then the lowest remaining live rank, takes the root's place and sends QUERY (log 47). -/
def execRootTakeover (s : State) : Host.Outcome State Fault Refusal :=
  match s.resCtx with
  | none => .next s
  | some (n, c) =>
    let g := s.group c 0
    let below := s.ranksBelow c g
    match c.com.trig, s.commitCd c with
    | some (t, _), some (cid, d) =>
      let c' := c.lose below s.now.toNat
      let c' := { c' with com := { c'.com with root := true, ready := false, abort := true }, inbox := c.inbox.filter fun m => m.kind ≠ 5 }
      let hs := s.heads c' g
      let s' := (s.sendCtl c' g d.tile hs ⟨7, 0, cid, 0, 0, 0, 0, 0, 0, 0⟩ [[]]).setCtx n c'
      occurs (below ≠ [] && s.liveRank g g.rank && !c.com.root && decide (t + 2 * below.length * s.commitTicks c ≤ s.fabric) && s.roomSend d.tile hs.length)
        (s'.commitGo n) s
    | _, _ => .next s

/-- QUERY is answered: DECIDE COMMIT where this device has clicked the step, else READY of its own step with ABORT (R366). -/
def State.answerQuery (s : State) (a : CollAt) (h : Th) : State :=
  match s.rankOf a.g h.src with
  | none => s
  | some r =>
    if a.c.decided.contains (a.ch.step, true) then s.tellDecided a r
    else s.sendVerdict a.c a.g a.ch.cid a.d.tile [r] 5 a.c.com.expel a.c.com.split true 0

/-- QUERY (R366). It waits while no send descriptor is free for the answer. -/
def execQuery (p : Fin 25) (hop : Bool) (s : State) : Host.Outcome State Fault Refusal :=
  s.recvPkt p hop 0 0x03 (fun b => fieldLe b 32 1 == 7)
    (fun s b _ => match s.resCtx with
      | some (_, c) => !s.roomSend (s.cd c (Ch.ofBytes (b.drop 32)).cid).tile 1
      | none => false)
    fun s b h => s.withColl b h fun a => (s.answerQuery a h).ack h

/-- Ticks of a millisecond. -/
def msTicks : Nat := ticksPerSec / 1000

/-- A rank is a lost device that belongs to no replica, or its replica is to be expelled (R366). -/
def State.loseRank (s : State) (n : Nat) (c : Ctx) (g : GEntry) (r : Nat) : State :=
  match s.replAt g r with
  | none => s.stopCtx n 0x0A
  | some idx => (s.setCtx n { c with failed := sdel c.failed r }).decideAs n false (2 ^ idx) false

/-- REJOIN_LIMIT_EXPIRY (R366): at the root, a failed rank has not rejoined within CR_REJOIN. -/
def execRejoinLimitExpiry (rank : BitVec 16) (s : State) : Host.Outcome State Fault Refusal :=
  match s.resCtx with
  | none => .next s
  | some (n, c) =>
    let g := s.group c 0
    let root := ((s.liveRanks g).filter fun r => (sfind c.failed r).isNone).head? == some g.rank
    match sfind c.failed rank.toNat with
    | none => .next s
    | some t => occurs (root && s.liveRank g rank.toNat && decide (t + c.rr.rejoin * msTicks ≤ s.now.toNat)) (s.loseRank n c g rank.toNat) s

/-! Digests (R367, R368, R411) -/

/-- An exchange is due in this step (R362). -/
def Ctx.exchangeDue (c : Ctx) : Bool :=
  (c.step.toNat + 1) % (if c.rr.digestn = 0 then 16 else c.rr.digestn) == 0

/-- The other live ranks of a group. -/
def State.others (s : State) (g : GEntry) : List Nat := (s.liveRanks g).filter (· ≠ g.rank)

/-- The granules are read and checked and the digest is computed; poison, or the core-poison flag, is consumed (R367, R403, R411). -/
def State.hashShard (s : State) (n : Nat) (c : Ctx) (i : CInst) (g : GEntry) : State :=
  let ds := s.digestList i.d.stage
  let dg := s.digestOf c.rr.job c.step (c.step + 1) ds
  let r := s.readShard (c.step + 1) ds
  let bad := r.1 || c.corePoison
  r.2.setCtx n { c with com := { c.com with digest := some dg, digests := sins c.com.digests g.rank dg, descs := ds, abort := c.com.abort || bad,
                                            forPoison := c.com.forPoison || bad } }

/-- The value that more than half of the live members hold (R368). -/
def majority (vs : List (List Byte)) : Option (List Byte) := vs.find? fun v => vs.length < 2 * (vs.filter (· == v)).length

/-- Every digest is compared: the minority's replica indices, or SPLIT (R368). -/
def State.compareDigests (s : State) (c : Ctx) (g : GEntry) : Ctx :=
  let vs := (s.liveRanks g).filterMap fun r => (sfind c.com.digests r).map fun v => (r, v)
  match majority (vs.map Prod.snd) with
  | none => { c with com := { c.com with exchanged := true, split := true } }
  | some m => { c with com := { c.com with exchanged := true, expel := Nat.lor c.com.expel (rankMap ((vs.filter fun v => v.2 ≠ m).map Prod.fst)) } }

/-- DIGEST goes on: hash, send to the next member, compare; a digest missing at the timeout is a failure of its sender (R362, R368). -/
def State.digestGo (s : State) (n : Nat) (c : Ctx) (i : CInst) : State :=
  let g := s.groupOf c i
  let os := s.others g
  let limit := if i.d.dline = 0 then 2 ^ 24 else i.d.dline
  match c.com.digest with
  | none => s.hashShard n c i g
  | some dg =>
    if !c.exchangeDue || c.com.exchanged then s
    else match os[i.sent]? with
      | some r =>
        if !s.roomSend i.d.tile 1 then s
        else (s.sendCtl c g i.d.tile [r] ⟨4, 0, i.cid, i.inst, 0, 0, 0, 0, 0, 0⟩ [dg]).setInstance n { i with sent := i.sent + 1 }
      | none =>
        let missing := os.filter fun r => (sfind c.com.digests r).isNone
        if missing.isEmpty then s.setCtx n (s.compareDigests c g)
        else if i.began + limit ≤ s.now.toNat then
          let c := c.lose (missing.filterMap fun r => s.rankOf (s.group c 0) (s.devAt g r)) s.now.toNat
          s.setCtx n { c with com := { c.com with abort := true, exchanged := true } }
        else s

/-- DIGEST (R367, R368): the running instance of descriptor `cid` goes on. -/
def execDigest (cid : BitVec 10) (s : State) : Host.Outcome State Fault Refusal :=
  match s.resCtx with
  | none => .next s
  | some (n, c) =>
    match c.inst cid.toNat with
    | none => .next s
    | some i => occurs (i.d.op == 6) (s.digestGo n c i) s

/-- DIGEST_PACKET (R368): a member's digest arrives. -/
def execDigestPacket (p : Fin 25) (hop : Bool) (s : State) : Host.Outcome State Fault Refusal :=
  s.recvPkt p hop 0 0x03 (fun b => fieldLe b 32 1 == 4) (fun _ _ _ => false) fun s b h => s.withColl b h fun a =>
    if a.age = 0 then s.ack h else if a.age = 2 then s.nack h 0 1
    else s.takeCtl a b h fun s m => match sfind s.ctxs a.n with
      | none => s
      | some c => s.setCtx a.n { c with com := { c.com with digests := sins c.com.digests a.ch.srank ((m.part 0).take 64) } }

/-- A DIGEST instance is complete: its digest is held, and every digest compared where the exchange is due (R362). -/
def Ctx.digestDone (c : Ctx) (i : CInst) : Bool := i.d.op == 6 && c.com.digest.isSome && (!c.exchangeDue || c.com.exchanged)

/-- COLLECTIVE_COMPLETE (R343, R355 to R357) of the running instance of descriptor `cid`. -/
def execCollectiveComplete (cid : BitVec 10) (s : State) : Host.Outcome State Fault Refusal :=
  match s.resCtx with
  | none => .next s
  | some (n, c) =>
    match c.inst cid.toNat with
    | none => .next s
    | some i =>
      if s.instComplete c i && s.statusHeld i then .next s
      else if s.instComplete c i then .next (s.completeData n c i)
      else
        let c' := { c with running := c.running.filter fun j => j.cid ≠ i.cid }
        let s' := (s.setCtx n c').writeStatus n i 0
        occurs (c.digestDone i && !s.statusHeld i) (s'.setTile i.d.tile ((s'.tile i.d.tile).inc i.d.done 1)) s

end Sys2Proof.Machine
end

