-- ==== Sys2Proof/Machine/ArrayFault.lean ====
section
/-! DEFINITION. Machine/ArrayFault.lean: commit groups and their residue checks, retry, move and fence, the fault watch, the
drift watch, and defect signatures (R120 to R127, R141, R156 to R158, R414 to R418, R433 to R437). Logs 50 and 51 say what
the spec leaves open. -/

namespace Sys2Proof.Machine

/-! Defect signatures (R435 to R437) -/

/-- A capture of an array's work: what it computed, and from what (R435, R436). -/
structure Capture where
  op : Nat
  fmts : Nat
  klen : Nat
  kblk : Nat
  plane : Plane
  rows : List (List (Nat × Int))
  init : List ASum
  sums : List ASum

/-- A code and a mantissa as two bytes. -/
def cellBytes (p : Nat × Int) : List Byte := [BitVec.ofNat 8 p.1, BitVec.ofNat 8 (unsgn p.2 8)]

/-- The payload: the plane's cells by row and column, the moving rows, the initial sums and the sums that the array produced (R436,
log 51). -/
def Capture.payload (c : Capture) : List Byte :=
  ((List.range 32768).flatMap fun i => cellBytes (sget (cellDefault c.plane.junk) c.plane.cells i)) ++
    c.rows.flatMap (fun r => r.flatMap cellBytes) ++ c.init.flatMap (fun a => natLe 8 (asumToWord a).toNat) ++
    c.sums.flatMap fun a => natLe 8 (asumToWord a).toNat

/-- The header of a signature (R436). -/
def State.sigHeader (s : State) (cause unit stage p : Nat) (c : Capture) (plen : Nat) : List Byte :=
  packFields 64 [(0, 1, 1), (1, 1, cause), (2, 1, unit), (3, 1, stage), (4, 2, p), (6, 1, c.op), (7, 1, c.fmts), (8, 2, c.klen), (10, 2, c.kblk),
    (12, 2, s.vq (p / 17)), (14, 2, unsgn (sget (fun _ => (0 : Int)) s.power.tStop p) 16), (16, 8, s.now.toNat), (24, 8, s.fuses.serial.toNat),
    (32, 4, dutyWord s.power.duty), (36, 4, (match s.sec.image with | some i => i.ver.toNat | none => 0)), (40, 4, plen)]

/-- An hour in ticks. -/
def ticksPerHour : Nat := 3600 * ticksPerSec

/-- A signature is reported to both hosts; at most one per unit per hour is written to the flash event log (R437). -/
def State.signature (s : State) (cause unit stage p : Nat) (c : Capture) : State :=
  let pl := c.payload
  let h := s.sigHeader cause unit stage p c pl.length
  let idx := s.sigs.length
  let s := { s with sigs := s.sigs ++ [(h, pl)] }.event 0x07 0xFF [(0, 4, idx)] h
  let t := s.ptile p
  let fresh := match sfind t.sigAt unit with
    | some a => decide (a.toNat + ticksPerHour ≤ s.now.toNat)
    | none => true
  if fresh then (s.setPtile p { t with sigAt := sins t.sigAt unit s.now }).logEvent (.evSignature (h ++ pl))
  else s.setPtile p { t with sigCount := t.sigCount + 1 }

/-! A failed commit group (R156, R157, R414 to R418) -/

/-- A problem enters again from the first moving row of its first group that has not committed (R156). -/
def Prob.again (p : Prob) (rows fed tries due : Nat) : Prob :=
  { p with base := p.done * rows, entered := 0, due := due, rows := [], seen := max p.seen fed, tries := tries }

/-- Moving rows of problem `k` of which the first pass has entered. -/
def AInst.fedRows (q : AInst) (k : Nat) : Nat := (q.pr k).base + min (q.pr k).entered (q.o.moving - (q.pr k).base)

/-- The problems `ks` of an instruction are executed again on its plane `p` (R156, R157). -/
def AInst.again (q : AInst) (ks : List Nat) (p : Plane) (tries due : Nat) : AInst :=
  (ks.foldl (fun (a : AInst) k => a.setPr k ((a.pr k).again (groupRows a.o k) (a.fedRows k) tries due)) q
    |> fun a => { a with planes := if a.o.op = opDiag then [] else [p], cxAt := due + 64 })

/-- Planes of the discarded work that stand in neither register of the array, each once; a move loads its plane too (R156, R416). -/
def Arr.reloads (a : Arr) (n : Nat) (moved : Bool) : List Plane :=
  ((((a.q.drop n).filter fun q => q.o.op ≠ opDiag).map fun q => q.planes.headD Plane.init).dedup.filter fun p => moved || (p ≠ a.active && p ≠ a.shadow))

/-- The discarded work is executed again, on the array or on its sibling's grid: the problems `ks` of the instruction at place `n` and
every later instruction (R156, R157, R415). The ticks before it re-enters count as RETRY. -/
def State.reexecute (s : State) (t i n tries : Nat) (ks : List Nat) : State :=
  let ps := ((s.tile t).arr i).reloads n (tries == 2)
  let (s, back) := ps.foldl (fun (a : State × List (Plane × Plane)) p => let (s, p') := a.1.reloadPlane p; (s, a.2 ++ [(p, p')])) (s, [])
  let x := s.tile t
  let a := x.arr i
  let due := s.clk.etick + 1 + 64 * ps.length
  let redo := fun (q : AInst) ks =>
    let p := q.planes.headD Plane.init
    q.again ks ((back.find? fun b => b.1 = p).elim p Prod.snd) tries due
  let q := a.q.take n ++ (a.q.drop n).zipIdx.map fun q => redo q.1 (if q.2 = 0 then ks else q.1.o.probs)
  let x := x.setArr i { a with q := q, out := a.out || tries == 2, retryTo := due }
  s.setTile t (if tries = 2 then x.setArr (sibling i) { x.arr (sibling i) with guest := true } else x)

/-- An array carries a suspect mark (R417). -/
def State.isSuspect (s : State) (p i : Nat) : Bool :=
  match sfind (s.ptile p).suspect i with
  | some e => decide (s.now < e)
  | none => false

/-- What the failing group of problem `k` captured; of a .cx instruction its six folds. The sums as the array produced them are free
values (R435, logs 10 and 51). -/
def State.failCapture (s : State) (t i : Nat) (q : AInst) (k : Nat) : Capture :=
  let a := (s.tile t).arr i
  let o := q.o
  let rows := q.groupOf k
  let pl := q.planeOf 0
  let d := (o.operandOf k 0).1
  let mt := if k = 0 then pl.lo else pl.hi
  let off := 64 * k
  let init := if o.op = opDiag then rows.flatMap fun p => (p.2.passes.headD []).map fun _ => asEmpty else
    rows.flatMap fun p => (List.range (passes o.op)).flatMap fun j => (List.range (shapeOf o.op).cols).map fun c =>
    if o.acc then a.accOf (o.accRow p.1 j) (off + c) else asEmpty
  { op := o.op, fmts := d.fmt % 16 + 16 * (mt.elim 0 (·.fmt)), klen := o.r.klen,
    kblk := kblock ((d.kext o.r.otm).getD 8) mt, plane := pl,
    rows := rows.flatMap fun p => p.2.passes,
    init := init,
    sums := (List.range init.length).map fun k => asumOfWord (BitVec.ofNat 64 (Config.freeNat (s.freeCtr + k))) }

/-- The stage that a residue failure of the problems `ks` enters (R415, R417, R418). -/
def State.failStage (s : State) (t i : Nat) (q : AInst) (ks : List Nat) : Nat :=
  let x := s.tile t
  let p := s.ptile (s.plc.phys t)
  let twice := p.failAt.any fun f => f.1 == s.clk.etick && f.2 ≠ i && sibling f.2 == i && sibling i == f.2
  if twice || (List.range 3).any (fun j => (x.arr j).out) then 3
  else if ks.all fun k => (q.pr k).tries = 0 then (if s.isSuspect (s.plc.phys t) i then 3 else 1)
  else 2

/-- Commit groups of the problems `ks` fail with cause RESIDUE: logged, with a signature of the first, then retried, moved or fenced (R156,
R157, R415 to R418). -/
def State.residueFail (s : State) (t i n : Nat) (q : AInst) (ks : List Nat) : State :=
  let k := s.plc.phys t
  let stage := s.failStage t i q ks
  let c := s.failCapture t i q (ks.headD 0)
  let s := { s with freeCtr := s.freeCtr + c.sums.length }.logEvent (.evArrayFault k i stage 0)
  let s := s.setPtile k { s.ptile k with failAt := some (s.clk.etick, i), wchAbandon := (s.ptile k).wchAbandon + (if (s.ptile k).check.isSome then 1 else 0),
                                          check := none }
  let s := s.signature 0 i stage k c
  if stage = 3 then s.fenceNow k 0 else s.reexecute t i n stage ks

/-- The groups that are due of the next instruction to commit: those whose residue checks pass commit; those of the problems that `fail`
names are executed again (R141, R156, R157). -/
def State.tryCommit (s : State) (t i fail : Nat) : Except JF State :=
  let a := (s.tile t).arr i
  match a.committing with
  | none => .ok s
  | some n => do
    let q := a.q.getD n AInst.blank
    let ks := s.commitProbs t q
    let bad := ks.filter fun k => bitOf fail k || (!isSplit q.o.op && fail ≠ 0)
    let s ← (ks.filter fun k => !bad.contains k).foldl (fun e k => do (← e).commitAt t i n k) (.ok s)
    if bad.isEmpty then .ok s else .ok (s.residueFail t i n { ((s.tile t).arr i).q.getD n AInst.blank with sel := none } bad)

/-- COMMIT_GROUP (R141, R156): the next group of array `a`, of each problem that has one due. Bit k of `fail`: a check of problem k fails, as the hardware finds. -/
def execCommitGroup (t : Fin 64) (a : Fin 3) (fail : BitVec 2) (s : State) : Host.Outcome State Fault Refusal :=
  occurs (s.commitDue t a) (s.orFault t (s.tryCommit t a fail.toNat)) s

/-! The fault watch (R120 to R124) -/

/-- TOURBILLON_SELECT (R120): the countdown of physical tile `p` has reached zero, so that the next output tile of the pointed array is
selected. Where the pointed array has taken no output tile since the last selection, the pointer moves on. An output tile that enters
first does the same. -/
def execTourbillonSelect (p : Fin 68) (s : State) : Host.Outcome State Fault Refusal :=
  let x := s.ptile p
  occurs (s.watchOn && x.tour.count == 0) (s.setPtile p { x with tour := x.tour.arm s.tourPeriod 3 }) s

/-- The schedule leaves something idle in this tick on which the watch may recompute what array `i` of tile `t` produced: another array, or
the vector engine where the V slot issues nothing (R122, R208). -/
def State.watchIdle (s : State) (t i : Nat) : Bool :=
  let x := s.tile t
  (List.range 3).any (fun j => j != i && (x.arr j).feeding.isNone && (x.arr j).loads.isEmpty) || (x.vupd.isNone && decide (x.vAt ≠ s.clk.etick))

/-- WATCH_CHECK (R122): the block partials of the captured tile have been recomputed in idle ticks, this the last of them. -/
def execWatchCheck (p : Fin 68) (s : State) : Host.Outcome State Fault Refusal :=
  let x := s.ptile p
  match x.check with
  | none => .next s
  | some c => occurs (s.watchOn && !c.done && s.clk.enabled && s.watchIdle c.ltile c.arr) (s.setPtile p { x with check := some { c with done := true } }) s

/-- An aligned sum's value in units of 2^b. -/
def ASum.val (a : ASum) (b : Int) : Int := a.s * (2 ^ (a.e - b).toNat : Nat)

/-- The least k with x ≤ 2^k. -/
def ceilLog2 (x : Nat) : Nat := if x ≤ 1 then 0 else Nat.log2 (x - 1) + 1

/-- R123: an element fails its check. `init` and `parts` are the operands, `d` the array's result. The rule's words are taken as they
stand: with one nonzero operand or none the bound B is 0, and |D − V| ≥ 0 always holds (log 50). -/
def watchFails (init : ASum) (parts : List ASum) (d : ASum) : Bool :=
  let ops := init :: parts
  let inv := ops.any (·.inv)
  if inv || d.inv then inv != d.inv
  else
    let nz := ops.filter fun a => a.s ≠ 0
    if nz.length ≤ 1 then true
    else
      let all := if d.s = 0 then nz else d :: nz
      let b := all.foldl (fun m a => min m a.e) ((nz.headD asEmpty).e)
      let emax := nz.foldl (fun m a => max m a.e) ((nz.headD asEmpty).e)
      let v := (nz.map fun a => a.val b).sum
      let mag := (nz.map fun a => (a.val b).natAbs).sum
      let eh := max emax (ceilLog2 mag + b - 29)
      let diff := ((if d.s = 0 then 0 else d.val b) - v).natAbs
      decide (13 * (nz.length - 1) * 2 ^ (eh - b).toNat ≤ 16 * diff) || (d.s ≠ 0 && decide (eh < d.e))

/-- A watch failure (R124, R417): the step is to abort and the array is suspect for 24 hours; a suspect one fences its tile. -/
def State.watchFail (s : State) (k : Nat) (c : Check) (sums : List ASum) : State :=
  let again := s.isSuspect k c.arr
  let s := s.logEvent (.evArrayFault k c.arr (if again then 3 else 0) 1)
  let s := s.signature 1 c.arr 0 k ⟨c.op, c.fmts, c.klen, c.kblk, c.plane, c.rows, c.elems.map (·.1), sums⟩
  if again then s.fenceNow k 1
  else
    let x := s.ptile k
    let s := s.setPtile k { x with suspect := sins x.suspect c.arr (s.now + BitVec.ofNat 64 (24 * ticksPerHour)) }
    match s.resCtx with
    | none => s
    | some (n, cx) => s.setCtx n { cx with com := { cx.com with abort := true } }

/-- WATCH_CHECK_COMPLETE (R123, R124). `wrong`: the elements, by number, whose sums the array has computed wrongly, with those
sums. -/
def execWatchCheckComplete (p : Fin 68) (wrong : List (Nat × Nat)) (s : State) : Host.Outcome State Fault Refusal :=
  let x := s.ptile p
  match x.check with
  | none => .next s
  | some c =>
    let sums := c.elems.zipIdx.map fun e => match wrong.find? fun w => w.1 = e.2 with
      | some w => asumOfWord (BitVec.ofNat 64 w.2)
      | none => e.1.2.2
    let bad := (c.elems.zip sums).any fun e => watchFails e.1.1 e.1.2.1 e.2
    let s' := s.setPtile p { x with check := none, wchDone := x.wchDone + 1, wchFail := x.wchFail + (if bad then 1 else 0) }
    occurs (s.watchOn && c.done) (if bad then s'.watchFail p c sums else s') s

/-- ARRAY_SUSPECT_EXPIRY (R417): a suspect mark runs out. -/
def execArraySuspectExpiry (p : Fin 68) (a : Fin 3) (s : State) : Host.Outcome State Fault Refusal :=
  let x := s.ptile p
  match sfind x.suspect a with
  | none => .next s
  | some e => occurs (decide (e ≤ s.now)) (s.setPtile p { x with suspect := sdel x.suspect a }) s

/-! The drift watch (R125 to R127) -/

/-- An exact quantity rounded once to FP32 (R126). -/
def driftF (n : Nat) (e : Int) : Nat := (if 0 ≤ e then roundRat (n * 2 ^ e.toNat) 1 else roundRat n (2 ^ (-e).toNat)).toNat

/-- The drift record of a sampled block (R125, R126). An invalid source element counts among the nonzero ones (log 50). -/
def DriftBlk.bytes (b : DriftBlk) : List Byte :=
  let code := b.out.code
  let k : Int := if code = 0 then -126 else (code : Int) - 127
  let nz := (b.src.filter fun a => a.inv || a.s ≠ 0).length
  let base := b.src.foldl (fun m a => if a.s = 0 then m else min m a.e) k
  -- everything in units of 2^base
  let err := (b.src.zip b.out.m).map fun (p : ASum × Int) =>
    Int.natAbs (p.2 * (2 ^ (k - base).toNat : Nat) - (if p.1.s = 0 then 0 else p.1.val base))
  let val := b.src.map fun a => if a.s = 0 then 0 else (a.val base).natAbs
  let two := 2 * (base - k)
  let inv := code = 0xFF
  let f := fun (w : Nat) => if inv then 0x7FC00000 else w
  packFields 32 [(0, 4, b.tid), (4, 4, b.step.toNat), (8, 8, b.blk), (16, 1, code), (17, 1, b2n b.grad + 2 * b2n (b.fmt == 1)),
    (18, 1, min 255 b.out.flush), (19, 1, nz), (20, 4, f (driftF (err.map fun e => e * e).sum two)), (24, 4, f (driftF (val.map fun e => e * e).sum two)),
    (28, 4, f (driftF (err.foldl max 0) (base - k)))]

/-- The record joins the context's drift ring. -/
def State.driftPut (s : State) (b : DriftBlk) : State :=
  match s.resCtx with
  | none => s
  | some (n, c) =>
    if c.rr.drsize < 32 then s
    else (s.rawWrite (c.rr.drift + c.driftAt % (c.rr.drsize / 32) * 32) b.bytes).setCtx n { c with driftAt := c.driftAt + 1 }

/-- DRIFT_SAMPLE (R125): a selected block's record is appended; else, where the drift countdown has reached zero, the next fresh block of
the pointed unit is selected. -/
def execDriftSample (p : Fin 68) (s : State) : Host.Outcome State Fault Refusal :=
  let x := s.ptile p
  match x.driftBlk with
  | b :: bs => occurs s.driftOn ((s.setPtile p { x with driftBlk := bs }).driftPut b) s
  | [] => occurs (s.driftOn && x.drift.count == 0) (s.setPtile p { x with drift := x.drift.arm s.driftPeriod 4 }) s

end Sys2Proof.Machine
end

