-- ==== Sys2Proof/Machine/HostCmd.lean ====
section
/-! DEFINITION. Machine/HostCmd.lean: command authority, the doorbell poll, rings, DMA, test content and firmware
commands of the host interface (16_host_interface.md, R431, R504, R510, R543). -/

namespace Sys2Proof.Machine

/-- Status codes of R483. -/
def stOk : Nat := 0x00
/-- INVALID_FIELD. -/
def stField : Nat := 0x02
/-- NO_AUTHORITY. -/
def stNoAuth : Nat := 0x03
/-- ACCESS_DENIED. -/
def stDenied : Nat := 0x04
/-- CONTEXT_STATE. -/
def stCtx : Nat := 0x07
/-- NO_RESOURCE. -/
def stNoRes : Nat := 0x08
/-- AUTH_FAILED. -/
def stAuthFail : Nat := 0x0A
/-- HOST_ERROR. -/
def stHost : Nat := 0x0B

/-- The checks every started command shares: a reserved field or a bad context index (INVALID_FIELD), then
authority where the command needs it (R482). -/
def State.gate (s : State) (p : Nat) (f : Fetched) : Nat :=
  if f.e.rsv ≠ 0 || (f.e.ctx ≥ 8 && f.e.ctx ≠ 0xFF) then stField
  else if needsAuth f.e.opc && !s.auth p then stNoAuth
  else stOk

/-- A command of the table starts: nothing happens unless it is at the front of its ring and may start (log 1);
a command refused by the shared checks completes with their status. -/
def startCmd (p r opc : Nat) (s : State) (run : Fetched → State) : Host.Outcome State Fault Refusal :=
  match s.front p r opc with
  | none => .next s
  | some f => .next (if s.gate p f = stOk then run f else s.finish p r f (s.gate p f) 0 0)

/-- Authority ends: queued commands marked A are withdrawn and both ports get an AUTHORITY event (R493). -/
def State.loseLease (s : State) (cause : Nat) : State :=
  match s.lease with
  | none => s
  | some l =>
    let s := { s with lease := none }
    let s := s.setHost l.holder ((s.host l.holder).withdraw s.now false)
    s.event 0x0B 0xFF [(0, 1, 0xFF), (1, 1, cause)] []

/-- An expired lease ends (R493). -/
def State.expireLease (s : State) : State :=
  match s.lease with
  | none => s
  | some l => if l.expiry ≤ s.now then s.loseLease 2 else s

/-- Ticks in a millisecond. -/
def ticksPerMs : Nat := 1100000

/-- The device time a term of `ms` milliseconds from now. -/
def State.after (s : State) (ms : Nat) : W64 := s.now + BitVec.ofNat 64 (ms * ticksPerMs)

/-- LEASE_ACQUIRE processed (R491). -/
def State.acquire (s : State) (p r : Nat) (f : Fetched) : State :=
  let term := f.e.arg0
  if term < 100 || 60000 < term then s.finish p r f stField 0 0
  else
    let s := s.expireLease
    let exp := s.after term
    match s.lease with
    | some l =>
      if l.holder = p then { s with lease := some ⟨p, exp, term⟩ }.finish p r f stOk exp.toNat 0
      else s.finish p r f stNoAuth 0 0
    | none =>
      let s := { s with lease := some ⟨p, exp, term⟩ }.finish p r f stOk exp.toNat 0
      s.event 0x0B 0xFF [(0, 1, p), (1, 1, 0)] []

/-- LEASE_RENEW processed: the expiry moves to the processing time plus the lease's term (R491, log 27). -/
def State.renew (s : State) (p r : Nat) (f : Fetched) : State :=
  match s.lease with
  | some l =>
    if s.auth p then { s with lease := some { l with expiry := s.after l.term } }.finish p r f stOk (s.after l.term).toNat 0
    else s.finish p r f stNoAuth 0 0
  | none => s.finish p r f stNoAuth 0 0

/-- LEASE_RELEASE processed (R493): its completion, then the loss of authority. -/
def State.release (s : State) (p r : Nat) (f : Fetched) : State :=
  if s.auth p then (s.finish p r f stOk 0 0).loseLease 1 else s.finish p r f stNoAuth 0 0

/-- Opcodes of the lease commands. -/
def isLease (o : Nat) : Bool := o == 2 || o == 3 || o == 4

/-- The lease command at the front of ring `r`, when its round has ended (R492). -/
def State.leaseFront (s : State) (p r : Nat) : Option Fetched :=
  match (s.host p).startable r with
  | none => none
  | some f => if isLease f.e.opc && decide (f.at_.toNat / 275 < s.now.toNat / 275) then some f else none

/-- The round of device time to which a fetched command belongs (R492). -/
def Fetched.round (f : Fetched) : Nat := f.at_.toNat / 275

/-- The next lease command of a port in fetch order: its ring, and the command. -/
def State.nextLeaseOn (s : State) (p : Nat) : Option (Nat × Fetched) :=
  (List.range 16).foldl (fun acc r => match s.leaseFront p r, acc with
    | none, _ => acc
    | some f, none => some (r, f)
    | some f, some (r', g) => if f.order < g.order then some (r, f) else some (r', g)) none

/-- The next lease command to be processed: the earliest round's, in a round port 0's first (R492). -/
def State.nextLease (s : State) : Option (Nat × Nat) :=
  match s.nextLeaseOn 0, s.nextLeaseOn 1 with
  | some (r, f), some (r', g) => if g.round < f.round then some (1, r') else some (0, r)
  | some (r, _), none => some (0, r)
  | none, b => b.map fun q => (1, q.1)

/-- Process the lease command at the front of a ring (R482, R491 to R493). -/
def State.processLease (s : State) (p r : Nat) : State :=
  match s.leaseFront p r with
  | none => s
  | some f =>
    if f.e.rsv ≠ 0 || (f.e.ctx ≥ 8 && f.e.ctx ≠ 0xFF) then s.finish p r f stField 0 0
    else if f.e.opc = 2 then s.acquire p r f
    else if f.e.opc = 3 then s.renew p r f
    else s.release p r f

/-- One lease command is processed, where it is the next of its round and has the opcode named (R492). -/
def leaseRow (opc : Nat) (p r : Nat) (s : State) : Host.Outcome State Fault Refusal :=
  occurs (s.up && s.nextLease == some (p, r) &&
    (match s.leaseFront p r with | some f => f.e.opc == opc | none => false)) (s.processLease p r) s

/-- LEASE_ACQUIRE. -/
def execLeaseAcquire (p : Fin 2) (r : Fin 16) (s : State) : Host.Outcome State Fault Refusal := leaseRow 2 p r s
/-- LEASE_RENEW. -/
def execLeaseRenew (p : Fin 2) (r : Fin 16) (s : State) : Host.Outcome State Fault Refusal := leaseRow 3 p r s
/-- LEASE_RELEASE. -/
def execLeaseRelease (p : Fin 2) (r : Fin 16) (s : State) : Host.Outcome State Fault Refusal := leaseRow 4 p r s

/-- Process the lease commands of the rounds that have ended, one after another. -/
def State.leaseAll : Nat → State → State
  | 0, s => s
  | n + 1, s =>
    match s.nextLease with
    | none => s
    | some (p, r) => (s.processLease p r).leaseAll n

/-- LEASE_ROUND (R492). -/
def execLeaseRound (s : State) : Host.Outcome State Fault Refusal := occurs s.up (s.leaseAll 131072) s

/-- LEASE_EXPIRY (R493). -/
def execLeaseExpiry (s : State) : Host.Outcome State Fault Refusal :=
  occurs (match s.lease with | some l => decide (l.expiry ≤ s.now) | none => false) s.expireLease s

/-! The doorbell poll -/

/-- HIF_POLL.NS in ticks, rounded up to a multiple of 10 ns = 11 ticks (R472). -/
def State.pollTicks (s : State) (p : Nat) : Nat := cdiv (s.reg (hifKey p 0x24) % 65536) 10 * 11

/-- A 64-bit address that a port's register pair holds. -/
def State.hifAddr (s : State) (p off : Nat) : Nat := s.reg (hifKey p off) + 2 ^ 32 * s.reg (hifKey p (off + 4))

/-- Fetch the entries of ring `r` up to its tail, in order (R476, R477, R481); `h` is host memory as read. -/
def HostPort.fetchRing (hp : HostPort) (r : Nat) (h : Mem) (now : W64) : Nat → HostPort
  | 0 => hp
  | n + 1 =>
    match sfind hp.rings r with
    | none => hp
    | some g =>
      if g.sqHead = g.sqTail || g.error || 256 ≤ hp.busy then hp
      else
        let e := SqEntry.ofBytes (rdBytes h (g.sqBase + g.sqHead.toNat % 2 ^ g.sqLog * 64) 64)
        let f : Fetched := ⟨e, g.sqHead + 1, hp.order, now⟩
        ({ hp with order := hp.order + 1,
                   rings := sins hp.rings r { g with sqHead := g.sqHead + 1, fetched := g.fetched ++ [f] } }).fetchRing r h now n

/-- One word of the doorbell block (R475, R476): the ring and whether it enters ERROR. -/
def Ring.doorbell (g : Ring) (w : Nat) : Ring × Bool :=
  let tail := BitVec.ofNat 16 w
  let head := BitVec.ofNat 16 (w / 65536)
  let bad := 2 ^ g.sqLog < (tail - g.sqHead).toNat || (g.cqTail - g.cqHead).toNat < (head - g.cqHead).toNat
  if g.error then (g, false) else if bad then ({ g with error := true }, true)
  else ({ g with sqTail := tail, cqHead := head }, false)

/-- The block's word for one ring: a ring that enters ERROR raises RING_ERROR and HIF_ERR.RING (R476). -/
def State.ringWord (s : State) (p : Nat) (h : Mem) (dbb : Nat) (r : Nat) : State :=
  match sfind (s.host p).rings r with
  | none => s
  | some g =>
    let (g, err) := g.doorbell (rdLe h (dbb + 4 * r) 4)
    let s := s.setHost p { s.host p with rings := sins (s.host p).rings r g }
    if err then (s.raiseOn p ⟨0x10, s.now, 0xFF, packFields 44 [(0, 1, r)], []⟩).hifErr p 2 else s

/-- After the block: completions and events that waited for space, new entries, and entries with reserved opcodes. -/
def State.pollRing (s : State) (p : Nat) (h : Mem) (r : Nat) : State :=
  let hp := (s.host p).settle r s.now
  let hp := hp.fetchRing r h s.now 65536
  s.setHost p (hp.rejectUnknown r s.now 65536)

/-- DOORBELL_POLL (R475 to R477): one period of HIF_POLL.NS. `ok` is false where the block read fails; `h` is host
memory as the device reads it (log 5). -/
def execDoorbellPoll (p : Fin 2) (ok : Bool) (h : List Host.Cell) (s : State) : Host.Outcome State Fault Refusal :=
  let hp := s.host p
  let due := { hp with pollDue := s.now + BitVec.ofNat 64 (s.pollTicks p) }
  let s1 := s.setHost p due
  occurs (s.up && hp.enrdy && !hp.quiesce && decide (hp.pollDue ≤ s.now))
    (if !ok then s1.hifErr p 1
     else
      let s2 := (List.range 16).foldl (fun a r => a.ringWord p h (s.hifAddr p 0x08) r) s1
      (List.range 16).foldl (fun a r => a.pollRing p h r) s2) s

/-! Commands that only complete, and rings -/

/-- Bytes the device writes to host memory. -/
def State.toHost (s : State) (p addr : Nat) (b : List Byte) : State :=
  s.setHost p { s.host p with hostMem := wrBytes (s.host p).hostMem addr b }

/-- NOP (R482). -/
def execHostNop (p : Fin 2) (r : Fin 16) (s : State) : Host.Outcome State Fault Refusal :=
  startCmd p r 0x00 s fun f => s.finish p r f stOk 0 0

/-- The identify page of R498. -/
def State.identifyPage (s : State) : List Byte :=
  let ver := match s.sec.image with | some i => i.ver.toNat | none => 0
  let spares := ((List.range 4).filter fun q => (s.plc.freeSpare q).isSome).length
  packFields 4096 [(0, 8, s.fuses.serial.toNat), (8, 4, ver), (12, 4, s.flash.select.1), (16, 16, s.fuses.tiles.toNat),
    (32, 4, spares), (36, 8, hbmAvail), (44, 2, s.reg 0x20008), (46, 1, 8), (47, 1, 16)]

/-- IDENTIFY (R482, R498). -/
def execIdentify (p : Fin 2) (r : Fin 16) (s : State) : Host.Outcome State Fault Refusal :=
  startCmd p r 0x01 s fun f => (s.toHost p f.e.addr0 s.identifyPage).finish p r f stOk 0 0

/-- Fields of CREATE_RING in their ranges; argument bits R482 does not list are reserved (R480, R482, log 28). -/
def createOk (e : SqEntry) : Bool :=
  1 ≤ e.arg0 && e.arg0 ≤ 15 && e.addr0 % 64 == 0 && e.addr1 % 64 == 0 && e.arg1 < 256 && e.arg1 % 16 ≤ 11 &&
    e.arg1 / 16 ≤ 11 && e.arg2 < 2 ^ 32 && e.arg2 % 256 < 64

/-- The new ring of CREATE_RING. -/
def ringOf (e : SqEntry) : Ring :=
  Ring.fresh e.addr0 e.addr1 (e.arg1 % 16 + 4) (e.arg1 / 16 + 4) (e.arg2 % 256) (e.arg2 / 256 % 256) (e.arg2 / 65536)

/-- CREATE_RING (R482). -/
def execCreateRing (p : Fin 2) (r : Fin 16) (s : State) : Host.Outcome State Fault Refusal :=
  startCmd p r 0x05 s fun f =>
    if !createOk f.e then s.finish p r f stField 0 0
    else if (sfind (s.host p).rings f.e.arg0).isSome then s.finish p r f stNoRes 0 0
    else s.setHost p { s.host p with rings := sins (s.host p).rings f.e.arg0 (ringOf f.e) } |>.finish p r f stOk 0 0

/-- Remove a ring: its queued commands complete with WITHDRAWN and its started DMAs with their statuses while
the queue has space; then the ring is gone (R476, R482, R483, log 28). -/
def HostPort.dropRing (h : HostPort) (k : Nat) (now : W64) : HostPort :=
  match sfind h.rings k with
  | none => h
  | some g =>
    let h := { h with rings := sins h.rings k { g with fetched := [], started := [] } }
    let h := g.started.foldl (fun a x => match x with
      | .dma f st => a.complete k now (f.done st 0 0)
      | .ctxStop _ => a) h
    let h := g.fetched.foldl (fun a f => a.complete k now (f.done 0x0C 0 0)) h
    { h with rings := sdel h.rings k }

/-- DELETE_RING (R482). -/
def execDeleteRing (p : Fin 2) (r : Fin 16) (s : State) : Host.Outcome State Fault Refusal :=
  startCmd p r 0x06 s fun f =>
    let k := f.e.arg0
    if k < 1 || 15 < k || (sfind (s.host p).rings k).isNone then s.finish p r f stField 0 0
    else if k = r then
      let s := s.finish p r f stOk 0 0
      s.setHost p ((s.host p).dropRing k s.now)
    else s.setHost p ((s.host p).dropRing k s.now) |>.finish p r f stOk 0 0

/-- A power of two from 16 to 65,536. -/
def evCountOk (n : Nat) : Bool := 16 ≤ n && n ≤ 65536 && 2 ^ Nat.log2 n == n

/-- SET_EVENT_BUFFER (R482, R495, R497): the backlog is then delivered. -/
def execSetEventBuffer (p : Fin 2) (r : Fin 16) (s : State) : Host.Outcome State Fault Refusal :=
  startCmd p r 0x07 s fun f =>
    if f.e.addr0 % 128 ≠ 0 || !evCountOk f.e.arg0 then s.finish p r f stField 0 0
    else
      let s := s.finish p r f stOk 0 0
      s.setHost p ({ s.host p with evBuf := f.e.addr0, evLen := f.e.arg0 }.drain s.now 512)

/-- RES0 and RES1 of CTX_QUERY (R482). -/
def Ctx.query (c : Ctx) : Nat × Nat :=
  (c.st.code + 2 ^ 8 * c.status + 2 ^ 32 * c.step.toNat, c.miss.toNat + 2 ^ 32 * c.ovr.toNat)

/-- The registered context a command names. -/
def State.ctxOf (s : State) (e : SqEntry) : Option Ctx := if e.ctx < 8 then sfind s.ctxs e.ctx else none

/-- CTX_QUERY (R482). -/
def execCtxQuery (p : Fin 2) (r : Fin 16) (s : State) : Host.Outcome State Fault Refusal :=
  startCmd p r 0x23 s fun f => match s.ctxOf f.e with
    | none => s.finish p r f stCtx 0 0
    | some c => s.finish p r f stOk c.query.1 c.query.2

/-! Test content and firmware -/

/-- R430: the header of a package, with its stated fields in range and its reserved fields zero. -/
def tcHeaderOk (b : List Byte) : Bool :=
  fieldLe b 0 4 == 1 && fieldLe b 16 1 ≤ 2 && fieldLe b 17 1 < 64 && fieldLe b 18 2 == 0 && fieldLe b 20 4 ≤ 8760 &&
    fieldLe b 28 4 == 0 && allZero ((b.drop 40).take 24) && b.length == 64 + fieldLe b 32 8 + 4627

/-- R543: the signature verifies under "VK3160 TC" with the key of a TEST_CONTENT certificate of the running image. -/
def tcVerify (i : Option Image) (b : List Byte) : Bool :=
  let n := 64 + fieldLe b 32 8
  match i with
  | none => false
  | some i => i.certs.any fun c => certRole c == 2 &&
      Config.mldsaVerify (certKey c) (sha3 (b.take n)) (ascii "VK3160 TC") (b.drop n)

/-- A package from its bytes, not yet run (R430). -/
def TcPkg.ofBytes (b : List Byte) : TcPkg :=
  { id := fieldLe b 8 8, rev := fieldLe b 4 4, kind := fieldLe b 16 1, units := fieldLe b 17 1, period := fieldLe b 20 4,
    wcet := fieldLe b 24 4, bytes := b, ran := [] }

/-- Hold a package: one with a higher TC_REV replaces the one of its TC_ID; at most 32, of 64 MiB together. The status of a refusal
otherwise (R430, R431, R504). -/
def State.tcPush (s : State) (b : List Byte) : Except Nat (SMap TcPkg) :=
  let k := TcPkg.ofBytes b
  let m := sins s.tc k.id k
  if (sfind s.tc k.id).any (fun o => decide (k.rev ≤ o.rev)) then .error stField
  else if 32 < m.length || 0x4000000 < (m.map fun p => p.2.bytes.length).sum then .error stNoRes
  else .ok m

/-- TC_PUSH (R430, R431, R543). `ok` is false where host memory cannot be read (R483, log 5). -/
def execTcPush (p : Fin 2) (r : Fin 16) (ok : Bool) (h : List Host.Cell) (s : State) : Host.Outcome State Fault Refusal :=
  startCmd p r 0x30 s fun f =>
    let b := rdBytes h f.e.addr0 f.e.len
    if !ok then s.finish p r f stHost 0 0
    else if !tcHeaderOk b then s.finish p r f stField 0 0
    else if !tcVerify s.sec.image b then s.finish p r f stAuthFail 0 0
    else match s.tcPush b with
      | .ok m => { s with tc := m }.finish p r f stOk 0 0
      | .error e => s.finish p r f e 0 0

/-- Bytes of one image slot (R507). -/
def slotSize : Nat := 0x800000

/-- An unconfirmed activation is cleared before the slot is written again (R510). -/
def State.clearTrial (s : State) : State :=
  let (active, trial, _, va, vb) := s.flash.select
  if trial = 0xFF then s else s.putSelect active 0xFF 0 va vb

/-- Write bytes into an image slot. -/
def Flash.writeSlot (f : Flash) (k off : Nat) (b : List Byte) : Flash :=
  let w := fun (m : SMap Byte) => (b.zipIdx off).foldl (fun m q => sput (fun _ => (0xFF : Byte)) m q.2 q.1) m
  if k = 0 then { f with slotA := w f.slotA } else { f with slotB := w f.slotB }

/-- FW_WRITE (R510). -/
def execFwWrite (p : Fin 2) (r : Fin 16) (ok : Bool) (h : List Host.Cell) (s : State) : Host.Outcome State Fault Refusal :=
  startCmd p r 0x50 s fun f =>
    if slotSize < f.e.arg0 + f.e.len then s.finish p r f stField 0 0
    else if !ok then s.finish p r f stHost 0 0
    else
      let s := s.clearTrial
      let k := 1 - s.flash.select.1
      { s with flash := s.flash.writeSlot k f.e.arg0 (rdBytes h f.e.addr0 f.e.len) }.finish p r f stOk 0 0

/-- FW_ACTIVATE (R510, R541): a SELECT record names the slot for three trial boots. -/
def execFwActivate (p : Fin 2) (r : Fin 16) (s : State) : Host.Outcome State Fault Refusal :=
  startCmd p r 0x51 s fun f =>
    let (active, _, _, _, _) := s.flash.select
    let k := 1 - active
    match verifySlot s.flash s.fuses k true with
    | none => s.finish p r f stAuthFail 0 0
    | some _ => (s.putSelect active k 3 (s.flash.slotVer 0) (s.flash.slotVer 1)).finish p r f stOk 0 0

/-- MSIX_COALESCE_TIMEOUT (R494): 1 µs is 1,100 ticks. -/
def execMsixCoalesceTimeout (p : Fin 2) (r : Fin 16) (s : State) : Host.Outcome State Fault Refusal :=
  match sfind (s.host p).rings r with
  | none => .next s
  | some g =>
    occurs (0 < g.irqCount && 0 < g.coalTime && decide (1100 * g.coalTime ≤ (s.now - g.irqSince).toNat))
      (s.setHost p ({ s.host p with rings := sins (s.host p).rings r { g with irqCount := 0 } }.sendMsix g.vector)) s

end Sys2Proof.Machine
end

