-- ==== Sys2Proof/Machine/CtxCmd.lean ====
section
/-! DEFINITION. Machine/CtxCmd.lean: registration, stopping and signalling contexts, windows and switches (R227, R339, R390,
R444 to R462, R484 to R486). Logs 46 and 52 say what the spec leaves open. -/

namespace Sys2Proof.Machine

/-! Registration (R227, R444 to R446) -/

/-- One past the last byte of HBM available to contexts (R221). -/
def hbmCtxEnd : Nat := 0x008FC0000000

/-- A range lies wholly in HBM available to contexts, or wholly in tile SRAM (R221). -/
def mapped (a n : Nat) : Bool := decide (a + n ≤ hbmCtxEnd) || (decide (sramBase ≤ a) && decide (a + n ≤ sramAt 64))

/-- Two ranges overlap. -/
def overlap (a b : Nat × Nat) : Bool := decide (a.1 < b.1 + b.2) && decide (b.1 < a.1 + a.2)

/-- No two ranges of a list overlap. -/
def disjoint (l : List (Nat × Nat)) : Bool := decide (l.Pairwise fun a b => overlap a b = false)

/-- The used entries of a region table, unless it fails R227. -/
def State.regionTable (s : State) (a : Nat) : Option (List Region) :=
  if hbmCtxEnd < a + 8192 then none
  else
    let es := (List.range 256).map fun k => rdBytes s.mem (a + 32 * k) 32
    let rs := (es.map fun b => (⟨fieldLe b 0 8, fieldLe b 8 8, fieldLe b 16 4⟩ : Region)).filter fun r => r.len ≠ 0
    if es.any (fun b => 32 ≤ fieldLe b 16 4 || fieldLe b 20 12 ≠ 0) ||
        rs.any (fun r => r.base % 4096 ≠ 0 || r.len % 4096 ≠ 0 || !mapped r.base r.len) || !disjoint (rs.map fun r => (r.base, r.len)) then none
    else some rs

/-- Every byte of a range lies in a region with all of some permission bits. -/
def coveredBy (rs : List Region) (flags : Nat) (a n : Nat) : Bool :=
  let p := (rs.length + 1).repeat (fun p => match rs.find? fun r => Nat.land r.flags flags == flags && decide (r.base ≤ p) && decide (p < r.base + r.len) with
    | some r => r.base + r.len
    | none => p) a
  decide (a + n ≤ p)

/-- Condition 1 of R445: a reserved field is nonzero, or a field outside its stated range (R184, R444). -/
def RegRec.outOfRange (r : RegRec) : Bool :=
  4 ≤ r.flags || r.rsv0 ≠ 0 || r.rsv1 ≠ 0 || r.tiles == 0 || r.wdog < 2 ^ 16 || r.maxlive % 4096 ≠ 0 || 2 ^ 26 < r.maxlive || 1024 < r.ncoll ||
    r.chunk % 16 ≠ 0 || r.chunk < 16 || 65536 < r.chunk || r.tc % 128 ≠ 0 || r.tc < 128 || 65536 < r.tc || r.trsize % 32 ≠ 0 || r.drsize % 32 ≠ 0 ||
    (!bitOf r.flags 0 && r.jin ≠ 0) || (!bitOf r.flags 1 && r.rollout ≠ 0)

/-- Bytes of a save area (R445). -/
def RegRec.saveSize (r : RegRec) : Nat := (List.range 64).countP (bitOf r.tiles.toNat) * (imageSize + r.maxlive)

/-- The areas of a record at their sizes (R203, R205, R227, R338, R363, R376, R386, R387, R444, R463). -/
def State.regAreas (s : State) (r : RegRec) : List (Nat × Nat) :=
  [(r.regions, 8192), (r.pgt, 262144), (r.gstat, 65536), (r.groups, 3072), (r.coll, 64 * r.ncoll), (r.click, 64), (r.save, r.saveSize),
    (r.rollback, r.saveSize), (r.journal, 64 + s.ringOfJ r.journal), (r.jin, if bitOf r.flags 0 then 64 + s.ringOfJ r.jin else 0),
    (r.tdig, 5184 * r.tddepth), (r.tring, r.trsize), (r.drift, r.drsize), (r.start, 2048), (r.rollout, if bitOf r.flags 1 then 64 else 0)].filter
    fun p => p.2 ≠ 0

/-- Condition 8 of R445: the rollout area fails the ranges of R463, or an area that it names lies outside the context's regions (log 52). -/
def State.rolloutBad (s : State) (r : RegRec) (rs : List Region) : Bool :=
  bitOf r.flags 1 &&
    (let b := rdBytes s.mem r.rollout 64
     let pages := fieldLe b 0 4
     let nseq := fieldLe b 12 4
     let maxpg := fieldLe b 16 4
     let reqn := fieldLe b 20 4
     pages == 0 || 2 ^ 24 < pages || fieldLe b 4 4 % 16 ≠ 0 || fieldLe b 4 4 == 0 || fieldLe b 8 4 % 4096 ≠ 0 || nseq == 0 || 65536 < nseq ||
       maxpg == 0 || 65536 < maxpg || reqn == 0 || 4096 < reqn ||
       [(fieldLe b 24 8, pages * fieldLe b 8 4), (fieldLe b 32 8, 32 * nseq), (fieldLe b 40 8, 4 * nseq * maxpg), (fieldLe b 48 8, 64 + 32 * reqn),
         (fieldLe b 56 8, cdiv pages 8)].any fun p => !coveredBy rs 3 p.1 p.2)

/-- R446: an entry overlaps an entry of another context, and one of them has W, LIN, HOST or CORE set. -/
def sharesWritable (a b : Region) : Bool := overlap (a.base, a.len) (b.base, b.len) && Nat.land (Nat.lor a.flags b.flags) 30 ≠ 0

/-- The number of the first condition of R445 that refuses a record, condition 9 apart. -/
def State.refusal (s : State) (r : RegRec) (rs : Option (List Region)) : Option Nat :=
  let t := rs.getD []
  let areas := s.regAreas r
  firstOf [r.outOfRange, rs.isNone, s.ctxs.any fun p => p.2.rr.job == r.job,
    !coveredBy t 3 r.save r.saveSize || !coveredBy t 3 r.rollback r.saveSize,
    !disjoint areas || areas.any fun p => !coveredBy t 3 p.1 p.2, r.period ≠ 0 && (r.rdline == 0 || r.period < r.rdline), r.tc % r.chunk ≠ 0,
    s.rolloutBad r t, false, s.ctxs.any fun p => t.any fun a => p.2.regs.any (sharesWritable a)]

/-- A click area holds a valid click (R363). -/
def State.clickAt (s : State) (a : Nat) : Option (Nat × Nat × Nat) :=
  let b := rdBytes s.mem a 64
  if fieldLe b 56 8 = 2 ^ 64 - 1 - fieldLe b 0 8 then some (fieldLe b 0 8, fieldLe b 8 4, fieldLe b 24 8) else none

/-- Every bit of each live bitmap is set (R339). -/
def State.liveAll (s : State) (c : Ctx) : State :=
  (List.range 64).foldl (fun s k =>
    let g := s.group c k
    if g.n = 0 || 65536 < g.n || g.live = 0 then s
    else
      let old := rdLe s.mem g.live (cdiv g.n 8)
      s.rawWrite g.live (natLe (cdiv g.n 8) (Nat.lor old (2 ^ g.n - 1)))) s

/-- A newly registered context (R105, R390, R448, R451): its step number follows the click that its area holds, of its own job or, in
replay, as supplied (log 52). -/
def State.newCtx (s : State) (r : RegRec) (rs : List Region) : Ctx :=
  let click := match s.clickAt r.click with
    | some k => if bitOf r.flags 0 || k.2.1 = r.job then some k else none
    | none => none
  { rr := r, regs := rs, st := .ready, status := 0, step := BitVec.ofNat 32 (match click with | some k => k.1 + 1 | none => 0),
    wins := [⟨0, s.now.toNat, false⟩], nextK := 1, nextRel := if r.period = 0 then none else some (s.now.toNat + r.period), used := 0, miss := 0,
    ovr := 0, switches := 0, corePoison := false, wrotePoison := false, signals := [], preempt := none, stopReq := none, saves := 0, rbSaves := 0,
    traceAt := 0, driftAt := 0, single := false, recs := [], begun := false, tStep := 0, stepOpen := false, snap := false, insts := [], running := [],
    slots := [], inbox := [], ghash := [], deferred := [], esc := none, heard := [], escDrops := 0, com := Com.init, splits := 0, poisons := 0, fulls := 0,
    decided := [], failed := [], unreach := [], restore := none, cur := [], rejoin := false, rollout := none, saved := [], rb := [], fromRb := false, roSnap := [],
    diverged := 0, jinAt := match click with | some k => k.2.2 | none => 0, supplied := [] }

/-- The lowest free context index (R446). -/
def State.freeCtx (s : State) : Option Nat := (List.range 8).find? fun n => (sfind s.ctxs n).isNone

/-- A record is registered or refused: status and RES0 (R445, R446). A replayed context's first run is checked before its step begins (R390). -/
def State.register (s : State) (b : List Byte) : Nat × Nat × State :=
  match s.freeCtx with
  | none => (stNoRes, 0, s)
  | some n =>
    let r := RegRec.ofBytes b
    let rs := s.regionTable r.regions
    match s.refusal r rs with
    | some k => (0x09, k, s)
    | none =>
      let c := s.newCtx r (rs.getD [])
      (stOk, n, (((s.setCtx n c).liveAll c).loadRun n).resched)

/-- CTX_REGISTER (R444 to R446, R482). `ok`: the read of the record completes; `h`: the host memory it reads. -/
def execCtxRegister (p : Fin 2) (r : Fin 16) (ok : Bool) (h : List Host.Cell) (s : State) : Host.Outcome State Fault Refusal :=
  startCmd p r 0x20 s fun f =>
    if f.e.addr0 % 64 ≠ 0 then s.finish p r f stField 0 0
    else if !ok then s.finish p r f stHost 0 0
    else
      let q := s.register (rdBytes h f.e.addr0 256)
      q.2.2.finish p r f q.1 q.2.1 0

/-- CTX_STOP (R485). -/
def execCtxStop (p : Fin 2) (r : Fin 16) (s : State) : Host.Outcome State Fault Refusal :=
  startCmd p r 0x21 s fun f => match s.ctxOf f.e with
    | none => s.finish p r f stCtx 0 0
    | some c =>
      let n := f.e.ctx
      if c.st = .stopped then s.finish p r f stOk c.status 0
      else if s.sched.resident ≠ some n then ((s.begin p r (.ctxStop f)).stopCtx n 0x01).resched
      else
        let s := s.begin p r (.ctxStop f)
        let s := s.setCtx n { c with stopReq := some 0x01 }
        (s.preempt n { c with stopReq := some 0x01 } s.sched.incoming).boundary

/-- CTX_DEREGISTER (R450). -/
def execCtxDeregister (p : Fin 2) (r : Fin 16) (s : State) : Host.Outcome State Fault Refusal :=
  startCmd p r 0x22 s fun f => match s.ctxOf f.e with
    | none => s.finish p r f stCtx 0 0
    | some c =>
      if c.st = .idle || c.st = .ready || c.st = .stopped then ({ s with ctxs := sdel s.ctxs f.e.ctx }.resched).finish p r f stOk 0 0
      else s.finish p r f stCtx 0 0

/-- Fields of CTX_SIGNAL in range: reserved bits of ARG0 zero, and an active tile (R482, log 28). -/
def signalOk (e : SqEntry) (c : Ctx) : Bool :=
  bitsOf e.arg0 6 2 == 0 && bitsOf e.arg0 16 16 == 0 && c.tiles.contains (bitsOf e.arg0 0 6)

/-- CTX_SIGNAL (R486): once every earlier command of its ring has completed. -/
def execCtxSignal (p : Fin 2) (r : Fin 16) (s : State) : Host.Outcome State Fault Refusal :=
  if ((sfind (s.host p).rings r).map (·.busy)).getD 0 ≠ 0 then .next s
  else startCmd p r 0x24 s fun f => match s.ctxOf f.e with
    | none => s.finish p r f stCtx 0 0
    | some c =>
      let e := f.e
      let t := bitsOf e.arg0 0 6
      if c.st = .stopped then s.finish p r f stCtx 0 0
      else if !signalOk e c then s.finish p r f stField 0 0
      else if s.sched.resident = some e.ctx then
        (s.incFrom (hubStop p) t (bitsOf e.arg0 8 8) (bitsOf e.arg0 32 32)).finish p r f stOk 0 0
      else (s.setCtx e.ctx { c with signals := c.signals ++ [⟨t, bitsOf e.arg0 8 8, bitsOf e.arg0 32 32⟩] }).finish p r f stOk 0 0

/-! Windows (R451, R462) -/

/-- WINDOW_RELEASE (R451) of context `n`: its next window's release time has come. -/
def execWindowRelease (n : Fin 8) (s : State) : Host.Outcome State Fault Refusal :=
  match sfind s.ctxs n with
  | none => .next s
  | some c => match c.nextRel with
    | none => .next s
    | some r =>
      let c' := { c with wins := c.wins ++ [⟨c.nextK, r, false⟩], nextK := c.nextK + 1,
                         nextRel := if c.rr.period = 0 then none else some (r + c.rr.period) }
      occurs (c.st ≠ .stopped && decide (r ≤ s.now.toNat)) (s.setCtx n c').resched s

/-- DEADLINE_MISS (R462) of context `n`: the oldest released window whose deadline has come and has not been reported. -/
def execDeadlineMiss (n : Fin 8) (s : State) : Host.Outcome State Fault Refusal :=
  match sfind s.ctxs n with
  | none => .next s
  | some c =>
    match c.wins.find? fun w => !w.missed && c.rr.rdline ≠ 0 && decide (w.rel + c.rr.rdline ≤ s.now.toNat) with
    | none => .next s
    | some w =>
      let c' := { c with miss := c.miss + 1, wins := c.wins.map fun v => if v.k = w.k then { v with missed := true } else v }
      occurs (c.st ≠ .stopped) ((s.setCtx n c').event 0x03 n [(0, 8, w.k), (8, 4, c'.miss.toNat)] []) s

/-! Switching (R453 to R460) -/

/-- The context that a switch brings in: the one that the preemption was for, if it can still run, else the earliest. -/
def State.incomingNow (s : State) : Option Nat :=
  match s.sched.incoming with
  | some x => if (sfind s.ctxs x).any (·.runnable) && !s.plc.lost then some x else s.best
  | none => s.best

/-- A preemption that brings nothing in ends: the tiles go on. -/
def State.goOn (s : State) (r : Nat) (c : Ctx) : State :=
  let s := c.tiles.foldl (fun s t => if (s.tile t).run = .stopped then s.setTile t { s.tile t with run := .on } else s) s
  ({ s with sched := { s.sched with incoming := none } }.setCtx r { c with preempt := none }).settle

/-- The outgoing context is saved and its tiles are free; the incoming one is being restored (R456). -/
def State.switchOut (s : State) (r x : Nat) (c : Ctx) : State :=
  let s := (s.saveAll r false (c.saves + 1) c.tiles).dropTiles c.tiles
  let s := match sfind s.ctxs r with
    | some c => s.setCtx r { c with preempt := none }
    | none => s
  { s with sched := { s.sched with resident := none, switching := true, incoming := some x } }.settle

/-- SWITCH (R453, R456): every tile of the resident context has stopped at its boundary and can be saved, or no context is resident. -/
def execSwitch (s : State) : Host.Outcome State Fault Refusal :=
  if s.sched.switching || s.sched.test then .next s
  else match s.resCtx with
  | none => match s.best with
    | none => .next s
    | some x => .next { s with sched := { s.sched with switching := true, incoming := some x } }.settle
  | some (r, c) =>
    occurs (c.preempt.isSome && s.allStopped c && c.tiles.all s.canSave)
      (match s.incomingNow with
       | none => s.goOn r c
       | some x => if x = r then s.goOn r c else s.switchOut r x c) s

/-- Tourbillons of a physical tile at context start (R120, R125). -/
def State.startTours (s : State) (t : Nat) : State :=
  let k := s.plc.phys t
  let p := s.tourPeriod
  let d := s.driftPeriod
  s.setPtile k { s.ptile k with tour := ⟨p + 61 * k % p, 0, false⟩, drift := ⟨d + 61 * k % d, 0, false⟩ }

/-- The tiles of a context come back from its save area, or from its rollback area after a full-device reset, or start (R264, R439,
R444, R456). -/
def State.bringIn (s : State) (n : Nat) (c : Ctx) : Except JF State :=
  if c.begun then .ok (s.restoreAll n c.fromRb c.tiles)
  else (c.tiles.foldlM (fun s t => match s.firstStart n c t with
    | .ok s => .ok (s.startTours t)
    | .error f => .error { f with tile := some t }) s)

/-- SWITCH_COMPLETE (R264, R453, R459, R486): the restore ends, increments that waited land, and the choice is made again. -/
def execSwitchComplete (s : State) : Host.Outcome State Fault Refusal :=
  if !s.sched.switching then .next s
  else
    let out := { s with sched := { s.sched with switching := false, incoming := none } }
    match s.sched.incoming with
    | none => .next out.settle
    | some n => match sfind s.ctxs n with
      | none => .next out.settle
      | some c =>
        if c.st = .stopped || s.plc.lost then .next out.settle
        else
          let s1 := { out with sched := { out.sched with resident := some n } }.setCtx n { c with st := .running, switches := c.switches + 1 }
          .next (s1.orFault 0 (do
            let s ← s1.bringIn n c
            let s := c.signals.foldl (fun s g => s.setTile g.tile ((s.tile g.tile).inc g.obj g.value)) s
            match sfind s.ctxs n with
            | some c => .ok (s.setCtx n { c with signals := [], begun := true, fromRb := false }).resched
            | none => .ok s))

end Sys2Proof.Machine
end

