-- ==== Sys2Proof/Machine/HostDma.lean ====
section
/-! DEFINITION. Machine/HostDma.lean: DMA and telemetry (R487 to R490, R498, R516, R525). Log 29 says when a DMA moves its
data, log 53 what the spec leaves open of the telemetry pages. -/

namespace Sys2Proof.Machine

/-! DMA (R487 to R489) -/

/-- A DMA command's KEYED or CHECKED bit. -/
def SqEntry.keyed (e : SqEntry) : Bool := bitOf e.arg0 0

/-- The key of granule `i` of a DMA: TID, block number, version (R482, R488). -/
def SqEntry.key (e : SqEntry) (i : Nat) : W32 × W32 × W32 :=
  (BitVec.ofNat 32 (e.arg0 / 2 ^ 32), BitVec.ofNat 32 (e.arg1 % 2 ^ 32 + i), BitVec.ofNat 32 (e.arg1 / 2 ^ 32))

/-- Fields of a DMA command in their ranges; with a key, address and length are multiples of 4,096 (R487, R488, log 28). -/
def SqEntry.dmaOk (e : SqEntry) : Bool :=
  bitsOf e.arg0 1 31 == 0 && 1 ≤ e.len && e.len ≤ 2 ^ 32 && (!e.keyed || (e.addr1 % 4096 == 0 && e.len % 4096 == 0))

/-- The granules that a DMA touches. -/
def SqEntry.grans (e : SqEntry) : List Nat := granulesOf [(e.addr1, e.len)]

/-- The access rule of R487. -/
def State.dmaAllowed (s : State) (e : SqEntry) : Bool :=
  let a := e.addr1 / 4096 * 4096
  let n := upTo (e.addr1 + e.len) 4096 - a
  decide (a + n ≤ hbmCtxEnd) &&
    (if e.ctx = 0xFF then !s.ctxs.any fun p => p.2.regs.any fun r => overlap (r.base, r.len) (a, n)
     else match s.ctxOf e with
      | some c => coveredBy c.regs 8 a n
      | none => false)

/-- The status with which a DMA command ends before it moves anything, or SUCCESS. -/
def State.dmaGate (s : State) (e : SqEntry) : Nat :=
  if !e.dmaOk then stField
  else if e.ctx ≠ 0xFF && (s.ctxOf e).isNone then stCtx
  else if !s.dmaAllowed e then stDenied
  else stOk

/-- Granules of a keyed DMA are written with their keyed values (R488). -/
def State.dmaKeyed (s : State) (e : SqEntry) (b : List Byte) (bad : List Nat) : State :=
  (List.range (b.length / 4096)).foldl (fun s i =>
    let g := e.addr1 / 4096 + i
    let d := (b.drop (4096 * i)).take 4096
    let k := e.key i
    { s with hbm := s.hbm.writeGran g d (some (keyedCv (bareCv d) k.1 k.2.1 k.2.2)) (bad.contains g) }) s

/-- A granule that received a poisoned TLP carries the mark, one written in part too (R488). -/
def State.dmaMarks (s : State) (gs : List Nat) : State :=
  { s with hbm := gs.foldl (fun h g => h.setGran g { h.gran g with poison := true }) s.hbm }

/-- Bytes of a raw DMA are written; CVV of every granule that they touch is cleared (R402, R488). -/
def State.dmaRaw (s : State) (e : SqEntry) (b : List Byte) (bad : List Nat) : State :=
  ({ s with hbm := Hbm.writeRaw bad.contains (b.length + 1) s.hbm e.addr1 b }).dmaMarks
    (bad.filter fun g => (granulesOf [(e.addr1, b.length)]).contains g)

/-- DMA_TO_DEVICE (R487, R488). `got` is how many bytes the host's reads return before one fails, LEN where none does; `h` is host
memory as they read it; `bad` names the device granules that receive a poisoned TLP. -/
def execDmaToDevice (p : Fin 2) (r : Fin 16) (got : Nat) (h : List Host.Cell) (bad : List Nat) (s : State) : Host.Outcome State Fault Refusal :=
  startCmd p r 0x10 s fun f =>
    let e := f.e
    let st := s.dmaGate e
    if st ≠ stOk then s.finish p r f st 0 0
    else
      let n := min got e.len
      let n := if e.keyed then n / 4096 * 4096 else n
      let b := rdBytes h e.addr0 n
      let s1 := if e.keyed then s.dmaKeyed e b bad else s.dmaRaw e b bad
      s1.begin p r (.dma f (if n < e.len then stHost else if e.grans.any bad.contains then 0x06 else stOk))

/-- A check of a host transfer failed twice: counted and reported for the context that the command names (R404, R489). -/
def State.dmaCheckFail (s : State) (ctx a : Nat) (k : W32 × W32 × W32) : State :=
  { s with cvFail := s.cvFail + 1 }.event 0x06 ctx [(0, 8, a), (8, 4, k.1.toNat), (12, 4, k.2.1.toNat), (16, 4, k.2.2.toNat)] []

/-- One granule of a host transfer is read: whether it goes out as poison, and what its check counts (R403, R404, R489). -/
def State.dmaCheck (s : State) (e : SqEntry) (g : Nat) : Bool × State :=
  let x := s.hbm.gran g
  let k := e.key (g - e.addr1 / 4096)
  if x.poison then (true, s)
  else if !e.keyed then (false, s)
  else if !x.cvv then (false, { s with cvUnchecked := s.cvUnchecked + 1 })
  else if keyedCv (bareCv (rdBytes s.mem (g * 4096) 4096)) k.1 k.2.1 k.2.2 = x.cv then (false, s)
  else (true, s.dmaCheckFail e.ctx (g * 4096) k)

/-- The host addresses that receive granule `g`. -/
def SqEntry.hostRange (e : SqEntry) (g : Nat) : Nat × Nat :=
  let lo := max e.addr1 (g * 4096)
  (e.addr0 + (lo - e.addr1), min (e.addr1 + e.len) (g * 4096 + 4096) - lo)

/-- A host transfer: the bytes go out, those of poisoned granules with the EP bit (R411, R489). The answer says whether any was. -/
def State.dmaOut (s : State) (p : Nat) (e : SqEntry) : Bool × State :=
  let q := e.grans.foldl (fun (a : List Nat × State) g =>
    let c := a.2.dmaCheck e g
    (if c.1 then a.1 ++ [g] else a.1, c.2)) ([], s)
  let s1 := q.2.toHost p e.addr0 (rdBytes s.mem e.addr1 e.len)
  (!q.1.isEmpty, s1.setHost p { s1.host p with ep := (s1.host p).ep ++ q.1.map e.hostRange })

/-- DMA_FROM_DEVICE (R487, R489, R411). -/
def execDmaFromDevice (p : Fin 2) (r : Fin 16) (s : State) : Host.Outcome State Fault Refusal :=
  startCmd p r 0x11 s fun f =>
    let e := f.e
    let st := s.dmaGate e
    if st ≠ stOk then s.finish p r f st 0 0
    else
      let q := s.dmaOut p e
      let s1 := q.2.begin p r (.dma f (if q.1 then 0x05 else stOk))
      if q.1 && e.ctx ≠ 0xFF then (s1.stopCtx e.ctx 0x0B).resched else s1

/-- DMA_COMPLETE (R479, R488, R489): the started DMA at place `i` of a ring ends. -/
def execDmaComplete (p : Fin 2) (r : Fin 16) (i : Nat) (s : State) : Host.Outcome State Fault Refusal :=
  match sfind (s.host p).rings r with
  | none => .next s
  | some g => match g.started[i]? with
    | some (.dma f st) =>
      let h := { s.host p with rings := sins (s.host p).rings r { g with started := g.started.eraseIdx i } }
      .next (s.setHost p (((h.complete r s.now (f.done st 0 0)).rejectUnknown r s.now 65536).finishQuiesce))
    | _ => .next s

/-! Telemetry (R498, R516, R525) -/

/-- A page of 4,096 bytes. -/
def page (fs : List (Nat × Nat × Nat)) : List Byte := packFields 4096 fs

/-- Page 0: RES0 and RES1 of CTX_QUERY for each index, zero where no context is registered (R498, log 53). -/
def State.page0 (s : State) : List Byte :=
  page ((List.range 8).flatMap fun n => match sfind s.ctxs n with
    | some c => [(16 * n, 8, c.query.1), (16 * n + 8, 8, c.query.2)]
    | none => [])

/-- Page 1 (R516). -/
def State.page1 (s : State) : List Byte :=
  let w := s.power
  page ([(0, 4, w.pAvg), (4, 4, dutyWord w.duty), (8, 4, dutyWord w.dPower), (12, 4, dutyWord w.dTherm), (16, 4, dutyWord w.dCeil),
      (20, 2, unsgn w.tHot 16), (22, 1, w.hotQ)] ++
    ((List.range 4).map fun q => (24 + 2 * q, 2, s.vq q)) ++
    ((List.range 72).map fun i => (32 + 2 * i, 2, unsgn (sget (fun _ => (0 : Int)) w.tStop i) 16)) ++
    ((List.range 12).map fun i => (176 + 2 * i, 2, unsgn (sget (fun _ => (0 : Int)) w.tHbm i) 16)) ++
    ((List.range 16).flatMap fun i => [(200 + 4 * i, 2, sget zeroNat w.railMv i), (202 + 4 * i, 2, sget zeroNat w.railDa i)]))

/-- A value that may be indeterminate (R525). -/
def orNone : Option Nat → Nat
  | some v => min v 0xFFFFFFFF
  | none => 0xFFFFFFFF

/-- PC_KIND (R525). -/
def Cage.kind (g : Cage) : Nat := if g.optical then 1 else if g.passive then 3 else 2

/-- Equivalent laser hours (R335). -/
def Cage.hours (g : Cage) : Nat := g.eqAcc / (16 * laserUnit)

/-- Rated life in hours (R336). -/
def Cage.rated (g : Cage) : Nat := (Config.ratedLife g.id.oui g.id.part).getD 43800

/-- A transceiver's reserve in hours (R336). -/
def Cage.reserve (g : Cage) : Nat := g.rated - g.hours

/-- Entry of cage `k`; rated life and reserve of an empty cage or a passive cable are free values (R336, R525, log 53). -/
def State.cageEntry (s : State) (k : Nat) : List (Nat × Nat × Nat) :=
  let o := 88 + 16 * k
  let free := [(o + 8, 4, Config.freeNat (s.freeCtr + 2 * k)), (o + 12, 4, Config.freeNat (s.freeCtr + 2 * k + 1))]
  match (s.link k).cage with
  | none => free
  | some g => [(o, 1, g.kind), (o + 1, 1, b2n g.incomplete), (o + 4, 4, g.hours)] ++
      (if g.passive && !g.optical then free else [(o + 8, 4, g.rated), (o + 12, 4, g.reserve)])

/-- PR_WITHX: the least of the module reserve and every optical cage's reserve (R525). -/
def State.withCages (s : State) : Option Nat :=
  ((List.range 24).filterMap fun k => match (s.link k).cage with
    | some g => if g.optical then some g.reserve else none
    | none => none).foldl (fun m v => some (match m with
    | some x => min x v
    | none => v)) (s.moduleReserve.map Prod.fst)

/-- Entry of quadrant `q` (R524, R525). -/
def State.quadEntry (s : State) (q : Nat) : List (Nat × Nat × Nat) :=
  let o := 24 + 16 * q
  let f := fitOf (s.fitRecords q)
  [(o, 2, s.vq q), (o + 2, 2, s.fuses.vmax), (o + 4, 4, orNone (s.reserveOf q)), (o + 8, 4, if f.indet then 0xFFFFFFFF else f.aF.toNat),
    (o + 12, 4, if f.indet then 0xFFFFFFFF else f.bF.toNat)]

/-- Page 3: the power reserve report (R525). -/
def State.page3 (s : State) : List Byte :=
  page ([(0, 1, 1), (1, 1, match s.moduleReserve with | some m => m.2 | none => 0xFF), (4, 4, s.phours),
      (8, 4, orNone (s.moduleReserve.map Prod.fst)), (12, 4, orNone s.withCages), (16, 4, dutyWord s.power.dCeil)] ++
    (List.range 4).flatMap s.quadEntry ++ (List.range 24).flatMap s.cageEntry)

/-- A part of a signature's payload, filled with zeros to a page (R436, R498). -/
def State.page4 (s : State) (arg : Nat) : List Byte :=
  match s.sigs[arg % 2 ^ 32]? with
  | none => page []
  | some q => padTo 4096 (q.2.drop (4096 * (arg / 2 ^ 32)))

/-- The page that ARG0 selects. The layout of page 2 is the spec's nowhere: its bytes are free (log 53). -/
def State.telemetry (s : State) (e : SqEntry) : Option (List Byte) :=
  match e.arg0 with
  | 0 => some s.page0
  | 1 => some s.page1
  | 2 => some (freshBytes s.freeCtr 4096)
  | 3 => some s.page3
  | 4 => if e.arg1 % 2 ^ 32 < s.sigs.length then some (s.page4 e.arg1) else none
  | _ => none

/-- TELEMETRY_READ (R498): a page or a signature that does not exist is INVALID_FIELD. -/
def execTelemetryRead (p : Fin 2) (r : Fin 16) (s : State) : Host.Outcome State Fault Refusal :=
  startCmd p r 0x40 s fun f => match s.telemetry f.e with
    | none => s.finish p r f stField 0 0
    | some b => ((s.spend 64).toHost p f.e.addr0 b).finish p r f stOk 0 0

end Sys2Proof.Machine
end

