-- ==== Sys2Proof/Machine/Mgmt.lean ====
section
/-! DEFINITION. Machine/Mgmt.lean: firmware messages between devices: rejoining, restores and reports of failure (R366, R413,
R425, R505). Log 48 says what the spec leaves open of their bodies. -/

namespace Sys2Proof.Machine

/-- A MGMT packet of one kind is taken for the resident context, where the job identifier in its body, or in the transport header of a
REJOIN_ACK, is that context's. -/
def State.recvMgmt (s : State) (p : Nat) (hop : Bool) (kind : Nat) (act : State → List Byte → Th → Nat → Ctx → State) :
    Host.Outcome State Fault Refusal :=
  s.recvPkt p hop 3 0x10 (fun b => fieldLe b 32 1 == kind) (fun _ _ _ => false) fun s b h =>
    match s.resCtx with
    | none => s
    | some (n, c) => if (if kind = 2 then h.job else fieldLe b 40 4) = c.rr.job then act s b h n c else s

/-- REJOIN_REQ (R366): the decisions of the last two steps go back; the requester is no longer failed. -/
def execRejoinReq (p : Fin 25) (hop : Bool) (s : State) : Host.Outcome State Fault Refusal :=
  s.recvMgmt p hop 1 fun s b h n c =>
    (s.setCtx n (c.alive (fieldLe b 44 4))).sendMgmt c.rr.job c.step h.src 2 (c.decided.flatMap fun d => natLe 4 d.1.toNat ++ natLe 4 (b2n d.2))

/-- The root's decision on a step, from REJOIN_ACK. -/
def ackDecision (b : List Byte) (step : W32) : Option Bool :=
  let ds := (List.range 2).map fun k => (BitVec.ofNat 32 (fieldLe b (40 + 8 * k) 4), fieldLe b (44 + 8 * k) 4)
  (ds.take ((b.length - 40) / 8)).findSome? fun d => if d.1 = step then some (d.2 == 1) else none

/-- A committed step whose new version this device has not intact: it takes the step number, and its tensors come from a
replica (R366, R413). -/
def State.catchUp (s : State) (n : Nat) (c : Ctx) : State :=
  let ds := match s.cdOf c 6 with
    | some (_, d) => s.digestList d.stage
    | none => []
  let s := (s.dropTiles c.tiles).setCtx n { c.nextStep with cur := ds, running := [] }
  (s.askRestore n (ds.map (·.tid)) []).restart n

/-- REJOIN_ACK (R366): a committed step is clicked where the new version is intact, and restored from a replica otherwise; an
aborted one is executed again. -/
def execRejoinAck (p : Fin 25) (hop : Bool) (s : State) : Host.Outcome State Fault Refusal :=
  s.recvMgmt p hop 2 fun s b _ n c =>
    match ackDecision b c.step with
    | none => s
    | some false => if c.stepOpen then s.applyAbort n 0 false else s
    | some true => if c.com.digest.isSome && !c.com.abort then s.applyCommit n s.fabric else s.catchUp n c

/-- The granules of the current versions of tensors. -/
def granAddrs (ds : List TDesc) (tids : List Nat) : List Nat := (ds.filter fun d => tids.contains d.tid).flatMap fun d => d.cvParts.map Prod.fst

/-- A list in pieces of at most `k`. -/
def chunks (k : Nat) (l : List Nat) : List (List Nat) := (List.range (cdiv l.length k)).map fun i => (l.drop (k * i)).take k

/-- RESTORE_REQ (R413): the current versions of the tensors are copied back as keyed transfers, 65,535 granules each; with
nothing to copy, or without descriptors, the outcome is a failure. -/
def execRestoreReq (p : Fin 25) (hop : Bool) (s : State) : Host.Outcome State Fault Refusal :=
  s.recvMgmt p hop 3 fun s b h _ c =>
    let tids := (List.range ((b.length - 44) / 4)).map fun k => fieldLe b (44 + 4 * k) 4
    let cs := chunks 65535 (granAddrs c.cur tids)
    let t := c.tiles.headD 0
    if cs.isEmpty || !s.roomSend t cs.length then s.sendMgmt c.rr.job c.step h.src 4 (natLe 4 1)
    else cs.foldl (fun s a => s.openSend t h.src t a.length (.copy a)) s

/-- JS_DIGEST of the last committed STEP record, if that record is of a step (R378, R413). -/
def State.lastDigest (s : State) (c : Ctx) (step : W32) : Option (List Byte) :=
  let b := s.jRead c.rr.journal (s.ringOfJ c.rr.journal) (s.jWritten c - 128) 2
  if s.jWritten c < 128 || fieldLe b 0 1 ≠ 15 || fieldLe b 8 8 ≠ step.toNat then none else some ((b.drop 48).take 64)

/-- A restore has succeeded: the recomputed shard digest is that of the last committed STEP record; where this device wrote
none for that step, the donor's outcome stands (R413, log 48). -/
def State.restoreGood (s : State) (c : Ctx) : Bool :=
  match s.lastDigest c (c.step - 1) with
  | some d => s.digestOf c.rr.job (c.step - 1) c.step c.cur == d
  | none => true

/-- RESTORE_DONE (R413): the digest is checked; a failed restore is tried from the next replica, else the step is executed again. -/
def execRestoreDone (p : Fin 25) (hop : Bool) (s : State) : Host.Outcome State Fault Refusal :=
  s.recvMgmt p hop 4 fun s b h n c =>
    match c.restore with
    | none => s
    | some r =>
      if s.devAt (s.group c 0) r.rank ≠ h.src then s
      else if fieldLe b 44 4 = 0 && s.restoreGood c then (s.setCtx n { c with restore := none }).restart n
      else s.askRestore n r.tids (r.failed ++ [r.rank])

/-- A device of the job is taken to have failed: the step aborts (R366). -/
def State.loseDevice (s : State) (n : Nat) (c : Ctx) (dev : Nat) : State :=
  match s.rankOf (s.group c 0) dev with
  | none => s
  | some r =>
    let c := c.lose [r] s.now.toNat
    (s.setCtx n { c with com := { c.com with abort := true, urgent := true } }).commitGo n

/-- FAIL_REPORT (R425): the root applies R366 to the device named. -/
def execFailReport (p : Fin 25) (hop : Bool) (s : State) : Host.Outcome State Fault Refusal :=
  s.recvMgmt p hop 5 fun s b _ n c => s.loseDevice n c (fieldLe b 44 4)

/-- ECHO (R505): up to 64 bytes go back unchanged. -/
def execEcho (p : Fin 25) (hop : Bool) (s : State) : Host.Outcome State Fault Refusal :=
  s.recvPkt p hop 3 0x10 (fun b => fieldLe b 32 1 == 6) (fun _ _ _ => false) fun s b h =>
    let body := (b.drop 32).take 72
    s.sendOn 3 { h with dst := h.src, src := s.devId, dtile := h.stile, stile := h.dtile, len := body.length } 0 body

end Sys2Proof.Machine
end

