-- ==== Sys2Proof/Machine/LinkFeed.lean ====
section
/-! DEFINITION. Machine/LinkFeed.lean: the packets of send descriptors leave; a transfer without an answer (R315, R319, R320,
R346, R347, R413, R425). Log 49 says which descriptor sends next. -/

namespace Sys2Proof.Machine

/-- A COLL packet: transport header, segment header with the granule's index within its part, granule and trailer (R346, R347). A
contribution's check value goes keyed to the staging slot in HBM; a result's goes bare where this rank's own destination is in SRAM (R405). -/
def State.piecePacket (s : State) (t : Nat) (d : SendD) (c : Ctx) (i : CInst) (j : Nat) (result : Bool) : List Byte × State :=
  let td := if result then i.dst else i.src
  let gs := td.pieceGrans (if result then i.dstElem j else i.srcElem j) i.d.count
  let g := gs.getD d.next (0, 0)
  let k := td.keyOf g.2 c.step
  let (b, pz, s') := s.readKeyed g.1 k
  let g0 := s.groupOf c i
  let sc := decide (0x80000000 ≤ g.2)
  let ch : Ch := ⟨b2n result, b2n sc, i.cid, i.inst, g0.rank, c.step, j,
    if sc then d.next - cdiv (td.valueBytes i.d.count) 4096 else d.next, s.groupHash g0, 0⟩
  let cv := if result && hbmEnd ≤ g.1 then bareCv b else keyedCv (bareCv b) k.1 k.2.1 k.2.2
  ((s.sendHdr t d 0x03 4128 0 0).bytes ++ ch.bytes ++ b ++ trailer cv.toNat true pz, s')

/-- A WRITE packet of a granule that a restore copies, with its check value and mark as they stand (R413). -/
def State.copyPacket (s : State) (t : Nat) (d : SendD) (a : Nat) : List Byte :=
  let g := s.hbm.gran (a / 4096)
  (s.sendHdr t d 0x01 4096 a 0).bytes ++ rdBytes s.mem a 4096 ++ trailer g.cv.toNat g.cvv g.poison

/-- What a send descriptor does next: nothing while its near granule waits for a fill or the tile's tick is gated (R30, R36), a job fault, the end of a transfer
whose instance has gone, or a packet. -/
inductive Feed where
  | hold
  | fault (f : JF)
  | gone
  | packet (cls : Nat) (b : List Byte) (s : State)

/-- The next packet of a transfer. -/
def State.nextPacket (s : State) (t : Nat) (d : SendD) : Feed :=
  match d.cargo with
  | .stream c => match sfind (s.tile t).outb c with
    | none => .gone
    | some o =>
      if o.sd.outside o.td d.next then .fault ⟨3, 1, o.sd.addr d.next, 0, none⟩
      else if !s.streamOn t 0 || sget noFlag (s.tile t).pend ((o.sd.walk d.next).2 / 4096) then .hold
      else
        let r := s.writePacket t d o
        .packet 0 r.1 r.2
  | .piece cid inst j result => match s.resCtx with
    | none => .gone
    | some (_, c) => match c.inst cid with
      | none => .gone
      | some i =>
        if i.inst ≠ inst then .gone
        else
          let td := if result then i.dst else i.src
          match (td.pieceGrans (if result then i.dstElem j else i.srcElem j) i.d.count)[d.next]? with
          | none => .gone
          | some g => if s.refused t g.1 0 then .fault (JF.region 2 g.1) else if s.readHeld t [(g.1, 4096)] then .hold else
            let r := s.piecePacket t d c i j result
            .packet 0 r.1 r.2
  | .control _ pkts =>
    let p := pkts.getD d.next []
    .packet 0 ((s.sendHdr t d 0x03 p.length 0 0).bytes ++ p) s
  | .copy addrs => .packet 0 (s.copyPacket t d (addrs.getD d.next 0)) s

/-- Bytes waiting at a port, or over the mesh, of data packets in hop class 0. -/
def State.waitingAt (s : State) (p : Nat) : Nat :=
  if p = loopPort then (sget (fun _ => RxCh.init) (s.link p).rxq 0).buf.length else (sget (fun _ => ([] : List Byte)) (s.link p).txq 0).length

/-- The descriptor has a packet to send now. -/
def State.mayFeed (s : State) (k : Nat) (d : SendD) : Bool :=
  decide (d.next < d.pcnt) && d.backoff.isNone && (match s.route d.dst (k / 16) d.tag.toNat d.path with
    | some p => decide (s.waitingAt p < 4168)
    | none => true)

/-- One descriptor sends its next packet; without a path the packet is lost (R319, R324). -/
def State.feedOne (s : State) (k : Nat) : State :=
  match s.sendAt k with
  | none => s
  | some d =>
    if !s.mayFeed k d then s
    else match s.nextPacket (k / 16) d with
      | .hold => s
      | .gone => s.closeSend k d false
      | .fault f => s.jobFault f (some (k / 16))
      | .packet cls b s' =>
        let s' := match s'.route d.dst (k / 16) d.tag.toNat d.path with
          | some p => s'.sendPacket p cls 0 b
          | none => s'
        s'.setSend k { d with next := d.next + 1, sentAt := s.now }

/-- Every descriptor sends, the one that sent longest ago first (log 49). -/
def State.linkFeed (s : State) : State :=
  ((s.lnk.send.map fun p => (p.2.sentAt.toNat, p.1)).mergeSort fun a b => a.1 ≤ b.1).foldl (fun s p => s.feedOne p.2) s

/-! No answer (R319, R320, R425) -/

/-- A transfer is abandoned after eight timeouts in a row: the step aborts; the second time its destination is reported to the
root as failed (R425). Where no snapshot stands, the transfer only never completes (R320). -/
def State.unreachable (s : State) (k : Nat) (d : SendD) : State :=
  let s := s.closeSend k d false
  match s.resCtx with
  | none => s
  | some (n, c) =>
    if !c.snap || c.rr.job ≠ d.job then s
    else if c.unreach.contains d.dst then
      let g := s.group c 0
      match s.liveRanks g with
      | [] => s
      | root :: _ =>
        if root = g.rank then (s.setCtx n (c.lose ((s.rankOf g d.dst).toList) s.now.toNat)).abortNow n
        else (s.abortNow n).sendMgmt c.rr.job c.step (s.devAt g root) 5 (natLe 4 d.dst)
    else (s.setCtx n { c with unreach := d.dst :: c.unreach }).abortNow n

/-- E2E_TIMEOUT (R319, R320): no answer within T_E2E of the last packet. -/
def execE2eTimeout (t : Fin 64) (i : Fin 16) (s : State) : Host.Outcome State Fault Refusal :=
  let k := 16 * t.val + i.val
  match s.sendAt k with
  | none => .next s
  | some d =>
    let m := d.timeouts + 1
    let s' := if m = 8 then s.unreachable k d
      else s.setSend k { d with timeouts := m, path := if m % 2 = 0 then d.path + 1 else d.path, next := 0, sentAt := s.now }
    occurs (d.backoff.isNone && decide (d.pcnt ≤ d.next) && decide (d.sentAt.toNat + s.e2e ≤ s.now.toNat)) s' s

end Sys2Proof.Machine
end

