-- ==== Sys2Proof/Machine/Tick.lean ====
section
/-! DEFINITION. Machine/Tick.lean: a tick of the arithmetic clock: device time, the clock enable, and what proceeds tick by tick
without a command of its own (R30, R31, R237, R249 to R251, R282, R298, R328, R358, R452, R511, R562). Log 54. -/

namespace Sys2Proof.Machine

/-! What a tick that ends has counted -/

/-- An inbound stream waits on a demanded granule that has not arrived (R250, R251). -/
def Inb.dry (i : Inb) : Bool :=
  (List.range (i.demand - i.written)).any fun k => !i.fl.any fun f => f.j == i.written + k && f.whole

/-- It waits on one that was in flight when it was demanded. -/
def Inb.late (i : Inb) : Bool := i.fl.any fun f => f.waited && decide (f.j < i.demand) && !f.whole

/-- An outbound stream waits for room in its write queue (R238). -/
def Outb.full (o : Outb) : Bool := o.sd.dir == 1 && decide (o.sent < o.sd.n) && decide (4 ≤ o.flying)

/-- Stalls of the stream target, and of each stream context, in the tick (R250, R251). A granule that could have been written and was not
waits for the banks. -/
def State.streamStalls (s : State) (t : Nat) : State :=
  let x := s.tile t
  let s := if x.inb.any (fun p => p.2.dry) then s.stallAt t 4 1 else s
  let s := if x.inb.any (fun p => (s.deliverable t p.1 p.2).isSome) then s.stallAt t 4 2 else s
  let s := if x.outb.any (fun p => p.2.full) then s.stallAt t 4 4 else s
  let s := if x.inb.any (fun p => s.aheadWaits t p.2) then s.stallAt t 4 5 else s
  x.inb.foldl (fun s p => (s.ctr t p.1 3 (b2n p.2.late)).ctr t p.1 9 (b2n (s.aheadWaits t p.2))) s

/-- A group of array `i` that is due is held by its slot or by its writes (R145, R179, R226). -/
def State.drainHeld (s : State) (t i : Nat) : Bool :=
  let a := (s.tile t).arr i
  match a.committing with
  | none => false
  | some n =>
    let q := a.q.getD n AInst.blank
    q.o.probs.any fun k => q.groupDue k s.clk.etick && s.groupHeld t q k

/-- The vector engine's write that is due (R609). -/
def State.dueWrite (s : State) (t : Nat) : Option VWrite := ((s.tile t).landing s.clk.etick).bind fun n => (s.tile t).vwr[n]?

/-- A read or a write of the vector engine is held by fill tracking or a spill (R179, R219, R225, R226, R279, R609). -/
def State.vectorHeld (s : State) (t : Nat) : Bool :=
  let x := s.tile t
  (s.dueWrite t).any (fun w => s.writeHeld t w.ivs) ||
  x.vupd.any (fun u => s.updStuck t u || (decide (s.updEnd u ≤ s.clk.etick) && !s.updDue t u)) ||
  x.sadv.any fun a => s.sadvStuck t a || (decide (a.done ≤ s.clk.etick) && !s.sadvDue t a)

/-- An update or a scale advance of which a read is held moves later by the tick (R219, R225). -/
def State.updLater (s : State) (t : Nat) : State :=
  let x := s.tile t
  let u := x.vupd.map fun u => if s.updStuck t u then { u with start := u.start + 1 } else u
  let a := x.sadv.map fun a => if s.sadvStuck t a then { a with done := a.done + 1 } else a
  if u = x.vupd && a = x.sadv then s else s.setTile t { x with vupd := u, sadv := a }

/-- The stalls of array `i` as the tick ends: a held drain, and a retry until its work re-enters (R155, R156). -/
def State.arrayStalls (s : State) (t i : Nat) : State :=
  let s := if s.drainHeld t i then s.stallAt t i 2 else s
  if s.clk.etick < ((s.tile t).arr i).retryTo then s.stallAt t i 5 else s

/-- A tile's stalls of the tick that ends are counted, and what they delay moves later (R148, R154, R155, R219, R250). -/
def State.closeTile (s : State) (t : Nat) : State :=
  let s := (List.range 3).foldl (fun s i => (s.arrayStalls t i).delayArray t i) s
  let s := if s.vectorHeld t then s.stallAt t 3 3 else if (s.dueWrite t).isSome then s.stallAt t 3 2 else s
  let s := (s.streamStalls t).updLater t
  let x := s.tile t
  x.stall.foldl (fun s p => s.chrAdd (s.plc.phys t) 1 p.1 p.2 1) (s.setTile t { x with stall := [] })

/-! What a tick brings -/

/-- Increments that landed in the tick before are seen from this one; what a counter cannot take is held (R282, R283). -/
def Tile.seeLanded (x : Tile) : Tile :=
  x.landed.foldl (fun (x : Tile) (p : Nat × Nat) =>
    let v := (sget zero32 x.sync p.1).toNat + p.2
    if v < 2 ^ 32 then { x with sync := sput zero32 x.sync p.1 (BitVec.ofNat 32 v) }
    else { x with incs := ⟨p.1, p.2, 72, 0⟩ :: x.incs }) { x with landed := [] }

/-- What landed in the tick before is seen by every engine: the vector engine's writes, and increments (R282, R609). -/
def State.seeTile (s : State) (t : Nat) : State :=
  let s := s.orFault t (s.seeWrites t)
  s.setTile t (s.tile t).seeLanded

/-- An enabled tick of a tile: a split-K root writes what was held, its arrays take rows, and one granule of an outbound stream in four ticks
leaves its SRAM (R129, R144, R237). -/
def State.tileTick (s : State) (t : Nat) : State :=
  let s := s.orFault t (s.rootAll t)
  let s := (List.range 3).foldl (fun s i => s.feed t i) s
  match (List.range 3).findSome? (s.feedFault t) with
  | some f => s.jobFault f (some t)
  | none => if s.clk.etick % 4 = 0 && !(s.tile t).starting then s.pump t (s.clk.etick / 4 % 32) else s

/-- A gated tick counts in one counter of every bank in mode 1, by its cause (R250, R512). -/
def State.chrGated (s : State) (counter : Nat) : State :=
  s.cfg.foldl (fun s r =>
    if 0x100000 ≤ r.1 && r.1 < 0x111000 && r.1 % 0x100 == 0 && bitOf r.2.toNat 0 && bitsOf r.2.toNat 1 2 == 1 then
      let k := (r.1 - 0x100000) / 0x400
      s.setPtile k { s.ptile k with chr := smod zero64 (s.ptile k).chr (r.1 / 0x100 % 4 * 16 + counter) (· + 1) }
    else s) s

/-- The escapement holds the clock enable (R358). -/
def State.escHeld (s : State) : Bool := match s.resCtx with | some (_, c) => c.esc.isSome | none => false

/-- The clock enable of the new tick (R511): the escapement and the thermal trip gate it and leave the accumulator. -/
def State.enable (s : State) : Bool × Nat :=
  if s.phase == .tripped || s.escHeld then (false, s.clk.acc.toNat) else clockEnable s.clk.acc.toNat s.power.duty

/-- The counter of a gated tick (R250, R512). -/
def State.gateCause (s : State) : Nat := if s.escHeld then 14 else if s.power.thermalLeast then 15 else 13

/-- The resident context's first window has used a tick (R452). -/
def State.useTick (s : State) : State :=
  match s.resCtx with
  | some (n, c) => if c.blocked then s else s.setCtx n { c with used := c.used + 1 }
  | none => s

/-- An enabled tick. -/
def State.enabledTick (s : State) : State :=
  let s := { s with clk := { s.clk with etick := s.clk.etick + 1 } }.useTick
  (s.tiles.map Prod.fst).foldl State.tileTick s

/-- The links go on whatever the clock enable does: flits and packets leave (R30, R298, R319). -/
def State.linkTick (s : State) : State :=
  let s := { s with freeCtr := s.freeCtr + 24, links := s.links.filterMap fun (p : Nat × LinkPort) =>
    let free := Config.freeNat (s.freeCtr + p.1)
    let x := if p.1 < 24 then p.2.tick s.devId p.1 (s.devStamp free) (s.fabStamp free) else p.2
    if x = LinkPort.init then none else some (p.1, x) }
  s.linkFeed

/-- A context that came back from a full-device reset asks the root for the decisions (R366, R439). -/
def State.askRejoin (s : State) : State :=
  match s.resCtx with
  | none => s
  | some (n, c) =>
    let g := s.group c 0
    let root := s.devAt g ((s.liveRanks g).headD 0)
    if c.rejoin && (s.route root 0 0 0).isSome then
      (s.setCtx n { c with rejoin := false }).sendMgmt c.rr.job c.step root 1 (natLe 4 g.rank)
    else s

/-- SRAM granules of which a read in this tick finds what the code cannot correct, free values: each is poisoned whole (R406, log 85). -/
def State.sramErrors (s : State) : State :=
  { s with freeCtr := s.freeCtr + 1 }.markWrite ((Config.sramErrors s.freeCtr).map fun (p : Fin 64 × Fin 16384) => (sramAt p.1.val + 4096 * p.2.val, 4096)) true

/-- TICK (R30, R31, R406, R511): device time counts from the release of module reset. -/
def execTick (s : State) : Host.Outcome State Fault Refusal :=
  if s.phase = .inReset then .next s
  else
    let s := if s.clk.enabled then (s.tiles.map Prod.fst).foldl State.closeTile s else s
    let e := s.enable
    let cause := s.gateCause
    let s := { s with clk := { s.clk with time := s.clk.time + 1, enabled := e.1, acc := BitVec.ofNat 32 e.2 }, lockWas := [], w1cNow := [] }.steer
    let s := (if s.power.clampEnd then s.unclamp else s).sramErrors
    let s := ((s.tiles.map Prod.fst).foldl State.seeTile s).flushMeta
    let s := if e.1 then s.enabledTick else s.chrGated cause
    .next (if s.up then s.linkTick.askRejoin else s)

end Sys2Proof.Machine
end

