-- ==== Sys2Proof/Machine/Reset.lean ====
section
/-! DEFINITION. Machine/Reset.lean: boot, module reset, the full-device reset and what causes one, thermal trips, PCIe port resets,
the first placement and the end of a move (R10 to R13, R22, R246 to R248, R421, R439 to R441, R470, R499, R502, R508, R509, R542,
R543, R545, R554 to R562, R584, R585). Logs 23, 55 and 56 say what the spec leaves open. -/

namespace Sys2Proof.Machine

/-! The first placement (R10 to R12) and the fences applied again (R13, R421) -/

/-- Physical tiles of a quadrant that passed manufacturing test, ascending (R10). -/
def Fuses.working (u : Fuses) (q : Nat) : List Nat := ((List.range 17).map (17 * q + ·)).filter fun p => !bitOf u.tiles.toNat p

/-- The placement after reset of a module with fused tiles (R11, R12). -/
def Fuses.placement (u : Fuses) : Placement :=
  { Placement.init with
      bind := (List.range 64).foldl (fun m t => sput bindDefault m t (((u.working (t / 16))[t % 16]?).getD (bindDefault t))) [],
      fenced := u.tiles,
      spare := (List.range 4).filterMap fun q => if (u.working q).length = 17 then ((u.working q).getLast?).map fun k => (q, k) else none }

/-- A recorded fence applies again (R13, R14, R421, log 23). -/
def Placement.refence (pl : Placement) (p : Nat) : Placement :=
  if bitOf pl.fenced.toNat p then pl
  else
    let old := pl.logical p
    let pl := { pl with fenced := pl.fenced ||| BitVec.ofNat 68 (2 ^ p) }
    match old with
    | none => pl
    | some t => match pl.target p with
      | some k => { pl with bind := sput bindDefault pl.bind t k, epoch := pl.epoch + 1 }
      | none => { pl with lost := true }

/-- The placement that firmware makes at boot. -/
def State.bootPlacement (s : State) : Placement := s.flash.fences.foldl Placement.refence s.fuses.placement

/-! Boot (R508, R509, R542, R545) -/

/-- The repairs of HBM that the event log holds: retirements, and rows whose hard repair is pending (R441, R508, R528). -/
def State.reapplyHbm (s : State) : State :=
  let on := fun (s : State) (i : Nat) (f : Hctl → Hctl) => { s with hbm := s.hbm.setCtl i (f (s.hbm.ctlOf i)) }
  s.flash.events.recs.foldl (fun s r => match r.body with
    | .evHbmRetire g slot => on s (hbmMap (g * 4096)).1 fun c => { c with retired := sins c.retired g slot }
    | .evHbmRepair st pc row done =>
      let k := (pc * 12 + st) * 2 ^ 32 + row
      on s st fun c => { c with pendHard := if done then c.pendHard.filter (· ≠ k) else if c.pendHard.contains k then c.pendHard else c.pendHard ++ [k] }
    | _ => s) s

/-- Each quadrant's voltage and the rung of D_CEIL, from the latest regulator record (R508). -/
def State.regulatorBoot (s : State) : State :=
  let r : List Nat × Nat × Nat := match s.flash.ageing.replans.getLast? with
    | some ⟨_, sec, _, _, .ageReplan v _ _ rung _⟩ => (v, rung, sec / 3600)
    | _ => ((List.range 4).map s.vsol, 0, 0)
  { s with rgl := { s.rgl with v := tableNat r.1, lastPlan := r.2.2, obs := none, readDue := s.now, calm := s.now },
           power := { s.power with rung := r.2.1 } }

/-- The selector at boot: a trial start takes a try first; a trial without tries left is reported (R509). -/
def State.trialBoot (s : State) (i : Image) : State :=
  let (active, trial, tries, va, vb) := s.flash.select
  if i.trial then s.putSelect active trial (tries - 1) va vb
  else if trial ≠ 0xFF && tries = 0 then s.logEvent (.evFw trial (s.flash.slotVer trial) 0)
  else s

/-- Firmware reaches RDY: a trial image becomes the active one; a confirmed one burns its fuses (R509, R542). -/
def State.reachReady (s : State) (i : Image) : State :=
  let s := { s with phase := .running }
  let (active, _, _, va, vb) := s.flash.select
  if i.trial then s.putSelect i.slot 0xFF 0 va vb
  else if (s.flash.selector.latest fun b => b.kind == 1).isSome && active = i.slot then { s with fuses := s.fuses.confirm s.flash i }
  else s

/-- HIF_STATUS.FATAL is set and FAULT_N driven low (R472, R508, R560). -/
def State.fatal (s : State) : State := { s with phase := .stopped, pins := { s.pins with faultLow := true } }

/-- Firmware takes the module out of service (R22, R440, R560). -/
def State.outOfService (s : State) (cause : Nat) : State := (s.logEvent (.evOutOfService cause)).fatal

/-- From the boot ROM to RDY or FATAL (R508). `test`: every mesh router passes its self-test; where one fails, the module goes out of
service with a record in the event log, at a boot after module reset too, of which R22 and R440 do not speak (DESIGN CHOICE, log 55). `cause` is that of the EV_RESET record,
where firmware writes one. -/
def State.boot (s : State) (test : Bool) (cause : Option Nat) : State :=
  let s := { s with flash := { s.flash with boots := s.flash.boots + 1 } }
  match bootImage s.flash s.fuses with
  | none => s.fatal
  | some i =>
    let s := s.trialBoot i
    let s := { s with sec := s.sec.derive s.fuses i (freshBytes s.freeCtr 32), freeCtr := s.freeCtr + 1 }
    let s := match cause with
      | some k => s.logEvent (.evReset k)
      | none => s
    let s := { s.regulatorBoot with plc := s.bootPlacement, tc := s.tc.filter fun p => tcVerify (some i) p.2.bytes }
    if s.flash.outOfService then s.fatal
    else if !test then s.outOfService 3
    else s.reachReady i

/-! Module reset (R557, R558) -/

/-- What a port keeps through a reset: the model's output fields. -/
def HostPort.reborn (h : HostPort) (up : Bool) : HostPort := { HostPort.init with linkUp := up, hostMem := h.hostMem, ep := h.ep, msix := h.msix }

/-- A cage through a reset: the transceiver stays, and its hours are those on record (R335). -/
def State.recage (s : State) (g : Cage) : Cage :=
  let h := (s.laserHours g.id.serial).getD (0, true)
  { g with txOn := false, eqAcc := h.1 * laserUnit, incomplete := h.2, pollAt := s.now, recAt := s.now }

/-- The links through a reset: cages and outputs stay. -/
def State.rebornLinks (s : State) : SMap LinkPort :=
  s.links.filterMap fun (p : Nat × LinkPort) =>
    let x := { LinkPort.init with cage := p.2.cage.map s.recage, out := p.2.out }
    if x = LinkPort.init then none else some (p.1, x)

/-- The module goes into reset: everything but the flash, the fuses and the pins is lost (R557, R558); tiles fused at test are fenced from
reset (R10, R11). -/
def State.moduleReset (s : State) (pins : Pins) : State :=
  { State.reset with
      pending := s.pending, freeCtr := s.freeCtr, pins := pins, busRead := s.busRead, fuses := s.fuses,
      flash := { s.flash with psecBase := s.psec },
      plc := s.fuses.placement, hosts := [], links := { s with clk := { s.clk with time := 0 } }.rebornLinks, coreRet := s.coreRet,
      sec := { Sec.init with reply := s.sec.reply, shifted := s.sec.shifted } }
  |> fun t => (List.range 2).foldl (fun t p => t.setHost p ((s.host p).reborn false)) t

/-- Module reset is released: device time starts and the module boots; the PCIe ports whose PERST# is released train (R31, R499,
R508, R559). A thermal trip that still holds, which FAULT_N shows in reset, keeps the die in reset (R560, R562). -/
def State.moduleBoot (s : State) (test : Bool) : State :=
  let s := { s with clk := ⟨0, 0, 0, false, true⟩ }
  if s.pins.tripLow && s.pins.faultLow then { s with phase := .tripped }
  else
    let s := s.setHost 0 { s.host 0 with linkUp := s.pins.perst0N }
    let s := s.setHost 1 { s.host 1 with linkUp := s.pins.perst1N }
    s.reapplyHbm.boot test (some s.pins.cause)

/-- MODULE_RESET_ASSERT: MOD_RST_N falls (R558, R560). -/
def execModuleResetAssert (s : State) : Host.Outcome State Fault Refusal :=
  occurs s.pins.rstN (s.moduleReset { s.pins with rstN := false, cause := 1, faultLow := s.phase == .tripped }) s

/-- MODULE_RESET_RELEASE: MOD_RST_N rises (R557, R558). -/
def execModuleResetRelease (test : Bool) (s : State) : Host.Outcome State Fault Refusal :=
  let s1 := { s with pins := { s.pins with rstN := true } }
  occurs (!s.pins.rstN) (if s.pins.pwrok then s1.moduleBoot test else s1) s

/-- MOD_PWROK_ASSERT: MOD_PWROK rises; the latch records power-on. The module boots where MOD_RST_N is already high (R557, R558). -/
def execModPwrokAssert (test : Bool) (s : State) : Host.Outcome State Fault Refusal :=
  let s1 := { s with pins := { s.pins with pwrok := true, cause := 0 } }
  occurs (!s.pins.pwrok) (if s.pins.rstN then s1.moduleBoot test else s1) s

/-- POWER_FAIL: MOD_PWROK falls (R557, R562). -/
def execPowerFail (s : State) : Host.Outcome State Fault Refusal :=
  occurs s.pins.pwrok (s.moduleReset { s.pins with pwrok := false, tripLow := false, faultLow := false }) s

/-! The full-device reset (R439, R584) -/

/-- The command that was started. -/
def Started.cmd : Started → Fetched
  | .dma f _ => f
  | .ctxStop f => f

/-- Commands of a port that a full-device reset ends (R483). -/
def HostPort.endAll (h : HostPort) (now : W64) : HostPort :=
  h.rings.foldl (fun a p =>
    let a := match sfind a.rings p.1 with
      | some g => { a with rings := sins a.rings p.1 { g with fetched := [], started := [] } }
      | none => a
    (p.2.started.map Started.cmd ++ p.2.fetched).foldl
      (fun a f => a.complete p.1 now (f.done 0x0D 0 0)) a) h

/-- Registers whose values firmware writes back: RW and RWL outside the HIF and CHR blocks (R584). -/
def keepsReg (k : Nat) : Bool :=
  !(0x1000 ≤ k && k < 0x2000) && !(0x100000 ≤ k && k < 0x111000) && (match regKind k with
    | some (.rw _) => true
    | _ => false)

/-- The controllers through a full-device reset: retirements and pending repairs stay; counters restart (R441, R584). -/
def Hctl.reborn (c : Hctl) : Hctl :=
  { Hctl.init with sref := c.sref, exhausted := c.exhausted, laneRemap := c.laneRemap, retired := c.retired, corr := c.corr, pendHard := c.pendHard,
                   laneFail := c.laneFail }

/-- The parts of a physical tile that firmware keeps in HBM (R417, R437, log 55). -/
def PTile.reborn (p : PTile) : PTile := { PTile.init with suspect := p.suspect, sigAt := p.sigAt, sigCount := p.sigCount }

/-- Everything on the die but HBM's contents, the root PLL and device time is reset (R439 step 2, log 55). -/
def State.dieReset (s : State) : State :=
  let s := s.abandonAll
  let s := match s.resCtx with
    | some (n, c) => s.setCtx n { c with saved := [] }
    | none => s
  let up := fun (p : Nat) => if p = 0 then s.pins.perst0N else s.pins.perst1N
  let t : State :=
    { s with cfg := s.cfg.filter (fun r => keepsReg r.1), lockWas := [], w1cNow := [], hi := [], l2 := [], stimecmp := [], power := Power.init, lease := none, sched := ⟨none, false, false, none⟩,
             clk := { s.clk with etick := 0, acc := 0, enabled := false }, coreHalt := 0, coreStep := 0, cvUnchecked := 0, cvFail := 0, testLate := 0,
             sec := { s.sec with image := none, aliasKey := none, udsBlocked := false, nonce := none, i3c := none },
             ptiles := s.ptiles.filterMap (fun (p : Nat × PTile) => let x := p.2.reborn; if x = PTile.init then none else some (p.1, x)),
             links := s.rebornLinks, lnk := LinkCommon.init,
             hbm := { s.hbm with cec := [], ctl := s.hbm.ctl.filterMap fun (p : Nat × Hctl) =>
               let x := p.2.reborn
               if x = Hctl.init then none else some (p.1, x) } }
  ((List.range 2).foldl (fun t p => t.setHost p ((s.host p).reborn (up p))) t).timeCtrl

/-- The stacks enter or leave self-refresh. -/
def State.selfRefresh (s : State) (on : Bool) : State :=
  (List.range 12).foldl (fun s i => { s with hbm := s.hbm.setCtl i { s.hbm.ctlOf i with sref := on } }) s

/-- Step 4 of R439: lane repairs, and the hard repairs that were pending, each with its record (R441). -/
def State.hbmBoot (s : State) : State :=
  (List.range 12).foldl (fun s i =>
    let c := s.hbm.ctlOf i
    let s := { s with hbm := s.hbm.setCtl i { c with laneRemap := c.laneRemap || c.laneFail, laneFail := false, pendHard := [] } }
    c.pendHard.foldl (fun s k => s.logEvent (.evHbmRepair (k / 2 ^ 32 % 12) (k / 2 ^ 32 / 12) (k % 2 ^ 32) true)) s) (s.selfRefresh false)

/-- A context after a full-device reset: its step is executed again from the snapshot; with other devices, what was held for an open
step's commit stays until the root has answered (R366, R439, log 55). -/
def State.reverted (s : State) (c : Ctx) : Ctx :=
  let c := { c with st := .ready, preempt := none, running := [], inbox := [], esc := none, heard := [], restore := none, miss := 0, ovr := 0, switches := 0,
                    fromRb := true }
  if s.multi c && c.stepOpen then { c with rejoin := true }
  else { c with com := Com.init, stepOpen := false, wrotePoison := false, single := false, insts := [], rollout := none,
                recs := c.supplied.filter (fun r => r.kind == 1), slots := c.slots.filter (fun v => v.step ≠ c.step) }

/-- Step 7 of R439: a context comes back from its rollback area; one that a switch saved, from its save area; one that has not begun
starts; another is lost (log 55). One whose step is rolled back after an update of a SINGLE group has issued in it stops (R210). -/
def State.reviveCtx (s : State) (n : Nat) : State :=
  match sfind s.ctxs n with
  | none => s
  | some c =>
    if c.st = .stopped then s
    else if !c.begun then s.setCtx n { c with st := .ready, preempt := none, miss := 0, ovr := 0, switches := 0 }
    else if c.snap && c.single && !(s.multi c && c.stepOpen) then s.stopCtx n 0x06
    else if c.snap then
      let s := c.roSnap.foldl (fun s p => if s.multi c && c.stepOpen then s else s.rawWrite p.1 p.2) s
      s.setCtx n (s.reverted c)
    else if c.saved.isEmpty then s.stopCtx n 0x03
    else s.setCtx n { c with st := .ready, preempt := none, miss := 0, ovr := 0, switches := 0 }

/-- Step 5 of R439: the enabled ports start their bring-up (R311, R585). -/
def State.startPorts (s : State) : State := (List.range 24).foldl (fun s p => if s.portOn p then s.bringUp p else s) s

/-- Steps 2 to 7 of R439. -/
def State.restart439 (s : State) (cause : Nat) (test : Bool) : State :=
  let s := (s.selfRefresh true).dieReset.boot test none
  if s.phase ≠ .running then s
  else
    let s := (s.hbmBoot.startPorts).event 0x0E 0xFF [(0, 1, cause)] []
    ((List.range 8).foldl State.reviveCtx s).resched

/-- LASER records of the ports that a full-device reset takes down (R335). -/
def State.laserRecords (s : State) : State :=
  (List.range 24).foldl (fun s p => if (s.link p).cage.any (·.txOn) then s.writeLaser p else s) s

/-- A full-device reset (R439). -/
def State.fullReset (s : State) (cause : Nat) (test : Bool) : State :=
  let s := (s.logEvent (.evReset cause)).laserRecords
  let s := s.setHost 0 ((s.host 0).endAll s.now)
  let s := s.setHost 1 ((s.host 1).endAll s.now)
  s.restart439 cause test

/-- DEVICE_RESET (R482): the completion is written before step 2. -/
def execDeviceReset (p : Fin 2) (r : Fin 16) (test : Bool) (s : State) : Host.Outcome State Fault Refusal :=
  startCmd p r 0x60 s fun f => (s.finish p r f stOk 0 0).fullReset 2 test

/-- A router fault within the last 24 hours is on record (R22, R440). -/
def State.routerAgain (s : State) : Bool :=
  s.flash.events.recs.any fun r => r.body == .evReset 3 && decide (s.psec < r.psec + 86400)

/-- ROUTER_FAULT (R22, R440): a second one within 24 hours takes the module out of service. -/
def execRouterFault (test : Bool) (s : State) : Host.Outcome State Fault Refusal :=
  occurs s.up ((if s.routerAgain then s.logEvent (.evOutOfService 3) else s).fullReset 3 test) s

/-- CLUSTER0_UNCORRECTABLE_ERROR (R440, R502). -/
def execCluster0UncorrectableError (test : Bool) (s : State) : Host.Outcome State Fault Refusal := occurs s.up (s.fullReset 4 test) s

/-- FIRMWARE_WATCHDOG (R440, R502): the watchdog of core `core` of cluster 0 expires. -/
def execFirmwareWatchdog (_core : Fin 4) (test : Bool) (s : State) : Host.Outcome State Fault Refusal := occurs s.up (s.fullReset 5 test) s

/-- SECURITY_BLOCK_FAULT (R440, R535). -/
def execSecurityBlockFault (test : Bool) (s : State) : Host.Outcome State Fault Refusal := occurs s.up (s.fullReset 6 test) s

/-- An interface lane of a stack fails: where its redundant lane is free, the device resets to remap it (R440, R441, log 56). -/
def State.laneFails (s : State) (i : Nat) (test : Bool) : State :=
  let c := s.hbm.ctlOf i
  if c.laneRemap || c.laneFail then s
  else { s with hbm := s.hbm.setCtl i { c with laneFail := true } }.fullReset 7 test

/-- HBM_READ (R230, R245, R441). `lane`: the controller finds a failing interface lane as it serves the read. -/
def execHbmRead (stack : Fin 12 × Hubs) (bad : List Nat) (can lane test : Bool) (s : State) : Host.Outcome State Fault Refusal :=
  occurs (hubsOk stack.1 stack.2) (
    let t := s.hbmRead stack.1 stack.2 bad can
    if lane && t.up then t.laneFails stack.1 test else t) s

/-! Thermal trips and rails (R554, R561, R562) -/

/-- Where a trip was read: a die sensor, or an HBM stack by index from 72, three stacks to a quadrant (log 56). -/
def tripQuadrant (i : Nat) : Nat := if i < 72 then sensorQuadrant i else (i - 72) / 3

/-- THERMAL_TRIP (R562): a die sensor at 115 °C, by its number, or the catastrophic flag of stack `i` − 72. -/
def execThermalTrip (i : Fin 84) (temp : Int) (s : State) : Host.Outcome State Fault Refusal :=
  let s1 := (s.selfRefresh true).dieReset
  let s2 := { s1 with phase := .tripped, pins := { s1.pins with tripLow := true, faultLow := true } }
  let s2 := s2.setHost 0 { s2.host 0 with linkUp := false }
  let s2 := s2.setHost 1 { s2.host 1 with linkUp := false }
  occurs ((s.phase == .running || s.phase == .stopped) && (decide (72 ≤ i.val) || decide (1150 ≤ temp)))
    (s2.logEvent (.evThermalTrip (tripQuadrant i) temp)) s

/-- THERMAL_TRIP_RECOVERY (R562): power stays and every sensor reads below 105 °C. -/
def execThermalTripRecovery (die : List Int) (test : Bool) (s : State) : Host.Outcome State Fault Refusal :=
  occurs (s.phase == .tripped && s.pins.pwrok && s.pins.rstN && decide (die.length = 72) && die.all (fun t => decide (t < 1050)))
    (s.fullReset 8 test) s

/-- RAIL_EXCURSION (R554): rail `r` has left its operating range for more than 10 µs. -/
def execRailExcursion (r : Fin 16) (s : State) : Host.Outcome State Fault Refusal :=
  .next { s with pins := { s.pins with railOut := s.pins.railOut ||| BitVec.ofNat 16 (2 ^ r.val) } }

/-- RAIL_IN_RANGE (R561). -/
def execRailInRange (r : Fin 16) (s : State) : Host.Outcome State Fault Refusal :=
  .next { s with pins := { s.pins with railOut := s.pins.railOut &&& ~~~BitVec.ofNat 16 (2 ^ r.val) } }

/-! PCIe port resets (R470, R499, R559) -/

/-- PCIE_PORT_RESET (R470): PERST# of the port where `perst` is true, else a hot reset, an FLR or D3hot. -/
def execPciePortReset (p : Fin 2) (perst : Bool) (s : State) : Host.Outcome State Fault Refusal :=
  let pins := if !perst then s.pins else if p = 0 then { s.pins with perst0N := false } else { s.pins with perst1N := false }
  let s1 := if (match s.lease with | some l => l.holder == p.val | none => false) then s.loseLease 3 else s
  let s2 := { s1 with pins := pins, cfg := s1.cfg.filter (fun r => !(hifKey p 0 ≤ r.1 && r.1 < hifKey p 0x800)),
                       lockWas := s1.lockWas.filter fun r => r.1 != hifKey p 0 }
  .next (s2.setHost p ((s2.host p).reborn (!perst && (s2.host p).linkUp)))

/-- PERST_RELEASE (R559): the link trains once module reset is released too. -/
def execPerstRelease (p : Fin 2) (s : State) : Host.Outcome State Fault Refusal :=
  let s1 := { s with pins := if p = 0 then { s.pins with perst0N := true } else { s.pins with perst1N := true } }
  .next (s1.setHost p { s1.host p with linkUp := s.phase != .inReset && s.phase != .tripped })

/-! The end of a move (R247, R248) -/

/-- EPOCH_MARKER (R247, R248): the marker of a stop and a class for logical tile `t` reaches the tile's new place. -/
def execEpochMarker (t : Fin 64) (stop : Fin 72) (cls : Fin 3) (s : State) : Host.Outcome State Fault Refusal :=
  let m := stop.val * 3 + cls.val
  match s.plc.drains.findIdx? fun d => d.ltile == t.val && !d.got.contains m with
  | none => .next s
  | some i => .next { s with plc := { s.plc with drains := s.plc.drains.modify i fun d => { d with got := d.got ++ [m] } } }

/-- PLACEMENT_EXCLUSIVE (R248): every marker of the oldest move of logical tile `t` has come. -/
def execPlacementExclusive (t : Fin 64) (s : State) : Host.Outcome State Fault Refusal :=
  match s.plc.drains.findIdx? fun d => d.ltile == t.val with
  | none => .next s
  | some i => occurs (s.plc.drains[i]?.any fun d => d.count == 0) { s with plc := { s.plc with drains := s.plc.drains.eraseIdx i } } s

end Sys2Proof.Machine
end

