-- ==== Sys2Proof/Machine/TestRun.lean ====
section
/-! DEFINITION. Machine/TestRun.lean: fleet test content: test windows on bound tiles and runs on free spares (R16, R246, R370,
R394, R430 to R437, R455). Log 57 says what the spec leaves open. -/

namespace Sys2Proof.Machine

/-! What is due (R430 to R432) -/

/-- The powered second at which a package is due on a physical tile: at once where it has never run, its period after its last run
otherwise, never again where it runs once. -/
def TcPkg.due (k : TcPkg) (p : Nat) : Option Nat :=
  match sget zeroNat k.ran p with
  | 0 => some 0
  | n + 1 => if k.period = 0 then none else some (n + k.period * 3600)

/-- The lesser of two times, none for never. -/
def sooner : Option Nat → Option Nat → Option Nat
  | some a, some b => some (min a b)
  | some a, none => some a
  | none, b => b

/-- Physical tiles that carry logical tiles. -/
def Placement.boundTiles (pl : Placement) : List Nat := (List.range 68).filter pl.bound

/-- The earliest due time of a package on some of the tiles. -/
def TcPkg.dueOn (k : TcPkg) (ts : List Nat) : Option Nat := ts.foldl (fun b p => sooner b (k.due p)) none

/-- The earliest due time of any held package on the bound tiles: the window's deadline, in powered seconds (R432). -/
def State.testDeadline (s : State) : Option Nat :=
  s.tc.foldl (fun b p => sooner b (p.2.dueOn s.plc.boundTiles)) none

/-- The packages that a window runs: those due by now, or, where none is, those due first; all of them for a device sent to test
(R432, R434, log 57). -/
def State.testSet (s : State) (full : Bool) : List TcPkg :=
  let ks := s.tc.map Prod.snd
  if full then ks
  else
    let lim := match s.testDeadline with
      | some d => max d s.psec
      | none => 0
    ks.filter fun k => match k.dueOn s.plc.boundTiles with
      | some d => decide (d ≤ lim)
      | none => false

/-- A context of the device has stopped with DIGEST_SPLIT: the device is sent to test (R370). -/
def State.sentToTest (s : State) : Bool := s.ctxs.any fun p => p.2.st == .stopped && p.2.status == 0x08

/-! A run (R432, R433) -/

/-- What a failed test captures: the operands are those of the package, which the model does not run (R435, log 57). -/
def State.testCapture (s : State) : Capture :=
  let w := fun (i n : Nat) => Config.freeNat (s.freeCtr + i) % n
  { op := w 0 256, fmts := w 1 256, klen := w 2 65536, kblk := w 3 65536, plane := { Plane.init with junk := s.freeCtr + 8 }, rows := [], init := [],
    sums := [asumOfWord (BitVec.ofNat 64 (Config.freeNat (s.freeCtr + 4)))] }

/-- A package's run on a physical tile ends: the result goes to both hosts, and a run that ends after its due time is counted (R432,
R496). -/
def State.testRan (s : State) (k : TcPkg) (p : Nat) (fail : Bool) : State :=
  let late := match sget zeroNat k.ran p with
    | 0 => false
    | n + 1 => k.period ≠ 0 && decide (n + k.period * 3600 < s.psec)
  let s := match sfind s.tc k.id with
    | some k => { s with tc := sins s.tc k.id { k with ran := sput zeroNat k.ran p (s.psec + 1) } }
    | none => s
  { s with testLate := s.testLate + (if late then 1 else 0) }.event 0x0D 0xFF [(0, 8, k.id), (8, 1, p), (9, 1, b2n fail)] []

/-- A unit of a tile fails a test: a signature with cause TEST (R433). -/
def State.testSignature (s : State) (p unit : Nat) : State := (s.spend 1024).signature 3 unit 0 p s.testCapture

/-- A package runs on a tile. `fails` names the cases that fail, as package, tile and unit. -/
def State.testOne (fails : List (Nat × Nat × Nat)) (p : Nat) (s : State) (k : TcPkg) : State :=
  let bad := (fails.filter fun f => f.1 == k.id && f.2.1 == p).map (·.2.2)
  bad.foldl (fun s u => s.testSignature p u) (s.testRan k p (!bad.isEmpty))

/-- Packages run on tiles; a tile with a failure is then fenced (R419, R420, R433). -/
def State.testTiles (s : State) (ks : List TcPkg) (ts : List Nat) (fails : List (Nat × Nat × Nat)) : State :=
  let s := ts.foldl (fun s p => ks.foldl (State.testOne fails p) s) s
  ts.foldl (fun s p => if fails.any (fun f => f.2.1 == p && ks.any fun k => k.id == f.1) then s.fenceTile p 3 else s) s

/-! Windows (R432, R434, R455) -/

/-- A tile's 96 KiB image, as granules. -/
def State.imageGrans (s : State) (t : Nat) : List AreaGran :=
  let x := s.tile t
  let img := if x.run = .halted then x.image [] [] else x.image x.saveSeg x.saveLoad
  (List.range (imageSize / 4096)).map fun i => ((img.drop (4096 * i)).take 4096, false, none)

/-- The images of the displaced context go to its save area (R455). -/
def State.saveImages (s : State) (n : Nat) (c : Ctx) : State :=
  let ver := c.saves + 1
  let s := c.tiles.foldl (fun s t => (s.dropAhead t).putArea n c false ver (c.placeOf false t) (s.imageGrans t)) s
  match sfind s.ctxs n with
  | some c => s.setCtx n { c with saves := ver }
  | none => s

/-- A tile of the displaced context after the window: its image comes back, its live ranges have stayed, the rest is as after a
restore (R455, R458). -/
def State.afterTest (s : State) (t : Nat) : State :=
  let x := s.tile t
  let live := if x.run = .halted then [] else s.liveOf t (Seg.ofBytes x.saveSeg)
  let y := Tile.ofImage ((s.imageGrans t).flatMap Prod.fst) (s.freeCtr + 1)
  let s := (s.spend (2 ^ 24)).clearSramBut t live
  let s := s.setTile t (y.keepOut x)
  if y.run = .halted then s else s.startLoad t 32 { LoadRec.ofBytes y.saveLoad with on := false }

/-- The window's deadline in device time. -/
def State.windowDline (s : State) : Option Nat := s.testDeadline.map fun d => (d - s.flash.psecBase) * ticksPerSec

/-- The scheduler's choice falls on the window: it is due before every context that can run (R432, R453, R455). -/
def State.testFirst (s : State) : Bool :=
  (s.ctxs.filter fun p => p.2.runnable).all fun p => !earlier p.2.dline s.windowDline

/-- The window begins: at once where no context is resident; else the resident context is first stopped at its boundary (R265, R432). -/
def State.beginTest (s : State) : State :=
  match s.resCtx with
  | none => { s with sched := { s.sched with test := true } }
  | some (r, c) =>
    if c.preempt.isNone then s.preempt r c none
    else if s.allStopped c && c.tiles.all s.canSave then
      let s := s.saveImages r c
      { s with sched := { s.sched with test := true } }
    else s

/-- A device sent to test has failed: its replica is expelled from the jobs that R370 stopped (R370, R434, log 45). -/
def State.expelTested (s : State) : State :=
  s.ctxs.foldl (fun s p =>
    let g := s.group p.2 0
    match if p.2.st = .stopped && p.2.status = 0x08 then s.replAt g g.rank else none with
    | some idx => s.expel p.1 idx
    | none => s) s

/-- The window ends: results, fences, and the displaced context goes on. -/
def State.endTest (s : State) (full : Bool) (fails : List (Nat × Nat × Nat)) : State :=
  let ts := if full then (List.range 68).filter fun p => !bitOf s.plc.fenced.toNat p else s.plc.boundTiles
  let ks := s.testSet full
  let s := s.testTiles ks ts fails
  let s := if full && fails.any (fun f => ts.contains f.2.1 && ks.any fun k => k.id == f.1) then s.expelTested else s
  let s := { s with sched := { s.sched with test := false } }
  match s.resCtx with
  | none => s.resched
  | some (r, c) => ((c.tiles.foldl State.afterTest s).goOn r c).resched

/-- TEST_WINDOW (R432, R434): begins a window, or ends the one that runs. `fails` names the cases that fail; `full` says that the device
was sent to test under R370. -/
def execTestWindow (full : Bool) (fails : List (Nat × Nat × Nat)) (s : State) : Host.Outcome State Fault Refusal :=
  if s.sched.test then .next (s.endTest full fails)
  else occurs (s.up && !s.sched.switching && !(s.testSet full).isEmpty && (if full then s.sentToTest else s.testFirst)) s.beginTest s

/-- SPARE_TEST_RUN (R16, R432, R433): the free spare `p` has run each package that is due on it; the run ends in an enabled tick, since the
spare follows the common clock enable while its gate is open, which is for the run alone. -/
def execSpareTestRun (p : Fin 68) (fails : List (Nat × Nat × Nat)) (s : State) : Host.Outcome State Fault Refusal :=
  let ks := (s.tc.map Prod.snd).filter fun k => match k.due p with
    | some d => decide (d ≤ s.psec)
    | none => false
  occurs (s.up && s.clk.enabled && s.plc.freeSpare (p.val / 17) == some p.val && !ks.isEmpty) (s.testTiles ks [p.val] fails) s

end Sys2Proof.Machine
end

