-- ==== Sys2Proof/Machine/RegWrite.lean ====
section
/-! DEFINITION. Machine/RegWrite.lean: writes of set-up registers with what they set off, and register reads (R7, R33, R249, R292, R473,
R494, R575 to R583, R588, R589, R593, R594, R596, R597, R599, R600). Log 21 numbers the registers; log 59 says what the spec leaves
open. An agent is port 0, port 1 or firmware, 2. -/

namespace Sys2Proof.Machine

/-- An agent reaches BAR0: firmware always, a host while its port's link is up (R499, R559). -/
def State.reaches (s : State) (ag : Nat) : Bool := s.phase != .inReset && s.phase != .tripped && (decide (2 ≤ ag) || (s.host ag).linkUp)

/-! Enabling a port's rings (R473) -/

/-- Ring 0 and doorbell settings keep R472's alignment. -/
def State.hifOk (s : State) (p : Nat) : Bool :=
  [0x08, 0x10, 0x18].all fun o => s.reg (hifKey p o) % 64 == 0

/-- Ring 0 as the registers set it: vector 0, no coalescing (R472, R494). -/
def State.ring0 (s : State) (p : Nat) : Ring :=
  let z := s.reg (hifKey p 0x20)
  Ring.fresh (s.hifAddr p 0x10) (s.hifAddr p 0x18) (z % 16 + 4) (z / 16 % 16 + 4) 0 0 0

/-- EN is written 1 (R473): refused with HIF_ERR.CFG, or the port's rings start. -/
def State.hifStart (s : State) (p : Nat) : State :=
  let h := s.host p
  if bitOf (s.reg (hifKey p 0)) 0 then s
  else if !s.up || h.quiesce || !s.hifOk p then s.hifErr p 8
  else
    let s := ((s.setReg (hifKey p 0) 1).clearLate (hifKey p 0)).holdLock s (hifKey p 0)
    s.setHost p { h with enrdy := true, rings := [(0, s.ring0 p)], evSeq := 0, pollDue := s.now }

/-- EN is written 0 (R473): polling stops, what has not started is withdrawn, the lease is released. -/
def State.hifStop (s : State) (p : Nat) : State :=
  let h := s.host p
  let s := (s.setReg (hifKey p 0) 0).holdLock s (hifKey p 0)
  if !h.enrdy then s
  else
    let s := s.setHost p ({ h with quiesce := true }.withdraw s.now true)
    let s := if (match s.lease with | some l => l.holder == p | none => false) then s.loseLease 1 else s
    s.setHost p (s.host p).finishQuiesce

/-! What a write sets off -/

/-- A Turain port's enables have changed: it begins bring-up, or goes DOWN (R311, R594). -/
def State.portEnables (s : State) (was : Bool) (n : Nat) : State :=
  if s.portOn n = was then s else s.bringUp n

/-- The fault checks in progress are abandoned and counted (R122, R597). -/
def State.dropChecks (s : State) : State :=
  (List.range 68).foldl (fun s p =>
    let x := s.ptile p
    if x.check.isSome then s.setPtile p { x with check := none, wchAbandon := x.wchAbandon + 1 } else s) s

/-- The counters of a chronograph bank are cleared (R249). -/
def State.clearBank (s : State) (k : Nat) : State :=
  let p := (k - 0x100000) / 0x400
  let b := k / 0x100 % 4
  let x := s.ptile p
  s.setPtile p { x with chr := x.chr.filter fun c => c.1 / 16 ≠ b }

/-- A stored register has taken its new value (R249, R292, R589, R594, R597, R600): `was` is the state before. -/
def State.settleReg (was : State) (k : Nat) (s : State) : State :=
  let on := !was.blockOn k && s.blockOn k
  let s := (if on then s.clearLate k else s).holdLock was k
  if k = 0x3000 then
    (if bitOf (was.reg k) 0 && !bitOf (s.reg k) 0 && s.power.clamp then { s with power := { s.power with clampEnd := true } } else s)
  else if k = 0x20010 then
    (if (bitOf (was.reg k) 0 && bitOf (s.reg k) 0) || was.reg k = s.reg k then s else s.timeCtrl)
  else if k = 0x20000 then (List.range 24).foldl (fun s n => s.portEnables (was.portOn n) n) s
  else if 0x20100 ≤ k && k < 0x20700 && k % 0x40 = 0 then s.portEnables (was.portOn ((k - 0x20100) / 0x40)) ((k - 0x20100) / 0x40)
  else if k = 0x40000 then (if bitOf (was.reg k) 0 && !bitOf (s.reg k) 0 then s.dropChecks else s)
  else if 0x100000 ≤ k && k < 0x111000 && on then s.clearBank k
  else s

/-- A write of a register's fields (R7, R578). -/
def State.writeFields (s : State) (k v : Nat) (fs : List RField) : State :=
  if outOfRange (s.locked k) v fs then s.late k
  else if 0x1000 ≤ k && k < 0x2000 && k % 0x800 = 0 then
    let p := k / 0x800 - 2
    if bitOf v 0 then s.hifStart p else s.hifStop p
  else
    let on := s.locked k
    let old := s.reg k
    let t := State.settleReg s k (s.setReg k (mergeFields on old v fs 0))
    if lockedHit on old v fs then t.late k else t

/-- Bits that a 1 clears, but for those that the device has set in this tick: the port status events lie in the port, every other such
register is stored (R7, R314). -/
def State.clearBits (s : State) (k v mask : Nat) : State :=
  if 0x20100 ≤ k && k < 0x20700 && k % 0x40 = 8 then
    let n := (k - 0x20100) / 0x40
    let x := s.link n
    let kept := fun (at_ : Option W64) => at_ == some s.now
    s.setLink n { x with spared := x.spared && (!bitOf v 30 || kept x.sparedAt), downev := x.downev && (!bitOf v 31 || kept x.downevAt) }
  else
    let old := BitVec.ofNat 32 (s.reg k)
    s.setReg k (old &&& ~~~(BitVec.ofNat 32 v &&& BitVec.ofNat 32 mask &&& ~~~sget zero32 s.w1cNow k)).toNat

/-- A write by an agent of word `v`; `full`: every byte enable is set (R473, R576, R577). -/
def State.writeReg (s : State) (ag off : Nat) (full : Bool) (v : Nat) : State :=
  if !s.reaches ag then s
  else if ag < 2 && 0xFF0000 ≤ off && off < 0xFF0400 then
    (if full then s.setHost ag ((s.host ag).writeMsix ((off - 0xFF0000) / 4) (BitVec.ofNat 32 v)) else s)
  else if ag < 2 && !s.up then (if full && off = 0x1000 && bitOf v 0 then s.hifErr ag 8 else s)
  else match keyOf ag off with
    | none => s
    | some k => match regKind k with
      | none => s
      | some kind =>
        if !full then s.late k
        else if ag < 2 && !(0x1000 ≤ k && k < 0x2000) && !s.auth ag then s.late k
        else match kind with
          | .ro => s
          | .w1c mask => s.clearBits k v mask
          | .rw fs => s.writeFields k v fs

/-! Commands -/

/-- CLK_DEVTIME_LO_READ (R33, R587). -/
def execClkDevtimeLoRead (ag : Fin 3) (s : State) : Host.Outcome State Fault Refusal :=
  occurs (s.reaches ag) (s.readReg ag 0x2000) s

/-- PAIR_LO_READ (R581): a read of a register; the _LO register of a pair latches its _HI for the agent. -/
def execPairLoRead (ag : Fin 3) (off : BitVec 24) (s : State) : Host.Outcome State Fault Refusal :=
  occurs (s.reaches ag) (s.readReg ag (off.toNat / 4 * 4)) s

/-- REGISTER_WRITE (R7, R576 to R579). -/
def execRegisterWrite (ag : Fin 3) (off : BitVec 24) (full : Bool) (v : BitVec 32) (s : State) : Host.Outcome State Fault Refusal :=
  .next (s.writeReg ag (off.toNat / 4 * 4) full v.toNat)

/-- The offset at which an agent finds a port's HIF window (R575, log 21). -/
def hifOff (ag p : Nat) : Nat := if ag = 2 then 0x1000 + 0x800 * p else 0x1000

/-- HIF_ENABLE (R473): a host writes EN = 1. -/
def execHifEnable (p : Fin 2) (s : State) : Host.Outcome State Fault Refusal := .next (s.writeReg p (hifOff p p) true 1)

/-- HIF_QUIESCE (R473): a host writes EN = 0. -/
def execHifQuiesce (p : Fin 2) (s : State) : Host.Outcome State Fault Refusal := .next (s.writeReg p (hifOff p p) true 0)

/-- LNK_ENABLE (R593): LNK_CTRL.EN is written 1. -/
def execLnkEnable (ag : Fin 3) (s : State) : Host.Outcome State Fault Refusal := .next (s.writeReg ag 0x20000 true 1)

/-- LNK_DISABLE (R593): LNK_CTRL.EN is written 0. -/
def execLnkDisable (ag : Fin 3) (s : State) : Host.Outcome State Fault Refusal := .next (s.writeReg ag 0x20000 true 0)

/-- LNK_PORT_ENABLE (R593, R594): LNK_Pn_CTRL is written with EN set and a mode. -/
def execLnkPortEnable (ag : Fin 3) (n : Fin 24) (mode : BitVec 2) (s : State) : Host.Outcome State Fault Refusal :=
  .next (s.writeReg ag (0x20100 + 0x40 * n.val) true (1 + 2 * mode.toNat))

/-- LNK_PORT_DISABLE (R594): EN is written 0, the mode as it stands. -/
def execLnkPortDisable (ag : Fin 3) (n : Fin 24) (s : State) : Host.Outcome State Fault Refusal :=
  .next (s.writeReg ag (0x20100 + 0x40 * n.val) true (s.reg (0x20100 + 0x40 * n.val) / 2 * 2))

/-- CHR_BANK_ENABLE (R249, R599, R600). -/
def execChrBankEnable (ag : Fin 3) (p : Fin 68) (b : Fin 4) (mode : BitVec 2) (target : BitVec 3) (sctx : BitVec 5) (s : State) :
    Host.Outcome State Fault Refusal :=
  .next (s.writeReg ag (0x100000 + 0x400 * p.val + 0x100 * b.val) true (1 + 2 * mode.toNat + 16 * target.toNat + 256 * sctx.toNat))

/-- CHR_BANK_DISABLE (R599, R600): EN is written 0, the other fields as they stand. -/
def execChrBankDisable (ag : Fin 3) (p : Fin 68) (b : Fin 4) (s : State) : Host.Outcome State Fault Refusal :=
  let k := 0x100000 + 0x400 * p.val + 0x100 * b.val
  .next (s.writeReg ag k true (s.reg k / 2 * 2))

/-- FASTEN_CLEAR (R588, R589). -/
def execFastenClear (ag : Fin 3) (s : State) : Host.Outcome State Fault Refusal := .next (s.writeReg ag 0x3000 true 0)

/-- RGL_PERIOD_WRITE (R588, R589). -/
def execRglPeriodWrite (ag : Fin 3) (hours : BitVec 14) (s : State) : Host.Outcome State Fault Refusal :=
  .next (s.writeReg ag 0x3020 true hours.toNat)

/-- FWEN_CLEAR (R596, R597): WCH_CTRL is written with FWEN clear, its other fields as they stand. -/
def execFwenClear (ag : Fin 3) (s : State) : Host.Outcome State Fault Refusal :=
  .next (s.writeReg ag 0x40000 true (s.reg 0x40000 / 2 * 2))

/-- DREN_CLEAR (R596, R597): WCH_CTRL is written with DREN clear, its other fields as they stand. -/
def execDrenClear (ag : Fin 3) (s : State) : Host.Outcome State Fault Refusal :=
  .next (s.writeReg ag 0x40000 true (s.reg 0x40000 / 4 * 4 + s.reg 0x40000 % 2))

end Sys2Proof.Machine
end

