-- ==== Sys2Proof/Machine/ControlCore.lean ====
section
/-! DEFINITION. Machine/ControlCore.lean: what job control programs do to the device, and JTAG access under an open scope (R223, R249,
R280, R285, R294, R402, R407, R410, R428, R502, R551). Log 58 says what the spec leaves open. -/

namespace Sys2Proof.Machine

/-! Job control programs -/

/-- A word to a control core. -/
def State.toCore (s : State) (l : List Nat) : State := { s with coreRet := l.map (BitVec.ofNat 64) }

/-- A core of clusters 1 to 3 runs, or has been let step (R551). -/
def State.coreGoes (s : State) (core : Nat) : Bool := !bitOf s.coreHalt.toNat core || bitOf s.coreStep.toNat core

/-- A step that was allowed has been taken. -/
def State.stepped (s : State) (core : Nat) : State := { s with coreStep := s.coreStep &&& ~~~BitVec.ofNat 16 (2 ^ core) }

/-- Every byte of an access lies in HBM regions of the context that have CORE set (R223, R228, R428). -/
def coreMapped (c : Ctx) (a n : Nat) : Bool := decide (a + n ≤ hbmCtxEnd) && coveredBy c.regs 16 a n

/-! The caches (R26, R220, R223): the four L2 caches are coherent with one another, so State holds their 64 B blocks once, and nothing else is
coherent with them (log 81). -/

/-- The 64 B blocks that `n` bytes from `a` touch. -/
def coreBlocks (a n : Nat) : List Nat := (List.range (cdiv (a % 64 + n) 64)).map fun k => (a / 64 + k) * 64

/-- A block as a core sees it: the cached one, else memory's. -/
def State.coreBlock (s : State) (b : Nat) : CoreLine := (sfind s.l2 b).getD ⟨rdBytes s.mem b 64, false⟩

/-- The blocks that an access touches are in the caches. -/
def State.coreFill (s : State) (a n : Nat) : State := (coreBlocks a n).foldl (fun s b => { s with l2 := sins s.l2 b (s.coreBlock b) }) s

/-- The bytes of a load, through the caches. -/
def State.coreBytes (s : State) (a n : Nat) : List Byte := (((coreBlocks a n).flatMap fun b => (s.coreBlock b).bytes).drop (a % 64)).take n

/-- A store of `d` at `a` as it changes the block at `b`. -/
def CoreLine.patch (l : CoreLine) (b a : Nat) (d : List Byte) : CoreLine :=
  ⟨(List.range 64).map fun k => if a ≤ b + k && b + k < a + d.length then d.getD (b + k - a) 0 else l.bytes.getD k 0, true⟩

/-- A store through the caches: the blocks that it changes are dirty. -/
def State.coreStore (s : State) (a : Nat) (d : List Byte) : State :=
  (coreBlocks a d.length).foldl (fun s b => { s with l2 := sins s.l2 b ((s.coreBlock b).patch b a d) }) s

/-- A dirty block is written to HBM, raw, and stays clean (R223, R402). -/
def State.coreClean (s : State) (b : Nat) : State :=
  match sfind s.l2 b with
  | some l =>
    if l.dirty then { s with hbm := Hbm.writeRaw (fun _ => false) 65 s.hbm b l.bytes, l2 := sins s.l2 b { l with dirty := false } } else s
  | none => s

/-- A block leaves the caches, with what it held. -/
def State.coreDrop (s : State) (b : Nat) : State := { s with l2 := sdel s.l2 b }

/-- A load or store of device memory through the caches: bytes of a load go to the core; a granule whose mark is set sets the core-poison flag;
outside the mapped regions the access is a job fault (R223, R402, R407, R410, R428). -/
def State.coreMem (s : State) (k : Nat) (c : Ctx) (store : Bool) (a n : Nat) (d : List Byte) : State :=
  if !coreMapped c a (if store then d.length else n) then s.jobFault ⟨2, 4, a, 0, none⟩ none
  else if store then s.coreStore a d
  else
    let s := if s.poisIn a n then s.setCtx k { c with corePoison := true } else s
    (s.coreFill a n).toCore [leNat (s.coreBytes a n)]

/-- cbo.clean, cbo.inval and cbo.flush of the block at an address (R223). -/
def State.coreCbo (s : State) (c : Ctx) (clean drop : Bool) (a : Nat) : State :=
  let b := a / 64 * 64
  if !coreMapped c a 1 then s.jobFault ⟨2, 4, a, 0, none⟩ none
  else
    let s := if clean then s.coreClean b else s
    if drop then s.coreDrop b else s

/-- The supervisor timer of a core (R32, R294): the time CSR, stimecmp, which a store writes, and whether a timer interrupt is pending. -/
def State.coreTimer (s : State) (core : Nat) (sp : Nat) (store : Bool) (d : List Byte) : State :=
  let cmp := sget zero64 s.stimecmp core
  match sp with
  | 0 => s.toCore [s.now.toNat]
  | 1 => if store then { s with stimecmp := sput zero64 s.stimecmp core (BitVec.ofNat 64 (leNat (d.take 8))) } else s.toCore [cmp.toNat]
  | _ => s.toCore [b2n (decide (cmp.toNat ≤ s.now.toNat))]

/-- The synchronisation window (R280, R285): a load returns a counter, a store adds to one or starts a halted tile; every other
offset reads zero and ignores stores. -/
def State.coreSync (s : State) (core : Nat) (c : Ctx) (store : Bool) (a : Nat) (d : List Byte) : State :=
  let t := a / 4096
  let off := a % 4096
  let v := leNat (d.take 4)
  if !c.tiles.contains t then s.jobFault ⟨2, 4, a, 0, none⟩ none
  else if store then
    if off < 0x400 then s.incFrom (hubStop (core / 4 + 1)) t (off / 4) v
    else if off = 0x800 && (s.tile t).run = .halted then s.orFault t (s.startHalted t v)
    else s
  else s.toCore [if off < 0x400 then (sget zero32 (s.tile t).sync (off / 4)).toNat else 0]

/-- The chronograph window (R249): read-only. -/
def State.coreChr (s : State) (store : Bool) (a : Nat) : State :=
  if store then s
  else
    let s := s.readReg 4 (0x100000 + a)
    s.toCore [(sget zero32 s.busRead 4).toNat]

/-- CONTROL_CORE_ACCESS (R32, R223, R249, R285, R294, R410, R428): what a control program of the resident context on core `core` of clusters 1
to 3, counted from 0, does. `sp` 0: a load of `n` bytes of device memory or a store of `d`; 1: the synchronisation windows, tile × 4,096 +
offset; 2: the chronograph window; 3 to 5: cbo.clean, cbo.inval and cbo.flush; 6: the caches evict a block, which is no instruction; 7: a read
of the time CSR; 8: stimecmp; 9: whether a timer interrupt is pending. -/
def execControlCoreAccess (core : Fin 12) (sp : Fin 10) (store : Bool) (a : BitVec 48) (n : BitVec 7) (d : List Byte) (s : State) :
    Host.Outcome State Fault Refusal :=
  match s.resCtx with
  | none => occurs (s.up && sp == 6) ((s.coreClean (a.toNat / 64 * 64)).coreDrop (a.toNat / 64 * 64)) s
  | some (k, c) =>
    let q := s.stepped (core.val + 4)
    let w := a.toNat / 4 * 4
    let act := match sp with
      | 0 => q.coreMem k c store a.toNat n.toNat d
      | 1 => q.coreSync core c store w d
      | 2 => q.coreChr store (w % 0x11000)
      | 3 => q.coreCbo c true false a.toNat
      | 4 => q.coreCbo c false true a.toNat
      | 5 => q.coreCbo c true true a.toNat
      | 6 => (s.coreClean (a.toNat / 64 * 64)).coreDrop (a.toNat / 64 * 64)
      | 7 => q.coreTimer core 0 store d
      | 8 => q.coreTimer core 1 store d
      | 9 => q.coreTimer core 2 store d
    occurs (s.up && (sp == 6 || s.coreGoes (core.val + 4))) act s

/-- CORE_CACHE_UNCORRECTABLE (R407, R502): in clusters 1 to 3. -/
def execCoreCacheUncorrectable (s : State) : Host.Outcome State Fault Refusal :=
  match s.resCtx with
  | none => .next s
  | some (k, c) => .next (s.setCtx k { c with corePoison := true })

/-- SBI_ERR_NOT_SUPPORTED, −2 (log 58). -/
def sbiNotSupported : Nat := 2 ^ 64 - 2

/-- The reply to an ECALL to machine mode: error and value. The base extension, 0x10, is the only one; probing says so; its other
functions return values that the spec does not state (R294, log 58). -/
def sbiReply (eid fid arg free : Nat) : List Nat :=
  if eid ≠ 0x10 || 6 < fid then [sbiNotSupported, 0]
  else if fid = 3 then [0, b2n (arg == 0x10)]
  else [0, Config.freeNat free]

/-- ECALL (R294): `eid`, `fid` and `arg` are the extension, the function and its first argument. -/
def execEcall (eid fid arg : BitVec 64) (s : State) : Host.Outcome State Fault Refusal :=
  occurs (s.up && s.resCtx.isSome) ({ s with freeCtr := s.freeCtr + 1 }.toCore (sbiReply eid.toNat fid.toNat arg.toNat s.freeCtr)) s

/-! JTAG (R551) -/

/-- Bytes leave over TDO. -/
def State.shiftOut (s : State) (b : List Byte) : State := { s with sec := { s.sec with shifted := b } }

/-- A range of device memory lies in HBM available to contexts or in tile SRAM; or in the HBM reserved to firmware (R221). -/
def ownMem (a n : Nat) : Bool := mapped a n
/-- The HBM reserved to firmware. -/
def fwMem (a n : Nat) : Bool := decide (hbmCtxEnd ≤ a) && decide (a + n ≤ hbmEnd)

/-- A debugger reads device memory; what firmware keeps in its own HBM is not stated (R503, log 58). -/
def State.dbgRead (s : State) (a n : Nat) : Host.Outcome State Fault Refusal :=
  if ownMem a n then .next (s.shiftOut (rdBytes s.mem a n))
  else if fwMem a n then .next ({ s with freeCtr := s.freeCtr + 1 }.shiftOut (freshBytes s.freeCtr n))
  else .fault .unmapped

/-- A debugger writes device memory: a raw write. Only firmware and the HBM controllers address the HBM reserved to firmware: a
write there does nothing (R503, log 58). -/
def State.dbgWrite (s : State) (a : Nat) (d : List Byte) : Host.Outcome State Fault Refusal :=
  if ownMem a d.length then
    .next (if a < hbmEnd then { s with hbm := Hbm.writeRaw (fun _ => false) (d.length + 1) s.hbm a d } else s.setMem (wrBytes s.mem a d))
  else if fwMem a d.length then .next s
  else .fault .unmapped

/-- DEBUG_ACCESS (R551). `op` 0: read the set-up register at `a`; 1: read telemetry page `a` with argument `b`; 2: read the cores'
debug status; 3: halt core `a`; 4: let the halted core `a` step; 5: read `b` bytes of device memory at `a`; 6: write `d` there; 7: scan
access to tile `a`, shifting in `d`. Operations 0 to 2 need OBSERVE, the others INVASIVE; without the scope the port offers none. -/
def execDebugAccess (op : Fin 8) (a : BitVec 48) (b : BitVec 64) (d : List Byte) (s : State) : Host.Outcome State Fault Refusal :=
  if !s.jtagUp || !(if op.val < 3 then s.sec.observe else s.sec.invasive) then .next s
  else match op with
  | 0 =>
    let t := s.readReg 3 (a.toNat % 2 ^ 24 / 4 * 4)
    .next (t.shiftOut (natLe 4 (sget zero32 t.busRead 3).toNat))
  | 1 =>
    let e := { SqEntry.ofBytes [] with arg0 := a.toNat, arg1 := b.toNat }
    .next (match s.telemetry e with
      | some p => (s.spend 64).shiftOut p
      | none => s)
  | 2 => .next (s.shiftOut (natLe 2 s.coreHalt.toNat))
  | 3 => .next { s with coreHalt := s.coreHalt ||| BitVec.ofNat 16 (2 ^ (a.toNat % 16)) }
  | 4 => .next { s with coreStep := s.coreStep ||| (s.coreHalt &&& BitVec.ofNat 16 (2 ^ (a.toNat % 16))) }
  | 5 => s.dbgRead a.toNat b.toNat
  | 6 => s.dbgWrite a.toNat d
  | 7 => if d.isEmpty then .next ({ s with freeCtr := s.freeCtr + 1 }.shiftOut (freshBytes s.freeCtr b.toNat)) else .refused .scanLayout

end Sys2Proof.Machine
end

