-- ==== Sys2Proof/Machine/Slots.lean ====
section
/-! DEFINITION. Machine/Slots.lean: the rows of one slot: each is the issue of a bundle that holds it alone (R252, R254,
R267, R268, R274 to R277, log 6). -/

namespace Sys2Proof.Machine

/-- An array instruction in the F slot, or in the B slot to B0 or B1. -/
def arraySlot (slot : Fin 3) (op : Nat) (rec : BitVec 19) : Bundle :=
  if slot.val = 0 then .ofF ⟨op, rec.toNat, false⟩ else .ofB ⟨slot.val, op, rec.toNat, 0, 0, false⟩

/-- A V-slot instruction of format R. -/
def vecR (op : Nat) (vd va vb vc : BitVec 5) (k : BitVec 3) (lane : BitVec 9) : Bundle :=
  .ofV { VSlot.nop with op := op, vd := vd.toNat, va := va.toNat, vb := vb.toNat, vc := vc.toNat, k := k.toNat, lane := lane.toNat }

/-- A V-slot instruction of format M. -/
def vecM (op : Nat) (vr : BitVec 5) (k : BitVec 3) (drec : BitVec 16) (x : BitVec 4) (wform : BitVec 2) (grad ht : Bool) : Bundle :=
  .ofV { VSlot.nop with op := op, vd := vr.toNat, k := k.toNat, drec := drec.toNat, xreg := x.toNat, wform := wform.toNat, grad := grad, ht := ht }

/-- MMA_256X128 (R129, R267). -/
def execMma256x128 (t : Fin 64) (slot : Fin 3) (rec : BitVec 19) (s : State) : Host.Outcome State Fault Refusal :=
  s.only t (arraySlot slot 1 rec)

/-- MMA_128X128 (R134, R267). -/
def execMma128x128 (t : Fin 64) (slot : Fin 3) (rec : BitVec 19) (s : State) : Host.Outcome State Fault Refusal :=
  s.only t (arraySlot slot 2 rec)

/-- MMA_2X256X64 (R134, R267). -/
def execMma2x256x64 (t : Fin 64) (slot : Fin 3) (rec : BitVec 19) (s : State) : Host.Outcome State Fault Refusal :=
  s.only t (arraySlot slot 3 rec)

/-- MMA_128X64 (R134, R267). -/
def execMma128x64 (t : Fin 64) (slot : Fin 3) (rec : BitVec 19) (s : State) : Host.Outcome State Fault Refusal :=
  s.only t (arraySlot slot 4 rec)

/-- MMA_TREE64 (R134, R267). -/
def execMmaTree64 (t : Fin 64) (slot : Fin 3) (rec : BitVec 19) (s : State) : Host.Outcome State Fault Refusal :=
  s.only t (arraySlot slot 5 rec)

/-- MMA_DIAG (R153, R267). -/
def execMmaDiag (t : Fin 64) (slot : Fin 3) (rec : BitVec 19) (s : State) : Host.Outcome State Fault Refusal :=
  s.only t (arraySlot slot 6 rec)

/-- MLD (R148, R267). -/
def execMld (t : Fin 64) (slot : Fin 3) (rec : BitVec 19) (s : State) : Host.Outcome State Fault Refusal :=
  s.only t (arraySlot slot 7 rec)

/-- MMA_256X128_CX (R151, R267). -/
def execMma256x128Cx (t : Fin 64) (slot : Fin 3) (rec : BitVec 19) (s : State) : Host.Outcome State Fault Refusal :=
  s.only t (arraySlot slot 33 rec)

/-- MMA_128X128_CX (R151, R267). -/
def execMma128x128Cx (t : Fin 64) (slot : Fin 3) (rec : BitVec 19) (s : State) : Host.Outcome State Fault Refusal :=
  s.only t (arraySlot slot 34 rec)

/-- MMA_128X64_CX (R151, R267). -/
def execMma128x64Cx (t : Fin 64) (slot : Fin 3) (rec : BitVec 19) (s : State) : Host.Outcome State Fault Refusal :=
  s.only t (arraySlot slot 36 rec)

/-- MMB_PAIR (R165, R268). -/
def execMmbPair (t : Fin 64) (op0 : BitVec 6) (rec0 : BitVec 19) (op1 : BitVec 6) (rec1 : BitVec 19) (s : State) : Host.Outcome State Fault Refusal :=
  s.only t (.ofB ⟨3, op0.toNat, rec0.toNat, op1.toNat, rec1.toNat, false⟩)

/-- B_BOTH (R268). -/
def execBBoth (t : Fin 64) (op0 : BitVec 6) (rec0 : BitVec 19) (op1 : BitVec 6) (rec1 : BitVec 19) (s : State) : Host.Outcome State Fault Refusal :=
  s.only t (.ofB ⟨4, op0.toNat, rec0.toNat, op1.toNat, rec1.toNat, false⟩)

/-- HALF0_TO_B0 (R268). -/
def execHalf0ToB0 (t : Fin 64) (op0 : BitVec 6) (rec0 : BitVec 19) (s : State) : Host.Outcome State Fault Refusal :=
  s.only t (.ofB ⟨1, op0.toNat, rec0.toNat, 0, 0, false⟩)

/-- HALF0_TO_B1 (R268). -/
def execHalf0ToB1 (t : Fin 64) (op0 : BitVec 6) (rec0 : BitVec 19) (s : State) : Host.Outcome State Fault Refusal :=
  s.only t (.ofB ⟨2, op0.toNat, rec0.toNat, 0, 0, false⟩)

/-- VADD (R198, R276). -/
def execVadd (t : Fin 64) (vd va vb : BitVec 5) (k : BitVec 3) (s : State) : Host.Outcome State Fault Refusal :=
  s.only t (vecR 0x01 vd va vb 0 k 0)

/-- VSUB (R198, R276). -/
def execVsub (t : Fin 64) (vd va vb : BitVec 5) (k : BitVec 3) (s : State) : Host.Outcome State Fault Refusal :=
  s.only t (vecR 0x02 vd va vb 0 k 0)

/-- VMUL (R198, R276). -/
def execVmul (t : Fin 64) (vd va vb : BitVec 5) (k : BitVec 3) (s : State) : Host.Outcome State Fault Refusal :=
  s.only t (vecR 0x03 vd va vb 0 k 0)

/-- VMIN (R198, R276). -/
def execVmin (t : Fin 64) (vd va vb : BitVec 5) (k : BitVec 3) (s : State) : Host.Outcome State Fault Refusal :=
  s.only t (vecR 0x05 vd va vb 0 k 0)

/-- VMAX (R198, R276). -/
def execVmax (t : Fin 64) (vd va vb : BitVec 5) (k : BitVec 3) (s : State) : Host.Outcome State Fault Refusal :=
  s.only t (vecR 0x06 vd va vb 0 k 0)

/-- VCOPYSIGN (R198, R276). -/
def execVcopysign (t : Fin 64) (vd va vb : BitVec 5) (k : BitVec 3) (s : State) : Host.Outcome State Fault Refusal :=
  s.only t (vecR 0x09 vd va vb 0 k 0)

/-- VSEL (R198, R276). -/
def execVsel (t : Fin 64) (vd va vb : BitVec 5) (k : BitVec 3) (s : State) : Host.Outcome State Fault Refusal :=
  s.only t (vecR 0x0a vd va vb 0 k 0)

/-- VCMP_EQ (R198, R276). -/
def execVcmpEq (t : Fin 64) (vd va vb : BitVec 5) (k : BitVec 3) (s : State) : Host.Outcome State Fault Refusal :=
  s.only t (vecR 0x0b vd va vb 0 k 0)

/-- VCMP_NE (R198, R276). -/
def execVcmpNe (t : Fin 64) (vd va vb : BitVec 5) (k : BitVec 3) (s : State) : Host.Outcome State Fault Refusal :=
  s.only t (vecR 0x0c vd va vb 0 k 0)

/-- VCMP_LT (R198, R276). -/
def execVcmpLt (t : Fin 64) (vd va vb : BitVec 5) (k : BitVec 3) (s : State) : Host.Outcome State Fault Refusal :=
  s.only t (vecR 0x0d vd va vb 0 k 0)

/-- VCMP_LE (R198, R276). -/
def execVcmpLe (t : Fin 64) (vd va vb : BitVec 5) (k : BitVec 3) (s : State) : Host.Outcome State Fault Refusal :=
  s.only t (vecR 0x0e vd va vb 0 k 0)

/-- VDIV (R198, R276). -/
def execVdiv (t : Fin 64) (vd va vb : BitVec 5) (k : BitVec 3) (s : State) : Host.Outcome State Fault Refusal :=
  s.only t (vecR 0x17 vd va vb 0 k 0)

/-- VADD_PAIR (R198, R276). -/
def execVaddPair (t : Fin 64) (vd va vb : BitVec 5) (k : BitVec 3) (s : State) : Host.Outcome State Fault Refusal :=
  s.only t (vecR 0x20 vd va vb 0 k 0)

/-- VFMA (R198, R276). -/
def execVfma (t : Fin 64) (vd va vb vc : BitVec 5) (k : BitVec 3) (s : State) : Host.Outcome State Fault Refusal :=
  s.only t (vecR 0x04 vd va vb vc k 0)

/-- VABS (R198, R276). -/
def execVabs (t : Fin 64) (vd va : BitVec 5) (k : BitVec 3) (s : State) : Host.Outcome State Fault Refusal :=
  s.only t (vecR 0x07 vd va 0 0 k 0)

/-- VNEG (R198, R276). -/
def execVneg (t : Fin 64) (vd va : BitVec 5) (k : BitVec 3) (s : State) : Host.Outcome State Fault Refusal :=
  s.only t (vecR 0x08 vd va 0 0 k 0)

/-- VRCP (R198, R276). -/
def execVrcp (t : Fin 64) (vd va : BitVec 5) (k : BitVec 3) (s : State) : Host.Outcome State Fault Refusal :=
  s.only t (vecR 0x10 vd va 0 0 k 0)

/-- VSQRT (R198, R276). -/
def execVsqrt (t : Fin 64) (vd va : BitVec 5) (k : BitVec 3) (s : State) : Host.Outcome State Fault Refusal :=
  s.only t (vecR 0x11 vd va 0 0 k 0)

/-- VRSQRT (R198, R276). -/
def execVrsqrt (t : Fin 64) (vd va : BitVec 5) (k : BitVec 3) (s : State) : Host.Outcome State Fault Refusal :=
  s.only t (vecR 0x12 vd va 0 0 k 0)

/-- VEXP (R198, R276). -/
def execVexp (t : Fin 64) (vd va : BitVec 5) (k : BitVec 3) (s : State) : Host.Outcome State Fault Refusal :=
  s.only t (vecR 0x13 vd va 0 0 k 0)

/-- VEXP2 (R198, R276). -/
def execVexp2 (t : Fin 64) (vd va : BitVec 5) (k : BitVec 3) (s : State) : Host.Outcome State Fault Refusal :=
  s.only t (vecR 0x14 vd va 0 0 k 0)

/-- VLOG (R198, R276). -/
def execVlog (t : Fin 64) (vd va : BitVec 5) (k : BitVec 3) (s : State) : Host.Outcome State Fault Refusal :=
  s.only t (vecR 0x15 vd va 0 0 k 0)

/-- VLOG2 (R198, R276). -/
def execVlog2 (t : Fin 64) (vd va : BitVec 5) (k : BitVec 3) (s : State) : Host.Outcome State Fault Refusal :=
  s.only t (vecR 0x16 vd va 0 0 k 0)

/-- VSIGMOID (R198, R276). -/
def execVsigmoid (t : Fin 64) (vd va : BitVec 5) (k : BitVec 3) (s : State) : Host.Outcome State Fault Refusal :=
  s.only t (vecR 0x18 vd va 0 0 k 0)

/-- VTANH (R198, R276). -/
def execVtanh (t : Fin 64) (vd va : BitVec 5) (k : BitVec 3) (s : State) : Host.Outcome State Fault Refusal :=
  s.only t (vecR 0x19 vd va 0 0 k 0)

/-- VGELU_TANH (R198, R276). -/
def execVgeluTanh (t : Fin 64) (vd va : BitVec 5) (k : BitVec 3) (s : State) : Host.Outcome State Fault Refusal :=
  s.only t (vecR 0x1a vd va 0 0 k 0)

/-- VERF (R198, R276). -/
def execVerf (t : Fin 64) (vd va : BitVec 5) (k : BitVec 3) (s : State) : Host.Outcome State Fault Refusal :=
  s.only t (vecR 0x1b vd va 0 0 k 0)

/-- VGELU (R198, R276). -/
def execVgelu (t : Fin 64) (vd va : BitVec 5) (k : BitVec 3) (s : State) : Host.Outcome State Fault Refusal :=
  s.only t (vecR 0x1c vd va 0 0 k 0)

/-- VRED_PAIR (R198, R276). -/
def execVredPair (t : Fin 64) (vd va : BitVec 5) (k : BitVec 3) (s : State) : Host.Outcome State Fault Refusal :=
  s.only t (vecR 0x21 vd va 0 0 k 0)

/-- VRED_ADD (R198, R276). -/
def execVredAdd (t : Fin 64) (vd va : BitVec 5) (k : BitVec 3) (s : State) : Host.Outcome State Fault Refusal :=
  s.only t (vecR 0x22 vd va 0 0 k 0)

/-- VRED_MAX (R198, R276). -/
def execVredMax (t : Fin 64) (vd va : BitVec 5) (k : BitVec 3) (s : State) : Host.Outcome State Fault Refusal :=
  s.only t (vecR 0x24 vd va 0 0 k 0)

/-- VRED_MIN (R198, R276). -/
def execVredMin (t : Fin 64) (vd va : BitVec 5) (k : BitVec 3) (s : State) : Host.Outcome State Fault Refusal :=
  s.only t (vecR 0x25 vd va 0 0 k 0)

/-- VRED_ACC (R201, R276). -/
def execVredAcc (t : Fin 64) (vd va : BitVec 5) (k : BitVec 3) (lane : BitVec 9) (s : State) : Host.Outcome State Fault Refusal :=
  s.only t (vecR 0x23 vd va 0 0 k lane)

/-- VLD (R194, R275). -/
def execVld (t : Fin 64) (vr : BitVec 5) (drec : BitVec 16) (x : BitVec 4) (s : State) : Host.Outcome State Fault Refusal :=
  s.only t (vecM 0x30 vr 0 drec x 0 false false)

/-- VST (R195, R275). -/
def execVst (t : Fin 64) (vr : BitVec 5) (k : BitVec 3) (drec : BitVec 16) (x : BitVec 4) (s : State) : Host.Outcome State Fault Refusal :=
  s.only t (vecM 0x31 vr k drec x 0 false false)

/-- VCVT (R86, R275). -/
def execVcvt (t : Fin 64) (vr : BitVec 5) (k : BitVec 3) (drec : BitVec 16) (x : BitVec 4) (wform : BitVec 2) (grad ht : Bool) (s : State) : Host.Outcome State Fault Refusal :=
  s.only t (vecM 0x32 vr k drec x wform grad ht)

/-- VDROP (R202, R275). -/
def execVdrop (t : Fin 64) (kd : BitVec 3) (q : BitVec 16) (drec : BitVec 16) (x : BitVec 4) (s : State) : Host.Outcome State Fault Refusal :=
  s.only t (.ofV { VSlot.nop with op := 0x33, vd := kd.toNat, q := q.toNat, drec := drec.toNat, xreg := x.toNat })

/-- VSLICE (R115, R275). -/
def execVslice (t : Fin 64) (k : BitVec 3) (drec : BitVec 16) (x : BitVec 4) (s : State) : Host.Outcome State Fault Refusal :=
  s.only t (vecM 0x34 0 k drec x 0 false false)

/-- VUPD (R208, R275). -/
def execVupd (t : Fin 64) (drec : BitVec 16) (s : State) : Host.Outcome State Fault Refusal :=
  s.only t (vecM 0x35 0 0 drec 0 0 false false)

/-- SGO (R232, R274). -/
def execSgo (t : Fin 64) (ctx : BitVec 5) (opr : BitVec 16) (x : BitVec 4) (xen : Bool) (s : State) : Host.Outcome State Fault Refusal :=
  s.only t (.ofS ⟨1, ctx.toNat, opr.toNat, x.toNat, xen, false⟩)

/-- SDEM (R239, R274). -/
def execSdem (t : Fin 64) (ctx : BitVec 5) (n : BitVec 16) (s : State) : Host.Outcome State Fault Refusal :=
  s.only t (.ofS ⟨2, ctx.toNat, n.toNat, 0, false, false⟩)

/-- SDEM_X (R239, R274). -/
def execSdemX (t : Fin 64) (ctx : BitVec 5) (x : BitVec 4) (s : State) : Host.Outcome State Fault Refusal :=
  s.only t (.ofS ⟨3, ctx.toNat, 0, x.toNat, false, false⟩)

/-- ILOAD (R261, R274). -/
def execIload (t : Fin 64) (ctx : BitVec 5) (opr : BitVec 16) (s : State) : Host.Outcome State Fault Refusal :=
  s.only t (.ofS ⟨4, ctx.toNat, opr.toNat, 0, false, false⟩)

/-- WAIT (R281, R277). -/
def execWait (t : Fin 64) (obj : BitVec 8) (v : BitVec 24) (s : State) : Host.Outcome State Fault Refusal :=
  s.only t (.ofC ⟨0x01, obj.toNat, v.toNat, 0, 0, false⟩)

/-- WAITGE (R281, R277). -/
def execWaitge (t : Fin 64) (obj : BitVec 8) (v : BitVec 24) (s : State) : Host.Outcome State Fault Refusal :=
  s.only t (.ofC ⟨0x02, obj.toNat, v.toNat, 0, 0, false⟩)

/-- SIG (R281, R277). -/
def execSig (t : Fin 64) (obj : BitVec 8) (n : BitVec 16) (s : State) : Host.Outcome State Fault Refusal :=
  s.only t (.ofC ⟨0x03, obj.toNat, n.toNat, 0, 0, false⟩)

/-- SIG_T (R281, R277). -/
def execSigT (t : Fin 64) (obj : BitVec 8) (n : BitVec 16) (tile : BitVec 6) (s : State) : Host.Outcome State Fault Refusal :=
  s.only t (.ofC ⟨0x04, obj.toNat, n.toNat, tile.toNat, 0, false⟩)

/-- SSET (R281, R277). -/
def execSset (t : Fin 64) (obj : BitVec 8) (v : BitVec 24) (s : State) : Host.Outcome State Fault Refusal :=
  s.only t (.ofC ⟨0x05, obj.toNat, v.toNat, 0, 0, false⟩)

/-- LP_I (R257, R277). -/
def execLpI (t : Fin 64) (lvl : BitVec 2) (count : BitVec 24) (s : State) : Host.Outcome State Fault Refusal :=
  s.only t (.ofC ⟨0x06, lvl.toNat, count.toNat, 0, 0, false⟩)

/-- LP_X (R257, R277). -/
def execLpX (t : Fin 64) (lvl : BitVec 2) (x : BitVec 4) (s : State) : Host.Outcome State Fault Refusal :=
  s.only t (.ofC ⟨0x07, lvl.toNat, x.toNat, 0, 0, false⟩)

/-- XSET (R256, R277). -/
def execXset (t : Fin 64) (x : BitVec 4) (imm : BitVec 24) (s : State) : Host.Outcome State Fault Refusal :=
  s.only t (.ofC ⟨0x08, x.toNat, imm.toNat, 0, 0, false⟩)

/-- XADD (R256, R277). -/
def execXadd (t : Fin 64) (x : BitVec 4) (imm : BitVec 24) (s : State) : Host.Outcome State Fault Refusal :=
  s.only t (.ofC ⟨0x09, x.toNat, imm.toNat, 0, 0, false⟩)

/-- TREAD (R33, R277). -/
def execTread (t : Fin 64) (x : BitVec 4) (s : State) : Host.Outcome State Fault Refusal :=
  s.only t (.ofC ⟨0x0a, x.toNat, 0, 0, 0, false⟩)

/-- CVRD (R92, R277). -/
def execCvrd (t : Fin 64) (x : BitVec 4) (s : State) : Host.Outcome State Fault Refusal :=
  s.only t (.ofC ⟨0x0b, x.toNat, 0, 0, 0, false⟩)

/-- CVCLR (R92, R277). -/
def execCvclr (t : Fin 64) (s : State) : Host.Outcome State Fault Refusal :=
  s.only t (.ofC ⟨0x0c, 0, 0, 0, 0, false⟩)

/-- JMP (R260, R277). -/
def execJmp (t : Fin 64) (addr : BitVec 13) (s : State) : Host.Outcome State Fault Refusal :=
  s.only t (.ofC ⟨0x0d, addr.toNat, 0, 0, 0, false⟩)

/-- PP (R263, R277). -/
def execPp (t : Fin 64) (drec : BitVec 16) (s : State) : Host.Outcome State Fault Refusal :=
  s.only t (.ofC ⟨0x0e, drec.toNat, 0, 0, 0, false⟩)

/-- HALT (R280, R277). -/
def execHalt (t : Fin 64) (s : State) : Host.Outcome State Fault Refusal :=
  s.only t (.ofC ⟨0x0f, 0, 0, 0, 0, false⟩)

/-- BCFG (R170, R277). -/
def execBcfg (t : Fin 64) (lane : BitVec 6) (drec : BitVec 16) (s : State) : Host.Outcome State Fault Refusal :=
  s.only t (.ofC ⟨0x10, lane.toNat, drec.toNat, 0, 0, false⟩)

/-- BPUSH (R174, R277). -/
def execBpush (t : Fin 64) (lane : BitVec 6) (drec : BitVec 16) (s : State) : Host.Outcome State Fault Refusal :=
  s.only t (.ofC ⟨0x11, lane.toNat, drec.toNat, 0, 0, false⟩)

/-- BPOP (R175, R277). -/
def execBpop (t : Fin 64) (lane : BitVec 6) (drec : BitVec 16) (s : State) : Host.Outcome State Fault Refusal :=
  s.only t (.ofC ⟨0x12, lane.toNat, drec.toNat, 0, 0, false⟩)

/-- SADV (R279, R277). -/
def execSadv (t : Fin 64) (drec : BitVec 16) (xb xn : BitVec 4) (obj : BitVec 8) (s : State) : Host.Outcome State Fault Refusal :=
  s.only t (.ofC ⟨0x13, drec.toNat, xb.toNat, xn.toNat, obj.toNat, false⟩)

end Sys2Proof.Machine
end

