-- ==== Sys2Proof/Machine/Dispatch.lean ====
section
/-! DEFINITION. Machine/Dispatch.lean: the effect of each command on everything but the queue, one arm per constructor. -/

namespace Sys2Proof.Machine

def exec (i : Instr) (s : State) : Host.Outcome State Fault Refusal :=
  match i with
  | .moduleResetRelease test => Sys2Proof.Machine.execModuleResetRelease test s
  | .moduleResetAssert => Sys2Proof.Machine.execModuleResetAssert s
  | .powerFail => Sys2Proof.Machine.execPowerFail s
  | .perstRelease p => Sys2Proof.Machine.execPerstRelease p s
  | .pciePortReset p perst => Sys2Proof.Machine.execPciePortReset p perst s
  | .railExcursion r => Sys2Proof.Machine.execRailExcursion r s
  | .thermalTrip k temp => Sys2Proof.Machine.execThermalTrip k temp s
  | .thermalTripRecovery die test => Sys2Proof.Machine.execThermalTripRecovery die test s
  | .routerFault test => Sys2Proof.Machine.execRouterFault test s
  | .firmwareWatchdog core test => Sys2Proof.Machine.execFirmwareWatchdog core test s
  | .cluster0UncorrectableError test => Sys2Proof.Machine.execCluster0UncorrectableError test s
  | .securityBlockFault test => Sys2Proof.Machine.execSecurityBlockFault test s
  | .epochMarker t stop cls => Sys2Proof.Machine.execEpochMarker t stop cls s
  | .placementExclusive t => Sys2Proof.Machine.execPlacementExclusive t s
  | .clkDevtimeLoRead ag => Sys2Proof.Machine.execClkDevtimeLoRead ag s
  | .pairLoRead ag off => Sys2Proof.Machine.execPairLoRead ag off s
  | .registerWrite ag off full v => Sys2Proof.Machine.execRegisterWrite ag off full v s
  | .hifEnable p => Sys2Proof.Machine.execHifEnable p s
  | .hifQuiesce p => Sys2Proof.Machine.execHifQuiesce p s
  | .lnkEnable ag => Sys2Proof.Machine.execLnkEnable ag s
  | .lnkDisable ag => Sys2Proof.Machine.execLnkDisable ag s
  | .lnkPortEnable ag n mode => Sys2Proof.Machine.execLnkPortEnable ag n mode s
  | .lnkPortDisable ag n => Sys2Proof.Machine.execLnkPortDisable ag n s
  | .chrBankEnable ag p b mode target sctx => Sys2Proof.Machine.execChrBankEnable ag p b mode target sctx s
  | .chrBankDisable ag p b => Sys2Proof.Machine.execChrBankDisable ag p b s
  | .fastenClear ag => Sys2Proof.Machine.execFastenClear ag s
  | .rglPeriodWrite ag hours => Sys2Proof.Machine.execRglPeriodWrite ag hours s
  | .fwenClear ag => Sys2Proof.Machine.execFwenClear ag s
  | .drenClear ag => Sys2Proof.Machine.execDrenClear ag s
  | .bundleIssue t => Sys2Proof.Machine.execBundleIssue t s
  | .mma256x128 t slot rec => Sys2Proof.Machine.execMma256x128 t slot rec s
  | .mma128x128 t slot rec => Sys2Proof.Machine.execMma128x128 t slot rec s
  | .mma2x256x64 t slot rec => Sys2Proof.Machine.execMma2x256x64 t slot rec s
  | .mma128x64 t slot rec => Sys2Proof.Machine.execMma128x64 t slot rec s
  | .mmaTree64 t slot rec => Sys2Proof.Machine.execMmaTree64 t slot rec s
  | .mmaDiag t slot rec => Sys2Proof.Machine.execMmaDiag t slot rec s
  | .mld t slot rec => Sys2Proof.Machine.execMld t slot rec s
  | .mma256x128Cx t slot rec => Sys2Proof.Machine.execMma256x128Cx t slot rec s
  | .mma128x128Cx t slot rec => Sys2Proof.Machine.execMma128x128Cx t slot rec s
  | .mma128x64Cx t slot rec => Sys2Proof.Machine.execMma128x64Cx t slot rec s
  | .mmbPair t op0 rec0 op1 rec1 => Sys2Proof.Machine.execMmbPair t op0 rec0 op1 rec1 s
  | .bBoth t op0 rec0 op1 rec1 => Sys2Proof.Machine.execBBoth t op0 rec0 op1 rec1 s
  | .half0ToB0 t op0 rec0 => Sys2Proof.Machine.execHalf0ToB0 t op0 rec0 s
  | .half0ToB1 t op0 rec0 => Sys2Proof.Machine.execHalf0ToB1 t op0 rec0 s
  | .planeReady t a => Sys2Proof.Machine.execPlaneReady t a s
  | .commitGroup t a fail => Sys2Proof.Machine.execCommitGroup t a fail s
  | .arrayComplete t a => Sys2Proof.Machine.execArrayComplete t a s
  | .splitkSlotGrant t id => Sys2Proof.Machine.execSplitkSlotGrant t id s
  | .splitkPartArrive t id => Sys2Proof.Machine.execSplitkPartArrive t id s
  | .tourbillonSelect p => Sys2Proof.Machine.execTourbillonSelect p s
  | .watchCheck p => Sys2Proof.Machine.execWatchCheck p s
  | .watchCheckComplete p wrong => Sys2Proof.Machine.execWatchCheckComplete p wrong s
  | .driftSample p => Sys2Proof.Machine.execDriftSample p s
  | .vadd t vd va vb k => Sys2Proof.Machine.execVadd t vd va vb k s
  | .vsub t vd va vb k => Sys2Proof.Machine.execVsub t vd va vb k s
  | .vmul t vd va vb k => Sys2Proof.Machine.execVmul t vd va vb k s
  | .vfma t vd va vb vc k => Sys2Proof.Machine.execVfma t vd va vb vc k s
  | .vmin t vd va vb k => Sys2Proof.Machine.execVmin t vd va vb k s
  | .vmax t vd va vb k => Sys2Proof.Machine.execVmax t vd va vb k s
  | .vabs t vd va k => Sys2Proof.Machine.execVabs t vd va k s
  | .vneg t vd va k => Sys2Proof.Machine.execVneg t vd va k s
  | .vcopysign t vd va vb k => Sys2Proof.Machine.execVcopysign t vd va vb k s
  | .vsel t vd va vb k => Sys2Proof.Machine.execVsel t vd va vb k s
  | .vcmpEq t vd va vb k => Sys2Proof.Machine.execVcmpEq t vd va vb k s
  | .vcmpNe t vd va vb k => Sys2Proof.Machine.execVcmpNe t vd va vb k s
  | .vcmpLt t vd va vb k => Sys2Proof.Machine.execVcmpLt t vd va vb k s
  | .vcmpLe t vd va vb k => Sys2Proof.Machine.execVcmpLe t vd va vb k s
  | .vrcp t vd va k => Sys2Proof.Machine.execVrcp t vd va k s
  | .vsqrt t vd va k => Sys2Proof.Machine.execVsqrt t vd va k s
  | .vrsqrt t vd va k => Sys2Proof.Machine.execVrsqrt t vd va k s
  | .vexp t vd va k => Sys2Proof.Machine.execVexp t vd va k s
  | .vexp2 t vd va k => Sys2Proof.Machine.execVexp2 t vd va k s
  | .vlog t vd va k => Sys2Proof.Machine.execVlog t vd va k s
  | .vlog2 t vd va k => Sys2Proof.Machine.execVlog2 t vd va k s
  | .vdiv t vd va vb k => Sys2Proof.Machine.execVdiv t vd va vb k s
  | .vsigmoid t vd va k => Sys2Proof.Machine.execVsigmoid t vd va k s
  | .vtanh t vd va k => Sys2Proof.Machine.execVtanh t vd va k s
  | .vgeluTanh t vd va k => Sys2Proof.Machine.execVgeluTanh t vd va k s
  | .verf t vd va k => Sys2Proof.Machine.execVerf t vd va k s
  | .vgelu t vd va k => Sys2Proof.Machine.execVgelu t vd va k s
  | .vaddPair t vd va vb k => Sys2Proof.Machine.execVaddPair t vd va vb k s
  | .vredPair t vd va k => Sys2Proof.Machine.execVredPair t vd va k s
  | .vredAdd t vd va k => Sys2Proof.Machine.execVredAdd t vd va k s
  | .vredAcc t vd va k lane => Sys2Proof.Machine.execVredAcc t vd va k lane s
  | .vredMax t vd va k => Sys2Proof.Machine.execVredMax t vd va k s
  | .vredMin t vd va k => Sys2Proof.Machine.execVredMin t vd va k s
  | .vld t vr drec x => Sys2Proof.Machine.execVld t vr drec x s
  | .vst t vr k drec x => Sys2Proof.Machine.execVst t vr k drec x s
  | .vcvt t vr k drec x wform grad ht => Sys2Proof.Machine.execVcvt t vr k drec x wform grad ht s
  | .vdrop t kd q drec x => Sys2Proof.Machine.execVdrop t kd q drec x s
  | .vslice t k drec x => Sys2Proof.Machine.execVslice t k drec x s
  | .vupd t drec => Sys2Proof.Machine.execVupd t drec s
  | .vupdComplete t => Sys2Proof.Machine.execVupdComplete t s
  | .vectorWriteLand t => Sys2Proof.Machine.execVectorWriteLand t s
  | .sgo t ctx opr x xen => Sys2Proof.Machine.execSgo t ctx opr x xen s
  | .sdem t ctx n => Sys2Proof.Machine.execSdem t ctx n s
  | .sdemX t ctx x => Sys2Proof.Machine.execSdemX t ctx x s
  | .iload t ctx opr => Sys2Proof.Machine.execIload t ctx opr s
  | .iloadComplete t c => Sys2Proof.Machine.execIloadComplete t c s
  | .demandFetch t c => Sys2Proof.Machine.execDemandFetch t c s
  | .runAheadFetch t c => Sys2Proof.Machine.execRunAheadFetch t c s
  | .inboundGranuleWrite t c => Sys2Proof.Machine.execInboundGranuleWrite t c s
  | .streamComplete t c out => Sys2Proof.Machine.execStreamComplete t c out s
  | .hbmRead stack bad can lane test => Sys2Proof.Machine.execHbmRead stack bad can lane test s
  | .hbmWriteAccept stack => Sys2Proof.Machine.execHbmWriteAccept stack s
  | .hbmRefresh stack => Sys2Proof.Machine.execHbmRefresh stack s
  | .bcfg t lane drec => Sys2Proof.Machine.execBcfg t lane drec s
  | .bpush t lane drec => Sys2Proof.Machine.execBpush t lane drec s
  | .bpop t lane drec => Sys2Proof.Machine.execBpop t lane drec s
  | .barrelSpill t lane => Sys2Proof.Machine.execBarrelSpill t lane s
  | .barrelFill t lane => Sys2Proof.Machine.execBarrelFill t lane s
  | .wait t obj v => Sys2Proof.Machine.execWait t obj v s
  | .waitge t obj v => Sys2Proof.Machine.execWaitge t obj v s
  | .sig t obj n => Sys2Proof.Machine.execSig t obj n s
  | .sigT t obj n tile => Sys2Proof.Machine.execSigT t obj n tile s
  | .sset t obj v => Sys2Proof.Machine.execSset t obj v s
  | .lpI t lvl count => Sys2Proof.Machine.execLpI t lvl count s
  | .lpX t lvl x => Sys2Proof.Machine.execLpX t lvl x s
  | .xset t x imm => Sys2Proof.Machine.execXset t x imm s
  | .xadd t x imm => Sys2Proof.Machine.execXadd t x imm s
  | .tread t x => Sys2Proof.Machine.execTread t x s
  | .cvrd t x => Sys2Proof.Machine.execCvrd t x s
  | .cvclr t => Sys2Proof.Machine.execCvclr t s
  | .jmp t addr => Sys2Proof.Machine.execJmp t addr s
  | .pp t drec => Sys2Proof.Machine.execPp t drec s
  | .halt t => Sys2Proof.Machine.execHalt t s
  | .sadv t drec xb xn obj => Sys2Proof.Machine.execSadv t drec xb xn obj s
  | .sadvComplete t => Sys2Proof.Machine.execSadvComplete t s
  | .syncIncrementLand t obj => Sys2Proof.Machine.execSyncIncrementLand t obj s
  | .syncWindowStore t obj v => Sys2Proof.Machine.execSyncWindowStore t obj v s
  | .tileStartStore t off => Sys2Proof.Machine.execTileStartStore t off s
  | .watchdog t => Sys2Proof.Machine.execWatchdog t s
  | .intrusionOverrun t => Sys2Proof.Machine.execIntrusionOverrun t s
  | .portBringup p delay => Sys2Proof.Machine.execPortBringup p delay s
  | .portBringupTimeout p => Sys2Proof.Machine.execPortBringupTimeout p s
  | .portBringupRetry p => Sys2Proof.Machine.execPortBringupRetry p s
  | .initRepeat p => Sys2Proof.Machine.execInitRepeat p s
  | .transceiverInsert p serial oui part optical passive suitable => Sys2Proof.Machine.execTransceiverInsert p serial oui part optical passive suitable s
  | .transceiverRemove p => Sys2Proof.Machine.execTransceiverRemove p s
  | .transceiverPoll p t10 flags volt lanes => Sys2Proof.Machine.execTransceiverPoll p t10 flags volt lanes s
  | .laserRecordWrite p => Sys2Proof.Machine.execLaserRecordWrite p s
  | .flitData p flit bad corr => Sys2Proof.Machine.execFlitData p flit bad corr s
  | .flitIdle p flit bad corr => Sys2Proof.Machine.execFlitIdle p flit bad corr s
  | .flitRetry p flit bad corr => Sys2Proof.Machine.execFlitRetry p flit bad corr s
  | .flitInit p flit bad corr => Sys2Proof.Machine.execFlitInit p flit bad corr s
  | .flitTime p flit bad corr frac => Sys2Proof.Machine.execFlitTime p flit bad corr frac s
  | .flitLane p flit bad corr => Sys2Proof.Machine.execFlitLane p flit bad corr s
  | .retryRepeat p => Sys2Proof.Machine.execRetryRepeat p s
  | .laneSpare p lost => Sys2Proof.Machine.execLaneSpare p lost s
  | .laneRepeat p => Sys2Proof.Machine.execLaneRepeat p s
  | .laneSpareComplete p delay => Sys2Proof.Machine.execLaneSpareComplete p delay s
  | .timeExchange p t1 t2 t3 t4 => Sys2Proof.Machine.execTimeExchange p t1 t2 t3 t4 s
  | .timeLockTimeout => Sys2Proof.Machine.execTimeLockTimeout s
  | .write p hop => Sys2Proof.Machine.execWrite p hop s
  | .inc p hop => Sys2Proof.Machine.execInc p hop s
  | .ack p hop => Sys2Proof.Machine.execAck p hop s
  | .nackGap p hop => Sys2Proof.Machine.execNackGap p hop s
  | .nackBusy p hop => Sys2Proof.Machine.execNackBusy p hop s
  | .nackNotres p hop => Sys2Proof.Machine.execNackNotres p hop s
  | .nackPerm p hop => Sys2Proof.Machine.execNackPerm p hop s
  | .backoffExpiry t k => Sys2Proof.Machine.execBackoffExpiry t k s
  | .release p hop => Sys2Proof.Machine.execRelease p hop s
  | .e2eTimeout t k => Sys2Proof.Machine.execE2eTimeout t k s
  | .transferReceiveComplete t k => Sys2Proof.Machine.execTransferReceiveComplete t k s
  | .descriptorIdleFree t k => Sys2Proof.Machine.execDescriptorIdleFree t k s
  | .rejoinReq p hop => Sys2Proof.Machine.execRejoinReq p hop s
  | .rejoinAck p hop => Sys2Proof.Machine.execRejoinAck p hop s
  | .restoreReq p hop => Sys2Proof.Machine.execRestoreReq p hop s
  | .restoreDone p hop => Sys2Proof.Machine.execRestoreDone p hop s
  | .failReport p hop => Sys2Proof.Machine.execFailReport p hop s
  | .echo p hop => Sys2Proof.Machine.execEcho p hop s
  | .collectiveTrigger cid => Sys2Proof.Machine.execCollectiveTrigger cid s
  | .reduce cid => Sys2Proof.Machine.execReduce cid s
  | .allreduce cid => Sys2Proof.Machine.execAllreduce cid s
  | .reducescatter cid => Sys2Proof.Machine.execReducescatter cid s
  | .allgather cid => Sys2Proof.Machine.execAllgather cid s
  | .alltoall cid => Sys2Proof.Machine.execAlltoall cid s
  | .escape cid => Sys2Proof.Machine.execEscape cid s
  | .digest cid => Sys2Proof.Machine.execDigest cid s
  | .commit cid => Sys2Proof.Machine.execCommit cid s
  | .collData p hop => Sys2Proof.Machine.execCollData p hop s
  | .result p hop => Sys2Proof.Machine.execResult p hop s
  | .agreeUp p hop => Sys2Proof.Machine.execAgreeUp p hop s
  | .agreeDown p hop => Sys2Proof.Machine.execAgreeDown p hop s
  | .digestPacket p hop => Sys2Proof.Machine.execDigestPacket p hop s
  | .ready p hop => Sys2Proof.Machine.execReady p hop s
  | .decideCommit p hop => Sys2Proof.Machine.execDecideCommit p hop s
  | .decideAbort p hop => Sys2Proof.Machine.execDecideAbort p hop s
  | .query p hop => Sys2Proof.Machine.execQuery p hop s
  | .arrive p hop => Sys2Proof.Machine.execArrive p hop s
  | .schedule p hop => Sys2Proof.Machine.execSchedule p hop s
  | .escapementRelease => Sys2Proof.Machine.execEscapementRelease s
  | .escTimeout => Sys2Proof.Machine.execEscTimeout s
  | .collectiveDeadline cid => Sys2Proof.Machine.execCollectiveDeadline cid s
  | .commitTimeout => Sys2Proof.Machine.execCommitTimeout s
  | .rootTakeover => Sys2Proof.Machine.execRootTakeover s
  | .collectiveComplete cid => Sys2Proof.Machine.execCollectiveComplete cid s
  | .windowRelease n => Sys2Proof.Machine.execWindowRelease n s
  | .deadlineMiss n => Sys2Proof.Machine.execDeadlineMiss n s
  | .switch => Sys2Proof.Machine.execSwitch s
  | .testWindow full fails => Sys2Proof.Machine.execTestWindow full fails s
  | .spareTestRun p fails => Sys2Proof.Machine.execSpareTestRun p fails s
  | .doorbellPoll p ok h => Sys2Proof.Machine.execDoorbellPoll p ok h s
  | .nop p r => Sys2Proof.Machine.execHostNop p r s
  | .identify p r => Sys2Proof.Machine.execIdentify p r s
  | .leaseAcquire p r => Sys2Proof.Machine.execLeaseAcquire p r s
  | .leaseRenew p r => Sys2Proof.Machine.execLeaseRenew p r s
  | .leaseRelease p r => Sys2Proof.Machine.execLeaseRelease p r s
  | .leaseRound => Sys2Proof.Machine.execLeaseRound s
  | .leaseExpiry => Sys2Proof.Machine.execLeaseExpiry s
  | .createRing p r => Sys2Proof.Machine.execCreateRing p r s
  | .deleteRing p r => Sys2Proof.Machine.execDeleteRing p r s
  | .setEventBuffer p r => Sys2Proof.Machine.execSetEventBuffer p r s
  | .dmaToDevice p r got h bad => Sys2Proof.Machine.execDmaToDevice p r got h bad s
  | .dmaFromDevice p r => Sys2Proof.Machine.execDmaFromDevice p r s
  | .ctxRegister p r ok h => Sys2Proof.Machine.execCtxRegister p r ok h s
  | .ctxStop p r => Sys2Proof.Machine.execCtxStop p r s
  | .ctxDeregister p r => Sys2Proof.Machine.execCtxDeregister p r s
  | .ctxQuery p r => Sys2Proof.Machine.execCtxQuery p r s
  | .ctxSignal p r => Sys2Proof.Machine.execCtxSignal p r s
  | .tcPush p r ok h => Sys2Proof.Machine.execTcPush p r ok h s
  | .telemetryRead p r => Sys2Proof.Machine.execTelemetryRead p r s
  | .fwWrite p r ok h => Sys2Proof.Machine.execFwWrite p r ok h s
  | .fwActivate p r => Sys2Proof.Machine.execFwActivate p r s
  | .deviceReset p r test => Sys2Proof.Machine.execDeviceReset p r test s
  | .msixCoalesceTimeout p r => Sys2Proof.Machine.execMsixCoalesceTimeout p r s
  | .powerLoop p rails => Sys2Proof.Machine.execPowerLoop p rails s
  | .fastClamp amps => Sys2Proof.Machine.execFastClamp amps s
  | .fastClampRelease => Sys2Proof.Machine.execFastClampRelease s
  | .thermalLoop die hbm high => Sys2Proof.Machine.execThermalLoop die hbm high s
  | .monitorRead readings => Sys2Proof.Machine.execMonitorRead readings s
  | .replan => Sys2Proof.Machine.execReplan s
  | .ceilObservation => Sys2Proof.Machine.execCeilObservation s
  | .ageHours => Sys2Proof.Machine.execAgeHours s
  | .getCerts body => Sys2Proof.Machine.execGetCerts body s
  | .getReport body => Sys2Proof.Machine.execGetReport body s
  | .dbgChalRead => Sys2Proof.Machine.execDbgChalRead s
  | .debugToken token => Sys2Proof.Machine.execDebugToken token s
  | .i3cSetdasa addr => Sys2Proof.Machine.execI3cSetdasa addr s
  | .i3cEntdaa addr => Sys2Proof.Machine.execI3cEntdaa addr s
  | .tick => Sys2Proof.Machine.execTick s
  | .modPwrokAssert test => Sys2Proof.Machine.execModPwrokAssert test s
  | .railInRange r => Sys2Proof.Machine.execRailInRange r s
  | .rejoinLimitExpiry rank => Sys2Proof.Machine.execRejoinLimitExpiry rank s
  | .arraySuspectExpiry p a => Sys2Proof.Machine.execArraySuspectExpiry p a s
  | .switchComplete => Sys2Proof.Machine.execSwitchComplete s
  | .dmaComplete p r k => Sys2Proof.Machine.execDmaComplete p r k s
  | .controlCoreAccess core sp store a n d => Sys2Proof.Machine.execControlCoreAccess core sp store a n d s
  | .coreCacheUncorrectable => Sys2Proof.Machine.execCoreCacheUncorrectable s
  | .ecall eid fid arg => Sys2Proof.Machine.execEcall eid fid arg s
  | .debugAccess op a b d => Sys2Proof.Machine.execDebugAccess op a b d s

end Sys2Proof.Machine
end

