-- ==== Sys2Proof/Safety.lean ====
section
/-! DEFINITION. Safety.lean: what the statements call a safe step, and the invariant that every step keeps. -/

namespace Sys2Proof

/-- The outcome is a next state. -/
def Safety.goesOn (o : Host.Outcome Machine.State Machine.Fault Machine.Refusal) : Bool :=
  match o with
  | .next _ => true
  | .fault _ => false
  | .refused _ => false

namespace Machine

/-- The byte memory and the tables of HBM are canonical: keys strictly rising, no entry that reads as an unlisted one. -/
def Hbm.wf (h : Hbm) : Bool :=
  Memory.wf h.mem && swf (fun _ => Gran.init) h.tab && swf (fun _ => Hctl.init) h.ctl && swf zero32 h.cec

/-- At most one tile of a quadrant is fused at test: 16 work (R10, R11). -/
def Fuses.legal (u : Fuses) : Prop := ∀ q, q < 4 → 16 ≤ (u.working q).length

/-- No two logical tiles are bound to one physical tile (R12, R13). -/
def Placement.distinct (p : Placement) : Prop := ∀ t u, t < 64 → u < 64 → p.phys t = p.phys u → t = u

/-- One state of the fuses may follow another: a thermometer bit or a revocation, once blown, stays, and nothing else changes
(R537, R538, R542). -/
structure Fuses.After (u v : Fuses) : Prop where
  same : { v with svn := u.svn, revoke := u.revoke } = u
  svn : v.svn ||| u.svn = v.svn
  revoke : v.revoke ||| u.revoke = v.revoke
  /-- never the last unrevoked root slot -/
  last : u.revoke ≠ 0xF#4 → v.revoke ≠ 0xF#4

/-- The invariant that every step keeps: device memory is in its one form, a root slot is unrevoked, and the placement binds
the logical tiles to as many physical tiles. -/
structure State.Inv (s : State) : Prop where
  hbm : s.hbm.wf = true
  fuses : s.fuses.legal
  root : s.fuses.revoke ≠ 0xF#4
  plc : s.plc.distinct

/-! The issue of one slot (R248, R252 to R255) -/

/-- Tile `t` takes a bundle in this tick: it runs, no restored load is still being performed before its first bundle, the tick is
enabled and later than its latest issue, and no move of it drains (R248, R254, R264, R280). -/
def State.canIssue (s : State) (t : Nat) : Bool :=
  (s.tile t).run == .on && s.clk.enabled && decide ((s.tile t).issued < s.clk.etick) && !(s.plc.drains.any fun d => d.ltile == t) && !s.waits &&
    !(s.tile t).starting

/-- What every issue does before its slots: the tile's marks of the issue, and the count of issues at its place (R250, R287). -/
def State.opened (s : State) (t : Nat) : State :=
  (s.setTile t ((s.tile t).stamp s.clk.etick)).chrAdd (s.plc.phys t) 1 5 0 1

/-- The same where the V slot holds an instruction, which the vector target counts too (R250). -/
def State.openedV (s : State) (t : Nat) : State := (s.opened t).chrAdd (s.plc.phys t) 1 3 0 1

/-- A tile written back as it stands: every tile reads as before. -/
def State.writeBack (s : State) (t : Nat) : State := s.setTile t (s.tile t)

/-- From `s` to `u` a bundle has issued on tile `t`, whose slots left that tile as `x`: every other tile and every other kind of
state is as it was, and of the physical tile only chronograph counters may differ. -/
structure State.Issued (s u : State) (t : Nat) (x : Tile) : Prop where
  rest : { u with tiles := s.tiles, ptiles := s.ptiles } = s
  tile : u.tile t = x.stamp s.clk.etick
  others : ∀ k, k ≠ t → u.tile k = s.tile k
  place : ∀ p, u.ptile p = { s.ptile p with chr := (u.ptile p).chr }
  places : ∀ p, p ≠ s.plc.phys t → u.ptile p = s.ptile p

/-- From `x` to `y` a tile's vector register `d` took the lanes `f` and the poison mark `m`; beside it only the marks of the vector
unit's timing differ (R192, R193, R197, R407). -/
structure Tile.VecWrote (x y : Tile) (d : Nat) (f : Nat → W32) (m : Bool) : Prop where
  rest : { y with vreg := x.vreg, vpois := x.vpois, vready := x.vready, vnext := x.vnext } = x
  lanes : ∀ i, i < 512 → (y.lanesOf d).getD i 0 = f i
  mark : y.vMark d = m
  others : ∀ r, r ≠ d → y.lanesOf r = x.lanesOf r ∧ y.vMark r = x.vMark r

/-- The V slot's unit takes an instruction now (R197, R198, R208, R337). -/
def State.vFree (s : State) (t : Nat) (b : Bundle) : Bool :=
  ((s.tile t).vHold b.v s.clk.etick).isNone && !((b.v.op = 0x32 || b.v.op = 0x34 || b.v.op = 0x35) && s.collWrites t)

/-- No granule that the bundle's records and descriptors lie in is pending (R225, R255). -/
def State.recsFree (s : State) (t : Nat) (b : Bundle) : Bool := !s.readHeld t (spans t (s.bundleRecs t b))

/-- The write that a V-slot instruction of 512 lanes queues at its issue (R195, R609): latency, kind, destinations, first element,
lanes. -/
def State.vecWrite (s : State) (t : Nat) (v : VSlot) (lat kind : Nat) (ds : List TDesc) (i0 : Nat) (vals : List W32) (mark : Bool) : VWrite :=
  let x := s.tile t
  ⟨s.clk.etick + lat, false, kind, ds, i0, vals, x.mask v.k, v.wform, v.grad, mark || x.kMark v.k, x.pc, x.iterWord⟩

/-- From `x` to `y` a vector write was queued; beside it only the marks of the unit's timing differ. -/
structure Tile.Queued (x y : Tile) (w : VWrite) : Prop where
  rest : { y with vwr := x.vwr, vready := x.vready, vnext := x.vnext } = x
  queue : y.vwr = x.vwr ++ [w]

/-- At the front of class `cls`'s channel of port `p` (24: the device's own mesh) waits packet `b`, of a type and for this device
(R316 to R318). -/
structure State.Arrived (s : State) (p : Nat) (hop : Bool) (cls typ : Nat) (b : List Byte) : Prop where
  front : s.packet p (2 * cls + b2n hop) = some b
  typ : (Th.ofBytes b).typ = typ
  dst : (Th.ofBytes b).dst = s.devId

/-- A packet of the collective engine belongs to the resident context, a descriptor of it and its group (R340, R346). -/
structure State.CollFits (s : State) (b : List Byte) (a : CollAt) : Prop where
  res : s.resCtx = some (a.n, a.c)
  job : a.c.rr.job = (Th.ofBytes b).job
  hdr : a.ch = Ch.ofBytes (b.drop 32)
  desc : a.d = s.cd a.c a.ch.cid
  group : a.g = s.group a.c a.d.group
  known : a.ch.cid < a.c.rr.ncoll
  hash : s.groupHash a.g = a.ch.ghash

end Machine

end Sys2Proof
end

