-- ==== Sys2Proof/Certificates/Slice0/Obligations.lean ====
section
/-! DEFINITION. Certificates/Slice0/Obligations.lean: the statements for the provers. -/

open Sys2Proof Sys2Proof.Machine

/-- For every command c and every state s, a step of s with c at the front of its queue is c's effect on s with the queue's rest. A step
with no command waiting changes nothing; that is the model's choice (log 2). -/
def Obligations.StepRunsFront : Prop :=
  (∀ (c : Instr) (s : State), step { s with pending := c :: s.pending } = exec c s) ∧
  (∀ s : State, s.pending = [] → step s = .next s)

/-- State.reset meets the invariant that every step keeps: device memory is canonical, every quadrant has 16 working tiles, a root slot is
unrevoked, and no two logical tiles share a physical tile. The fused values of the reset state are the model's choice (log 3). -/
def Obligations.ResetInv : Prop :=
  State.reset.Inv

/-- From every state that meets the invariant (device memory and its tables in their one canonical form, 16 working tiles in each quadrant,
an unrevoked root slot, no two logical tiles on one physical tile), a step that answers a next state answers one that meets it. -/
def Obligations.StepKeepsInv : Prop :=
  ∀ s t : State, s.Inv → step s = .next t → t.Inv

/-- Whatever command runs, the commands that wait are in the next state the same, in the same order; a step takes exactly its front. -/
def Obligations.QueueOnlyShrinks : Prop :=
  ∀ (c : Instr) (s t : State), exec c s = .next t → t.pending = s.pending

/-- From every state whose quadrants have 16 working tiles, in which a root slot is unrevoked and no two logical tiles share a physical
tile, a step blows fuse bits or leaves them: a bit of the security version number or of the revocation fuses that is blown stays blown,
no other fused value changes, and the last unrevoked root slot is never revoked. -/
def Obligations.FusesOnlyBlow : Prop :=
  ∀ s t : State, s.Inv → step s = .next t → s.fuses.After t.fuses

/-- On a tile that takes a bundle in this tick, for a register that is not the counter of an active loop level, XSET and XADD complete: the
register takes the sign-extended immediate, or its sum with it modulo 2^32; beside it only the marks of the issue change. To the counter
of an active level they end as a job fault ILLEGAL_ENCODING with detail 3, as R427 numbers the conditions of R259. -/
def Obligations.IndexRegisterSlots : Prop :=
  ∀ (s : State) (t : Fin 64) (x : BitVec 4) (imm : BitVec 24), s.canIssue t = true →
    ((s.tile t).counts x.toNat = false →
      (∃ u, exec (.xset t x imm) s = .next u ∧ s.Issued u t ((s.tile t).setX x.toNat (imm.signExtend 32))) ∧
      (∃ u, exec (.xadd t x imm) s = .next u ∧
        s.Issued u t ((s.tile t).setX x.toNat (sget zero32 (s.tile t).x x.toNat + imm.signExtend 32)))) ∧
    ((s.tile t).counts x.toNat = true →
      exec (.xset t x imm) s = .next (s.jobFault (JF.illegal 3 0) (some t)) ∧
      exec (.xadd t x imm) s = .next (s.jobFault (JF.illegal 3 0) (some t)))

/-- On a tile that takes a bundle in this tick: TREAD of an even register, no part of whose pair is the counter of an active loop level,
writes the low and the high half of device time to the pair; CVRD writes the conversion status word to its register; CVCLR clears that
word; beside these only the marks of the issue change. -/
def Obligations.TimeAndStatusSlots : Prop :=
  ∀ (s : State) (t : Fin 64) (x : BitVec 4), s.canIssue t = true →
    (x.toNat % 2 = 0 → (s.tile t).counts x.toNat = false → (s.tile t).counts (x.toNat + 1) = false →
      ∃ u, exec (.tread t x) s = .next u ∧
        s.Issued u t (((s.tile t).setX x.toNat (s.now.extractLsb' 0 32)).setX (x.toNat + 1) (s.now.extractLsb' 32 32))) ∧
    (∃ u, exec (.cvrd t x) s = .next u ∧ s.Issued u t ((s.tile t).setX x.toNat (s.tile t).cvst)) ∧
    (∃ u, exec (.cvclr t) s = .next u ∧ s.Issued u t { s.tile t with cvst := 0 })

/-- On a tile that takes a bundle in this tick, where no level up to the named one is active, LP_I with a nonzero count and LP_X with a
positive index register open the level: its count is set, its counter is zero, it is active, and its start is the next bundle, which for
a row of one slot is the bundle at the program counter (log 6); every other level and register, and every other field of the tile, is as
it was. At a LEND bit that names a level whose counter is below the count less one, the counter goes up by one and issue continues at
the level's start; at the last pass the level becomes inactive, its counter stays, and no branch is taken. -/
def Obligations.LoopSlots : Prop :=
  (∀ (s : State) (t : Fin 64) (n : BitVec 2), s.canIssue t = true → (∀ k, k ≤ n.toNat → ((s.tile t).level k).active = false) →
    let opens := fun (u : State) (count : Nat) => ∃ x, s.Issued u t x ∧ { x with lv := (s.tile t).lv, x := (s.tile t).x } = s.tile t ∧
      x.level n.toNat = ⟨count, (s.tile t).pc, true⟩ ∧ (∀ k, k ≠ n.toNat → x.level k = (s.tile t).level k) ∧
      sget zero32 x.x (12 + n.toNat) = 0 ∧ ∀ k, k ≠ 12 + n.toNat → sget zero32 x.x k = sget zero32 (s.tile t).x k
    (∀ count : BitVec 24, count ≠ 0 → ∃ u, exec (.lpI t n count) s = .next u ∧ opens u count.toNat) ∧
    (∀ x : BitVec 4, 0 < (sget zero32 (s.tile t).x x.toNat).toInt →
      ∃ u, exec (.lpX t n x) s = .next u ∧ opens u (sget zero32 (s.tile t).x x.toNat).toNat)) ∧
  (∀ (x : Tile) (n : Nat),
    let l := x.level n
    let i := sget zero32 x.x (12 + n)
    let r := x.loopEnd n
    (i.toNat + 1 < l.count → r.2 = some l.start ∧ sget zero32 r.1.x (12 + n) = i + 1 ∧ r.1.level n = l ∧ (∀ k, k ≠ 12 + n → sget zero32 r.1.x k = sget zero32 x.x k)) ∧
    (l.count ≤ i.toNat + 1 → r.2 = none ∧ r.1.x = x.x ∧ (r.1.level n).active = false ∧ (r.1.level n).count = l.count) ∧
    (∀ k, k ≠ n → r.1.level k = x.level k))

/-- On a tile that takes a bundle in this tick: WAIT whose counter is at least V subtracts V; WAITGE whose counter is at least V changes
nothing; SSET to a counter that no outstanding work names writes V; SIG of an amount that the counter can take adds it to what the next
tick makes visible; beside the one counter only the marks of the issue change. -/
def Obligations.LocalSyncSlots : Prop :=
  ∀ (s : State) (t : Fin 64) (o : BitVec 8) (v : BitVec 24) (n : BitVec 16), s.canIssue t = true →
    let at_ := sget zero32 (s.tile t).sync o.toNat
    (v.toNat ≤ at_.toNat → ∃ u, exec (.wait t o v) s = .next u ∧
      s.Issued u t { s.tile t with sync := sput zero32 (s.tile t).sync o.toNat (at_ - v.setWidth 32) }) ∧
    (v.toNat ≤ at_.toNat → ∃ u, exec (.waitge t o v) s = .next u ∧ s.Issued u t (s.tile t)) ∧
    (s.owes t o.toNat = false → ∃ u, exec (.sset t o v) s = .next u ∧
      s.Issued u t { s.tile t with sync := sput zero32 (s.tile t).sync o.toNat (v.setWidth 32) }) ∧
    ((s.tile t).incHeld o.toNat n.toNat = false → ∃ u, exec (.sig t o n) s = .next u ∧
      s.Issued u t { s.tile t with landed := sput zeroNat (s.tile t).landed o.toNat (sget zeroNat (s.tile t).landed o.toNat + n.toNat) })

/-- On a tile that could take a bundle, WAIT and WAITGE whose counter is below V issue nothing: the synchronisation counters, the index
registers, the program counter and device memory are as they were, and the hold of the tile is one tick longer. -/
def Obligations.WaitHolds : Prop :=
  ∀ (s : State) (t : Fin 64) (o : BitVec 8) (v : BitVec 24), s.canIssue t = true → (sget zero32 (s.tile t).sync o.toNat).toNat < v.toNat →
    let held := fun (u : State) => (u.tile t).sync = (s.tile t).sync ∧ (u.tile t).x = (s.tile t).x ∧ (u.tile t).pc = (s.tile t).pc ∧
      u.hbm = s.hbm ∧ (u.tile t).held = (s.tile t).held + 1 ∧ ∀ k, k ≠ t.val → u.tile k = s.tile k
    (∃ u, exec (.wait t o v) s = .next u ∧ held u) ∧ (∃ u, exec (.waitge t o v) s = .next u ∧ held u)

/-- On a tile that takes a bundle in this tick, SIG_T to an active tile of the resident context completes: the named tile has one more
increment on its way, of N to OBJ, from the stop of the tile that sends it under the binding of that moment (none where N is zero);
beside it only the marks of the issue change. -/
def Obligations.RemoteSyncSlot : Prop :=
  ∀ (s : State) (t : Fin 64) (o : BitVec 8) (n : BitVec 16) (k : BitVec 6) (j : Nat) (c : Ctx), s.canIssue t = true →
    s.resCtx = some (j, c) → bitOf c.rr.tiles.toNat k.toNat = true →
    ∃ u, exec (.sigT t o n k) s = .next u ∧ { u with tiles := s.tiles, ptiles := s.ptiles } = s ∧
      ∀ m, u.tile m =
        let x := if m = t.val then (s.tile m).stamp s.clk.etick else s.tile m
        if m = k.toNat ∧ n ≠ 0 then { x with incs := x.incs ++ [⟨o.toNat, n.toNat, s.stopOf t, s.plc.epoch⟩] } else x

/-- On a tile that takes a bundle in this tick: with no active loop level, JMP completes: issue continues at ADDR, and beside the program
counter only the marks of the issue change; with an active level it is a job fault ILLEGAL_ENCODING with detail 4. HALT completes: the
tile is halted, and the scheduler takes notice as for every tile that halts. -/
def Obligations.JumpAndHaltSlots : Prop :=
  ∀ (s : State) (t : Fin 64) (a : BitVec 13), s.canIssue t = true →
    ((s.tile t).looping = false → ∃ u, exec (.jmp t a) s = .next u ∧ s.Issued u t { s.tile t with pc := a.toNat }) ∧
    ((s.tile t).looping = true → exec (.jmp t a) s = .next (s.jobFault (JF.illegal 4 0) (some t))) ∧
    exec (.halt t) s = .next ((((s.opened t).setTile t { (s.tile t).stamp s.clk.etick with run := .halted }).haltEnd).writeBack t)

/-- On a tile that takes a bundle in this tick and has no active loop level, where the segment record and the program load record that it
names are legal, its live ranges are those a save can take, nothing it reads is pending and no preemption holds it, PP completes: the
segment ends and the next begins. Where the tile neither stops there nor keeps a state for a rollback, the tile continues at SG_RESUME
in the record's segment. -/
def Obligations.PpSlot : Prop :=
  ∀ (s : State) (t : Fin 64) (d : BitVec 16) (b l : List Byte), s.canIssue t = true → (s.tile t).looping = false →
    s.segAt_ t (d.toNat * 64) = .ok (b, l) →
    (∀ n c, s.resCtx = some (n, c) → liveBad c.rr.maxlive (s.liveOf t (Seg.ofBytes b)) = false) →
    s.readHeld t (spans t (s.segReads t (d.toNat * 64))) = false → s.cHolds t ⟨0x0E, d.toNat, 0, 0, 0, false⟩ = [] →
    ∃ u, exec (.pp t d) s = .next u ∧ u = ((s.opened t).doPp t b l (s.ppStops t) s.ppKeeps).writeBack t ∧
      (s.ppStops t = false → s.ppKeeps = false →
        u.tile t = { (s.tile t).stamp s.clk.etick with
          pps := (s.tile t).pps + 1, pc := (Seg.ofBytes b).resume, seg := Seg.ofBytes b, segAt := some s.clk.etick, segOver := false,
          saveSeg := b, saveLoad := l })

/-- On a tile that takes a bundle in this tick, with no conversion, update, scale advance or write of the collective engine through its
conversion unit in progress, whose record is readable and legal, SADV completes: the advance is in progress, and beside it only the
marks of the issue change. SADV_COMPLETE: in an enabled tick, once its time has come and nothing holds its blocks, the advance ends as
R100 says. -/
def Obligations.ScaleAdvanceSlot : Prop :=
  (∀ (s : State) (t : Fin 64) (d : BitVec 16) (xb xn : BitVec 4) (o : BitVec 8) (a : Sadv), s.canIssue t = true →
    (s.tile t).converting = false → (s.tile t).vupd = none → (s.tile t).sadv = none → s.collWrites t = false →
    s.readHeld t (spans t [(d.toNat * 64, 64)]) = false → s.checkSadv t d.toNat xb.toNat xn.toNat o.toNat = .ok a →
    ∃ u, exec (.sadv t d xb xn o) s = .next u ∧ s.Issued u t { s.tile t with sadv := some a }) ∧
  (∀ (s : State) (t : Fin 64) (a : Sadv) (u : State), (s.tile t).sadv = some a → s.clk.enabled = true → s.sadvDue t a = true →
    s.finishSadv t a = .ok u → exec (.sadvComplete t) s = .next u)

/-- On a tile that takes a bundle in this tick and whose vector unit is free for the instruction, every lanewise vector instruction
completes. Each lane of the destination whose mask bit is 1 takes the function of the source lanes, each other lane keeps its value;
VSEL takes VA's lane where the mask bit is 1 and VB's elsewhere; VRED_PAIR adds the registers of an even pair. The destination's poison
mark is that of its sources and mask (and its own, where lanes stay). Every other vector register, and every other field of the tile but
the unit's timing and the marks of the issue, is as it was. -/
def Obligations.LanewiseVectorSlots : Prop :=
  ∀ (s : State) (t : Fin 64) (d a b c : BitVec 5) (k : BitVec 3), s.canIssue t = true →
    let x := s.tile t
    let at_ := fun (r i : Nat) => (x.lanesOf r).getD i 0
    let on := fun (i : Nat) => (x.mask k.toNat).getLsbD i
    let keep := fun (f : Nat → W32) (i : Nat) => if on i then f i else at_ d.toNat i
    let un := fun (g : W32 → W32) => keep fun i => g (at_ a.toNat i)
    let bin := fun (g : W32 → W32 → W32) => keep fun i => g (at_ a.toNat i) (at_ b.toNat i)
    let mark := fun (l : List Nat) => l.any x.vMark || x.kMark k.toNat || (k ≠ 0 && x.vMark d.toNat)
    let ma := mark [a.toNat]
    let mab := mark [a.toNat, b.toNat]
    ∀ p ∈ ([(.vadd t d a b k, vecR 0x01 d a b 0 k 0, bin vaddF, mab), (.vsub t d a b k, vecR 0x02 d a b 0 k 0, bin vsubF, mab),
        (.vmul t d a b k, vecR 0x03 d a b 0 k 0, bin vmulF, mab), (.vmin t d a b k, vecR 0x05 d a b 0 k 0, bin vminF, mab),
        (.vmax t d a b k, vecR 0x06 d a b 0 k 0, bin vmaxF, mab), (.vcopysign t d a b k, vecR 0x09 d a b 0 k 0, bin vcopysignF, mab),
        (.vdiv t d a b k, vecR 0x17 d a b 0 k 0, bin vdivF, mab), (.vabs t d a k, vecR 0x07 d a 0 0 k 0, un vabsF, ma),
        (.vneg t d a k, vecR 0x08 d a 0 0 k 0, un vnegF, ma), (.vrcp t d a k, vecR 0x10 d a 0 0 k 0, un vrcpF, ma),
        (.vsqrt t d a k, vecR 0x11 d a 0 0 k 0, un vsqrtF, ma), (.vrsqrt t d a k, vecR 0x12 d a 0 0 k 0, un vrsqrtF, ma),
        (.vexp t d a k, vecR 0x13 d a 0 0 k 0, un vexpF, ma), (.vexp2 t d a k, vecR 0x14 d a 0 0 k 0, un vexp2F, ma),
        (.vlog t d a k, vecR 0x15 d a 0 0 k 0, un vlogF, ma), (.vlog2 t d a k, vecR 0x16 d a 0 0 k 0, un vlog2F, ma),
        (.vsigmoid t d a k, vecR 0x18 d a 0 0 k 0, un sigmoidC, ma), (.vtanh t d a k, vecR 0x19 d a 0 0 k 0, un tanhC, ma),
        (.vgeluTanh t d a k, vecR 0x1A d a 0 0 k 0, un geluTanhC, ma), (.verf t d a k, vecR 0x1B d a 0 0 k 0, un erfC, ma),
        (.vgelu t d a k, vecR 0x1C d a 0 0 k 0, un geluC, ma),
        (.vfma t d a b c k, vecR 0x04 d a b c k 0, keep fun i => vfmaF (at_ a.toNat i) (at_ b.toNat i) (at_ c.toNat i),
          mark [a.toNat, b.toNat, c.toNat]),
        (.vsel t d a b k, vecR 0x0A d a b 0 k 0, fun i => if on i then at_ a.toNat i else at_ b.toNat i,
          x.vMark a.toNat || x.vMark b.toNat || x.kMark k.toNat)] ++
        (if a.toNat % 2 = 0 then [(.vredPair t d a k, vecR 0x21 d a 0 0 k 0, keep fun i => vaddF (at_ a.toNat i) (at_ (a.toNat + 1) i),
          mark [a.toNat, a.toNat + 1])] else []) : List (Instr × Bundle × (Nat → W32) × Bool)),
      s.vFree t p.2.1 = true → ∃ u y, exec p.1 s = .next u ∧ s.Issued u t y ∧ x.VecWrote y d.toNat p.2.2.1 p.2.2.2

/-- On a tile that takes a bundle in this tick and whose vector unit is free for the instruction, VCMP_EQ, VCMP_NE, VCMP_LT and VCMP_LE into
k1 to k7 complete: each bit of the destination mask whose mask bit is 1 takes the comparison of the source lanes, each other bit keeps
its value; the mark is that of the sources and the mask (and its own, where bits stay). A compare into k0 writes nothing. Every vector
register and every other mask register is as it was, and so is every other field of the tile but the unit's timing and the marks of the
issue. -/
def Obligations.CompareVectorSlots : Prop :=
  ∀ (s : State) (t : Fin 64) (d a b : BitVec 5) (k : BitVec 3), s.canIssue t = true → d.toNat < 8 →
    let x := s.tile t
    let at_ := fun (r i : Nat) => (x.lanesOf r).getD i 0
    ∀ p ∈ ([(.vcmpEq t d a b k, vecR 0x0B d a b 0 k 0, feqF), (.vcmpNe t d a b k, vecR 0x0C d a b 0 k 0, fun v w => !feqF v w),
        (.vcmpLt t d a b k, vecR 0x0D d a b 0 k 0, fltF), (.vcmpLe t d a b k, vecR 0x0E d a b 0 k 0, fleF)] :
        List (Instr × Bundle × (W32 → W32 → Bool))),
      s.vFree t p.2.1 = true → ∃ u y, exec p.1 s = .next u ∧ s.Issued u t y ∧
        { y with kreg := x.kreg, kpois := x.kpois, vready := x.vready, vnext := x.vnext } = x ∧
        (∀ r, r ≠ d.toNat → y.mask r = x.mask r ∧ y.kMark r = x.kMark r) ∧
        (d = 0 → y.mask 0 = x.mask 0) ∧
        (d ≠ 0 → (∀ i, i < 512 → (y.mask d.toNat).getLsbD i =
            if (x.mask k.toNat).getLsbD i then p.2.2 (at_ a.toNat i) (at_ b.toNat i) else (x.mask d.toNat).getLsbD i) ∧
          y.kMark d.toNat = (x.vMark a.toNat || x.vMark b.toNat || x.kMark k.toNat || (k ≠ 0 && x.kMark d.toNat)))

/-- On a tile that takes a bundle in this tick and whose vector unit is free for the instruction, VRED_ADD, VRED_MAX and VRED_MIN write the
reduction of the selected lanes, in ascending lane order, to lane 0 of the destination, and VRED_ACC writes the sum to lane LANE; the
other lanes keep their values, and the destination is marked if it or a source was. Every other vector register and every other field of
the tile but the unit's timing and the marks of the issue is as it was. -/
def Obligations.ReductionVectorSlots : Prop :=
  ∀ (s : State) (t : Fin 64) (d a : BitVec 5) (k : BitVec 3) (lane : BitVec 9), s.canIssue t = true →
    let x := s.tile t
    let l := x.present a.toNat k.toNat
    let mark := x.vMark a.toNat || x.kMark k.toNat || x.vMark d.toNat
    ∀ p ∈ ([(.vredAdd t d a k, vecR 0x22 d a 0 0 k 0, 0, treeAdd l), (.vredMax t d a k, vecR 0x24 d a 0 0 k 0, 0, redMax l),
        (.vredMin t d a k, vecR 0x25 d a 0 0 k 0, 0, redMin l), (.vredAcc t d a k lane, vecR 0x23 d a 0 0 k lane, lane.toNat, treeAdd l)] :
        List (Instr × Bundle × Nat × W32)),
      s.vFree t p.2.1 = true → ∃ u y, exec p.1 s = .next u ∧ s.Issued u t y ∧
        x.VecWrote y d.toNat (fun i => if i = p.2.2.1 then p.2.2.2 else (x.lanesOf d.toNat).getD i 0) mark

/-- On a tile that takes a bundle in this tick and whose vector unit is free for the instruction, VADD_PAIR of even registers completes: in
each lane whose mask bit is 1, VD and VD + 1 take the high and the low part of the sum of the pairs VA, VA + 1 and VB, VB + 1; each
other lane keeps its value. Every other vector register is as it was. -/
def Obligations.PairAddVectorSlot : Prop :=
  ∀ (s : State) (t : Fin 64) (d a b : BitVec 5) (k : BitVec 3), s.canIssue t = true → d.toNat % 2 = 0 → a.toNat % 2 = 0 → b.toNat % 2 = 0 →
    s.vFree t (vecR 0x20 d a b 0 k 0) = true →
    let x := s.tile t
    let at_ := fun (r i : Nat) => (x.lanesOf r).getD i 0
    let sum := fun (i : Nat) => pairAdd (at_ a.toNat i) (at_ (a.toNat + 1) i) (at_ b.toNat i) (at_ (b.toNat + 1) i)
    ∃ u y, exec (.vaddPair t d a b k) s = .next u ∧ s.Issued u t y ∧
      { y with vreg := x.vreg, vpois := x.vpois, vready := x.vready, vnext := x.vnext } = x ∧
      (∀ i, i < 512 → (y.lanesOf d.toNat).getD i 0 = if (x.mask k.toNat).getLsbD i then (sum i).1 else at_ d.toNat i) ∧
      (∀ i, i < 512 → (y.lanesOf (d.toNat + 1)).getD i 0 = if (x.mask k.toNat).getLsbD i then (sum i).2 else at_ (d.toNat + 1) i) ∧
      ∀ r, r ≠ d.toNat → r ≠ d.toNat + 1 → y.lanesOf r = x.lanesOf r ∧ y.vMark r = x.vMark r

/-- On a tile that takes a bundle in this tick and whose vector unit is free, for an index register that is not negative and a legal
descriptor of a tensor in the tile's own SRAM whose elements are not pending, VLD completes: lane i takes element 512 × X + i as R194
loads it, the register is marked if a byte read was, CVST takes what the conversions set, every other register and every other tile is
as it was, and so is device memory where no mantissa −128 or −8 is counted. -/
def Obligations.VectorLoadSlot : Prop :=
  ∀ (s : State) (t : Fin 64) (r : BitVec 5) (drec : BitVec 16) (x : BitVec 4) (d : TDesc), s.canIssue t = true →
    0 ≤ (s.tile t).xs x.toNat →
    let i0 := 512 * ((s.tile t).xs x.toNat).toNat
    let b := vecM 0x30 r 0 drec x 0 false false
    s.vFree t b = true → s.recsFree t b = true → s.descLocal t drec.toNat 0 = .ok d →
    s.negChecked d (d.elemsAt s.mem (d.laneIdx i0)) = .ok () → s.readHeld t (d.idxReads (d.laneIdx i0)) = false →
    ∃ u, exec (.vld t r drec x) s = .next u ∧
      (∀ i, i < 512 → ((u.tile t).lanesOf r.toNat).getD i 0 = d.loadF s.mem (i0 + i)) ∧
      (u.tile t).vMark r.toNat = s.poisIvs (d.idxReads (d.laneIdx i0)) ∧
      (u.tile t).cvst = (s.tile t).cvst ||| d.loadCv s.mem (d.laneIdx i0) ∧
      (∀ q, q ≠ r.toNat → (u.tile t).lanesOf q = (s.tile t).lanesOf q ∧ (u.tile t).vMark q = (s.tile t).vMark q) ∧
      (∀ k, k ≠ t.val → u.tile k = s.tile k) ∧
      (d.negs (d.elemsAt s.mem (d.laneIdx i0)) = 0 → u.mem = s.mem)

/-- On a tile that takes a bundle in this tick and whose vector unit is free, for an index register that is not negative and legal
descriptors in the tile's own SRAM, VST, VCVT and VSLICE complete: a write of the 512 lanes from element 512 × X on is queued, to land
after the instruction's latency (6, 12 and 24 ticks); nothing is stored at issue. -/
def Obligations.VectorStoreSlots : Prop :=
  ∀ (s : State) (t : Fin 64) (r : BitVec 5) (k : BitVec 3) (drec : BitVec 16) (x : BitVec 4) (w : BitVec 2) (grad ht : Bool),
    s.canIssue t = true → 0 ≤ (s.tile t).xs x.toNat →
    let i0 := 512 * ((s.tile t).xs x.toNat).toNat
    let y := s.tile t
    let at_ := fun (n : Nat) => s.descLocal t drec.toNat n
    let done := fun (i : Instr) (q : VWrite) => ∃ u z, exec i s = .next u ∧ s.Issued u t z ∧ y.Queued z q
    (let b := vecM 0x31 r k drec x 0 false false
      ∀ d, s.vFree t b = true → s.recsFree t b = true → at_ 0 = .ok d → d.fmt = 3 →
      done (.vst t r k drec x) (s.vecWrite t b.v 6 0 [d] i0 (y.lanesOf r.toNat) (y.vMark r.toNat))) ∧
    (let b := vecM 0x32 r k drec x w grad ht
      ∀ d, s.vFree t b = true → s.recsFree t b = true → w ≠ 3 → at_ 0 = .ok d → formBad d w.toNat grad ht = false →
      (ht = false → done (.vcvt t r k drec x w grad ht) (s.vecWrite t b.v 12 1 [d] i0 (y.lanesOf r.toNat) (y.vMark r.toNat))) ∧
      (∀ e, ht = true → at_ 1 = .ok e → e.fmt = 3 →
        done (.vcvt t r k drec x w grad ht) (s.vecWrite t b.v 12 1 [d, e] i0 (y.lanesOf r.toNat) (y.vMark r.toNat)))) ∧
    (let b := vecM 0x34 0 k drec x 0 false false
      ∀ a h m l, s.vFree t b = true → s.recsFree t b = true → at_ 0 = .ok a → at_ 1 = .ok h → at_ 2 = .ok m → at_ 3 = .ok l →
      a.lum = false → sliceFault a [h, m, l] = none → s.readHeld t (sliceReads a h i0) = false →
      done (.vslice t k drec x) (s.vecWrite t b.v 24 2 [h, m, l] i0
        ((List.range 512).map fun n => match h.sameAt a (i0 + n) with
          | some i => a.loadF s.mem i
          | none => 0) (s.poisIvs (sliceReads a h i0))))

/-- On a tile that takes a bundle in this tick and whose vector unit is free, for an index register that is not negative and a legal
descriptor, VDROP into k1 to k7 completes: bit i of the mask is 1 exactly where the draw for element 512 × X + i is at least Q; every
other mask register is as it was, and into k0 nothing is written. -/
def Obligations.DropoutMaskSlot : Prop :=
  ∀ (s : State) (t : Fin 64) (kd : BitVec 3) (q drec : BitVec 16) (x : BitVec 4) (d : TDesc), s.canIssue t = true →
    0 ≤ (s.tile t).xs x.toNat →
    let i0 := 512 * ((s.tile t).xs x.toNat).toNat
    let b := Bundle.ofV { VSlot.nop with op := 0x33, vd := kd.toNat, q := q.toNat, drec := drec.toNat, xreg := x.toNat }
    s.vFree t b = true → s.recsFree t b = true → s.descNear t drec.toNat 0 = .ok d →
    ∃ u z, exec (.vdrop t kd q drec x) s = .next u ∧ s.Issued u t z ∧
      { z with kreg := (s.tile t).kreg, kpois := (s.tile t).kpois, vready := (s.tile t).vready, vnext := (s.tile t).vnext } = s.tile t ∧
      (∀ k, k ≠ kd.toNat → z.mask k = (s.tile t).mask k) ∧
      (kd ≠ 0 → ∀ i, i < 512 → (z.mask kd.toNat).getLsbD i =
        decide (q.toNat ≤ draw s.seed (BitVec.ofNat 32 (d.tid % 2 ^ 31 + 2 ^ 31)) s.step (i0 + i)))

/-- On a tile that takes a bundle in this tick and whose vector unit is free, VUPD whose record, group entry and descriptors are legal and
not pending starts its update. VUPD_COMPLETE, in an enabled tick once its time has come, nothing holds its writes and no earlier write
of the vector engine waits, writes the update's results; VECTOR_WRITE_LAND, in an enabled tick, lands the oldest due write that no fill
and no spill holds, and the end of the tick makes a landed write's bytes visible. -/
def Obligations.VectorWorkEnds : Prop :=
  (∀ (s : State) (t : Fin 64) (drec : BitVec 16) (v : VUpd), s.canIssue t = true →
    let b := vecM 0x35 0 0 drec 0 0 false false
    s.vFree t b = true → s.recsFree t b = true → s.checkUpd t (drec.toNat * 64) = .ok v →
    exec (.vupd t drec) s = .next (((s.openedV t).startUpd t v).writeBack t)) ∧
  (∀ (s u : State) (t : Fin 64) (v : VUpd), (s.tile t).vupd = some v → s.clk.enabled = true → s.updDue t v = true →
    s.finishUpd t v = .ok u → exec (.vupdComplete t) s = .next u) ∧
  (∀ (s : State) (t : Fin 64) (n : Nat) (w : VWrite), (s.tile t).landing s.clk.etick = some n → (s.tile t).vwr[n]? = some w →
    s.clk.enabled = true → s.writeHeld t w.ivs = false →
    exec (.vectorWriteLand t) s = .next (s.setTile t { s.tile t with vwr := (s.tile t).vwr.set n { w with landed := true } })) ∧
  (∀ (s u : State) (t : Nat) (w : VWrite), (s.tile t).vwr = [w] → w.landed = true → (s.setTile t { s.tile t with vwr := [] }).landWrite t w = .ok u →
    s.seeWrites t = .ok u)

/-- On a tile that takes a bundle in this tick, an array instruction whose record and descriptors are legal and not pending, at an array
that accepts it and whose shadow plane is ready where it swaps, with no fifth split-K reduction at its root, completes: the operation is
in its array. MLD joins the loads of its array's shadow plane and does not wait for the array. -/
def Obligations.ArraySlots : Prop :=
  ∀ (s : State) (t : Fin 64) (slot : Fin 3) (rec : BitVec 19) (o : AOp) (k : Option SkRec), s.canIssue t = true →
    ∀ p ∈ ([(.mma256x128 t slot rec, 1), (.mma128x128 t slot rec, 2), (.mma2x256x64 t slot rec, 3), (.mma128x64 t slot rec, 4),
        (.mmaTree64 t slot rec, 5), (.mmaDiag t slot rec, 6), (.mld t slot rec, 7), (.mma256x128Cx t slot rec, 0x21),
        (.mma128x128Cx t slot rec, 0x22), (.mma128x64Cx t slot rec, 0x24)] : List (Instr × Nat)),
      let r := ARec.ofBytes (rec.toNat * 128) (s.sram t (rec.toNat * 128) 128)
      s.recsFree t (arraySlot slot p.2 rec) = true → (p.2 ≠ 7 → (s.tile t).accepts slot s.clk.etick = true) →
      (p.2 ≠ 6 → p.2 ≠ 7 → r.swap = true → ((s.tile t).arr slot).ready = true) → s.skHold t [(slot.val, p.2, rec.toNat)] = [] →
      s.arrayOp t p.2 rec.toNat (slot == 0) (((s.tile t).arr slot).entryPlane r.swap) = .ok o → s.skOf t o = .ok k →
      exec p.1 s = .next (((s.opened t).issueArray t slot o k).writeBack t)

/-- On a tile that takes a bundle in this tick and whose bundle nothing holds: MMB_PAIR of two legal products sends the first half to B0 and
the second to B1, or the other way round where BPHASE is 1, and then flips BPHASE; B_BOTH sends them to B0 and B1; HALF0_TO_B0 and
HALF0_TO_B1 send their one half. All checks are made before any half issues. -/
def Obligations.PairSlots : Prop :=
  ∀ (s : State) (t : Fin 64) (op0 op1 : BitVec 6) (rec0 rec1 : BitVec 19) (f g : State → State), s.canIssue t = true →
    let n0 := op0.toNat
    let n1 := op1.toNat
    let done := fun (i : Instr) (n : Nat) (h : State → State) => s.holds t (.ofB ⟨n, n0, rec0.toNat, if n < 3 then 0 else n1, if n < 3 then 0 else rec1.toNat, false⟩) false = [] →
      exec i s = .next ((h (s.opened t)).writeBack t)
    (isProduct n0 = true → isProduct n1 = true → s.prepArray t (1 + b2n (s.tile t).bphase, n0, rec0.toNat) = .ok f →
      s.prepArray t (2 - b2n (s.tile t).bphase, n1, rec1.toNat) = .ok g →
      done (.mmbPair t op0 rec0 op1 rec1) 3 fun u =>
        let v := g (f u)
        v.setTile t { v.tile t with bphase := !(v.tile t).bphase }) ∧
    (opKnown n0 = true → opKnown n1 = true → s.prepArray t (1, n0, rec0.toNat) = .ok f → s.prepArray t (2, n1, rec1.toNat) = .ok g →
      done (.bBoth t op0 rec0 op1 rec1) 4 fun u => g (f u)) ∧
    (opKnown n0 = true → s.prepArray t (1, n0, rec0.toNat) = .ok f → done (.half0ToB0 t op0 rec0) 1 f) ∧
    (opKnown n0 = true → s.prepArray t (2, n0, rec0.toNat) = .ok f → done (.half0ToB1 t op0 rec0) 2 f)

/-- On a tile that takes a bundle in this tick: SGO of a legal descriptor on a context that is free in its direction starts the stream,
inbound, outbound or to another device; ILOAD of a legal record on a context that is free inbound starts the program load; SDEM and
SDEM_X of a positive number raise the demand count of a running paced inbound stream by it. Context 31 takes neither sgo nor iload while
a barrel lane is in use. -/
def Obligations.StreamSlots : Prop :=
  ∀ (s : State) (t : Fin 64) (c : BitVec 5), s.canIssue t = true →
    let free := c.toNat ≠ 31 ∨ (s.tile t).barrelOn = false
    (∀ (opr : BitVec 16) (x : BitVec 4) (xen : Bool) (raw : List Byte) (d : SDesc) (td : TDesc),
      let v : SSlot := ⟨1, c.toNat, opr.toNat, x.toNat, xen, false⟩
      s.recsFree t (.ofS v) = true → s.sHolds t v = [] → s.sgoDesc t v = .ok (raw, d, td) → free →
      let u := s.opened t
      exec (.sgo t c opr x xen) s = .next ((if d.dir = 0 then u.startIn t c.toNat raw d td .stream
        else if d.dir = 1 then u.startOut t c.toNat d td none else u.startLink t c.toNat d td).writeBack t)) ∧
    (∀ (opr : BitVec 16) (b : List Byte), s.recsFree t (.ofS ⟨4, c.toNat, opr.toNat, 0, false, false⟩) = true →
      sfind (s.tile t).inb c.toNat = none → s.recAt t (opr.toNat * 64) 32 32 = .ok b → (LoadRec.ofBytes b).bad = false → free →
      exec (.iload t c opr) s = .next (((s.opened t).startLoad t c.toNat (LoadRec.ofBytes b)).writeBack t)) ∧
    (∀ (i : Inb), sfind (s.tile t).inb c.toNat = some i → i.use = .stream → i.sd.paced = true →
      (∀ n : BitVec 16, n ≠ 0 → exec (.sdem t c n) s = .next (((s.opened t).demandTo t c.toNat (i.demand + n.toNat)).writeBack t)) ∧
      (∀ x : BitVec 4, 0 < (s.tile t).xs x.toNat →
        exec (.sdemX t c x) s = .next (((s.opened t).demandTo t c.toNat (i.demand + ((s.tile t).xs x.toNat).toNat)).writeBack t)))

/-- In an enabled tick, for a running inbound stream with fewer than eight granules in flight, on a tile that performs no restored load
first: DEMAND_FETCH of its next demanded granule, in bounds, permitted and not held at its far side, begins the read and counts it;
RUN_AHEAD_FETCH of a paced stream's next granule within SD_AHEAD of its demand, in bounds, permitted and with room in its controller's
window table, takes an entry there and begins the read. -/
def Obligations.StreamFetches : Prop :=
  ∀ (s : State) (t : Fin 64) (c : BitVec 6) (i : Inb) (j : Nat), sfind (s.tile t).inb c.toNat = some i → i.fl.length < 8 →
    i.sd.outside i.td j = false → s.refused t (i.sd.addr j) 0 = false → s.streamOn t c.toNat = true →
    (s.staleFlight t c.toNat i = none → i.wanted = some j → s.farHeld t (i.sd.addr j) = false →
      exec (.demandFetch t c) s = .next ((s.fetch t c.toNat j false).ctr t c.toNat 10 1)) ∧
    (let k := (hbmMap (i.sd.addr j)).1
      let h := s.hbm.ctlOf k
      i.next = j → i.sd.paced = true → i.demand ≤ j → j < i.demand + i.sd.ahead → j < i.sd.n → h.win.length < 2048 →
      exec (.runAheadFetch t c) s = .next ((({ s with hbm := s.hbm.setCtl k { h with win := h.win ++ [⟨t, c.toNat, j, i.sd.addr j, false⟩] } } : State).fetch
        t c.toNat j true).ctr t c.toNat 4 1))

/-- In an enabled tick, where a tile's inbound stream, no program load, has its next granule in walk order whole, demanded and not stale,
with nothing that holds its place, and the granule is fetched by demand and passes its check, INBOUND_GRANULE_WRITE completes: the
granule's 4,096 bytes stand at the stream's near-side place, every other byte of device memory reads as before, and one more granule is
written. -/
def Obligations.GranuleDelivery : Prop :=
  ∀ (s : State) (t : Fin 64) (c : BitVec 6) (i : Inb) (f : Flight), sfind (s.tile t).inb c.toNat = some i → i.use = .stream → s.clk.enabled = true →
    s.deliverable t c.toNat i = some f → f.runAhead = false → i.fails s.step f = false →
    ∃ u, exec (.inboundGranuleWrite t c) s = .next u ∧
      (∀ k, k < 4096 → rd8 u.mem (i.sd.nearAt t f.j + k) = f.got.getD k 0) ∧
      (∀ a, a < i.sd.nearAt t f.j ∨ i.sd.nearAt t f.j + 4096 ≤ a → rd8 u.mem a = rd8 s.mem a) ∧
      ∃ i', sfind (u.tile t).inb c.toNat = some i' ∧ i'.written = i.written + 1 ∧ i'.demand = i.demand ∧ i'.sd = i.sd

/-- STREAM_COMPLETE of an inbound stream whose granules are all written, or of an outbound stream, no spill, whose granules are all
accepted, frees the context and sends one increment to SD_SIG; ILOAD_COMPLETE of a program load that is all written frees the context
and sends one to PL_SIG where the record enables it. -/
def Obligations.StreamEnds : Prop :=
  ∀ (s : State) (t : Fin 64) (c : BitVec 6),
    let x := s.tile t
    (∀ i : Inb, sfind x.inb c.toNat = some i → i.use = .stream → i.written = i.sd.n →
      exec (.streamComplete t c false) s = .next ((s.setTile t { x with inb := sdel x.inb c.toNat }).signal t true i.sd.sig)) ∧
    (∀ o : Outb, sfind x.outb c.toNat = some o → o.sd.dir = 1 → o.lead = o.sd.n → o.spill = none →
      exec (.streamComplete t c true) s = .next ((s.setTile t { x with outb := sdel x.outb c.toNat }).signal t true o.sd.sig)) ∧
    (∀ (i : Inb) (d n k : Nat) (on : Bool), sfind x.inb c.toNat = some i → i.use = .load d n k on → i.written = i.sd.n →
      exec (.iloadComplete t c) s = .next ((s.setTile t { x with inb := sdel x.inb c.toNat }).signal t on i.sd.sig))

/-- Where the arbiters of a controller, with the hub agents that the command names beside the waiting streams, grant a stream's request:
HBM_READ of a read serves its next 512 bytes with the credits of the grant; HBM_WRITE_ACCEPT of a write serves its next 512 bytes. Where
they grant a hub agent: HBM_READ counts the errors of the agent's 512 bytes and marks their granule where one is uncorrectable, and
HBM_WRITE_ACCEPT leaves the credits of the grant, zero for every child whose weight has fallen to zero. HBM_REFRESH changes no state. -/
def Obligations.HbmRows : Prop :=
  ∀ (s : State) (k : Fin 12) (hs : Hubs), hubsOk k hs = true →
    let c := s.hbm.ctlOf k
    let with_ := fun (cr : SMap Int) => ({ s with hbm := s.hbm.setCtl k { c with credit := cr } } : State)
    (∀ (n : Nat) (cr : SMap Int) (r : HReq) (bad : List Nat) (can test : Bool), c.pick s.plc.phys hs = (some (.inl n), cr) → c.queue[n]? = some r →
      r.write = false → exec (.hbmRead (k, hs) bad can false test) s = .next ((with_ cr).serveRead k n hs r bad can)) ∧
    (∀ (n : Nat) (cr : SMap Int) (r : HReq), c.pick s.plc.phys hs = (some (.inl n), cr) → c.queue[n]? = some r → r.write = true →
      exec (.hbmWriteAccept (k, hs)) s = .next ((with_ cr).serveWrite k n hs r)) ∧
    (∀ (n q g a : Nat) (cr : SMap Int) (bad : List Nat) (can test : Bool), c.pick s.plc.phys hs = (some (.inr n), cr) → hs[n]? = some (q, g, a) →
      exec (.hbmRead (k, hs) bad can false test) s = .next ((with_ cr).serveHub k hs a bad can) ∧
      exec (.hbmWriteAccept (k, hs)) s = .next { s with hbm := s.hbm.setCtl k (({ c with credit := cr } : Hctl).prune s.plc.phys (hubKeys hs)) }) ∧
    exec (.hbmRefresh k) s = .next s

/-- On a tile that takes a bundle in this tick and whose record is not pending: BCFG of a legal lane record to an empty lane loads the
record and zeroes the lane's cursors; BPUSH of a legal push and BPOP of the key on top of the lane take effect. BARREL_SPILL and
BARREL_FILL start the next spill or fill of a lane on stream context 31 where it is free in that direction, in an enabled tick of a tile
that performs no restored load first. -/
def Obligations.BarrelRows : Prop :=
  ∀ (s : State) (t : Fin 64) (l : BitVec 6) (drec : BitVec 16),
    let ln := (s.tile t).laneOf l.toNat
    (s.canIssue t = true →
      (∀ b, s.recsFree t (.ofC ⟨0x10, l.toNat, drec.toNat, 0, 0, false⟩) = true → s.recAt t (drec.toNat * 64) 64 64 = .ok b →
        laneBad b = false → ln.depth = 0 →
        ∃ u, exec (.bcfg t l drec) s = .next u ∧ s.Issued u t ((s.tile t).setLane l.toNat ⟨b, 0, 0, 0, []⟩)) ∧
      (∀ r, s.recsFree t (.ofC ⟨0x11, l.toNat, drec.toNat, 0, 0, false⟩) = true → s.pushRec t drec.toNat = .ok r → ln.pushFault r = none →
        exec (.bpush t l drec) s = .next (((s.opened t).doPush t l.toNat r).writeBack t)) ∧
      (∀ r, s.recsFree t (.ofC ⟨0x12, l.toNat, drec.toNat, 0, 0, false⟩) = true → s.pushRec t drec.toNat = .ok r → ln.depth ≠ 0 →
        ln.keyIs s.mem (ln.depth - 1) r = true → exec (.bpop t l drec) s = .next (((s.opened t).doPop t l.toNat).writeBack t))) ∧
    (∀ k, s.nextSpill t l.toNat = some k → sfind (s.tile t).outb 31 = none → s.streamOn t 31 = true →
      exec (.barrelSpill t l) s = .next (s.startOut t 31 (frameStream ln s.mem k 1) TDesc.absent (some (l.toNat, k)))) ∧
    (∀ k, s.nextFill t l.toNat = some k → sfind (s.tile t).inb 31 = none → s.streamOn t 31 = true →
      exec (.barrelFill t l) s = .next (s.startIn t 31 [] (frameStream ln s.mem k 0) TDesc.absent (.fill l.toNat k)))

/-- PLANE_READY of a load whose time has come and whose granules are not pending loads the shadow plane. COMMIT_GROUP of a due group, where
no check fails, commits it. ARRAY_COMPLETE of an instruction that is done takes it out of its array. SPLITK_SLOT_GRANT with a free slot
grants it to the reduction's next commit group and changes nothing else; SPLITK_PART_ARRIVE of the oldest part on its way, where nothing
holds its place in the staging area and no move holds it, stores it there. -/
def Obligations.ArrayRows : Prop :=
  ∀ (s u : State) (t : Fin 64) (a : Fin 3) (id : BitVec 16),
    let x := s.tile t
    (s.loadDue t a = true → exec (.planeReady t a) s = .next (s.planeReady t a)) ∧
    (s.commitDue t a = true → s.tryCommit t a 0 = .ok u → exec (.commitGroup t a 0) s = .next u) ∧
    (∀ n, s.doneAt t a = some n → exec (.arrayComplete t a) s = .next (s.completeInst t a n)) ∧
    ((∃ r ∈ x.sk, r.k.id = id.toNat ∧ r.canGrant = true) → exec (.splitkSlotGrant t id) s =
      .next (s.setTile t { x with sk := x.sk.map fun r => if r.k.id = id.toNat then { r with granted := r.granted + 1 } else r })) ∧
    (∀ r p, x.flyingPart id.toNat = some (r, p) → s.partFree t r p = true → s.partArrive t id.toNat = .ok u → exec (.splitkPartArrive t id) s = .next u)

/-- With the fault watch on: TOURBILLON_SELECT at a zero countdown reloads it with the watch period, arms the selection, and moves the
pointer on where the last selection found no output tile; WATCH_CHECK, in an enabled tick in which another array of the tile or its idle
vector engine can recompute it, marks a captured check as recomputed; WATCH_CHECK_COMPLETE of a recomputed check whose sums the array
computed rightly counts it as done, clears it and counts no failure. With the drift watch on: DRIFT_SAMPLE at a zero countdown selects
the next fresh block of the pointed unit, and with blocks selected appends the record of the oldest. ARRAY_SUSPECT_EXPIRY clears a
suspect mark that has run out. -/
def Obligations.WatchRows : Prop :=
  ∀ (s : State) (p : Fin 68),
    let x := s.ptile p
    (s.watchOn = true → x.tour.count = 0 → exec (.tourbillonSelect p) s = .next (s.setPtile p
      { x with tour := ⟨s.tourPeriod, if x.tour.armed then (x.tour.ptr + 1) % 3 else x.tour.ptr, true⟩ })) ∧
    (∀ c, s.watchOn = true → x.check = some c → c.done = false → s.clk.enabled = true → s.watchIdle c.ltile c.arr = true →
      exec (.watchCheck p) s = .next (s.setPtile p { x with check := some { c with done := true } })) ∧
    (∀ c, s.watchOn = true → x.check = some c → c.done = true → (∀ e ∈ c.elems, watchFails e.1 e.2.1 e.2.2 = false) →
      exec (.watchCheckComplete p []) s = .next (s.setPtile p { x with check := none, wchDone := x.wchDone + 1 })) ∧
    (s.driftOn = true → x.driftBlk = [] → x.drift.count = 0 → exec (.driftSample p) s = .next (s.setPtile p
      { x with drift := ⟨s.driftPeriod, if x.drift.armed then (x.drift.ptr + 1) % 4 else x.drift.ptr, true⟩ })) ∧
    (∀ b bs, s.driftOn = true → x.driftBlk = b :: bs → exec (.driftSample p) s = .next ((s.setPtile p { x with driftBlk := bs }).driftPut b)) ∧
    (∀ (a : Fin 3) (e : W64), sfind x.suspect a = some e → e ≤ s.now →
      exec (.arraySuspectExpiry p a) s = .next (s.setPtile p { x with suspect := sdel x.suspect a }))

/-- SYNC_INCREMENT_LAND takes, of the increments of a counter that have come to it (no marker of a move holds them, and what their source
sent earlier has come), the oldest, where the counter can take it, and makes it visible from the next tick; SYNC_WINDOW_STORE by a
control program of the resident context sends the stored value as an increment from its cluster's hub; TILE_START_STORE to a halted tile
starts it at the segment that its record names. WATCHDOG of a tile held for longer than the context's limit is a job fault with cause
WATCHDOG; INTRUSION_OVERRUN is reported once for a segment that has overrun, and counted. -/
def Obligations.TileRows : Prop :=
  ∀ (s u : State) (t : Fin 64) (o : BitVec 8),
    let x := s.tile t
    (∀ p i, x.incs.zipIdx.find? (fun q => q.1.obj == o.toNat && s.incCome t q.2 q.1) = some (p, i) → x.takes p = true →
      exec (.syncIncrementLand t o) s = .next (s.setTile t
        { x with incs := x.incs.eraseIdx i, landed := sput zeroNat x.landed o.toNat (sget zeroNat x.landed o.toNat + p.amount) })) ∧
    (∀ (core : Fin 12) k c v, s.resCtx = some (k, c) → bitOf c.rr.tiles.toNat t = true →
      exec (.syncWindowStore (core, t) o v) s = .next (s.incFrom (hubStop (core.val / 4 + 1)) t o.toNat v.toNat)) ∧
    (∀ off, x.run = .halted → s.startHalted t off.toNat = .ok u → exec (.tileStartStore t off) s = .next u) ∧
    (∀ k c, s.resCtx = some (k, c) → x.run = .on → c.rr.wdog < x.held →
      exec (.watchdog t) s = .next (s.jobFault ⟨4, 0, 0, 0, none⟩ (some t.val))) ∧
    (∀ k c, s.resCtx = some (k, c) → x.run = .on → x.overrun s.clk.etick = true →
      exec (.intrusionOverrun t) s = .next (((s.setTile t { x with segOver := true }).setCtx k { c with ovr := c.ovr + 1 }).event 0x04 k
        [(0, 1, t.val), (4, 4, x.seg.id), (8, 4, (c.ovr + 1).toNat)] []))

/-- On a tile that takes a bundle in this tick, BUNDLE_ISSUE of the bundle at the program counter, where no interlock holds any slot and
every check passes, does what all its slots do together with its loop ends; where a check fails, no slot acts and the job fault is
taken; where something holds a slot, the tile issues nothing and the hold is noted. Past bundle 8,191 nothing is looked at for a hold,
and the issue is a job fault. The free counter has advanced by one (log 33). -/
def Obligations.BundleIssues : Prop :=
  ∀ (s0 : State) (t : Fin 64),
    let s : State := { s0 with freeCtr := s0.freeCtr + 1 }
    let b := s0.fetched t
    s.canIssue t = true →
    let held := if 8191 < (s.tile t).pc then [] else s.holds t b true
    (held = [] → ∀ u, s.prepBundle t b true = .ok u → exec (.bundleIssue t) s0 = .next u) ∧
    (held = [] → ∀ f, s.prepBundle t b true = .error f → exec (.bundleIssue t) s0 = .next (s.jobFault f (some (f.tile.getD t)))) ∧
    (held ≠ [] → exec (.bundleIssue t) s0 = .next (s.noteHold t held))

/-- TICK of a module held in reset changes nothing. Out of reset it closes the tick that ends at every tile, advances device time by one,
takes the clock enable that R511 computes, ends what lasts one tick only (the locks of R7 as they were, bits that the device set, a
clamp that FASTEN released), poisons each tile-SRAM granule of which a read finds what cannot be corrected (free values, log 85), makes
what landed visible, and then either gives every tile its enabled tick or counts a gated one by its cause; on a module that runs the
links go on. -/
def Obligations.TickRow : Prop :=
  ∀ s : State,
    (s.phase = .inReset → exec .tick s = .next s) ∧
    (s.phase ≠ .inReset →
      let a := if s.clk.enabled then (s.tiles.map Prod.fst).foldl State.closeTile s else s
      let b := ({ a with clk := { a.clk with time := a.clk.time + 1, enabled := a.enable.1, acc := BitVec.ofNat 32 a.enable.2 },
                         lockWas := [], w1cNow := [] } : State).steer
      let b := (if b.power.clampEnd then b.unclamp else b).sramErrors
      let c := ((b.tiles.map Prod.fst).foldl State.seeTile b).flushMeta
      let d := if a.enable.1 then c.enabledTick else c.chrGated a.gateCause
      exec .tick s = .next (if d.up then d.linkTick.askRejoin else d))

/-- On an enabled port: PORT_BRINGUP of a port that is DOWN begins its bring-up; of one in TRAINING whose cage fits, it goes to INIT with
four lanes, INIT queued and the transmitter on; of one in INIT that has the peer's INIT, to CALIBRATING; of one in CALIBRATING, to UP
with the measured delay, and with the asymmetry that LNK_Pn_ASYM and the measured skew give. PORT_BRINGUP_TIMEOUT fails a port that has
tried for the whole time, PORT_BRINGUP_RETRY begins again 2^30 ticks after a failure, INIT_REPEAT queues INIT again after 2^16 ticks. -/
def Obligations.PortRows : Prop :=
  ∀ (s : State) (p : Fin 24) (delay : BitVec 24) (skew : BitVec 16),
    let x := s.link p
    (s.portOn p = true →
      (x.state = .down → exec (.portBringup p (delay, skew)) s = .next (s.bringUp p)) ∧
      (x.state = .training → s.cageFits p = true → exec (.portBringup p (delay, skew)) s = .next (s.setLink p
        { x with state := .init, lanes := 15, initGot := false, initAt := s.now, ctl := [.init], cage := x.cage.map fun g => { g with txOn := true } })) ∧
      (x.state = .init → x.initGot = true → exec (.portBringup p (delay, skew)) s = .next (s.setLink p { x with state := .calibrating })) ∧
      (x.state = .calibrating → ∃ u, exec (.portBringup p (delay, skew)) s = .next u ∧ (u.link p).state = .up ∧ (u.link p).delay = delay ∧
        (u.link p).skew = s.asym p + skew.toInt ∧ (u.link p).wasFailed = false)) ∧
    ((x.state = .training ∨ x.state = .init ∨ x.state = .calibrating) → x.since.toNat + bringUpTicks ≤ s.now.toNat →
      ∃ u, exec (.portBringupTimeout p) s = .next u ∧ (u.link p).state = .failed ∧ (u.link p).wasFailed = true) ∧
    (x.state = .failed → s.portOn p = true → x.since.toNat + 2 ^ 30 ≤ s.now.toNat → exec (.portBringupRetry p) s = .next (s.bringUp p)) ∧
    (x.state = .init → x.initAt.toNat + 2 ^ 16 ≤ s.now.toNat →
      exec (.initRepeat p) s = .next (s.setLink p { x with initAt := s.now, ctl := x.ctl ++ [.init] }))

/-- On a module that runs: TRANSCEIVER_INSERT into an empty cage holds the module's identity and the equivalent hours that its record gives,
writes a record for an optical module that has none, and begins the bring-up of an enabled port that is DOWN, FAILED or UNSUPPORTED;
TRANSCEIVER_POLL after 2^30 ticks without an alarm holds what was read and keeps everything else of the module but its poll time and
equivalent hours, and with a high-temperature alarm takes the port down with its transmitters off; LASER_RECORD_WRITE writes a record
that is due. TRANSCEIVER_REMOVE writes the record, takes the port down and empties the cage. -/
def Obligations.CageRows : Prop :=
  ∀ (s : State) (p : Fin 24),
    let x := s.link p
    (∀ (serial vendor oui part rev date : List Byte) (optical passive suitable : Bool), s.up = true → x.cage = none →
      let h := (s.laserHours serial).getD (0, true)
      let v := s.setLink p { x with cage := some ⟨⟨serial, vendor, oui, part, rev, date⟩, optical, passive, suitable, false, h.1 * laserUnit, h.2,
        s.now, s.now, Monitor.init⟩ }
      let w := if !optical || (s.laserHours serial).isSome then v else v.writeLaser p
      exec (.transceiverInsert p serial (oui, vendor) (part, rev, date) optical passive suitable) s =
        .next (if (x.state = .down ∨ x.state = .failed ∨ x.state = .unsupported) ∧ s.portOn p = true then w.bringUp p else w)) ∧
    (∀ g, x.cage = some g → exec (.transceiverRemove p) s = .next
      (let v := (if x.state = .up ∨ x.state = .sparing then s else s.writeLaser p).portTo p .down
       v.setLink p { v.link p with cage := none })) ∧
    (∀ (g : Cage) (t10 : Int) (volt : Nat) (bias txPow rxPow : List Nat) (flags : List Byte), s.up = true → x.cage = some g →
      2 ^ 30 ≤ s.now.toNat - g.pollAt.toNat →
      (alarmCount flags = 0 → hotFlag flags = false →
        ∃ u e, exec (.transceiverPoll p t10 flags volt (bias, txPow, rxPow)) s = .next u ∧
          u.link p = { x with cage := some { g with eqAcc := e, pollAt := s.now, mon := ⟨t10, volt, bias, txPow, rxPow, flags⟩ } } ∧
          g.eqAcc ≤ e ∧ ∀ q, q ≠ p.val → u.link q = s.link q) ∧
      (hotFlag flags = true → ∃ u, exec (.transceiverPoll p t10 flags volt (bias, txPow, rxPow)) s = .next u ∧ (u.link p).state = .down ∧
        ∀ g', (u.link p).cage = some g' → g'.txOn = false)) ∧
    (∀ g, s.up = true → x.cage = some g → g.optical = true → g.recAt.toNat + laserTicks ≤ s.now.toNat →
      exec (.laserRecordWrite p) s = .next (s.writeLaser p))

/-- On a port that sends, a flit of 256 bytes outside any uncorrectable codeword, whose CRC is right and whose header is legal, is taken:
its header's acknowledgement and credits first, then what its kind brings, DATA, IDLE, RETRY, INIT, TIME or LANE. A TIME request is
answered with its receive time (what the answer holds as t2 is a free value, log 37); the response to the outstanding request of the
parent port ends the exchange. A flit that is bad or whose CRC fails is counted and asks for a retry, whatever its kind; so is one with
a reserved kind or header whose CRC is right, after its header is taken. -/
def Obligations.FlitRows : Prop :=
  ∀ (s : State) (p : Fin 24) (f : List Byte) (corr : List Nat) (frac : BitVec 16), f.length = 256 →
    let h := FlHdr.ofBytes f
    let x0 := (s.link p).noteFec corr s.now
    let x := x0.takeHdr h
    let l := fieldLe f 8 1
    let b := (f.drop 8).take 44
    let flits := fun (bad : Bool) => [Instr.flitIdle p f bad corr, .flitData p f bad corr, .flitRetry p f bad corr, .flitInit p f bad corr,
      .flitTime p f bad corr frac, .flitLane p f bad corr]
    x0.state.sends = true →
    (flitCrcOk f = true → h.bad = false →
      (h.kind = 0 → exec (.flitIdle p f false corr) s = .next (s.setLink p x)) ∧
      (h.kind = 1 → exec (.flitData p f false corr) s = .next (s.putLink p h.vc (x.acceptData h f s.now))) ∧
      (h.kind = 2 → exec (.flitRetry p f false corr) s = .next (s.replayFrom p x (fieldLe f 8 2))) ∧
      (h.kind = 3 → exec (.flitInit p f false corr) s = .next (s.takeInit p x f)) ∧
      (h.kind = 4 →
        (fieldLe b 0 2 = 0 → exec (.flitTime p f false corr frac) s = .next (({ s with freeCtr := s.freeCtr + 1 } : State).setLink p { x with
          timeBody := b, ctl := x.ctl ++ [.timeResp (BitVec.ofNat 16 (fieldLe b 2 2)) (Config.freeNat s.freeCtr) (fieldLe b 24 10) (s.fabStamp frac.toNat)] })) ∧
        (∀ t3, fieldLe b 0 2 ≠ 0 → x.timeT3 = some t3 → s.timeParent = some p.val → x.state = .up → BitVec.ofNat 16 (fieldLe b 2 2) = x.timeSeq →
          exec (.flitTime p f false corr frac) s = .next ((({ s with freeCtr := s.freeCtr + 1 } : State).setLink p
            { x with timeBody := b, timeT3 := none }).exchange p
              (offTarget (sgn (fieldLe b 4 10) 80) (s.devStamp frac.toNat) t3 (sgn (fieldLe b 34 10) 80) x.skew (Config.freeNat s.freeCtr)))) ∧
        (fieldLe b 0 2 ≠ 0 → x.timeT3 = none → exec (.flitTime p f false corr frac) s = .next (s.setLink p { x with timeBody := b }))) ∧
      (h.kind = 5 →
        let again := s.setLink p { x with laneAns := true, ctl := if x.laneOwn then x.ctl else x.ctl ++ [.lane l] }
        exec (.flitLane p f false corr) s = .next
          (if x.state = .up then (if bitOf x.lanes.toNat l then (s.setLink p x).spareLane p l true else again)
           else if x.state = .sparing then (if x.laneOut = some l then again else (s.setLink p x).portTo p .down)
           else s.setLink p x))) ∧
    (∀ bad : Bool, bad = true ∨ flitCrcOk f = false → ∀ i ∈ flits bad, exec i s = .next (s.setLink p { x0.gap s.now with badflit := x0.badflit + 1 })) ∧
    (flitCrcOk f = true → h.bad = true → ∀ i ∈ flits false, exec i s = .next (s.setLink p { x.gap s.now with badflit := x.badflit + 1 }))

/-- RETRY_REPEAT asks again once 2D + 64 ticks have passed on a port that sends. LANE_SPARE of a lane that is due spares it on a port that
is UP and takes one that is SPARING down. LANE_REPEAT queues LANE again after 64 ticks without an answer. LANE_SPARE_COMPLETE after the
answer returns the port to UP on three lanes with the measured delay and skew and asks for a retry. TIME_EXCHANGE with the parent, due
on a port that is UP, sends a request with the next number; TIME_LOCK_TIMEOUT unlocks 2^26 ticks after the last exchange. -/
def Obligations.LaneAndTimeRows : Prop :=
  ∀ (s : State) (p : Fin 24) (delay : BitVec 24) (skew : BitVec 16),
    let x := s.link p
    (∀ w, x.retryAt = some w → x.state.sends = true → w.toNat + 2 * cdiv x.delay.toNat 256 + 64 ≤ s.now.toNat →
      exec (.retryRepeat p) s = .next (s.setLink p (x.askRetry s.now))) ∧
    (∀ lost l, x.laneDue lost = some l → (x.state = .up → exec (.laneSpare p lost) s = .next (s.spareLane p l false)) ∧
      (x.state = .sparing → exec (.laneSpare p lost) s = .next (s.portTo p .down))) ∧
    (∀ l, x.laneOut = some l → x.state = .sparing → x.laneAns = false → x.laneAt.toNat + 64 ≤ s.now.toNat →
      exec (.laneRepeat p) s = .next (s.setLink p { x with laneAt := s.now, ctl := x.ctl ++ [.lane l] })) ∧
    (∀ l, x.laneOut = some l → x.state = .sparing → x.laneAns = true → ∃ u, exec (.laneSpareComplete p (delay, skew)) s = .next u ∧
      (u.link p).state = .up ∧ (u.link p).delay = delay ∧ (u.link p).skew = s.asym p + skew.toInt ∧
      (u.link p).lanes = x.lanes &&& ~~~(BitVec.ofNat 4 (2 ^ l)) ∧ (u.link p).spared = true ∧ (u.link p).laneOut = none ∧
      ∀ q, q ≠ p.val → u.link q = s.link q) ∧
    (s.timeParent = some p.val → x.state = .up → (∀ r, s.lnk.reqAt = some r → r.toNat + 2 ^ 16 ≤ s.now.toNat) →
      ∀ (t1 t2 t4 : BitVec 80) (t3 : BitVec 16), exec (.timeExchange p t1 t2 t3 t4) s = .next (({ s with lnk := { s.lnk with reqAt := some s.now } } : State).setLink p
        { x with ctl := x.ctl ++ [.timeReq (x.timeSeq + 1) t1.toNat t2.toNat t3.toNat t4.toNat], timeSeq := x.timeSeq + 1, timeT3 := none })) ∧
    (s.timeParent = some p.val → x.tlock = true → s.lnk.exAt.toNat + 2 ^ 26 ≤ s.now.toNat →
      ∃ u, exec .timeLockTimeout s = .next u ∧ (u.link p).tlock = false ∧ u.lnk = { s.lnk with agree := 0 })

/-- A packet at the front of its class's channel, of the row's type and for this device, is taken off the channel and acts: WRITE and INC as
received data (a WRITE to a granule of a tile's SRAM waits where a fill, a spill or the tile's move holds it, or the tick is gated), ACK
ends its transfer, RELEASE frees its receive descriptor, and a NACK of the four causes makes the sender resend from the expected index,
wait T_E2E / 16, wait T_E2E, or abandon the transfer with a job fault. A WRITE for another device is forwarded. -/
def Obligations.TransportRows : Prop :=
  ∀ (s : State) (p : Fin 25) (hop : Bool) (b : List Byte),
    let h := Th.ofBytes b
    let v := fun (cls : Nat) => s.dropPacket p (2 * cls + b2n hop)
    (s.Arrived p hop 0 0x01 b → s.farWriteHeld (s.entryStop p h) (h.addr / 4096 * 4096) = false →
      exec (.write p hop) s = .next ((v 0).recvData ((v 0).entryStop p h) b h)) ∧
    (s.packet p (b2n hop) = some b → h.typ = 0x01 → h.dst ≠ s.devId → exec (.write p hop) s = .next ((v 0).forward 0 h b)) ∧
    (s.Arrived p hop 2 0x02 b → exec (.inc p hop) s = .next ((v 2).recvData ((v 2).entryStop p h) b h)) ∧
    (s.Arrived p hop 1 0x08 b → exec (.ack p hop) s = .next ((v 1).takeAck h)) ∧
    (∀ k d, s.Arrived p hop 1 0x0A b → (v 1).findRecv h = some (k, d) → exec (.release p hop) s = .next ((v 1).freeRecv k)) ∧
    (∀ k d, s.Arrived p hop 1 0x09 b → (v 1).findSend h = some (k, d) →
      let e := { d with timeouts := 0 }
      (fieldLe b 28 2 = 0 → exec (.nackGap p hop) s = .next ((v 1).setSend k { e with next := min h.pidx d.pcnt })) ∧
      (fieldLe b 28 2 = 1 → exec (.nackBusy p hop) s = .next ((v 1).setSend k { e with backoff := some (s.now + BitVec.ofNat 64 (s.e2e / 16)) })) ∧
      (fieldLe b 28 2 = 2 → exec (.nackNotres p hop) s = .next ((v 1).setSend k { e with backoff := some (s.now + BitVec.ofNat 64 s.e2e) })) ∧
      (fieldLe b 28 2 = 3 → exec (.nackPerm p hop) s = .next (((v 1).closeSend k e false).jobFault
        (JF.region (match d.cargo with | .stream _ => 1 | _ => 2) ((v 1).refusedAddr k e h.pidx)) (some (k / 16)))))

/-- TRANSFER_RECEIVE_COMPLETE of a descriptor that has all its packets marks it complete, signals its object and acknowledges;
DESCRIPTOR_IDLE_FREE frees it 8 × T_E2E after its last use. BACKOFF_EXPIRY ends a wait and sends packet 0 again; E2E_TIMEOUT of a
transfer that is all sent and unanswered for T_E2E sends it again from packet 0, on the next path at every second timeout, and gives up
at the eighth. -/
def Obligations.DescriptorRows : Prop :=
  ∀ (s : State) (t : Fin 64) (i : Fin 16),
    let k := 16 * t.val + i.val
    (∀ d, sfind s.lnk.recv k = some d → d.completed = false → d.expected = d.pcnt →
      exec (.transferReceiveComplete t i) s = .next (((s.setRecv k { d with completed := true, ackAt := s.now }).signal t d.counts d.obj).ack
        ⟨0x08, 0, s.devId, d.src, t, d.stile, d.job, d.tag, d.pcnt - 1, d.pcnt, 0, 0, 0⟩)) ∧
    (∀ d, sfind s.lnk.recv k = some d → (if d.completed then min d.ackAt.toNat d.pktAt.toNat else d.pktAt.toNat) + 8 * s.e2e ≤ s.now.toNat →
      exec (.descriptorIdleFree t i) s = .next (s.freeRecv k)) ∧
    (∀ d w, s.sendAt k = some d → d.backoff = some w → w ≤ s.now →
      exec (.backoffExpiry t i) s = .next (s.setSend k { d with backoff := none, next := 0, sentAt := s.now })) ∧
    (∀ d, s.sendAt k = some d → d.backoff = none → d.pcnt ≤ d.next → d.sentAt.toNat + s.e2e ≤ s.now.toNat →
      (d.timeouts = 7 → exec (.e2eTimeout t i) s = .next (s.unreachable k d)) ∧
      (d.timeouts ≠ 7 → exec (.e2eTimeout t i) s = .next (s.setSend k
        { d with timeouts := d.timeouts + 1, path := if d.timeouts % 2 = 1 then d.path + 1 else d.path, next := 0, sentAt := s.now })))

/-- A management packet at the front of its channel, for this device and the resident context's job, is taken off the channel and acts:
REJOIN_REQ is answered with the decisions kept and its rank is no longer failed; REJOIN_ACK that says the open step was aborted aborts
it here; RESTORE_REQ opens a keyed transfer back to the requester for every 65,535 granules of the current versions of the tensors that
it names, and where there is none to copy or no room for the descriptors it answers with a failure; RESTORE_DONE of a good restore from
the awaited replica ends it; FAIL_REPORT makes the root lose the device named. ECHO sends up to 64 bytes back unchanged, whatever
context is resident. -/
def Obligations.MgmtRows : Prop :=
  ∀ (s : State) (p : Fin 25) (hop : Bool) (b : List Byte),
    let h := Th.ofBytes b
    let v := s.dropPacket p (6 + b2n hop)
    s.Arrived p hop 3 0x10 b →
    (fieldLe b 32 1 = 6 → exec (.echo p hop) s = .next (v.sendOn 3
      { h with dst := h.src, src := v.devId, dtile := h.stile, stile := h.dtile, len := ((b.drop 32).take 72).length } 0 ((b.drop 32).take 72))) ∧
    (∀ n c, v.resCtx = some (n, c) → (if fieldLe b 32 1 = 2 then h.job else fieldLe b 40 4) = c.rr.job →
      (fieldLe b 32 1 = 1 → exec (.rejoinReq p hop) s = .next ((v.setCtx n (c.alive (fieldLe b 44 4))).sendMgmt c.rr.job c.step h.src 2
        (c.decided.flatMap fun d => natLe 4 d.1.toNat ++ natLe 4 (b2n d.2)))) ∧
      (fieldLe b 32 1 = 2 → ackDecision b c.step = some false → c.stepOpen = true → exec (.rejoinAck p hop) s = .next (v.applyAbort n 0 false)) ∧
      (fieldLe b 32 1 = 2 → ackDecision b c.step = some true → c.com.digest.isSome = true → c.com.abort = false →
        exec (.rejoinAck p hop) s = .next (v.applyCommit n v.fabric)) ∧
      (fieldLe b 32 1 = 3 →
        let cs := chunks 65535 (granAddrs c.cur ((List.range ((b.length - 44) / 4)).map fun k => fieldLe b (44 + 4 * k) 4))
        let d := c.tiles.headD 0
        (cs ≠ [] → v.roomSend d cs.length = true →
          exec (.restoreReq p hop) s = .next (cs.foldl (fun w a => w.openSend d h.src d a.length (.copy a)) v)) ∧
        (cs = [] ∨ v.roomSend d cs.length = false → exec (.restoreReq p hop) s = .next (v.sendMgmt c.rr.job c.step h.src 4 (natLe 4 1)))) ∧
      (∀ r, fieldLe b 32 1 = 4 → c.restore = some r → v.devAt (v.group c 0) r.rank = h.src → fieldLe b 44 4 = 0 → v.restoreGood c = true →
        exec (.restoreDone p hop) s = .next ((v.setCtx n { c with restore := none }).restart n)) ∧
      (fieldLe b 32 1 = 5 → exec (.failReport p hop) s = .next (v.loseDevice n c (fieldLe b 44 4))))

/-- On the resident context: COLLECTIVE_TRIGGER of a descriptor whose counter has reached its trigger value and that meets the conditions of
R344 subtracts the value and starts the next instance of it. Each data operation's row sends the next contribution of its plan to
another rank where a send descriptor is free, places the device's own contribution in its slot where nothing holds its reading, and,
once the sets are agreed, takes the free conversion unit for the pieces that this device reduces, writes them when the unit has taken
them and nothing holds their places, writes the pieces that it gathers, and sends the next result to another rank. ESCAPE of an instance
makes the device arrive, DIGEST computes the shard digest, COMMIT goes on with the commit. -/
def Obligations.CollectiveWork : Prop :=
  ∀ (s : State) (n : Nat) (c : Ctx) (cid : BitVec 10), s.resCtx = some (n, c) →
    let d := s.cd c cid.toNat
    (∀ src dst, s.triggers c cid.toNat = true → s.collDescs d = .ok (src, dst) → d.fault c (s.group c d.group) src dst = none →
      ∃ u c' i, exec (.collectiveTrigger cid) s = .next u ∧
        sget zero32 (u.tile d.tile).sync d.trig = sget zero32 (s.tile d.tile).sync d.trig - BitVec.ofNat 32 d.trigN ∧
        (∀ o, o ≠ d.trig → sget zero32 (u.tile d.tile).sync o = sget zero32 (s.tile d.tile).sync o) ∧
        (∀ t, t ≠ d.tile → u.tile t = s.tile t) ∧ u.hbm = s.hbm ∧
        sfind u.ctxs n = some c' ∧ c'.running = c.running ++ [i] ∧ i.cid = cid.toNat ∧ i.d = d ∧ i.inst = sget zeroNat c.insts cid.toNat ∧
        sget zeroNat c'.insts cid.toNat = i.inst + 1) ∧
    (∀ i, c.inst cid.toNat = some i →
      let g := s.groupOf c i
      (∀ q ∈ [(0, Instr.reduce cid), (1, .allreduce cid), (2, .reducescatter cid), (3, .allgather cid), (4, .alltoall cid)], i.d.op = q.1 →
        (∀ j r, (s.plan c i)[i.sent]? = some (j, r) → r ≠ g.rank → s.roomSend i.d.tile 1 = true →
          exec q.2 s = .next ((s.openSend i.d.tile (s.devAt g r) i.d.tile (i.src.pieceGrans (i.srcElem j) i.d.count).length
            (.piece i.cid i.inst j false)).setInstance n { i with sent := i.sent + 1 })) ∧
        (∀ j u, (s.plan c i)[i.sent]? = some (j, g.rank) → s.readHeld i.d.tile (granIvs (i.src.pieceGrans (i.srcElem j) i.d.count)) = false →
          s.placeOwn n c i j = .ok u → exec q.2 s = .next ((u.setInstance n { i with sent := i.sent + 1 }).agree n i.cid false)) ∧
        (∀ inc, (s.plan c i).length ≤ i.sent → i.agreed = some inc →
          let js := s.expects c i g.rank
          let ivs := fun (l : List Nat) => granIvs (l.flatMap fun j => i.dst.pieceGrans (i.dstElem j) i.d.count)
          (i.written = false → q.1 < 3 → i.conv = none → (s.tile i.d.tile).unitFree = true → s.collWrites i.d.tile = false →
            exec q.2 s = .next (s.setInstance n { i with conv := some (s.clk.etick + i.convTicks g.n js.length) })) ∧
          (∀ e u, i.written = false → q.1 < 3 → i.conv = some e → e ≤ s.clk.etick → s.writeHeld i.d.tile (ivs js) = false →
            s.reduceHere c i inc js = .ok u → exec q.2 s = .next (u.setInstance n { i with written := true })) ∧
          (∀ u, i.written = false → 3 ≤ q.1 → s.writeHeld i.d.tile (ivs (List.range g.n)) = false →
            s.gatherHere c i inc.1 = .ok u → exec q.2 s = .next (u.setInstance n { i with written := true })) ∧
          (∀ j r, i.written = true → (s.resultPlan c i)[i.resSent]? = some (j, r) → s.roomSend i.d.tile 1 = true →
            exec q.2 s = .next ((s.openSend i.d.tile (s.devAt g r) i.d.tile (i.dst.pieceGrans (i.dstElem j) i.d.count).length
              (.piece i.cid i.inst j true)).setInstance n { i with resSent := i.resSent + 1 })))) ∧
      (i.d.op = 5 → c.esc = none → exec (.escape cid) s = .next (s.arrive n i)) ∧
      (i.d.op = 5 → c.esc = none → i.d.step = false → c.st ≠ .stopped →
        exec (.escape cid) s = .next ((s.setCtx n { c with esc := some ⟨i.cid, s.fabric, false, none, false, false⟩ }).escGo n)) ∧
      (i.d.op = 6 → c.com.digest = none → exec (.digest cid) s = .next (s.hashShard n c i g)) ∧
      (i.d.op = 7 → exec (.commit cid) s = .next (s.commitGo n)))

/-- A packet of the collective engine at the front of its channel, for this device and a descriptor and group of the resident context, is
taken off the channel. COLL_DATA in order for the running instance fills its slot; RESULT in order writes its granule unchanged with its
check value and mark, where nothing holds the place; AGREE_UP, AGREE_DOWN and a digest are kept, and once whole let the agreement, the
children or the comparison go on; READY and DECIDE of the current step let the commit go on, with COMMIT and ABORT by the header's flag;
a READY of another step is acknowledged, with the decision where this device has clicked that step; QUERY is answered. A data or
agreement packet of an instance to come is answered BUSY, of a past one acknowledged. -/
def Obligations.CollectivePackets : Prop :=
  ∀ (s : State) (p : Fin 25) (hop : Bool) (b : List Byte) (a : CollAt),
    let h := Th.ofBytes b
    let v := s.dropPacket p (b2n hop)
    let kind := fieldLe b 32 1
    s.Arrived p hop 0 0x03 b → v.CollFits b a →
    (kind = 0 → a.age = 1 → h.pidx < h.pcnt →
      ((a.c.slot a.ch.cid a.ch.inst a.ch.step a.ch.piece a.ch.srank).map (·.got)).getD 0 = h.pidx →
      exec (.collData p hop) s = .next (if h.pidx + 1 = h.pcnt then (v.takeData a b h false).ack h else v.takeData a b h false)) ∧
    (∀ i q, kind = 1 → a.age = 1 → s.resultHeld b h = false → a.c.inst a.ch.cid = some i → i.resultAt a.ch.piece h.pidx = some q →
      v.refused a.d.tile q.1 1 = false → sget zeroNat i.resGot a.ch.piece = h.pidx → h.pidx < h.pcnt →
      let tr := fieldLe b 4160 8
      let w := ((v.landGranule q.1 ((b.drop 64).take 4096) tr).setCtx a.n
        (a.c.setInst { i with resGot := sput zeroNat i.resGot a.ch.piece (h.pidx + 1) })).noteWrotePoison (bitOf tr 33 && decide (q.1 < hbmEnd))
      exec (.result p hop) s = .next (if h.pidx + 1 = h.pcnt then w.ack h else w)) ∧
    (kind = 2 → a.age = 1 → exec (.agreeUp p hop) s = .next (v.takeCtl a b h fun u _ => u.agree a.n a.ch.cid false)) ∧
    (kind = 3 → a.age = 1 → s.kidsHeld b h = false → exec (.agreeDown p hop) s = .next (v.takeCtl a b h fun u m => u.agreeDown a.n a.ch.cid m)) ∧
    (kind = 4 → a.age = 1 → exec (.digestPacket p hop) s = .next (v.takeCtl a b h fun u m => match sfind u.ctxs a.n with
      | none => u
      | some c => u.setCtx a.n { c with com := { c.com with digests := sins c.com.digests a.ch.srank ((m.part 0).take 64) } })) ∧
    (kind = 5 → a.ch.step = a.c.step →
      exec (.ready p hop) s = .next (v.takeCtl { a with c := a.c.alive a.ch.srank } b h fun u _ => u.commitGo a.n)) ∧
    (kind = 5 → a.ch.step ≠ a.c.step → exec (.ready p hop) s = .next ((v.tellDecided a a.ch.srank).ack h)) ∧
    (kind = 6 → a.ch.step = a.c.step → s.kidsHeld b h = false →
      exec (if bitOf (fieldLe b 33 1) 2 then .decideAbort p hop else .decideCommit p hop) s =
        .next (v.takeCtl a b h fun u m => u.takeDecide a.n m a.ch.cid)) ∧
    (kind = 7 → s.roomSend (s.cd a.c a.ch.cid).tile 1 = true → exec (.query p hop) s = .next ((v.answerQuery a h).ack h)) ∧
    (∀ q ∈ [(0, Instr.collData p hop), (1, .result p hop), (2, .agreeUp p hop), (3, .agreeDown p hop), (4, .digestPacket p hop)],
      kind = q.1 → (q.1 = 1 → s.resultHeld b h = false) → (q.1 = 3 → s.kidsHeld b h = false) →
      (a.age = 2 → exec q.2 s = .next (v.nack h 0 1)) ∧
      (a.age = 0 → bitOf (a.c.deferredOf a.ch.cid a.ch.inst a.ch.step) a.ch.srank = false → exec q.2 s = .next (v.ack h)))

/-- On the resident context: ARRIVE of a child is noted and the escapement goes on, and one of another step is discarded and counted at the
root; SCHEDULE sets T, notes whether T has passed and is forwarded to the children; ESCAPEMENT_RELEASE releases in the first tick whose
fabric time is at least T, and not before; ESC_TIMEOUT, once the commit timeout has passed without SCHEDULE, makes the step abort and
lets READY go up. -/
def Obligations.EscapementRows : Prop :=
  ∀ (s : State) (n : Nat) (c : Ctx), s.resCtx = some (n, c) →
    (∀ (p : Fin 25) (hop : Bool) (b : List Byte) (cid : Nat) (w : W32) (t : Nat),
      let v := s.dropPacket p (4 + b2n hop)
      let h := Th.ofBytes b
      let g := v.group c (v.cd c cid).group
      s.Arrived p hop 2 0x04 b → v.escOf b h = some (n, c, cid, w, t) →
      (fieldLe b 32 1 = 0 → (v.liveRanks g).head? = some g.rank → w ≠ c.step →
        exec (.arrive p hop) s = .next (v.setCtx n { c with escDrops := c.escDrops + 1 })) ∧
      (∀ r, fieldLe b 32 1 = 0 → ((v.liveRanks g).head? ≠ some g.rank ∨ w = c.step) → v.rankOf g h.src = some r →
        exec (.arrive p hop) s = .next ((v.setCtx n
          { c with heard := if c.heard.contains (cid, r) then c.heard else c.heard ++ [(cid, r)] }).escGo n)) ∧
      (∀ e, fieldLe b 32 1 = 1 → c.esc = some e → e.cid = cid → w = c.step → e.t = none →
        exec (.schedule p hop) s = .next ((childRanks (v.liveRanks g) g.rank).foldl (fun u r => u.sendEsc c g (v.cd c cid) r 1 cid t)
          (v.setCtx n { c with esc := some { e with t := some t, late := decide (t < v.fabric) } })))) ∧
    (∀ e t, c.esc = some e → e.t = some t →
      (t ≤ s.fabric → exec .escapementRelease s = .next (s.escRelease n c e t)) ∧ (s.fabric < t → exec .escapementRelease s = .next s)) ∧
    (∀ e, c.esc = some e → e.t = none → e.reported = false → e.at_ + s.commitTicks c ≤ s.fabric →
      exec .escTimeout s = .next ((s.setCtx n
        { c with esc := some { e with reported := true }, com := { c.com with abort := true, urgent := true } }).commitGo n))

/-- On the resident context: COLLECTIVE_DEADLINE makes the bitmaps of an instance of a deadline policy final and sends them up;
COMMIT_TIMEOUT at the root, once the commit timeout has passed without every READY, takes the silent ranks to have failed and aborts;
ROOT_TAKEOVER, after twice that time for each live rank below this one that is not known to have failed, makes this rank root, which
sends QUERY (that each further rank waits twice the time again is the model's choice, log 47); REJOIN_LIMIT_EXPIRY expels the replica of
a failed rank that has not rejoined, or stops a job without replicas; COLLECTIVE_COMPLETE of an instance that has done all its work,
where nothing holds its status record, ends it and adds one to its done counter. -/
def Obligations.CollectiveTimers : Prop :=
  ∀ (s : State) (n : Nat) (c : Ctx), s.resCtx = some (n, c) →
    let g := s.group c 0
    (∀ (cid : BitVec 10) (i : CInst), c.inst cid.toNat = some i →
      (i.d.data = true → i.d.policy ≠ 0 → c.replay = false → i.deadline c ≤ s.fabric → i.agreed = none → i.upSent = false → i.final = none →
        exec (.collectiveDeadline cid) s = .next (s.agreeUp n c i (s.presentMap c i, s.carryMap c i))) ∧
      (s.instComplete c i = true → s.statusHeld i = false → exec (.collectiveComplete cid) s = .next (s.completeData n c i)) ∧
      (c.digestDone i = true → s.statusHeld i = false → ∃ u c', exec (.collectiveComplete cid) s = .next u ∧ sfind u.ctxs n = some c' ∧
        c'.running = c.running.filter (fun j => j.cid ≠ i.cid) ∧ (u.tile i.d.tile).incs = (s.tile i.d.tile).incs ++ [⟨i.d.done, 1, 72, 0⟩])) ∧
    (∀ t k, c.com.trig = some (t, k) →
      let hs := s.heads c g
      let ms := hs.filterMap c.readyOf
      ((s.liveRanks g).head? = some g.rank ∨ c.com.root = true) → c.com.ready = false →
      t + (if c.com.root then 3 else 1) * s.commitTicks c ≤ s.fabric →
      exec .commitTimeout s = .next ((s.setCtx n (c.lose (hs.filter fun r => (c.readyOf r).isNone) s.now.toNat)).decideAs n false
        (ms.foldl (fun e m => Nat.lor e (leNat (m.part 0))) c.com.expel) (c.com.split || ms.any (·.flag 1)))) ∧
    (∀ t k cid d, c.com.trig = some (t, k) → s.commitCd c = some (cid, d) →
      let below := s.ranksBelow c g
      let l := c.lose below s.now.toNat
      let c' := { l with com := { l.com with root := true, ready := false, abort := true }, inbox := c.inbox.filter fun m => m.kind ≠ 5 }
      let hs := s.heads c' g
      below ≠ [] → s.liveRank g g.rank = true → c.com.root = false → t + 2 * below.length * s.commitTicks c ≤ s.fabric →
      s.roomSend d.tile hs.length = true →
      exec .rootTakeover s = .next (((s.sendCtl c' g d.tile hs ⟨7, 0, cid, 0, 0, 0, 0, 0, 0, 0⟩ [[]]).setCtx n c').commitGo n)) ∧
    (∀ (rank : BitVec 16) (t : Nat), sfind c.failed rank.toNat = some t → s.liveRank g rank.toNat = true →
      ((s.liveRanks g).filter fun r => (sfind c.failed r).isNone).head? = some g.rank → t + c.rr.rejoin * msTicks ≤ s.now.toNat →
      (s.replAt g rank.toNat = none → exec (.rejoinLimitExpiry rank) s = .next (s.stopCtx n 0x0A)) ∧
      (∀ k, s.replAt g rank.toNat = some k → exec (.rejoinLimitExpiry rank) s =
        .next ((s.setCtx n { c with failed := sdel c.failed rank.toNat }).decideAs n false (2 ^ k) false)))

/-- WINDOW_RELEASE of a context that is not stopped releases its next window when its release time has come, and the choice is made again.
DEADLINE_MISS counts the oldest window whose deadline has passed unreported and raises DEADLINE_MISS. SWITCH, with no switch or test in
progress, begins to bring in the best context where none is resident, and saves the resident context once all its tiles stand at their
boundary and another is to run. SWITCH_COMPLETE makes the incoming context resident and running and lands the increments that waited for
it. TEST_WINDOW begins a window that is due and ends the one that runs; SPARE_TEST_RUN, in an enabled tick, runs what is due on a
quadrant's free spare. -/
def Obligations.SchedulerRows : Prop :=
  (∀ (s : State) (n : Fin 8) (c : Ctx), sfind s.ctxs n = some c → c.st ≠ .stopped →
    (∀ r, c.nextRel = some r → r ≤ s.now.toNat → exec (.windowRelease n) s = .next (s.setCtx n
      { c with wins := c.wins ++ [⟨c.nextK, r, false⟩], nextK := c.nextK + 1,
               nextRel := if c.rr.period = 0 then none else some (r + c.rr.period) }).resched) ∧
    (∀ w, (c.wins.find? fun w => !w.missed && c.rr.rdline ≠ 0 && decide (w.rel + c.rr.rdline ≤ s.now.toNat)) = some w →
      exec (.deadlineMiss n) s = .next ((s.setCtx n
        { c with miss := c.miss + 1, wins := c.wins.map fun v => if v.k = w.k then { v with missed := true } else v }).event 0x03 n
          [(0, 8, w.k), (8, 4, (c.miss + 1).toNat)] []))) ∧
  (∀ s : State, s.sched.switching = false → s.sched.test = false →
    (∀ x, s.resCtx = none → s.best = some x →
      exec .switch s = .next ({ s with sched := { s.sched with switching := true, incoming := some x } } : State).settle) ∧
    (∀ r c x, s.resCtx = some (r, c) → c.preempt.isSome = true → s.allStopped c = true → c.tiles.all s.canSave = true →
      s.incomingNow = some x → x ≠ r → exec .switch s = .next (s.switchOut r x c))) ∧
  (∀ (s : State) (n : Nat) (c c' : Ctx) (u : State), s.sched.switching = true → s.sched.incoming = some n → sfind s.ctxs n = some c →
    c.st ≠ .stopped → s.plc.lost = false →
    (({ s with sched := { s.sched with switching := false, incoming := none, resident := some n } } : State).setCtx n
      { c with st := .running, switches := c.switches + 1 }).bringIn n c = .ok u →
    let v := c.signals.foldl (fun w g => w.setTile g.tile ((w.tile g.tile).inc g.obj g.value)) u
    sfind v.ctxs n = some c' → exec .switchComplete s = .next (v.setCtx n { c' with signals := [], begun := true, fromRb := false }).resched) ∧
  (∀ (s : State) (full : Bool) (fails : List (Nat × Nat × Nat)),
    (s.sched.test = true → exec (.testWindow full fails) s = .next (s.endTest full fails)) ∧
    (s.sched.test = false → s.up = true → s.sched.switching = false → s.testSet full ≠ [] →
      (if full then s.sentToTest else s.testFirst) = true → exec (.testWindow full fails) s = .next s.beginTest)) ∧
  (∀ (s : State) (p : Fin 68) (fails : List (Nat × Nat × Nat)), s.up = true → s.clk.enabled = true → s.plc.freeSpare (p.val / 17) = some p.val →
    let ks := (s.tc.map Prod.snd).filter fun k => match k.due p with
      | some d => decide (d ≤ s.psec)
      | none => false
    ks ≠ [] → exec (.spareTestRun p fails) s = .next (s.testTiles ks [p.val] fails))

/-- A command at the front of its ring that may start: with a reserved field set or a context index that names none it completes with
INVALID_FIELD, without the authority that it needs with NO_AUTHORITY. Past these checks NOP completes; IDENTIFY and TELEMETRY_READ of a
page that exists write the page to host memory and complete; CREATE_RING of a new ring in range adds it and DELETE_RING of another ring
removes it; SET_EVENT_BUFFER in range sets the buffer and delivers the backlog; CTX_QUERY of a registered context returns its state.
MSIX_COALESCE_TIMEOUT sends the interrupt of a ring whose time has run out. -/
def Obligations.HostRingRows : Prop :=
  ∀ (s : State) (p : Fin 2) (r : Fin 16) (f : Fetched),
    (∀ (n : Nat) (h : List Host.Cell) (bad : List Nat) (ok test : Bool), ∀ q ∈ [(0x00, Instr.nop p r), (0x01, .identify p r), (0x05, .createRing p r), (0x06, .deleteRing p r),
        (0x07, .setEventBuffer p r), (0x10, .dmaToDevice p r n h bad), (0x11, .dmaFromDevice p r), (0x20, .ctxRegister p r ok h), (0x21, .ctxStop p r),
        (0x22, .ctxDeregister p r), (0x23, .ctxQuery p r), (0x30, .tcPush p r ok h), (0x40, .telemetryRead p r), (0x50, .fwWrite p r ok h),
        (0x51, .fwActivate p r), (0x60, .deviceReset p r test)], s.front p r q.1 = some f →
      (f.e.rsv ≠ 0 ∨ (8 ≤ f.e.ctx ∧ f.e.ctx ≠ 0xFF) → exec q.2 s = .next (s.finish p r f stField 0 0)) ∧
      (f.e.rsv = 0 → (f.e.ctx < 8 ∨ f.e.ctx = 0xFF) → needsAuth q.1 = true → s.auth p = false → exec q.2 s = .next (s.finish p r f stNoAuth 0 0))) ∧
    (s.gate p f = stOk →
      (s.front p r 0x00 = some f → exec (.nop p r) s = .next (s.finish p r f stOk 0 0)) ∧
      (s.front p r 0x01 = some f → exec (.identify p r) s = .next ((s.toHost p f.e.addr0 s.identifyPage).finish p r f stOk 0 0)) ∧
      (∀ b, s.front p r 0x40 = some f → s.telemetry f.e = some b →
        exec (.telemetryRead p r) s = .next (((s.spend 64).toHost p f.e.addr0 b).finish p r f stOk 0 0)) ∧
      (s.front p r 0x05 = some f → createOk f.e = true → sfind (s.host p).rings f.e.arg0 = none → exec (.createRing p r) s =
        .next ((s.setHost p { s.host p with rings := sins (s.host p).rings f.e.arg0 (ringOf f.e) }).finish p r f stOk 0 0)) ∧
      (s.front p r 0x06 = some f → 1 ≤ f.e.arg0 → f.e.arg0 ≤ 15 → (sfind (s.host p).rings f.e.arg0).isSome = true → f.e.arg0 ≠ r.val →
        exec (.deleteRing p r) s = .next ((s.setHost p ((s.host p).dropRing f.e.arg0 s.now)).finish p r f stOk 0 0)) ∧
      (s.front p r 0x07 = some f → f.e.addr0 % 128 = 0 → evCountOk f.e.arg0 = true →
        let u := s.finish p r f stOk 0 0
        exec (.setEventBuffer p r) s = .next (u.setHost p ({ u.host p with evBuf := f.e.addr0, evLen := f.e.arg0 }.drain u.now 512))) ∧
      (∀ c, s.front p r 0x23 = some f → f.e.ctx < 8 → sfind s.ctxs f.e.ctx = some c → exec (.ctxQuery p r) s = .next (s.finish p r f stOk
        (c.st.code + 2 ^ 8 * c.status + 2 ^ 32 * c.step.toNat) (c.miss.toNat + 2 ^ 32 * c.ovr.toNat)))) ∧
    (∀ g, sfind (s.host p).rings r = some g → 0 < g.irqCount → 0 < g.coalTime → 1100 * g.coalTime ≤ (s.now - g.irqSince).toNat →
      exec (.msixCoalesceTimeout p r) s =
        .next (s.setHost p ({ s.host p with rings := sins (s.host p).rings r { g with irqCount := 0 } }.sendMsix g.vector)))

/-- Past the shared checks: DMA_TO_DEVICE that its access rule allows writes what the host's reads returned, keyed or raw, and is in
progress until DMA_COMPLETE writes its completion; DMA_FROM_DEVICE whose granules carry no poison and fail no check writes device memory
to host memory; TC_PUSH of a signed package holds it, and one that would exceed the held packages' limits completes with NO_RESOURCE;
FW_WRITE within the slot writes the inactive slot; FW_ACTIVATE of a slot that verifies gives it three trial boots; DEVICE_RESET
completes and resets the device. -/
def Obligations.HostDataRows : Prop :=
  ∀ (s : State) (p : Fin 2) (r : Fin 16) (f : Fetched) (h : List Host.Cell),
    (s.gate p f = stOk →
      (∀ (got : Nat) (bad : List Nat), s.front p r 0x10 = some f → s.dmaGate f.e = stOk → f.e.len ≤ got →
        let b := rdBytes h f.e.addr0 f.e.len
        exec (.dmaToDevice p r got h bad) s = .next ((if f.e.keyed then s.dmaKeyed f.e (rdBytes h f.e.addr0 (f.e.len / 4096 * 4096)) bad
          else s.dmaRaw f.e b bad).begin p r (.dma f (if f.e.keyed ∧ f.e.len / 4096 * 4096 < f.e.len then stHost
            else if f.e.grans.any bad.contains then 0x06 else stOk)))) ∧
      (s.front p r 0x11 = some f → s.dmaGate f.e = stOk → (s.dmaOut p f.e).1 = false →
        exec (.dmaFromDevice p r) s = .next ((s.dmaOut p f.e).2.begin p r (.dma f stOk))) ∧
      (s.front p r 0x30 = some f →
        let b := rdBytes h f.e.addr0 f.e.len
        let k := TcPkg.ofBytes b
        let m := sins s.tc k.id k
        tcHeaderOk b = true → tcVerify s.sec.image b = true → (∀ o, sfind s.tc k.id = some o → o.rev < k.rev) →
        (m.length ≤ 32 → (m.map fun q => q.2.bytes.length).sum ≤ 64 * 1024 * 1024 →
          exec (.tcPush p r true h) s = .next (({ s with tc := m } : State).finish p r f stOk 0 0)) ∧
        (64 * 1024 * 1024 < (m.map fun q => q.2.bytes.length).sum → exec (.tcPush p r true h) s = .next (s.finish p r f stNoRes 0 0))) ∧
      (s.front p r 0x50 = some f → f.e.arg0 + f.e.len ≤ slotSize →
        let u := s.clearTrial
        exec (.fwWrite p r true h) s = .next (({ u with flash := u.flash.writeSlot (1 - u.flash.select.1) f.e.arg0 (rdBytes h f.e.addr0 f.e.len) }
          : State).finish p r f stOk 0 0)) ∧
      (s.front p r 0x51 = some f → (verifySlot s.flash s.fuses (1 - s.flash.select.1) true).isSome = true →
        exec (.fwActivate p r) s = .next ((s.putSelect s.flash.select.1 (1 - s.flash.select.1) 3 (s.flash.slotVer 0) (s.flash.slotVer 1)).finish p r f stOk 0 0)) ∧
      (∀ test, s.front p r 0x60 = some f → exec (.deviceReset p r test) s = .next ((s.finish p r f stOk 0 0).fullReset 2 test))) ∧
    (∀ (i : Nat) (g : Ring) (st : Nat), sfind (s.host p).rings r = some g → g.started[i]? = some (.dma f st) →
      exec (.dmaComplete p r i) s = .next (s.setHost p ((({ s.host p with rings := sins (s.host p).rings r { g with started := g.started.eraseIdx i } }.complete
        r s.now (f.done st 0 0)).rejectUnknown r s.now 65536).finishQuiesce)))

/-- Past the shared checks: CTX_REGISTER of an aligned record that was read registers it, or completes with the status and the number of the
condition that refuses it; CTX_STOP of a context that is not resident stops it at once with STOPPED_BY_HOST, of the resident one
preempts it toward its boundary, and of a stopped one completes with its status; CTX_DEREGISTER of an idle, ready or stopped context
removes it; CTX_SIGNAL, once the earlier commands of its ring have completed, sends its increment from the port's hub to a tile of the
resident context or keeps it for one that is not. -/
def Obligations.HostContextRows : Prop :=
  ∀ (s : State) (p : Fin 2) (r : Fin 16) (f : Fetched), s.gate p f = stOk →
    let e := f.e
    (∀ (h : List Host.Cell), s.front p r 0x20 = some f → e.addr0 % 64 = 0 →
      let q := s.register (rdBytes h e.addr0 256)
      exec (.ctxRegister p r true h) s = .next (q.2.2.finish p r f q.1 q.2.1 0)) ∧
    (∀ c, e.ctx < 8 → sfind s.ctxs e.ctx = some c →
      (s.front p r 0x21 = some f →
        (c.st = .stopped → exec (.ctxStop p r) s = .next (s.finish p r f stOk c.status 0)) ∧
        (c.st ≠ .stopped → s.sched.resident ≠ some e.ctx →
          exec (.ctxStop p r) s = .next (((s.begin p r (.ctxStop f)).stopCtx e.ctx 0x01).resched)) ∧
        (c.st ≠ .stopped → s.sched.resident = some e.ctx →
          let d := { c with stopReq := some 0x01 }
          let u := (s.begin p r (.ctxStop f)).setCtx e.ctx d
          exec (.ctxStop p r) s = .next (u.preempt e.ctx d u.sched.incoming).boundary)) ∧
      (s.front p r 0x22 = some f → (c.st = .idle ∨ c.st = .ready ∨ c.st = .stopped) →
        exec (.ctxDeregister p r) s = .next ((({ s with ctxs := sdel s.ctxs e.ctx } : State).resched).finish p r f stOk 0 0)) ∧
      (∀ g, sfind (s.host p).rings r = some g → g.busy = 0 → s.front p r 0x24 = some f → c.st ≠ .stopped → signalOk e c = true →
        let t := bitsOf e.arg0 0 6
        (s.sched.resident = some e.ctx → exec (.ctxSignal p r) s =
          .next ((s.incFrom (hubStop p) t (bitsOf e.arg0 8 8) (bitsOf e.arg0 32 32)).finish p r f stOk 0 0)) ∧
        (s.sched.resident ≠ some e.ctx → exec (.ctxSignal p r) s =
          .next ((s.setCtx e.ctx { c with signals := c.signals ++ [⟨t, bitsOf e.arg0 8 8, bitsOf e.arg0 32 32⟩] }).finish p r f stOk 0 0))))

/-- The lease command that is next in its round: LEASE_ACQUIRE with a term in range of a lease that nobody holds takes it for the term and
raises AUTHORITY on both ports; of the other port's running lease it is refused with NO_AUTHORITY; LEASE_RENEW of the holder moves the
expiry; LEASE_RELEASE of the holder completes and ends the lease. LEASE_ROUND processes every command of the rounds that have ended;
LEASE_EXPIRY at or after the expiry ends the lease, so that no port holds authority. DOORBELL_POLL that is due on an enabled port that
is not quiescing takes the block's tails and heads and fetches, or sets HIF_ERR.DBB where the read failed. -/
def Obligations.LeaseRows : Prop :=
  ∀ (s : State) (p : Fin 2), s.up = true →
    (∀ (r : Fin 16) (f : Fetched), s.nextLease = some (p.val, r.val) → s.leaseFront p r = some f → f.e.rsv = 0 → (f.e.ctx < 8 ∨ f.e.ctx = 0xFF) →
      (f.e.opc = 2 → 100 ≤ f.e.arg0 → f.e.arg0 ≤ 60000 →
        let x := s.after f.e.arg0
        (s.lease = none → exec (.leaseAcquire p r) s =
          .next ((({ s with lease := some ⟨p, x, f.e.arg0⟩ } : State).finish p r f stOk x.toNat 0).event 0x0B 0xFF [(0, 1, p), (1, 1, 0)] [])) ∧
        (∀ l, s.lease = some l → s.now < l.expiry → exec (.leaseAcquire p r) s = .next
          (if l.holder = p.val then ({ s with lease := some ⟨p, x, f.e.arg0⟩ } : State).finish p r f stOk x.toNat 0 else s.finish p r f stNoAuth 0 0))) ∧
      (∀ l, s.lease = some l → s.auth p = true →
        (f.e.opc = 3 → exec (.leaseRenew p r) s =
          .next (({ s with lease := some { l with expiry := s.after l.term } } : State).finish p r f stOk (s.after l.term).toNat 0)) ∧
        (f.e.opc = 4 → exec (.leaseRelease p r) s = .next ((s.finish p r f stOk 0 0).loseLease 1)))) ∧
    exec .leaseRound s = .next (s.leaseAll 131072) ∧
    (∀ l, s.lease = some l → l.expiry ≤ s.now → ∃ u, exec .leaseExpiry s = .next u ∧ u.lease = none ∧ u.auth 0 = false ∧ u.auth 1 = false) ∧
    (∀ h : List Host.Cell, (s.host p).enrdy = true → (s.host p).quiesce = false → (s.host p).pollDue ≤ s.now →
      let u := s.setHost p { s.host p with pollDue := s.now + BitVec.ofNat 64 (s.pollTicks p) }
      exec (.doorbellPoll p false h) s = .next (u.hifErr p 1) ∧
      exec (.doorbellPoll p true h) s = .next ((List.range 16).foldl (fun a r => a.pollRing p h r)
        ((List.range 16).foldl (fun a r => a.ringWord p h (s.hifAddr p 0x08) r) u)))

/-- On a module that runs: POWER_LOOP that is due above 2,200 W scales D_POWER by 2,200 W over P, and else lets it rise by at most 2^26 up
to its full value (by how much is the model's free value, log 10); FAST_CLAMP with FASTEN set and a current above the limit holds the
clamp at PWR_FAST_DUTY; FAST_CLAMP_RELEASE lets go 10 µs after a clamp that a power loop has seen; THERMAL_LOOP that is due moves
D_THERM by the step of the hottest reading; MONITOR_READ takes each reading; REPLAN that may run re-plans; CEIL_OBSERVATION after 60 s
ends the observation; AGE_HOURS after 24 powered hours writes its record. -/
def Obligations.PowerRows : Prop :=
  ∀ s : State,
    let w := s.power
    (s.up = true →
      (∀ (p : BitVec 32) (rails : List (Nat × Nat)), w.loopDue ≤ s.now → ∃ u d, exec (.powerLoop p rails) s = .next u ∧
        u.power = { w with dPower := d, pAvg := p.toNat, loopDue := s.now + 110000, clampLoop := true, railMv := tableNat (rails.map (·.1)),
                           railDa := tableNat (rails.map (·.2)) } ∧
        { u with power := w, freeCtr := s.freeCtr } = s ∧
        (2200000 < p.toNat → d = w.dPower * 2200000 / p.toNat) ∧
        (p.toNat ≤ 2200000 → w.dPower ≤ dutyFull → w.dPower ≤ d ∧ d ≤ w.dPower + 2 ^ 26 ∧ d ≤ dutyFull)) ∧
      (∀ amps : BitVec 16, bitOf (s.reg 0x3000) 0 = true → s.reg 0x3004 < amps.toNat → exec (.fastClamp amps) s = .next
        { s with power := { w with clamp := true, clampAt := s.now, clampLoop := w.clamp && w.clampLoop, dFast := s.reg 0x3008 * 65536 } }) ∧
      (∀ (die hbm : List Int) (high : BitVec 12), die.length = 72 → hbm.length = 12 → w.thermDue ≤ s.now →
        ∃ u, exec (.thermalLoop die hbm high) s = .next u ∧ u.power.tHot = (hottest die).2 ∧ u.power.tStop = tableOf die ∧ u.power.tHbm = tableOf hbm ∧
          u.power.thermDue = s.now + 1100000 ∧
          ((high ≠ 0 ∨ 1050 < (hottest die).2) → u.power.dTherm = max (w.dTherm - 2 ^ 29) (2 ^ 30)) ∧
          (high = 0 → 1000 < (hottest die).2 → (hottest die).2 ≤ 1050 → u.power.dTherm = max (w.dTherm - 2 ^ 27) (2 ^ 30)) ∧
          (high = 0 → (hottest die).2 ≤ 1000 → u.power.dTherm = min (w.dTherm + 2 ^ 26) dutyFull)) ∧
      (∀ rs : List (Nat × Int × Int), s.rgl.readDue ≤ s.now → ∃ u v, exec (.monitorRead rs) s = .next u ∧
        v = rs.foldl (fun a q => a.takeReading q.1 q.2.1 q.2.2) s ∧ u = { v with rgl := { v.rgl with readDue := s.now + BitVec.ofNat 64 ticksPerSec } }) ∧
      (s.replanMay = true → ∃ u, exec .replan s = .next u ∧ u.rgl.lastPlan = s.phours ∧ u.rgl.v = tableNat ((List.range 4).map fun q => (s.planOf q).1) ∧
        u.power.rung ≤ max w.rung 16 ∧ u.power.rung ≤ w.rung + 1 ∧ w.rung ≤ u.power.rung + 1) ∧
      (∀ o, s.rgl.obs = some o → 60 * ticksPerSec ≤ (s.now - o.start).toNat → exec .ceilObservation s = .next (s.endObs o)) ∧
      (((s.flash.ageing.latest fun b => b == .ageHours).map (·.psec)).getD 0 + 86400 ≤ s.psec → exec .ageHours s = .next (s.logAgeing .ageHours))) ∧
    (w.clamp = true → w.clampLoop = true → 11000 ≤ (s.now - w.clampAt).toNat →
      exec .fastClampRelease s = .next { s with power := { w with clamp := false, clampEnd := false }, rgl := { s.rgl with calm := s.now } })

/-- On a module that answers on its bus: GET_CERTS without a body and GET_REPORT with a nonce of 32 bytes answer with the certificates and
the signed report where the alias key is held and no INVASIVE scope is open, and else with an error; both I3C address commands set the
dynamic address. While the die neither is in reset nor has tripped: DBG_CHAL_READ issues a fresh nonce (the model's free value, log 10)
and shifts the challenge out; DEBUG_TOKEN consumes the nonce, and a token that meets every condition opens its scopes, another counts a
failure, at most 8. -/
def Obligations.SecurityRows : Prop :=
  ∀ s : State,
    (s.busUp = true →
      (∀ key, s.sec.invasive = false → s.sec.aliasKey = some key →
        exec (.getCerts []) s = .next (s.answer (0x81 :: s.sec.idPub ++ s.sec.aliasCert)) ∧
        (∀ (body : List Byte) (i : Image), body.length = 32 → s.sec.image = some i → ∃ u, exec (.getReport body) s = .next u ∧
          u = { s.answer (0x82 :: s.reportBody body i ++ Config.mldsaSign key (sha3 (s.reportBody body i)) (ascii "VK3160 REPORT") (freshBytes s.freeCtr 32))
                with freeCtr := s.freeCtr + 1 })) ∧
      ((s.sec.invasive = true ∨ s.sec.aliasKey = none) → exec (.getCerts []) s = .next (s.answer [0xF0, 2]) ∧
        ∀ body : List Byte, body.length = 32 → exec (.getReport body) s = .next (s.answer [0xF0, 2])) ∧
      (∀ body : List Byte, body ≠ [] → exec (.getCerts body) s = .next (s.answer [0xF0, 3])) ∧
      (∀ body : List Byte, body.length ≠ 32 → exec (.getReport body) s = .next (s.answer [0xF0, 3])) ∧
      (∀ addr : BitVec 7, ∀ i ∈ [Instr.i3cSetdasa addr, .i3cEntdaa addr], exec i s = .next { s with sec := { s.sec with i3c := some addr } })) ∧
    (s.jtagUp = true →
      (∃ u n, exec .dbgChalRead s = .next u ∧ n = freshBytes s.freeCtr 64 ∧ u.sec.nonce = some n ∧ u.sec.shifted.take 64 = n ∧
        { u with sec := s.sec, freeCtr := s.freeCtr } = s) ∧
      (∀ t : List Byte,
        (tokenOk s.fuses s.sec t = true → exec (.debugToken t) s = .next { s with sec := { s.sec with nonce := none }.openScopes (fieldLe t 72 1) s.now }) ∧
        (tokenOk s.fuses s.sec t = false → exec (.debugToken t) s = .next { s with sec := { s.sec with nonce := none, fails := min (s.sec.fails + 1) 8 } })))

/-- MODULE_RESET_ASSERT, and POWER_FAIL, take the module into reset: no context, no lease, no tile state, the fuses kept, the cause latched.
MODULE_RESET_RELEASE with power, and MOD_PWROK_ASSERT with MOD_RST_N high, boot. PERST_RELEASE raises PERSTp_N, and the link comes up
where the die neither is in reset nor has tripped; PCIE_PORT_RESET gives up the port's lease and settings. Each rail command sets or
clears its rail's bit. THERMAL_TRIP of a sensor at 115 °C or a stack's flag stops the die and drives THERMTRIP_N low;
THERMAL_TRIP_RECOVERY resets the device once every sensor is below 105 °C. ROUTER_FAULT, FIRMWARE_WATCHDOG, CLUSTER0_UNCORRECTABLE_ERROR
and SECURITY_BLOCK_FAULT reset the device with their cause, and a second ROUTER_FAULT within 24 hours takes it out of service.
EPOCH_MARKER is noted in the move that awaits it; PLACEMENT_EXCLUSIVE ends a move whose markers have all come. -/
def Obligations.ResetRows : Prop :=
  ∀ (s : State) (test : Bool),
    let cold := fun (u : State) (pins : Pins) => u.phase = .inReset ∧ u.pins = pins ∧ u.ctxs = [] ∧ u.lease = none ∧ u.tiles = [] ∧ u.cfg = [] ∧
      u.clk.time = 0 ∧ u.fuses = s.fuses ∧ u.pending = s.pending
    (s.pins.rstN = true → ∃ u, exec .moduleResetAssert s = .next u ∧ cold u { s.pins with rstN := false, cause := 1, faultLow := s.phase == .tripped }) ∧
    (s.pins.pwrok = true → ∃ u, exec .powerFail s = .next u ∧ cold u { s.pins with pwrok := false, tripLow := false, faultLow := false }) ∧
    (s.pins.rstN = false →
      let v := { s with pins := { s.pins with rstN := true } }
      exec (.moduleResetRelease test) s = .next (if s.pins.pwrok then v.moduleBoot test else v)) ∧
    (s.pins.pwrok = false →
      let v := { s with pins := { s.pins with pwrok := true, cause := 0 } }
      exec (.modPwrokAssert test) s = .next (if s.pins.rstN then v.moduleBoot test else v)) ∧
    (∀ p : Fin 2, ∃ u, exec (.perstRelease p) s = .next u ∧
      u.pins = (if p = 0 then { s.pins with perst0N := true } else { s.pins with perst1N := true }) ∧ (u.host p).linkUp = (s.phase != .inReset && s.phase != .tripped)) ∧
    (∀ (p : Fin 2) (perst : Bool), ∃ u, exec (.pciePortReset p perst) s = .next u ∧ (∀ l, u.lease = some l → l.holder ≠ p.val ∧ s.lease = some l) ∧
      (u.host p).rings = [] ∧ (u.host p).enrdy = false ∧ (perst = true → (u.host p).linkUp = false) ∧ u.hbm = s.hbm ∧ u.ctxs = s.ctxs) ∧
    (∀ r : Fin 16,
      exec (.railExcursion r) s = .next { s with pins := { s.pins with railOut := s.pins.railOut ||| BitVec.ofNat 16 (2 ^ r.val) } } ∧
      exec (.railInRange r) s = .next { s with pins := { s.pins with railOut := s.pins.railOut &&& ~~~BitVec.ofNat 16 (2 ^ r.val) } }) ∧
    (∀ (i : Fin 84) (temp : Int), (s.phase = .running ∨ s.phase = .stopped) → (72 ≤ i.val ∨ 1150 ≤ temp) →
      ∃ u, exec (.thermalTrip i temp) s = .next u ∧ u.phase = .tripped ∧ u.pins = { s.pins with tripLow := true, faultLow := true } ∧ u.lease = none) ∧
    (∀ die : List Int, s.phase = .tripped → s.pins.pwrok = true → s.pins.rstN = true → die.length = 72 → (∀ t ∈ die, t < 1050) →
      exec (.thermalTripRecovery die test) s = .next (s.fullReset 8 test)) ∧
    (s.up = true →
      (s.routerAgain = false → exec (.routerFault test) s = .next (s.fullReset 3 test)) ∧
      (s.routerAgain = true → ∃ u, exec (.routerFault test) s = .next u ∧ u.phase = .stopped) ∧
      exec (.cluster0UncorrectableError test) s = .next (s.fullReset 4 test) ∧
      (∀ k : Fin 4, exec (.firmwareWatchdog k test) s = .next (s.fullReset 5 test)) ∧
      exec (.securityBlockFault test) s = .next (s.fullReset 6 test)) ∧
    (∀ (t : Fin 64) (stop : Fin 72) (cls : Fin 3) (d : Drain) (rest : List Drain), s.plc.drains = d :: rest → d.ltile = t.val →
      (d.got.contains (stop.val * 3 + cls.val) = false →
        exec (.epochMarker t stop cls) s = .next { s with plc := { s.plc with drains := { d with got := d.got ++ [stop.val * 3 + cls.val] } :: rest } }) ∧
      (d.count = 0 → exec (.placementExclusive t) s = .next { s with plc := { s.plc with drains := rest } }))

/-- For every register pair that holds a 64-bit value, device time among them, a read of _LO by an agent that reaches it returns the low
word and latches _HI in the same step; each agent has a latch of its own, so the latches of the others, and everything else, stay. -/
def Obligations.RegisterReads : Prop :=
  ∀ (s : State) (ag : Fin 3) (off : BitVec 24) (k v : Nat), s.reaches ag = true → (ag.val < 2 → s.up = true) → off.toNat % 4 = 0 →
    keyOf ag off.toNat = some k → s.pair k = some v →
    let i := if off = 0x2000 then Instr.clkDevtimeLoRead ag else .pairLoRead ag off
    ∃ u, exec i s = .next u ∧ { u with busRead := s.busRead, hi := s.hi } = s ∧
      sget zero32 u.busRead ag = BitVec.ofNat 32 v ∧ sget zero32 u.hi (latchKey ag k) = BitVec.ofNat 32 (v / 2 ^ 32) ∧
      (∀ b : Nat, b ≠ ag.val → sget zero32 u.busRead b = sget zero32 s.busRead b ∧
        ∀ j, j < 2 ^ 24 → sget zero32 u.hi (latchKey b j) = sget zero32 s.hi (latchKey b j)) ∧
      (k = 0x2000 → v = s.now.toNat) ∧ exec (.pairLoRead ag off) s = .next u

/-- Of an agent that reaches BAR0, and for a host holds command authority: a write of the whole word of a writable register, those of its
fields that are not locked in range, sets these, with what that sets off, and leaves the locked ones, which is counted where one would
have changed; a write in part, or with such a field out of range, is discarded and counted; a write of a read-only register is ignored.
The rows that name one register write its fields so: the link block's, a port's and a chronograph bank's enable with the fields of a
disabled block, and cleared with the others as they stand, FASTEN cleared, RGL_PERIOD, FWEN and DREN cleared. HIF_ENABLE of a port that
can start makes its ring 0; HIF_QUIESCE of an enabled port withdraws what has not started. -/
def Obligations.RegisterWrites : Prop :=
  ∀ (s : State) (ag : Fin 3), s.reaches ag = true → (ag.val < 2 → s.up = true ∧ s.auth ag = true) →
    let wr := fun (k v : Nat) => State.settleReg s k (s.setReg k v)
    (∀ (off : BitVec 24) (v : BitVec 32) (k : Nat), off.toNat % 4 = 0 → off.toNat < 0xFF0000 → keyOf ag off.toNat = some k →
      (∀ fs, regKind k = some (.rw fs) → ¬(0x1000 ≤ k ∧ k < 0x2000 ∧ k % 0x800 = 0) →
        (outOfRange (s.locked k) v.toNat fs = false → exec (.registerWrite ag off true v) s = .next
          (let t := wr k (mergeFields (s.locked k) (s.reg k) v.toNat fs 0)
           if lockedHit (s.locked k) (s.reg k) v.toNat fs then t.late k else t)) ∧
        (outOfRange (s.locked k) v.toNat fs = true → exec (.registerWrite ag off true v) s = .next (s.late k))) ∧
      (regKind k = some .ro → exec (.registerWrite ag off true v) s = .next s) ∧
      ((regKind k).isSome = true → exec (.registerWrite ag off false v) s = .next (s.late k))) ∧
    exec (.lnkEnable ag) s = .next (wr 0x20000 1) ∧ exec (.lnkDisable ag) s = .next (wr 0x20000 0) ∧
    (∀ (n : Fin 24) (m : BitVec 2), m ≠ 3 → let k := 0x20100 + 0x40 * n.val
      (s.locked k = false → exec (.lnkPortEnable ag n m) s = .next (wr k (1 + 2 * m.toNat))) ∧
      (bitsOf (s.reg k) 1 2 = m.toNat → exec (.lnkPortDisable ag n) s = .next (wr k (2 * m.toNat)))) ∧
    (∀ (p : Fin 68) (b : Fin 4) (m : BitVec 2) (t : BitVec 3) (c : BitVec 5), m ≠ 3 → t.toNat ≤ 5 → let k := 0x100000 + 0x400 * p.val + 0x100 * b.val
      (s.locked k = false → exec (.chrBankEnable ag p b m t c) s = .next (wr k (1 + 2 * m.toNat + 16 * t.toNat + 256 * c.toNat))) ∧
      (bitsOf (s.reg k) 1 2 = m.toNat → bitsOf (s.reg k) 4 3 = t.toNat → bitsOf (s.reg k) 8 5 = c.toNat →
        exec (.chrBankDisable ag p b) s = .next (wr k (2 * m.toNat + 16 * t.toNat + 256 * c.toNat)))) ∧
    exec (.fastenClear ag) s = .next (wr 0x3000 0) ∧
    (∀ h : BitVec 14, 24 ≤ h.toNat → h.toNat ≤ 8760 → exec (.rglPeriodWrite ag h) s = .next (wr 0x3020 h.toNat)) ∧
    (∀ x y : Nat, bitsOf (s.reg 0x40000) 8 5 = x → bitsOf (s.reg 0x40000) 16 5 = y → 8 ≤ x → x ≤ 16 → 8 ≤ y → y ≤ 16 →
      exec (.fwenClear ag) s = .next (wr 0x40000 (2 * bitsOf (s.reg 0x40000) 1 1 + 256 * x + 65536 * y)) ∧
      exec (.drenClear ag) s = .next (wr 0x40000 (bitsOf (s.reg 0x40000) 0 1 + 256 * x + 65536 * y))) ∧
    (∀ p : Fin 2, p.val = ag.val → let k := hifKey p 0
      (bitOf (s.reg k) 0 = false → (s.host p).quiesce = false → s.hifOk p = true → exec (.hifEnable p) s = .next
        (let u := ((s.setReg k 1).clearLate k).holdLock s k
         u.setHost p { s.host p with enrdy := true, rings := [(0, u.ring0 p)], evSeq := 0, pollDue := u.now })) ∧
      ((s.host p).enrdy = true → ∃ u, exec (.hifQuiesce p) s = .next u ∧ u.reg k = 0 ∧
        ∀ r g, sfind (u.host p).rings r = some g → g.fetched = []))

/-- For a control program of the resident context on a core that goes: a load of mapped device memory returns its bytes as the caches of the
clusters hold them, with the core-poison flag for poison, a store goes into the caches, and a load outside the context's regions is a
job fault; cbo.clean writes a dirty block to memory, cbo.inval drops it and cbo.flush does both; the caches may evict a block at any
time; a load of a synchronisation counter of one of its tiles returns it and a store sends an increment from the cluster's stop; the
chronograph window is read; the time CSR reads device time, and stimecmp is written, read and compared with it. CORE_CACHE_UNCORRECTABLE
sets the context's core-poison flag. ECALL of another extension than the base returns SBI_ERR_NOT_SUPPORTED. DEBUG_ACCESS without its
scope does nothing; with it, it reads registers, telemetry, core status and memory, halts and steps cores and writes memory. -/
def Obligations.CoreRows : Prop :=
  ∀ s : State,
    (∀ (j : Nat) (c : Ctx), s.resCtx = some (j, c) →
      (∀ (k : Fin 12) (store : Bool) (a : BitVec 48) (n : BitVec 7) (d : List Byte), s.up = true → s.coreGoes (k.val + 4) = true →
        let q := s.stepped (k.val + 4)
        (coreMapped c a.toNat n.toNat = true →
          let v := if s.poisIn a.toNat n.toNat then q.setCtx j { c with corePoison := true } else q
          exec (.controlCoreAccess k 0 false a n d) s = .next ((v.coreFill a.toNat n.toNat).toCore [leNat (v.coreBytes a.toNat n.toNat)])) ∧
        (coreMapped c a.toNat d.length = true → exec (.controlCoreAccess k 0 true a n d) s = .next (q.coreStore a.toNat d)) ∧
        (coreMapped c a.toNat n.toNat = false → exec (.controlCoreAccess k 0 false a n d) s = .next (q.jobFault ⟨2, 4, a.toNat, 0, none⟩ none)) ∧
        (coreMapped c a.toNat 1 = true → let b := a.toNat / 64 * 64
          exec (.controlCoreAccess k 3 store a n d) s = .next (q.coreClean b) ∧
          exec (.controlCoreAccess k 4 store a n d) s = .next (q.coreDrop b) ∧
          exec (.controlCoreAccess k 5 store a n d) s = .next ((q.coreClean b).coreDrop b)) ∧
        exec (.controlCoreAccess k 7 store a n d) s = .next (q.toCore [s.now.toNat]) ∧
        exec (.controlCoreAccess k 8 true a n d) s = .next
          { q with stimecmp := sput zero64 s.stimecmp (k.val + 4) (BitVec.ofNat 64 (leNat (d.take 8))) } ∧
        exec (.controlCoreAccess k 8 false a n d) s = .next (q.toCore [(sget zero64 s.stimecmp (k.val + 4)).toNat]) ∧
        exec (.controlCoreAccess k 9 store a n d) s = .next
          (q.toCore [b2n (decide ((sget zero64 s.stimecmp (k.val + 4)).toNat ≤ s.now.toNat))]) ∧
        (∀ t o, a.toNat = 4096 * t + 4 * o → o < 256 → c.tiles.contains t = true →
          exec (.controlCoreAccess k 1 false a n d) s = .next (q.toCore [(sget zero32 (s.tile t).sync o).toNat]) ∧
          exec (.controlCoreAccess k 1 true a n d) s = .next (q.incFrom (hubStop (k.val / 4 + 1)) t o (leNat (d.take 4)))) ∧
        (a.toNat % 4 = 0 → a.toNat < 0x11000 → exec (.controlCoreAccess k 2 false a n d) s =
          .next ((q.readReg 4 (0x100000 + a.toNat)).toCore [(sget zero32 (q.readReg 4 (0x100000 + a.toNat)).busRead 4).toNat]))) ∧
      (∀ (k : Fin 12) (store : Bool) (a : BitVec 48) (n : BitVec 7) (d : List Byte), s.up = true → let b := a.toNat / 64 * 64
        exec (.controlCoreAccess k 6 store a n d) s = .next ((s.coreClean b).coreDrop b)) ∧
      exec .coreCacheUncorrectable s = .next (s.setCtx j { c with corePoison := true }) ∧
      (∀ eid fid arg : BitVec 64, s.up = true → eid ≠ 0x10 →
        exec (.ecall eid fid arg) s = .next { s with freeCtr := s.freeCtr + 1, coreRet := [BitVec.ofNat 64 (2 ^ 64 - 2), 0] }) ∧
      (∀ arg : BitVec 64, s.up = true → arg ≠ 0x10 → exec (.ecall 0x10 3 arg) s = .next { s with freeCtr := s.freeCtr + 1, coreRet := [0, 0] })) ∧
    (∀ (op : Fin 8) (a : BitVec 48) (b : BitVec 64) (d : List Byte), s.jtagUp = true →
      ((if op.val < 3 then s.sec.observe else s.sec.invasive) = false → exec (.debugAccess op a b d) s = .next s) ∧
      (s.sec.observe = true → exec (.debugAccess 2 a b d) s = .next (s.shiftOut (natLe 2 s.coreHalt.toNat)) ∧
        (∀ o, a.toNat = 4 * o → a.toNat < 2 ^ 24 → ∃ u, exec (.debugAccess 0 a b d) s = .next u ∧
          u.sec.shifted = natLe 4 (BitVec.ofNat 32 (s.readVal 3 a.toNat)).toNat)) ∧
      (s.sec.invasive = true →
        (∀ k, k < 16 → a.toNat = k → exec (.debugAccess 3 a b d) s = .next { s with coreHalt := s.coreHalt ||| BitVec.ofNat 16 (2 ^ k) }) ∧
        (mapped a.toNat b.toNat = true → exec (.debugAccess 5 a b d) s = .next (s.shiftOut (rdBytes s.mem a.toNat b.toNat))) ∧
        (mapped a.toNat d.length = true → a.toNat < hbmEnd →
          exec (.debugAccess 6 a b d) s = .next { s with hbm := Hbm.writeRaw (fun _ => false) (d.length + 1) s.hbm a.toNat d })))

/-- For all aligned sums whose zero sums are empty, as R71 has them, asum_add gives the empty sum wherever its result is valid with
significand zero, and the invalid sum with S = 0 and E = −512 wherever its result is invalid; and an invalid sum stays invalid through
every later addition, in either place. -/
def Obligations.AsumResults : Prop :=
  (∀ a b : ASum, (a.s = 0 → a.e = -512) → (b.s = 0 → b.e = -512) →
    let r := asumAdd a b
    (r.s = 0 → r.e = -512) ∧ (r.inv = true → r.s = 0 ∧ r.e = -512)) ∧
  (∀ (a : ASum) (l : List ASum), a.inv = true → (l.foldl asumAdd a).inv = true ∧ (l.foldr asumAdd a).inv = true)

/-- asum_add gives the same sum in either order of its two operands, for all aligned sums whose zero sums are empty (R71). It is not
associative: there are operands whose two orders of addition give different significands, others that give different exponents, and
others that give both. -/
def Obligations.AsumCommutes : Prop :=
  (∀ a b : ASum, (a.s = 0 → a.e = -512) → (b.s = 0 → b.e = -512) → asumAdd a b = asumAdd b a) ∧
  (∃ a b c : ASum, (asumAdd (asumAdd a b) c).s ≠ (asumAdd a (asumAdd b c)).s ∧ (asumAdd (asumAdd a b) c).e = (asumAdd a (asumAdd b c)).e) ∧
  (∃ a b c : ASum, (asumAdd (asumAdd a b) c).s = (asumAdd a (asumAdd b c)).s ∧ (asumAdd (asumAdd a b) c).e ≠ (asumAdd a (asumAdd b c)).e) ∧
  (∃ a b c : ASum, (asumAdd (asumAdd a b) c).s ≠ (asumAdd a (asumAdd b c)).s ∧ (asumAdd (asumAdd a b) c).e ≠ (asumAdd a (asumAdd b c)).e)

/-- A tensor descriptor with CONS_T = 1 and any block shape but 5 is an illegal encoding. -/
def Obligations.TransposeBlockShape : Prop :=
  ∀ d : TDesc, d.consT = true → (d.legal = true → d.bshape = 5) ∧ (d.bshape ≠ 5 → d.legal = false)
end

