-- ==== Sys2Proof/Laws/Sparse.lean ====
section
/-! SUPPORT. Laws/Sparse.lean: reads after writes in sparse tables, and that every operation keeps their canonical form. -/

namespace Sys2Proof.Machine

variable {α : Type}

/-- A key that is listed nowhere above a bound it lies below. -/
theorem sfind_none_of_rising : ∀ {m : SMap α} {b k : Nat}, srising (some b) m = true → k ≤ b → sfind m k = none
  | [], _, _, _, _ => rfl
  | (a, _) :: r, b, k, h, hk => by
    simp only [srising, Bool.and_eq_true, decide_eq_true_eq] at h
    have hne : ¬ a = k := by omega
    simp only [sfind, hne, if_false]
    exact sfind_none_of_rising h.2 (by omega)

@[simp] theorem sfind_sins (m : SMap α) (k : Nat) (v : α) (j : Nat) :
    sfind (sins m k v) j = if k = j then some v else sfind m j := by
  induction m with
  | nil => simp [sins, sfind]
  | cons p r ih =>
    obtain ⟨a, w⟩ := p
    simp only [sins]
    split
    · simp [sfind]
    · split
      · subst_vars; by_cases h : a = j <;> simp [sfind, h]
      · by_cases h : a = j
        · have : ¬ k = j := by omega
          simp [sfind, h, this]
        · simp [sfind, h, ih]

@[simp] theorem sfind_sdel (m : SMap α) (k j : Nat) : sfind (sdel m k) j = if k = j then none else sfind m j := by
  induction m with
  | nil => simp [sdel, sfind]
  | cons p r ih =>
    obtain ⟨a, w⟩ := p
    by_cases h : a = k
    · subst h
      have e : sdel ((a, w) :: r) a = sdel r a := by simp [sdel]
      rw [e, ih, sfind]; split <;> simp_all
    · have e : sdel ((a, w) :: r) k = (a, w) :: sdel r k := by simp [sdel, h]
      rw [e, sfind, sfind, ih]
      by_cases hj : a = j
      · simp [hj, show ¬ k = j by omega]
      · simp [hj]

/-- What is written at a key is read there, and every other key reads as before. -/
@[simp] theorem sget_sput [DecidableEq α] (d : Nat → α) (m : SMap α) (k : Nat) (v : α) (j : Nat) :
    sget d (sput d m k v) j = if k = j then v else sget d m j := by
  unfold sput sget
  split
  · subst_vars; simp only [sfind_sdel]; split <;> simp_all
  · simp only [sfind_sins]; split <;> simp_all

@[simp] theorem sget_smod [DecidableEq α] (d : Nat → α) (m : SMap α) (k : Nat) (f : α → α) (j : Nat) :
    sget d (smod d m k f) j = if k = j then f (sget d m k) else sget d m j := by simp [smod]

/-- A lower bound may be lowered. -/
theorem srising_mono : ∀ {m : SMap α} {b c : Nat}, srising (some b) m = true → c ≤ b → srising (some c) m = true
  | [], _, _, _, _ => rfl
  | (a, _) :: _, b, c, h, hc => by
    simp only [srising, Bool.and_eq_true, decide_eq_true_eq] at h ⊢
    exact ⟨by omega, h.2⟩

theorem srising_none {m : SMap α} {b : Nat} (h : srising (some b) m = true) : srising none m = true := by
  cases m with
  | nil => rfl
  | cons p r => obtain ⟨a, w⟩ := p; simp only [srising, Bool.and_eq_true, Bool.true_and] at h ⊢; exact h.2

theorem srising_sins : ∀ {m : SMap α} {lo : Option Nat} {k : Nat} {v : α}, srising lo m = true →
    (match lo with | none => true | some b => decide (b < k)) = true → srising lo (sins m k v) = true
  | [], lo, k, v, _, hk => by cases lo <;> simp_all [sins, srising]
  | (a, w) :: r, lo, k, v, h, hk => by
    simp only [sins]
    split
    · rename_i hlt
      simp only [srising, Bool.and_eq_true] at h ⊢
      exact ⟨hk, by simpa using hlt, h.2⟩
    · split
      · subst_vars; simpa [srising] using h
      · rename_i h1 h2
        simp only [srising, Bool.and_eq_true] at h ⊢
        exact ⟨h.1, srising_sins h.2 (by simp; omega)⟩

/-- Leaving entries out, and changing values, keeps the keys rising. -/
theorem srising_filterMap {β : Type} (f : Nat × α → Option (Nat × β)) (hf : ∀ p q, f p = some q → q.1 = p.1) :
    ∀ {m : SMap α} {lo : Option Nat}, srising lo m = true → srising lo (m.filterMap f) = true
  | [], _, _ => by simp [srising]
  | (a, w) :: r, lo, h => by
    simp only [srising, Bool.and_eq_true] at h
    simp only [List.filterMap_cons]
    have key := srising_filterMap f hf h.2
    split
    · cases lo with
      | none => exact srising_none key
      | some b => exact srising_mono key (by have := h.1; simp at this; omega)
    · rename_i q hq
      have h1 := hf _ _ hq
      obtain ⟨c, x⟩ := q
      simp only at h1; subst h1
      simp only [srising, Bool.and_eq_true]
      exact ⟨h.1, key⟩

theorem srising_filter (f : Nat × α → Bool) {m : SMap α} {lo : Option Nat} (h : srising lo m = true) :
    srising lo (m.filter f) = true := by
  have := srising_filterMap (fun p => if f p then some p else none) (by intro p q; split <;> simp_all) h
  rwa [show m.filterMap (fun p => if f p then some p else none) = m.filter f from by
    rw [← List.filterMap_eq_filter]; rfl] at this

variable [DecidableEq α] {d : Nat → α}

theorem swf_nil : swf d ([] : SMap α) = true := rfl

theorem swf_sdel {m : SMap α} {k : Nat} (h : swf d m = true) : swf d (sdel m k) = true := by
  simp only [swf, Bool.and_eq_true, List.all_eq_true] at h ⊢
  exact ⟨srising_filter _ h.1, fun p hp => h.2 p (List.mem_of_mem_filter hp)⟩

theorem swf_filter {m : SMap α} (f : Nat × α → Bool) (h : swf d m = true) : swf d (m.filter f) = true := by
  simp only [swf, Bool.and_eq_true, List.all_eq_true] at h ⊢
  exact ⟨srising_filter _ h.1, fun p hp => h.2 p (List.mem_of_mem_filter hp)⟩

theorem mem_sins {m : SMap α} {k : Nat} {v : α} {p : Nat × α} (hp : p ∈ sins m k v) : p = (k, v) ∨ p ∈ m := by
  induction m with
  | nil => simpa [sins] using hp
  | cons q r ih =>
    obtain ⟨a, w⟩ := q
    simp only [sins] at hp
    split at hp
    · simpa using hp
    · split at hp
      · simp only [List.mem_cons] at hp ⊢; exact hp.imp_right .inr
      · simp only [List.mem_cons] at hp ⊢
        rcases hp with h | h
        · exact .inr (.inl h)
        · rcases ih h with h | h
          · exact .inl h
          · exact .inr (.inr h)

/-- A write keeps the canonical form. -/
theorem swf_sput {m : SMap α} {k : Nat} {v : α} (h : swf d m = true) : swf d (sput d m k v) = true := by
  unfold sput
  split
  · exact swf_sdel h
  · rename_i hv
    simp only [swf, Bool.and_eq_true, List.all_eq_true] at h ⊢
    refine ⟨srising_sins h.1 rfl, fun p hp => ?_⟩
    rcases mem_sins hp with rfl | hp
    · simpa using hv
    · exact h.2 p hp

/-- Changing values and leaving out those that become the default keeps the canonical form. -/
theorem swf_filterMap {m : SMap α} (f : Nat × α → Option (Nat × α))
    (hf : ∀ p q, f p = some q → q.1 = p.1 ∧ q.2 ≠ d q.1) (h : swf d m = true) : swf d (m.filterMap f) = true := by
  simp only [swf, Bool.and_eq_true, List.all_eq_true, decide_eq_true_eq] at h ⊢
  refine ⟨srising_filterMap f (fun p q e => (hf p q e).1) h.1, fun q hq => ?_⟩
  obtain ⟨p, _, hp⟩ := List.mem_filterMap.1 hq
  exact (hf p q hp).2

/-! Byte memories -/

@[simp] theorem rd8_wr8 (m : Mem) (a : Nat) (b : Byte) (j : Nat) : rd8 (wr8 m a b) j = if a = j then b else rd8 m j := by
  simp [rd8, wr8]

theorem Memory.wf_wr8 {m : Mem} {a : Nat} {b : Byte} (h : Memory.wf m = true) : Memory.wf (wr8 m a b) = true := swf_sput h

theorem Memory.wf_wrBytes : ∀ {bs : List Byte} {m : Mem} {a : Nat}, Memory.wf m = true → Memory.wf (wrBytes m a bs) = true
  | [], _, _, h => h
  | b :: bs, m, a, h => by rw [wrBytes]; exact Memory.wf_wrBytes (Memory.wf_wr8 h)

theorem Memory.wf_wrLe {m : Mem} {a n v : Nat} (h : Memory.wf m = true) : Memory.wf (wrLe m a n v) = true := Memory.wf_wrBytes h

theorem Memory.wf_foldl {β : Type} {f : Mem → β → Mem} {l : List β} {m : Mem} (h : Memory.wf m = true)
    (hf : ∀ m b, Memory.wf m = true → Memory.wf (f m b) = true) : Memory.wf (l.foldl f m) = true := by
  induction l generalizing m with
  | nil => exact h
  | cons b l ih => exact ih (hf m b h)

/-- A store of bytes: each lies where it was stored, and every other address reads as before. -/
theorem rd8_wrBytes : ∀ (bs : List Byte) (m : Mem) (a j : Nat),
    rd8 (wrBytes m a bs) j = if a ≤ j ∧ j < a + bs.length then bs.getD (j - a) 0 else rd8 m j
  | [], m, a, j => by
    rw [wrBytes, if_neg (by simp only [List.length_nil]; omega)]
  | b :: bs, m, a, j => by
    rw [wrBytes, rd8_wrBytes bs, List.length_cons, rd8_wr8]
    by_cases h : a = j
    · subst h
      rw [if_neg (by omega), if_pos rfl, if_pos (by omega), Nat.sub_self]; rfl
    · by_cases h2 : a ≤ j ∧ j < a + (bs.length + 1)
      · have e : j - a = (j - (a + 1)) + 1 := by omega
        rw [if_pos (by omega), if_pos h2, e, List.getD_cons_succ]
      · rw [if_neg (by omega), if_neg h2, if_neg h]

@[simp] theorem length_rdBytes (m : Mem) (a n : Nat) : (rdBytes m a n).length = n := by simp [rdBytes]

/-- What was stored is what is then read. -/
theorem rdBytes_wrBytes (m : Mem) (a : Nat) (bs : List Byte) : rdBytes (wrBytes m a bs) a bs.length = bs := by
  apply List.ext_getElem
  · simp
  · intro i h1 h2
    simp only [length_rdBytes] at h1
    simp [rdBytes, rd8_wrBytes, h1]

@[simp] theorem length_natLe (n v : Nat) : (natLe n v).length = n := by
  induction n generalizing v with
  | zero => rfl
  | succ n ih => simp [natLe, ih]

/-- Little-endian bytes spell the number they were made from. -/
theorem leNat_natLe (n v : Nat) : leNat (natLe n v) = v % 256 ^ n := by
  induction n generalizing v with
  | zero => simp [natLe, leNat, Nat.mod_one]
  | succ n ih =>
    simp only [natLe, leNat, ih, BitVec.toNat_ofNat]
    have h : v % 256 ^ (n + 1) = v % 256 + 256 * (v / 256 % 256 ^ n) := by
      rw [Nat.pow_succ, Nat.mul_comm, Nat.mod_mul]
    omega

end Sys2Proof.Machine
end

