-- ==== Sys2Proof/Laws/Issue.lean ====
section
/-! SUPPORT. Laws/Issue.lean: reads of tiles after writes, and what the issue of a bundle that holds one slot does. -/

namespace Sys2Proof.Machine

theorem tile_setTile (s : State) (t k : Nat) (x : Tile) : (s.setTile t x).tile k = if t = k then x else s.tile k := by
  simp [State.tile, State.setTile]

theorem ptile_setPtile (s : State) (p k : Nat) (x : PTile) : (s.setPtile p x).ptile k = if p = k then x else s.ptile k := by
  simp [State.ptile, State.setPtile]

@[simp] theorem tile_setTile_self (s : State) (t : Nat) (x : Tile) : (s.setTile t x).tile t = x := by simp [tile_setTile]

@[simp] theorem tile_setPtile (s : State) (p k : Nat) (x : PTile) : (s.setPtile p x).tile k = s.tile k := rfl

@[simp] theorem ptile_setTile (s : State) (t k : Nat) (x : Tile) : (s.setTile t x).ptile k = s.ptile k := rfl

@[simp] theorem tile_chrAdd (s : State) (k m g c n t : Nat) : (s.chrAdd k m g c n).tile t = s.tile t := rfl

/-- A count changes chronograph counters of the one physical tile and nothing else. -/
theorem chrFold_eq (f : Nat → PTile → Bool) (i : Nat → Nat) (n : W64) (l : List Nat) (x : PTile) :
    l.foldl (fun p b => if f b p then { p with chr := smod zero64 p.chr (i b) (· + n) } else p) x =
      { x with chr := (l.foldl (fun p b => if f b p then { p with chr := smod zero64 p.chr (i b) (· + n) } else p) x).chr } := by
  induction l generalizing x with
  | nil => rfl
  | cons b l ih =>
    simp only [List.foldl_cons]
    split
    · rw [ih]
    · exact ih _

theorem ptile_chrAdd (s : State) (k m g c n p : Nat) : (s.chrAdd k m g c n).ptile p = { s.ptile p with chr := ((s.chrAdd k m g c n).ptile p).chr } := by
  unfold State.chrAdd
  rw [ptile_setPtile]
  split
  · subst_vars
    exact chrFold_eq (fun b _ => _) (fun b => b * 16 + c) (BitVec.ofNat 64 n) _ _
  · rfl

theorem ptile_chrAdd_ne (s : State) (k m g c n p : Nat) (h : p ≠ k) : (s.chrAdd k m g c n).ptile p = s.ptile p := by
  unfold State.chrAdd
  rw [ptile_setPtile, if_neg (fun e => h e.symm)]

theorem chrAdd_rest (s : State) (k m g c n : Nat) : s.chrAdd k m g c n = { s with ptiles := (s.chrAdd k m g c n).ptiles } := rfl

@[simp] theorem opened_tile (s : State) (t : Nat) : (s.opened t).tile t = (s.tile t).stamp s.clk.etick := by simp [State.opened]

@[simp] theorem opened_clk (s : State) (t : Nat) : (s.opened t).clk = s.clk := rfl

@[simp] theorem openedV_tile (s : State) (t : Nat) : (s.openedV t).tile t = (s.tile t).stamp s.clk.etick := by simp [State.openedV]

@[simp] theorem openedV_clk (s : State) (t : Nat) : (s.openedV t).clk = s.clk := rfl

@[simp] theorem opened_hbm (s : State) (t : Nat) : (s.opened t).hbm = s.hbm := rfl

@[simp] theorem openedV_hbm (s : State) (t : Nat) : (s.openedV t).hbm = s.hbm := rfl

/-- Writing a tile back changes no read of a tile. -/
@[simp] theorem writeBack_tile (s : State) (t k : Nat) : (s.writeBack t).tile k = s.tile k := by
  simp only [State.writeBack, tile_setTile]; split <;> simp_all

@[simp] theorem writeBack_ptile (s : State) (t p : Nat) : (s.writeBack t).ptile p = s.ptile p := rfl

theorem opened_ptile (s : State) (t p : Nat) : (s.opened t).ptile p = { s.ptile p with chr := ((s.opened t).ptile p).chr } := by
  rw [State.opened, ptile_chrAdd, ptile_setTile]

theorem opened_ptile_ne (s : State) (t p : Nat) (h : p ≠ s.plc.phys t) : (s.opened t).ptile p = s.ptile p := by
  rw [State.opened, ptile_chrAdd_ne _ _ _ _ _ _ _ h, ptile_setTile]

theorem opened_tile_ne (s : State) (t k : Nat) (h : k ≠ t) : (s.opened t).tile k = s.tile k := by
  rw [State.opened, tile_chrAdd, tile_setTile, if_neg (fun e => h e.symm)]

/-- A slot that rewrites its tile leaves a state that counts as issued. -/
theorem issued_set (s : State) (t : Nat) (x y : Tile) (e : y = x.stamp s.clk.etick) : s.Issued (((s.opened t).setTile t y).writeBack t) t x := by
  subst e
  refine ⟨by simp only [State.writeBack, State.setTile, State.opened, State.chrAdd, State.setPtile], ?_, ?_, ?_, ?_⟩
  · simp
  · intro k hk
    rw [writeBack_tile, tile_setTile, if_neg (fun e => hk e.symm), opened_tile_ne s t k hk]
  · intro p
    rw [writeBack_ptile, ptile_setTile]; exact opened_ptile s t p
  · intro p hp
    rw [writeBack_ptile, ptile_setTile]; exact opened_ptile_ne s t p hp

@[simp] theorem loopEnds_nil (x : Tile) : x.loopEnds [] = (x, none) := rfl

/-- A bundle of the model's own rows leaves the program counter to its slots. -/
theorem advance_nil (s : State) (t : Nat) (b : Bundle) : s.advance t b false [] = s.writeBack t := by
  simp [State.advance, State.writeBack]

/-- A bundle that nothing holds and that passes its checks issues. -/
theorem issue_ok {s : State} {t : Nat} {b : Bundle} {u : State} (h : s.canIssue t = true) (hh : s.holds t b false = [])
    (hp : s.prepBundle t b false = .ok u) : s.issue t b false = .next u := by
  simp only [State.canIssue, Bool.and_eq_true, decide_eq_true_eq, Bool.not_eq_true', beq_iff_eq] at h
  obtain ⟨⟨⟨⟨⟨h1, h2⟩, h3⟩, h4⟩, h5⟩, -⟩ := h
  unfold State.issue
  simp only [h1, h2, h4, h5, hh, hp, State.orFault]
  simp [Nat.not_le.2 h3]

@[simp] theorem sramHit_nil (t : Nat) (f : Nat → Bool) : sramHit t f [] = false := rfl

@[simp] theorem readHeld_nil (s : State) (t : Nat) : s.readHeld t [] = false := rfl

/-! A bundle of one C slot -/

@[simp] theorem vHold_nop (x : Tile) (n : Nat) : x.vHold VSlot.nop n = none := rfl
@[simp] theorem vReads_nop (s : State) (t : Nat) : s.vReads t VSlot.nop = [] := rfl
@[simp] theorem vHolds_nop (s : State) (t : Nat) : s.vHolds t VSlot.nop = [] := rfl
@[simp] theorem sHolds_nop (s : State) (t : Nat) : s.sHolds t SSlot.nop = [] := rfl
@[simp] theorem cHolds_nop (s : State) (t : Nat) : s.cHolds t CSlot.nop = [] := rfl
@[simp] theorem skHold_nil (s : State) (t : Nat) : s.skHold t [] = [] := rfl
theorem holds_ofC (s : State) (t : Nat) (c : CSlot) (h : s.bundleRecs t (.ofC c) = []) (hs : (s.tile t).starting = false) :
    s.holds t (.ofC c) false = s.cHolds t c.check := by
  rw [State.holds, h, hs]; rfl

/-- A tile that takes a bundle in this tick performs no restored load before it. -/
theorem canIssue_starting {s : State} {t : Nat} (h : s.canIssue t = true) : (s.tile t).starting = false := by
  simp only [State.canIssue, Bool.and_eq_true, Bool.not_eq_true'] at h
  exact h.2

theorem prepBundle_ofC (s : State) (t : Nat) (c : CSlot) (g : State → State) (h : s.prepC t c.check (s.tile t).pc = .ok g) :
    s.prepBundle t (.ofC c) false = .ok ((g (s.opened t)).writeBack t) := by
  have e : ((List.range 4).filter fun n => bitOf 0 n && ((s.tile t).level n).active) = [] := rfl
  unfold State.prepBundle
  simp only [Bundle.ofC, Bundle.nop] at *
  simp [State.prepF, State.prepB, State.prepVslot, State.prepV, State.prepS, FSlot.nop, BSlot.nop, VSlot.nop, SSlot.nop, BSlot.halves, illegalIf, bind, Except.bind, pure, Except.pure, h, e, advance_nil, State.opened]

/-- A C-slot row whose instruction nothing holds and that passes its checks. -/
theorem only_ofC {s : State} {t : Nat} {c : CSlot} {g : State → State} (h : s.canIssue t = true) (hr : s.bundleRecs t (.ofC c) = [])
    (hh : s.cHolds t c.check = []) (hp : s.prepC t c.check (s.tile t).pc = .ok g) :
    s.only t (.ofC c) = .next ((g (s.opened t)).writeBack t) :=
  issue_ok h ((holds_ofC s t c hr (canIssue_starting h)).trans hh) (prepBundle_ofC s t c g hp)

end Sys2Proof.Machine
end

