-- ==== Sys2Proof/Laws/Keep.lean ====
section
/-! SUPPORT. Laws/Keep.lean: the relation between the states before and after an operation, and how it goes through the forms
that operations are written in. -/

namespace Sys2Proof.Machine

/-! HBM -/

theorem Hbm.wf_iff {h : Hbm} : h.wf = true ↔ Memory.wf h.mem = true ∧ swf (fun _ => Gran.init) h.tab = true ∧
    swf (fun _ => Hctl.init) h.ctl = true ∧ swf zero32 h.cec = true := by simp [Hbm.wf, and_assoc]

theorem Hbm.wf_setGran {h : Hbm} {g : Nat} {x : Gran} (w : h.wf = true) : (h.setGran g x).wf = true := by
  rw [Hbm.wf_iff] at w ⊢; exact ⟨w.1, swf_sput w.2.1, w.2.2⟩

theorem Hbm.wf_setCtl {h : Hbm} {i : Nat} {x : Hctl} (w : h.wf = true) : (h.setCtl i x).wf = true := by
  rw [Hbm.wf_iff] at w ⊢; exact ⟨w.1, w.2.1, swf_sput w.2.2.1, w.2.2.2⟩

theorem Hbm.wf_touch {h : Hbm} {g : Nat} (w : h.wf = true) : (h.touch g).wf = true := Hbm.wf_setCtl w

theorem Hbm.wf_mem {h : Hbm} {m : Mem} (w : h.wf = true) (hm : Memory.wf m = true) : ({ h with mem := m } : Hbm).wf = true := by
  rw [Hbm.wf_iff] at w ⊢; exact ⟨hm, w.2⟩

theorem Hbm.mem_wf {h : Hbm} (w : h.wf = true) : Memory.wf h.mem = true := (Hbm.wf_iff.1 w).1

theorem Hbm.wf_writeGran {h : Hbm} {g : Nat} {b : List Byte} {cv : Option W32} {p : Bool} (w : h.wf = true) :
    (h.writeGran g b cv p).wf = true := by
  unfold Hbm.writeGran; exact Hbm.wf_touch (Hbm.wf_setGran (Hbm.wf_mem w (Memory.wf_wrBytes (Hbm.mem_wf w))))

theorem Hbm.wf_writePart {h : Hbm} {a : Nat} {b : List Byte} (w : h.wf = true) : (h.writePart a b).wf = true := by
  unfold Hbm.writePart; exact Hbm.wf_touch (Hbm.wf_setGran (Hbm.wf_mem w (Memory.wf_wrBytes (Hbm.mem_wf w))))

theorem Hbm.wf_writeRaw {mark : Nat → Bool} : ∀ {n : Nat} {h : Hbm} {a : Nat} {b : List Byte}, h.wf = true →
    (Hbm.writeRaw mark n h a b).wf = true
  | 0, _, _, _, w => w
  | n + 1, h, a, b, w => by
    unfold Hbm.writeRaw
    split
    · exact w
    · apply Hbm.wf_writeRaw
      split
      · exact Hbm.wf_writeGran w
      · exact Hbm.wf_writePart w

theorem Hbm.wf_foldl {β : Type} {f : Hbm → β → Hbm} {l : List β} {h : Hbm} (w : h.wf = true)
    (hf : ∀ h b, h.wf = true → (f h b).wf = true) : (l.foldl f h).wf = true := by
  induction l generalizing h with
  | nil => exact w
  | cons b l ih => exact ih (hf h b w)

/-- Changing controllers and leaving out those that are then as after reset. -/
theorem Hbm.wf_ctlMap {h : Hbm} {f : Nat × Hctl → Hctl} (w : h.wf = true) :
    ({ h with ctl := h.ctl.filterMap (fun p => if f p = Hctl.init then none else some (p.1, f p)) } : Hbm).wf = true := by
  rw [Hbm.wf_iff] at w ⊢
  refine ⟨w.1, w.2.1, swf_filterMap _ ?_ w.2.2.1, w.2.2.2⟩
  intro p q; split <;> simp_all
  rintro rfl; simp_all

theorem Hbm.wf_sift {h : Hbm} {phys : Nat → Nat} {gone : HReq → Bool} {out : PfEntry → Bool} (w : h.wf = true) : (h.sift phys gone out).wf = true :=
  Hbm.wf_ctlMap w

theorem State.forget_wf {s : State} {g : Nat → Bool} (w : s.hbm.wf = true) : (s.forget g).wf = true := Hbm.wf_sift w

theorem Hbm.wf_filter {h : Hbm} {f : Nat × Byte → Bool} {g : Nat × Gran → Bool} (w : h.wf = true) :
    ({ h with mem := h.mem.filter f, tab := h.tab.filter g } : Hbm).wf = true := by
  rw [Hbm.wf_iff] at w ⊢
  exact ⟨swf_filter _ w.1, swf_filter _ w.2.1, w.2.2⟩

/-! Memory operations of tensors -/

theorem wf_zeroFill {m : Mem} {a b c d : Nat} (w : Memory.wf m = true) : Memory.wf (zeroFill m a b c d) = true := by
  unfold zeroFill; split
  · exact Memory.wf_wrBytes w
  · exact w

theorem wf_bumpLe {m : Mem} {a b c : Nat} (w : Memory.wf m = true) : Memory.wf (bumpLe m a b c) = true := by
  unfold bumpLe; split
  · exact w
  · exact Memory.wf_wrLe w

theorem MetaOp.wf_apply {m : Mem} {o : MetaOp} (w : Memory.wf m = true) : Memory.wf (o.apply m) = true := by
  cases o with
  | add a n k => exact wf_bumpLe w
  | bit a i v => exact Memory.wf_wr8 w

theorem wf_putBlock {d : TDesc} {m : Mem} {b c : Nat} {ms : List Int} (w : Memory.wf m = true) :
    Memory.wf (d.putBlock m b c ms) = true := wf_zeroFill (Memory.wf_wr8 (wf_zeroFill (Memory.wf_wrBytes w)))

theorem wf_writeBlock {d : TDesc} {m : Mem} {b : Nat} {o : BlockOut} {f : Bool} (w : Memory.wf m = true) :
    Memory.wf (d.writeBlock m b o f) = true := by
  have w1 := wf_putBlock (d := d) (b := b) (c := o.code) (ms := o.m) w
  unfold TDesc.writeBlock
  dsimp only
  split
  · exact wf_zeroFill (Memory.wf_wr8 w1)
  · exact w1

theorem wf_sadvBlock {d : TDesc} {m : Mem} {b : Nat} (w : Memory.wf m = true) : Memory.wf (Sadv.block d m b).1 = true := by
  unfold Sadv.block
  dsimp only
  split
  · exact wf_putBlock w
  · exact w

theorem wf_putEnc {d : TDesc} {m : Mem} {i e : Nat} (w : Memory.wf m = true) : Memory.wf (d.putEnc m i e) = true :=
  wf_zeroFill (Memory.wf_wrLe w)

theorem wf_setFrState {m : Mem} {a v : Nat} (w : Memory.wf m = true) : Memory.wf (setFrState m a v) = true := Memory.wf_wr8 w

theorem Hbm.wf_cec {h : Hbm} {k : Nat} {v : W32} (w : h.wf = true) : ({ h with cec := sput zero32 h.cec k v } : Hbm).wf = true := by
  rw [Hbm.wf_iff] at w ⊢; exact ⟨w.1, w.2.1, w.2.2.1, swf_sput w.2.2.2⟩

/-! Fuses -/

theorem Fuses.After.refl (u : Fuses) : u.After u := ⟨rfl, by simp, by simp, id⟩

theorem Fuses.After.trans {u v w : Fuses} (a : u.After v) (b : v.After w) : u.After w := by
  refine ⟨?_, ?_, ?_, fun h => b.last (a.last h)⟩
  · have e := b.same
    have e2 := a.same
    rw [← e] at e2; simpa using e2
  · rw [← b.svn, BitVec.or_assoc, a.svn]
  · rw [← b.revoke, BitVec.or_assoc, a.revoke]

theorem Fuses.After.tiles {u v : Fuses} (a : u.After v) : v.tiles = u.tiles := by
  have := congrArg Fuses.tiles a.same; simpa using this

theorem Fuses.After.legal {u v : Fuses} (a : u.After v) (h : u.legal) : v.legal := by
  intro q hq; have := h q hq; rwa [Fuses.working, a.tiles]

/-! The relation -/

/-- What every operation keeps, said of the parts that it rests on. -/
structure KeepC (s : State) (hbm : Hbm) (plc : Placement) (queue : List Instr) (fuses : Fuses) : Prop where
  hbm : s.hbm.wf = true → hbm.wf = true
  plc : s.fuses.legal → s.plc.distinct → plc.distinct
  queue : queue = s.pending
  fuses : s.fuses.After fuses

/-- From `s` to `t`: the form of device memory is kept, the placement stays one to one, the queue is the same, and no blown fuse is
undone. -/
def Keep (s t : State) : Prop := KeepC s t.hbm t.plc t.pending t.fuses

theorem Keep.refl (s : State) : Keep s s := ⟨id, fun _ h => h, rfl, Fuses.After.refl _⟩

theorem Keep.trans {s t u : State} (a : Keep s t) (b : Keep t u) : Keep s u :=
  ⟨fun h => b.hbm (a.hbm h), fun h k => b.plc (a.fuses.legal h) (a.plc h k), b.queue.trans a.queue, a.fuses.trans b.fuses⟩

theorem Keep.inv {s t : State} (a : Keep s t) (h : s.Inv) : t.Inv :=
  ⟨a.hbm h.hbm, a.fuses.legal h.fuses, a.fuses.last h.root, a.plc h.fuses h.plc⟩

/-- A record literal keeps where its four parts do. -/
theorem Keep.mk_eq {s : State} {pending freeCtr phase pins clk cfg lockWas w1cNow hi busRead power rgl fuses flash sec tc sigs hosts lease plc hbm metaQ cvUnchecked cvFail testLate ctxs sched tiles ptiles links lnk coreRet coreHalt coreStep l2 stimecmp} :
    Keep s (State.mk pending freeCtr phase pins clk cfg lockWas w1cNow hi busRead power rgl fuses flash sec tc sigs hosts lease plc hbm metaQ cvUnchecked cvFail testLate ctxs sched tiles ptiles links lnk coreRet coreHalt coreStep l2 stimecmp) = KeepC s hbm plc pending fuses := rfl

/-- A record that takes the four parts from `t`. -/
theorem KeepC.of {s t : State} (h : Keep s t) : KeepC s t.hbm t.plc t.pending t.fuses := h

theorem KeepC.setHbm {s t : State} {b : Hbm} (h : Keep s t) (w : t.hbm.wf = true → b.wf = true) :
    KeepC s b t.plc t.pending t.fuses := ⟨fun x => w (h.hbm x), h.plc, h.queue, h.fuses⟩

theorem KeepC.setPlc {s t : State} {p : Placement} (h : Keep s t) (w : t.fuses.legal → t.plc.distinct → p.distinct) :
    KeepC s t.hbm p t.pending t.fuses := ⟨h.hbm, fun x y => w (h.fuses.legal x) (h.plc x y), h.queue, h.fuses⟩

theorem Keep.setHbm {s t : State} {b : Hbm} (h : Keep s t) (w : t.hbm.wf = true → b.wf = true) :
    Keep s { t with hbm := b } := ⟨fun x => w (h.hbm x), h.plc, h.queue, h.fuses⟩

theorem Keep.setPlc {s t : State} {p : Placement} (h : Keep s t) (w : t.fuses.legal → t.plc.distinct → p.distinct) :
    Keep s { t with plc := p } := ⟨h.hbm, fun x y => w (h.fuses.legal x) (h.plc x y), h.queue, h.fuses⟩

theorem Keep.ite {s a b : State} {c : Prop} [Decidable c] (ha : Keep s a) (hb : Keep s b) : Keep s (if c then a else b) := by
  split <;> assumption

theorem Keep.foldl {β : Type} {s t : State} {f : State → β → State} {l : List β} (h : Keep s t) (hf : ∀ u b, Keep u (f u b)) :
    Keep s (l.foldl f t) := by
  induction l generalizing t with
  | nil => exact h
  | cons b l ih => exact ih (h.trans (hf t b))

theorem Keep.foldr {β : Type} {s t : State} {f : β → State → State} {l : List β} (h : Keep s t) (hf : ∀ u b, Keep u (f b u)) :
    Keep s (l.foldr f t) := by
  induction l with
  | nil => exact h
  | cons b l ih => exact ih.trans (hf _ b)

/-! Outcomes -/

/-- A next state, where the outcome is one, keeps. -/
def OKeep (s : State) (o : Host.Outcome State Fault Refusal) : Prop := ∀ t, o = .next t → Keep s t

theorem OKeep.next {s t : State} (h : Keep s t) : OKeep s (.next t) := by rintro u ⟨⟩; exact h
theorem OKeep.fault {s : State} {r : Fault} : OKeep s (.fault r) := by rintro u ⟨⟩
theorem OKeep.refused {s : State} {r : Refusal} : OKeep s (.refused r) := by rintro u ⟨⟩

theorem OKeep.occurs {s t u : State} {c : Bool} (h : Keep s t) (k : Keep s u) : OKeep s (occurs c t u) := by
  unfold Machine.occurs; split <;> exact OKeep.next ‹_›

/-- A state that an operation may answer. -/
def EKeep (s : State) (e : Except JF State) : Prop := ∀ t, e = .ok t → Keep s t

theorem EKeep.ok {s t : State} (h : Keep s t) : EKeep s (.ok t) := by rintro u ⟨⟩; exact h
theorem EKeep.error {s : State} {f : JF} : EKeep s (.error f) := by rintro u ⟨⟩
theorem OKeep.trans {s t : State} {o : Host.Outcome State Fault Refusal} (h : Keep s t) (k : OKeep t o) : OKeep s o :=
  fun u e => h.trans (k u e)

theorem EKeep.trans {s t : State} {e : Except JF State} (h : Keep s t) (k : EKeep t e) : EKeep s e :=
  fun u x => h.trans (k u x)

theorem EKeep.pure {s t : State} (h : Keep s t) : EKeep s (pure t) := EKeep.ok h

theorem EKeep.bind {α : Type} {s : State} {e : Except JF α} {f : α → Except JF State} (h : ∀ a, EKeep s (f a)) :
    EKeep s (e >>= f) := by
  cases e with
  | error f => rintro u ⟨⟩
  | ok a => exact h a

theorem EKeep.bindS {s : State} {e : Except JF State} {f : State → Except JF State} (he : EKeep s e) (h : ∀ a, EKeep a (f a)) :
    EKeep s (e >>= f) := by
  cases e with
  | error f => rintro u ⟨⟩
  | ok a => intro u hu; exact (he a rfl).trans (h a u hu)

theorem EKeep.foldl {β : Type} {s : State} {e : Except JF State} {f : Except JF State → β → Except JF State} {l : List β} (he : EKeep s e)
    (hf : ∀ e b, EKeep s e → EKeep s (f e b)) : EKeep s (l.foldl f e) := by
  induction l generalizing e with
  | nil => exact he
  | cons b l ih => exact ih (hf e b he)

/-- An answer that carries a state. -/
def XKeep {α : Type} (π : α → State) (s : State) (e : Except JF α) : Prop := ∀ a, e = .ok a → Keep s (π a)

theorem XKeep.ok {α : Type} {π : α → State} {s : State} {a : α} (h : Keep s (π a)) : XKeep π s (.ok a) := by rintro u ⟨⟩; exact h
theorem XKeep.error {α : Type} {π : α → State} {s : State} {f : JF} : XKeep π s (.error f) := by rintro u ⟨⟩

theorem EKeep.bindX {α : Type} {π : α → State} {s : State} {e : Except JF α} {f : α → Except JF State} (he : XKeep π s e)
    (h : ∀ a, EKeep (π a) (f a)) : EKeep s (e >>= f) := by
  cases e with
  | error f => rintro u ⟨⟩
  | ok a => intro u hu; exact (he a rfl).trans (h a u hu)

/-- An operation that is to run after its checks. -/
def FKeep (e : Except JF (State → State)) : Prop := ∀ f, e = .ok f → ∀ s, Keep s (f s)

theorem FKeep.ok {f : State → State} (h : ∀ s, Keep s (f s)) : FKeep (.ok f) := by rintro g ⟨⟩; exact h
theorem FKeep.error {f : JF} : FKeep (.error f) := by rintro u ⟨⟩
theorem FKeep.bind {α : Type} {e : Except JF α} {f : α → Except JF (State → State)} (h : ∀ a, FKeep (f a)) : FKeep (e >>= f) := by
  cases e with
  | error f => rintro u ⟨⟩
  | ok a => exact h a

end Sys2Proof.Machine
end

