-- ==== Sys2Proof/Laws/KeepHost.lean ====
section
/-! SUPPORT. Laws/KeepHost.lean: what every operation keeps, one lemma each: the host ports, the registers, power, security and the shared operations of faults. -/

namespace Sys2Proof.Machine

variable {s t : State}

/-! ## HostOps -/

theorem State.setHost_keep {p : ℕ} {h' : HostPort} (h : Keep s t) : Keep s (State.setHost t p h') :=
  h

theorem State.noteW1c_keep {k : ℕ} {bits : ℕ} (h : Keep s t) : Keep s (State.noteW1c t k bits) :=
  h

theorem State.hifErr_keep {p : ℕ} {bits : ℕ} (h : Keep s t) : Keep s (State.hifErr t p bits) := by
  unfold State.hifErr
  repeat' (first
    | (with_reducible first
      | exact h | apply State.noteW1c_keep | apply KeepC.of)
    | simp only [Keep.mk_eq, id_eq])

theorem State.raiseOn_keep {p : ℕ} {e : Event} (h : Keep s t) : Keep s (State.raiseOn t p e) := by
  unfold State.raiseOn
  repeat' (first
    | (with_reducible first
      | exact h | apply State.setHost_keep | apply State.hifErr_keep | apply Keep.ite))

theorem State.event_keep {kind : ℕ} {ctx : ℕ} {data : List (ℕ × ℕ × ℕ)} {recd : List Byte} (h : Keep s t) : Keep s (State.event t kind ctx data recd) :=
  State.raiseOn_keep (State.raiseOn_keep h)

theorem State.finish_keep {p : ℕ} {r : ℕ} {f : Fetched} {status : ℕ} {res0 : ℕ} {res1 : ℕ} (h : Keep s t) : Keep s (State.finish t p r f status res0 res1) :=
  State.setHost_keep h

theorem State.begin_keep {p : ℕ} {r : ℕ} {st : Started} (h : Keep s t) : Keep s (State.begin t p r st) := by
  unfold State.begin
  repeat' (first
    | (with_reducible first
      | exact h | apply State.setHost_keep)
    | simp only [Keep.mk_eq, id_eq] | split)

/-! ## Flash -/

theorem State.logEvent_keep {b : NvBody} (h : Keep s t) : Keep s (State.logEvent t b) :=
  h

theorem State.logAgeing_keep {b : NvBody} (h : Keep s t) : Keep s (State.logAgeing t b) :=
  h

theorem State.logLaser_keep {b : NvBody} (h : Keep s t) : Keep s (State.logLaser t b) :=
  h

theorem State.putSelect_keep {active : ℕ} {trial : ℕ} {tries : ℕ} {verA : ℕ} {verB : ℕ} (h : Keep s t) : Keep s (State.putSelect t active trial tries verA verB) :=
  h

/-! ## Security -/

theorem State.answer_keep {b : List Byte} (h : Keep s t) : Keep s (State.answer t b) :=
  h

theorem execGetCerts_keep {body : List Byte} (h : Keep s t) : OKeep s (execGetCerts body t) := by
  unfold execGetCerts
  repeat' (first
    | (with_reducible first
      | exact h | apply State.answer_keep | apply OKeep.occurs | apply Keep.ite))

theorem execGetReport_keep {body : List Byte} (h : Keep s t) : OKeep s (execGetReport body t) := by
  unfold execGetReport
  repeat' (first
    | (with_reducible first
      | exact h | apply State.answer_keep | apply OKeep.occurs | apply Keep.ite | apply KeepC.of)
    | simp only [Keep.mk_eq, id_eq] | split)

theorem execDbgChalRead_keep (h : Keep s t) : OKeep s (execDbgChalRead t) := by
  unfold execDbgChalRead
  repeat' (first
    | (with_reducible first
      | exact h | apply OKeep.occurs | apply KeepC.of)
    | simp only [Keep.mk_eq, id_eq])

theorem execDebugToken_keep {token : List Byte} (h : Keep s t) : OKeep s (execDebugToken token t) := by
  unfold execDebugToken
  repeat' (first
    | (with_reducible first
      | exact h | apply OKeep.occurs | apply KeepC.of)
    | simp only [Keep.mk_eq, id_eq])

theorem execI3cSetdasa_keep {addr : BitVec 7} (h : Keep s t) : OKeep s (execI3cSetdasa addr t) := by
  unfold execI3cSetdasa
  repeat' (first
    | (with_reducible first
      | exact h | apply OKeep.occurs | apply KeepC.of)
    | simp only [Keep.mk_eq, id_eq])

theorem execI3cEntdaa_keep {addr : BitVec 7} (h : Keep s t) : OKeep s (execI3cEntdaa addr t) := by
  unfold execI3cEntdaa
  repeat' (first
    | (with_reducible first
      | exact h | apply OKeep.occurs | apply KeepC.of)
    | simp only [Keep.mk_eq, id_eq])

/-! ## Power -/

theorem execPowerLoop_keep {p : BitVec 32} {rails : List (ℕ × ℕ)} (h : Keep s t) : OKeep s (execPowerLoop p rails t) := by
  unfold execPowerLoop
  repeat' (first
    | (with_reducible first
      | exact h | apply OKeep.occurs | apply KeepC.of)
    | simp only [Keep.mk_eq, id_eq])

theorem execFastClamp_keep {amps : BitVec 16} (h : Keep s t) : OKeep s (execFastClamp amps t) := by
  unfold execFastClamp
  repeat' (first
    | (with_reducible first
      | exact h | apply OKeep.occurs | apply KeepC.of)
    | simp only [Keep.mk_eq, id_eq])

theorem State.unclamp_keep (h : Keep s t) : Keep s (State.unclamp t) :=
  h

theorem execFastClampRelease_keep (h : Keep s t) : OKeep s (execFastClampRelease t) := by
  unfold execFastClampRelease
  repeat' (first
    | (with_reducible first
      | exact h | apply State.unclamp_keep | apply OKeep.occurs))

theorem State.thermalEvent_keep (h : Keep s t) : Keep s (State.thermalEvent t) :=
  State.event_keep h

theorem execThermalLoop_keep {die : List ℤ} {hbm : List ℤ} {high : BitVec 12} (h : Keep s t) : OKeep s (execThermalLoop die hbm high t) := by
  unfold execThermalLoop
  repeat' (first
    | (with_reducible first
      | exact h | apply State.thermalEvent_keep | apply OKeep.occurs | apply Keep.ite | apply KeepC.of | exact OKeep.fault)
    | simp only [Keep.mk_eq, id_eq] | split)

theorem State.emergency_keep {m : ℕ} {r : ℤ} (h : Keep s t) : Keep s (State.emergency t m r) := by
  unfold State.emergency
  repeat' (first
    | (with_reducible first
      | exact h | apply State.logEvent_keep | apply Keep.ite | apply KeepC.of)
    | simp only [Keep.mk_eq, id_eq])

theorem State.takeReading_keep {m : ℕ} {r : ℤ} {pred : ℤ} (h : Keep s t) : Keep s (State.takeReading t m r pred) := by
  unfold State.takeReading
  repeat' (first
    | (with_reducible first
      | exact h | apply State.logEvent_keep | apply State.emergency_keep | apply Keep.ite | apply KeepC.of)
    | simp only [Keep.mk_eq, id_eq])

theorem execMonitorRead_keep {readings : List (ℕ × ℤ × ℤ)} (h : Keep s t) : OKeep s (execMonitorRead readings t) := by
  unfold execMonitorRead
  repeat' (first
    | (with_reducible first
      | exact h | apply State.takeReading_keep | exact Keep.refl _ | intro _ | apply OKeep.occurs | apply KeepC.of
      | apply Keep.foldl)
    | simp only [Keep.mk_eq, id_eq])

theorem State.replan_keep (h : Keep s t) : Keep s (State.replan t) :=
  State.logAgeing_keep h

theorem execReplan_keep (h : Keep s t) : OKeep s (execReplan t) := by
  unfold execReplan
  repeat' (first
    | (with_reducible first
      | exact h | apply State.replan_keep | apply OKeep.occurs))

theorem State.endObs_keep {o : CeilObs} (h : Keep s t) : Keep s (State.endObs t o) := by
  unfold State.endObs
  repeat' (first
    | (with_reducible first
      | exact h | apply Keep.ite | apply KeepC.of)
    | simp only [Keep.mk_eq, id_eq])

theorem execCeilObservation_keep (h : Keep s t) : OKeep s (execCeilObservation t) := by
  unfold execCeilObservation
  repeat' (first
    | (with_reducible first
      | exact h | apply State.endObs_keep | apply OKeep.next | apply OKeep.occurs)
    | split)

theorem execAgeHours_keep (h : Keep s t) : OKeep s (execAgeHours t) := by
  unfold execAgeHours
  repeat' (first
    | (with_reducible first
      | exact h | apply State.logAgeing_keep | apply OKeep.occurs))

/-! ## Regs -/

theorem State.setReg_keep {k : ℕ} {v : ℕ} (h : Keep s t) : Keep s (State.setReg t k v) :=
  h

theorem State.setPtile_keep {p : ℕ} {x : PTile} (h : Keep s t) : Keep s (State.setPtile t p x) :=
  h

theorem State.setLink_keep {n : ℕ} {x : LinkPort} (h : Keep s t) : Keep s (State.setLink t n x) :=
  h

theorem State.holdLock_keep {was : State} {k : ℕ} (h : Keep s t) : Keep s (State.holdLock t was k) := by
  unfold State.holdLock
  repeat' (first
    | (with_reducible first
      | exact h | apply Keep.ite | apply KeepC.of)
    | simp only [Keep.mk_eq, id_eq])

theorem State.readReg_keep {ag : ℕ} {off : ℕ} (h : Keep s t) : Keep s (State.readReg t ag off) := by
  unfold State.readReg
  repeat' (first
    | (with_reducible first
      | exact h | apply Keep.ite | apply KeepC.of)
    | simp only [Keep.mk_eq, id_eq] | split)

theorem State.late_keep {k : ℕ} (h : Keep s t) : Keep s (State.late t k) := by
  unfold State.late
  repeat' (first
    | (with_reducible first
      | exact h | apply State.setReg_keep | apply State.noteW1c_keep)
    | simp only [Keep.mk_eq, id_eq] | split)

theorem State.clearLate_keep {k : ℕ} (h : Keep s t) : Keep s (State.clearLate t k) := by
  unfold State.clearLate
  repeat' (first
    | (with_reducible first
      | exact h | apply State.setReg_keep)
    | split)

/-! ## HostCmd -/

theorem startCmd_keep {p : ℕ} {r : ℕ} {opc : ℕ} {run : Fetched → State} (h : Keep s t) (hrun : ∀ b0, Keep t (run b0)) : OKeep s (startCmd p r opc t run) := by
  unfold startCmd
  repeat' (first
    | (with_reducible first
      | exact h | exact h.trans (hrun _) | apply State.finish_keep | apply OKeep.next | apply Keep.ite)
    | split)

theorem State.loseLease_keep {cause : ℕ} (h : Keep s t) : Keep s (State.loseLease t cause) := by
  unfold State.loseLease
  repeat' (first
    | (with_reducible first
      | exact h | apply State.setHost_keep | apply State.event_keep | apply KeepC.of)
    | simp only [Keep.mk_eq, id_eq] | split)

theorem State.expireLease_keep (h : Keep s t) : Keep s (State.expireLease t) := by
  unfold State.expireLease
  repeat' (first
    | (with_reducible first
      | exact h | apply State.loseLease_keep | apply Keep.ite)
    | split)

theorem State.acquire_keep {p : ℕ} {r : ℕ} {f : Fetched} (h : Keep s t) : Keep s (State.acquire t p r f) := by
  unfold State.acquire
  repeat' (first
    | (with_reducible first
      | exact h | apply State.finish_keep | apply State.expireLease_keep | apply State.event_keep | apply Keep.ite
      | apply KeepC.of)
    | simp only [Keep.mk_eq, id_eq] | split)

theorem State.renew_keep {p : ℕ} {r : ℕ} {f : Fetched} (h : Keep s t) : Keep s (State.renew t p r f) := by
  unfold State.renew
  repeat' (first
    | (with_reducible first
      | exact h | apply State.finish_keep | apply Keep.ite | apply KeepC.of)
    | simp only [Keep.mk_eq, id_eq] | split)

theorem State.release_keep {p : ℕ} {r : ℕ} {f : Fetched} (h : Keep s t) : Keep s (State.release t p r f) := by
  unfold State.release
  repeat' (first
    | (with_reducible first
      | exact h | apply State.loseLease_keep | apply State.finish_keep | apply Keep.ite))

theorem State.processLease_keep {p : ℕ} {r : ℕ} (h : Keep s t) : Keep s (State.processLease t p r) := by
  unfold State.processLease
  repeat' (first
    | (with_reducible first
      | exact h | apply State.finish_keep | apply State.acquire_keep | apply State.renew_keep | apply State.release_keep
      | apply Keep.ite)
    | split)

theorem leaseRow_keep {opc : ℕ} {p : ℕ} {r : ℕ} (h : Keep s t) : OKeep s (leaseRow opc p r t) := by
  unfold leaseRow
  repeat' (first
    | (with_reducible first
      | exact h | apply State.processLease_keep | apply OKeep.occurs))

theorem execLeaseAcquire_keep {p : Fin 2} {r : Fin 16} (h : Keep s t) : OKeep s (execLeaseAcquire p r t) :=
  leaseRow_keep h

theorem execLeaseRenew_keep {p : Fin 2} {r : Fin 16} (h : Keep s t) : OKeep s (execLeaseRenew p r t) :=
  leaseRow_keep h

theorem execLeaseRelease_keep {p : Fin 2} {r : Fin 16} (h : Keep s t) : OKeep s (execLeaseRelease p r t) :=
  leaseRow_keep h

theorem State.leaseAll_keep : ∀ {s t : State} {n : Nat} (_ : Keep s t), Keep s (State.leaseAll n t)
  | _, _, 0, h => h
  | s, t, n + 1, h => by
    unfold State.leaseAll
    split
    · exact h
    · exact State.leaseAll_keep (State.processLease_keep h)

theorem execLeaseRound_keep (h : Keep s t) : OKeep s (execLeaseRound t) := by
  unfold execLeaseRound
  repeat' (first
    | (with_reducible first
      | exact h | apply State.leaseAll_keep | apply OKeep.occurs))

theorem execLeaseExpiry_keep (h : Keep s t) : OKeep s (execLeaseExpiry t) := by
  unfold execLeaseExpiry
  repeat' (first
    | (with_reducible first
      | exact h | apply State.expireLease_keep | apply OKeep.occurs))

theorem State.ringWord_keep {p : ℕ} {h' : Mem} {dbb : ℕ} {r : ℕ} (h : Keep s t) : Keep s (State.ringWord t p h' dbb r) := by
  unfold State.ringWord
  repeat' (first
    | (with_reducible first
      | exact h | apply State.setHost_keep | apply State.hifErr_keep | apply State.raiseOn_keep | apply Keep.ite)
    | simp only [Keep.mk_eq, id_eq] | split)

theorem State.pollRing_keep {p : ℕ} {h' : Mem} {r : ℕ} (h : Keep s t) : Keep s (State.pollRing t p h' r) :=
  State.setHost_keep h

theorem execDoorbellPoll_keep {p : Fin 2} {ok : Bool} {h' : List Host.Cell} (h : Keep s t) : OKeep s (execDoorbellPoll p ok h' t) := by
  unfold execDoorbellPoll
  repeat' (first
    | (with_reducible first
      | exact h | apply State.setHost_keep | apply State.hifErr_keep | apply State.ringWord_keep | apply State.pollRing_keep
      | exact Keep.refl _ | intro _ | apply OKeep.occurs | apply Keep.ite | apply Keep.foldl))

theorem State.toHost_keep {p : ℕ} {addr : ℕ} {b : List Byte} (h : Keep s t) : Keep s (State.toHost t p addr b) :=
  State.setHost_keep h

theorem execHostNop_keep {p : Fin 2} {r : Fin 16} (h : Keep s t) : OKeep s (execHostNop p r t) := by
  unfold execHostNop
  repeat' (first
    | (with_reducible first
      | exact h | apply startCmd_keep | apply State.finish_keep | exact Keep.refl _ | intro _))

theorem execIdentify_keep {p : Fin 2} {r : Fin 16} (h : Keep s t) : OKeep s (execIdentify p r t) := by
  unfold execIdentify
  repeat' (first
    | (with_reducible first
      | exact h | apply startCmd_keep | apply State.finish_keep | apply State.toHost_keep | exact Keep.refl _ | intro _))

theorem execCreateRing_keep {p : Fin 2} {r : Fin 16} (h : Keep s t) : OKeep s (execCreateRing p r t) := by
  unfold execCreateRing
  repeat' (first
    | (with_reducible first
      | exact h | apply startCmd_keep | apply State.finish_keep | apply State.setHost_keep | exact Keep.refl _ | intro _
      | apply Keep.ite))

theorem execDeleteRing_keep {p : Fin 2} {r : Fin 16} (h : Keep s t) : OKeep s (execDeleteRing p r t) := by
  unfold execDeleteRing
  repeat' (first
    | (with_reducible first
      | exact h | apply startCmd_keep | apply State.finish_keep | apply State.setHost_keep | exact Keep.refl _ | intro _
      | apply Keep.ite))

theorem execSetEventBuffer_keep {p : Fin 2} {r : Fin 16} (h : Keep s t) : OKeep s (execSetEventBuffer p r t) := by
  unfold execSetEventBuffer
  repeat' (first
    | (with_reducible first
      | exact h | apply startCmd_keep | apply State.finish_keep | apply State.setHost_keep | exact Keep.refl _ | intro _
      | apply Keep.ite))

theorem execCtxQuery_keep {p : Fin 2} {r : Fin 16} (h : Keep s t) : OKeep s (execCtxQuery p r t) := by
  unfold execCtxQuery
  repeat' (first
    | (with_reducible first
      | exact h | apply startCmd_keep | apply State.finish_keep | exact Keep.refl _ | intro _)
    | split)

theorem execTcPush_keep {p : Fin 2} {r : Fin 16} {ok : Bool} {h' : List Host.Cell} (h : Keep s t) : OKeep s (execTcPush p r ok h' t) := by
  unfold execTcPush
  repeat' (first
    | (with_reducible first
      | exact h | apply startCmd_keep | apply State.finish_keep | exact Keep.refl _ | intro _ | apply Keep.ite | apply KeepC.of)
    | simp only [Keep.mk_eq, id_eq] | split)

theorem State.clearTrial_keep (h : Keep s t) : Keep s (State.clearTrial t) := by
  unfold State.clearTrial
  repeat' (first
    | (with_reducible first
      | exact h | apply State.putSelect_keep | apply Keep.ite))

theorem execFwWrite_keep {p : Fin 2} {r : Fin 16} {ok : Bool} {h' : List Host.Cell} (h : Keep s t) : OKeep s (execFwWrite p r ok h' t) := by
  unfold execFwWrite
  repeat' (first
    | (with_reducible first
      | exact h | apply startCmd_keep | apply State.finish_keep | apply State.clearTrial_keep | exact Keep.refl _ | intro _
      | apply Keep.ite | apply KeepC.of)
    | simp only [Keep.mk_eq, id_eq])

theorem execFwActivate_keep {p : Fin 2} {r : Fin 16} (h : Keep s t) : OKeep s (execFwActivate p r t) := by
  unfold execFwActivate
  repeat' (first
    | (with_reducible first
      | exact h | apply startCmd_keep | apply State.finish_keep | apply State.putSelect_keep | exact Keep.refl _ | intro _)
    | simp only [Keep.mk_eq, id_eq] | split)

theorem execMsixCoalesceTimeout_keep {p : Fin 2} {r : Fin 16} (h : Keep s t) : OKeep s (execMsixCoalesceTimeout p r t) := by
  unfold execMsixCoalesceTimeout
  repeat' (first
    | (with_reducible first
      | exact h | apply State.setHost_keep | apply OKeep.next | apply OKeep.occurs)
    | simp only [Keep.mk_eq, id_eq] | split)

/-! ## FaultOps -/

theorem State.setTile_keep {t' : ℕ} {x : Tile} (h : Keep s t) : Keep s (State.setTile t t' x) :=
  h

theorem State.setCtx_keep {n : ℕ} {c : Ctx} (h : Keep s t) : Keep s (State.setCtx t n c) :=
  h

theorem State.setMem_keep {s t : State} {m : Mem} (h : Keep s t) (w : Memory.wf t.mem = true → Memory.wf m = true) :
    Keep s (t.setMem m) :=
  Keep.setHbm h fun x => Hbm.wf_mem x (w (Hbm.mem_wf x))

theorem State.spend_keep {n : ℕ} (h : Keep s t) : Keep s (State.spend t n) :=
  h

theorem State.setTag_keep {g : ℕ} {v : W32} (h : Keep s t) : Keep s (State.setTag t g v) := by
  unfold State.setTag
  repeat' (first
    | (with_reducible first
      | exact h | assumption | intro _ | apply KeepC.setHbm | apply Hbm.wf_setGran)
    | simp only [Keep.mk_eq, id_eq])

theorem State.markWrite_keep {s t : State} {ivs : List (Nat × Nat)} {poison : Bool} (h : Keep s t) :
    Keep s (t.markWrite ivs poison) := by
  refine Keep.setHbm h fun x => Hbm.wf_foldl x fun b g w => ?_
  dsimp only
  split
  · exact Hbm.wf_setGran w
  · split
    · exact Hbm.wf_setGran w
    · exact w

theorem State.noteHbm_keep {s t : State} {a n : Nat} (h : Keep s t) : Keep s (t.noteHbm a n) := by
  unfold State.noteHbm
  split
  · exact h
  · exact Keep.setHbm h fun x => Hbm.wf_foldl x fun b g w => Hbm.wf_touch (Hbm.wf_setGran w)

theorem State.dropTiles_keep {s t : State} {ts : List Nat} (h : Keep s t) : Keep s (t.dropTiles ts) :=
  ⟨fun x => State.forget_wf (h.hbm x), h.plc, h.queue, h.fuses⟩

theorem State.endStops_keep {n : ℕ} {status : ℕ} (h : Keep s t) : Keep s (State.endStops t n status) := by
  unfold State.endStops
  repeat' (first
    | (with_reducible first
      | exact h | apply State.setHost_keep | exact Keep.refl _ | intro _ | apply Keep.foldl))

theorem State.stopCtx_keep {n : ℕ} {status : ℕ} (h : Keep s t) : Keep s (State.stopCtx t n status) := by
  unfold State.stopCtx
  repeat' (first
    | (with_reducible first
      | exact h | apply State.dropTiles_keep | apply State.setCtx_keep | apply State.event_keep | apply State.endStops_keep
      | apply Keep.ite | apply KeepC.of)
    | simp only [Keep.mk_eq, id_eq] | split)

theorem State.resetFabric_keep {s t : State} (h : Keep s t) : Keep s t.resetFabric :=
  ⟨fun x => Hbm.wf_filter (h := t.forget fun _ => true) (State.forget_wf (h.hbm x)), h.plc, h.queue, h.fuses⟩

theorem State.abandonAll_keep (h : Keep s t) : Keep s (State.abandonAll t) :=
  State.resetFabric_keep h

theorem State.jobFault_keep {f : JF} {ltile : Option ℕ} (h : Keep s t) : Keep s (State.jobFault t f ltile) := by
  unfold State.jobFault
  repeat' (first
    | (with_reducible first
      | exact h | apply State.abandonAll_keep | apply State.event_keep | apply State.endStops_keep | exact Keep.refl _ | intro _
      | apply KeepC.of | apply Keep.foldl)
    | simp only [Keep.mk_eq, id_eq] | split)

theorem State.orFault_keep {s t : State} {u : Nat} {e : Except JF State} (h : Keep s t) (he : EKeep t e) :
    Keep s (t.orFault u e) := by
  unfold State.orFault
  split
  · exact h.trans (he _ rfl)
  · exact State.jobFault_keep h

theorem State.incFrom_keep {stop : ℕ} {t' : ℕ} {obj : ℕ} {n : ℕ} (h : Keep s t) : Keep s (State.incFrom t stop t' obj n) := by
  unfold State.incFrom
  repeat' (first
    | (with_reducible first
      | exact h | apply State.setTile_keep | apply Keep.ite))

theorem State.signal_keep {t' : ℕ} {on : Bool} {obj : ℕ} (h : Keep s t) : Keep s (State.signal t t' on obj) := by
  unfold State.signal
  repeat' (first
    | (with_reducible first
      | exact h | apply State.setTile_keep | apply Keep.ite))

theorem State.trace_keep {t' : ℕ} {lane : ℕ} {bidx : ℕ} {iter : ℕ} {sum : W64} {cnt : ℕ} (h : Keep s t) : Keep s (State.trace t t' lane bidx iter sum cnt) := by
  unfold State.trace
  repeat' (first
    | (with_reducible first
      | exact h | apply State.setCtx_keep | assumption | intro _ | apply Keep.ite | apply KeepC.setHbm | apply Hbm.wf_writePart)
    | simp only [Keep.mk_eq, id_eq] | split)

theorem State.credit_keep {t' : ℕ} {lane : ℕ} {bidx : ℕ} {iter : ℕ} {blks : List CvBlk} {ver : W32} (h : Keep s t) : Keep s (State.credit t t' lane bidx iter blks ver) := by
  unfold State.credit
  repeat' (first
    | (with_reducible first
      | exact h | apply State.setTile_keep | apply State.trace_keep | apply Keep.ite))

theorem State.setCvst_keep {t' : ℕ} {b : W32} (h : Keep s t) : Keep s (State.setCvst t t' b) :=
  State.setTile_keep h

end Sys2Proof.Machine
end

