-- ==== Sys2Proof/Laws/KeepTile.lean ====
section
/-! SUPPORT. Laws/KeepTile.lean: what every operation keeps, one lemma each: the arrays, the vector unit, the streams, HBM and the barrel. -/

namespace Sys2Proof.Machine

variable {s t : State}

/-! ## WriteOps -/

theorem State.metaOp_keep {s t : State} {o : MetaOp} (h : Keep s t) : Keep s (t.metaOp o) := by
  unfold State.metaOp
  split
  · exact h
  · exact State.noteHbm_keep (State.setMem_keep h fun w => MetaOp.wf_apply w)

theorem State.metaOps_keep {os : List MetaOp} (h : Keep s t) : Keep s (State.metaOps t os) := by
  unfold State.metaOps
  repeat' (first
    | (with_reducible first
      | exact h | apply State.metaOp_keep | exact Keep.refl _ | intro _ | apply Keep.foldl))

theorem State.flushMeta_keep (h : Keep s t) : Keep s (State.flushMeta t) :=
  State.metaOps_keep h

theorem State.putBlocks_keep {s t : State} {t' : Nat} {d : TDesc} {outs : List (Nat × BlockOut)} {fresh : Bool} {reads : Nat → Bool}
    {poison : Bool} (h : Keep s t) : Keep s (t.putBlocks t' d outs fresh reads poison) := by
  unfold State.putBlocks
  refine State.setCvst_keep (Keep.foldl (State.markWrite_keep (State.metaOps_keep (State.setMem_keep h fun w =>
    Memory.wf_foldl w fun m p w => wf_writeBlock w))) fun u b => ?_)
  split
  · exact State.markWrite_keep (Keep.refl _)
  · exact Keep.refl _

theorem State.putElems_keep {s t : State} {t' : Nat} {d : TDesc} {es : List (Nat × Nat)} {cv : W32} {poison : Bool} (h : Keep s t) :
    Keep s (t.putElems t' d es cv poison) :=
  State.setCvst_keep (State.markWrite_keep (State.setMem_keep h fun w => Memory.wf_foldl w fun m p w => wf_putEnc w))

theorem State.writeVals_keep {s t : State} {t' : Nat} {d : TDesc} {vals : List (Nat × ASum)} {f : Form} {poison : Bool} (h : Keep s t) :
    XKeep Written.s s (t.writeVals t' d vals f poison) := by
  unfold State.writeVals
  split
  · dsimp only
    split
    · exact XKeep.error
    · exact XKeep.ok (State.putBlocks_keep h)
  · exact XKeep.ok (State.putElems_keep h)

theorem State.writePairs_keep {s t : State} {t' : Nat} {d e : TDesc} {heads tails : List (Nat × ASum)} {poison : Bool} (h : Keep s t) :
    Keep s (t.writePairs t' d e heads tails poison).s := State.putElems_keep (State.putElems_keep h)

theorem State.driftWrites_keep {t' : ℕ} {unit : ℕ} {d : TDesc} {grad : Bool} {w : List (ℕ × List ASum × BlockOut)} (h : Keep s t) : Keep s (State.driftWrites t t' unit d grad w) := by
  unfold State.driftWrites
  repeat' (first
    | (with_reducible first
      | exact h | apply State.setPtile_keep | apply Keep.ite))

/-! ## ArrayRun -/

theorem State.countNeg_keep {d : TDesc} {n : ℕ} (h : Keep s t) : Keep s (State.countNeg t d n) := by
  unfold State.countNeg
  repeat' (first
    | (with_reducible first
      | exact h | apply State.metaOps_keep | apply Keep.ite))

theorem State.planeReady_keep {t' : ℕ} {i : ℕ} (h : Keep s t) : Keep s (State.planeReady t t' i) := by
  unfold State.planeReady
  repeat' (first
    | (with_reducible first
      | exact h | apply State.jobFault_keep | apply State.countNeg_keep | apply State.setTile_keep | apply State.signal_keep
      | apply Keep.ite)
    | simp only [Keep.mk_eq, id_eq] | split)

theorem execPlaneReady_keep {t' : Fin 64} {a : Fin 3} (h : Keep s t) : OKeep s (execPlaneReady t' a t) := by
  unfold execPlaneReady
  repeat' (first
    | (with_reducible first
      | exact h | apply State.planeReady_keep | apply OKeep.occurs))

theorem State.tourCount_keep {s t : State} {t' i : Nat} {q : AInst} {k row : Nat} (h : Keep s t) : Keep s (t.tourCount t' i q k row).1 := by
  unfold State.tourCount
  split
  · exact h
  · exact State.setPtile_keep h

theorem State.chrAdd_keep {k : ℕ} {mode : ℕ} {target : ℕ} {counter : ℕ} {n : ℕ} (h : Keep s t) : Keep s (State.chrAdd t k mode target counter n) :=
  State.setPtile_keep h

theorem State.stallAt_keep {t' : ℕ} {target : ℕ} {counter : ℕ} (h : Keep s t) : Keep s (State.stallAt t t' target counter) :=
  State.setTile_keep h

theorem State.setInst_keep {t' : ℕ} {i : ℕ} {n : ℕ} {q : AInst} {f : Arr → Arr} (h : Keep s t) : Keep s (State.setInst t t' i n q f) :=
  State.setTile_keep h

theorem State.cxEnter_keep {s t : State} {t' i : Nat} {q : AInst} (h : Keep s t) : Keep s (t.cxEnter t' i q).1 := by
  unfold State.cxEnter
  split
  · exact h
  · exact State.setTile_keep h

theorem State.markPast_keep {t' : ℕ} {i : ℕ} {q : AInst} {pz : Bool} (h : Keep s t) : Keep s (State.markPast t t' i q pz) := by
  unfold State.markPast
  repeat' (first
    | (with_reducible first
      | exact h | apply State.markWrite_keep | apply State.setTile_keep | apply Keep.ite))

theorem State.enterRow_keep {s t : State} {t' i n : Nat} {q : AInst} {k : Nat} (h : Keep s t) : Keep s (t.enterRow t' i n q k) := by
  unfold State.enterRow
  dsimp only
  apply State.setInst_keep
  have k1 : ∀ {u : State} {x y : AInst} {m : Nat}, Keep s u → Keep s (u.cxEnter t' i x).1 := fun hu => State.cxEnter_keep hu
  have k2 : Keep s ((t.enterNegs q k).foldl (fun s d => s.countNeg d.1 d.2) (t.spend 512)) :=
    Keep.foldl (State.spend_keep h) fun u b => State.countNeg_keep (Keep.refl u)
  split
  · exact State.tourCount_keep (State.markPast_keep (State.cxEnter_keep k2))
  · exact State.markPast_keep (State.cxEnter_keep k2)

theorem State.feedProb_keep {t' i k : Nat} : ∀ {n : Nat} {s t : State} (_ : Keep s t), Keep s (State.feedProb t' i k n t)
  | 0, _, _, h => h
  | n + 1, s, t, h => by
    unfold State.feedProb
    dsimp only
    repeat' (first
      | (with_reducible first
        | exact h | exact State.stallAt_keep h | exact State.feedProb_keep (State.enterRow_keep h))
      | split)

theorem State.feed_keep {s t : State} {t' i : Nat} (h : Keep s t) : Keep s (t.feed t' i) :=
  State.chrAdd_keep (State.feedProb_keep (State.feedProb_keep h))

theorem State.reloadPlane_keep {s t : State} {p : Plane} (h : Keep s t) : Keep s (t.reloadPlane p).1 := by
  have gen : ∀ (l : List AOp) (a : State × Plane), Keep s a.1 →
      Keep s (l.foldl (fun (a : State × Plane) o => (a.1.countNeg o.mov0 (a.1.loadNegs o), a.1.loadPlane o a.2)) a).1 := by
    intro l
    induction l with
    | nil => intro a k; exact k
    | cons x l ih => intro a k; exact ih _ (State.countNeg_keep k)
  exact gen _ _ h

theorem State.regrid_keep {s t : State} {t' i : Nat} {o : AOp} (h : Keep s t) : Keep s (t.regrid t' i o) := by
  unfold State.regrid
  split
  · exact h
  · exact State.setTile_keep (State.reloadPlane_keep h)

theorem State.issueArray_keep {t' : ℕ} {i : ℕ} {o : AOp} {sk : Option SkRec} (h : Keep s t) : Keep s (State.issueArray t t' i o sk) := by
  unfold State.issueArray
  repeat' (first
    | (with_reducible first
      | exact h | apply State.setTile_keep | apply State.regrid_keep | apply State.feed_keep | apply Keep.ite))

theorem State.writeGroup_keep {s t : State} {t' : Nat} {o : AOp} {k : Nat} {rows : List (Nat × List ASum)} {poison : Bool}
    (h : Keep s t) : XKeep Written.s s (t.writeGroup t' o k rows poison) := by
  unfold State.writeGroup
  dsimp only
  split
  · exact XKeep.ok (State.writePairs_keep h)
  · exact State.writeVals_keep h

theorem State.capture_keep {t' : ℕ} {i : ℕ} {k : ℕ} {a : Arr} {q : AInst} {rows : List (ℕ × MovRow)} (h : Keep s t) : Keep s (State.capture t t' i k a q rows) := by
  unfold State.capture
  repeat' (first
    | (with_reducible first
      | exact h | apply State.setPtile_keep | apply Keep.ite)
    | simp only [Keep.mk_eq, id_eq] | split)

theorem State.stagePart_keep {t' : ℕ} {r : SkRed} {p : SkPart} (h : Keep s t) : Keep s (State.stagePart t t' r p) := by
  unfold State.stagePart
  repeat' (first
    | (with_reducible first
      | exact h | apply State.spend_keep | apply State.setMem_keep | apply State.markWrite_keep | apply State.setTile_keep
      | assumption | intro _ | apply Memory.wf_wrBytes))

theorem State.sendPart_keep {t' : ℕ} {k : SkRec} {q : AInst} {p : SkPart} (h : Keep s t) : EKeep s (State.sendPart t t' k q p) := by
  unfold State.sendPart
  repeat' (first
    | (with_reducible first
      | exact h | apply State.stagePart_keep | apply State.setTile_keep | apply EKeep.ok | exact EKeep.error)
    | simp only [Keep.mk_eq, id_eq] | split)

theorem State.rootWrite_keep {t' : ℕ} {r : SkRed} (h : Keep s t) : EKeep s (State.rootWrite t t' r) := by
  unfold State.rootWrite
  repeat' (first
    | (with_reducible first
      | exact h | apply State.driftWrites_keep | apply State.setTile_keep | apply State.markWrite_keep | exact Keep.refl _
      | intro _ | apply EKeep.ok | apply Keep.ite | (apply EKeep.bindX; apply State.writeGroup_keep))
    | simp only [Keep.mk_eq, id_eq] | split)

theorem State.rootLoop_keep {t' id : Nat} : ∀ {n : Nat} {s t : State} (_ : Keep s t), EKeep s (State.rootLoop t' id n t)
  | 0, _, _, h => EKeep.ok h
  | n + 1, s, t, h => by
    unfold State.rootLoop
    split
    · exact EKeep.ok h
    · exact EKeep.bindS (State.rootWrite_keep h) fun a => State.rootLoop_keep (Keep.refl a)

theorem State.rootWrites_keep {t' : ℕ} {id : ℕ} (h : Keep s t) : EKeep s (State.rootWrites t t' id) :=
  State.rootLoop_keep h

theorem State.rootAll_keep {s t : State} {t' : Nat} (h : Keep s t) : EKeep s (t.rootAll t') :=
  EKeep.foldl (EKeep.ok h) fun _ _ he => EKeep.bindS he fun a => State.rootWrites_keep (Keep.refl a)

theorem State.commitDiag_keep {t' : ℕ} {i : ℕ} {n : ℕ} {q : AInst} (h : Keep s t) : EKeep s (State.commitDiag t t' i n q) := by
  unfold State.commitDiag
  repeat' (first
    | (with_reducible first
      | exact h | apply State.driftWrites_keep | apply State.setInst_keep | exact Keep.refl _ | intro _ | apply EKeep.ok
      | (apply EKeep.bindX; apply State.writeVals_keep)))

theorem State.commitFolds_keep {s t : State} {t' i n : Nat} {q : AInst} {k : Nat} (h : Keep s t) : EKeep s (t.commitFolds t' i n q k) := by
  unfold State.commitFolds
  dsimp only
  have k0 : ∀ {x : Tile} {a : Arr} {rows : List (Nat × MovRow)} {pz : Bool}, Keep s (((t.capture t' i k a q rows).markPast t' i q pz).setTile t' x) :=
    State.setTile_keep (State.markPast_keep (State.capture_keep h))
  split
  · exact EKeep.ok k0
  · split
    · exact EKeep.bindS (State.sendPart_keep k0) fun a => State.rootWrites_keep (Keep.refl a)
    · exact EKeep.bindX (π := Written.s) (State.writeGroup_keep k0) fun w => EKeep.ok (State.setInst_keep (State.driftWrites_keep (Keep.refl _)))

theorem State.commitAt_keep {t' : ℕ} {i : ℕ} {n : ℕ} {k : ℕ} (h : Keep s t) : EKeep s (State.commitAt t t' i n k) := by
  unfold State.commitAt
  repeat' (first
    | (with_reducible first
      | exact h | apply State.commitDiag_keep | apply State.commitFolds_keep)
    | simp only [Keep.mk_eq, id_eq] | split)

theorem State.completeInst_keep {t' : ℕ} {i : ℕ} {n : ℕ} (h : Keep s t) : Keep s (State.completeInst t t' i n) :=
  State.signal_keep (State.credit_keep (State.setTile_keep h))

theorem execArrayComplete_keep {t' : Fin 64} {a : Fin 3} (h : Keep s t) : OKeep s (execArrayComplete t' a t) := by
  unfold execArrayComplete
  repeat' (first
    | (with_reducible first
      | exact h | apply State.completeInst_keep | apply OKeep.next)
    | split)

theorem execSplitkSlotGrant_keep {t' : Fin 64} {id : BitVec 16} (h : Keep s t) : OKeep s (execSplitkSlotGrant t' id t) := by
  unfold execSplitkSlotGrant
  repeat' (first
    | (with_reducible first
      | exact h | apply State.setTile_keep | apply OKeep.occurs))

theorem State.partArrive_keep {t' : ℕ} {id : ℕ} (h : Keep s t) : EKeep s (State.partArrive t t' id) := by
  unfold State.partArrive
  repeat' (first
    | (with_reducible first
      | exact h | apply State.setTile_keep | apply State.rootWrites_keep | apply State.stagePart_keep | apply EKeep.ok)
    | simp only [Keep.mk_eq, id_eq] | split)

theorem execSplitkPartArrive_keep {t' : Fin 64} {id : BitVec 16} (h : Keep s t) : OKeep s (execSplitkPartArrive t' id t) := by
  unfold execSplitkPartArrive
  repeat' (first
    | (with_reducible first
      | exact h | apply State.orFault_keep | apply State.partArrive_keep | exact Keep.refl _ | apply OKeep.occurs))

theorem State.delayArray_keep {t' : ℕ} {i : ℕ} (h : Keep s t) : Keep s (State.delayArray t t' i) := by
  unfold State.delayArray
  repeat' (first
    | (with_reducible first
      | exact h | apply State.setTile_keep | apply Keep.ite))

/-! ## VecOps -/

theorem State.vld_keep {t' : ℕ} {v : VSlot} {d : TDesc} {i0 : ℕ} (h : Keep s t) : Keep s (State.vld t t' v d i0) :=
  State.setTile_keep (State.countNeg_keep (State.setCvst_keep h))

theorem State.pushWrite_keep {t' : ℕ} {v : VSlot} {kind : ℕ} {ds : List TDesc} {i0 : ℕ} {vals : List W32} {pz : Bool} (h : Keep s t) : Keep s (State.pushWrite t t' v kind ds i0 vals pz) :=
  State.setTile_keep h

theorem State.prepV_keep {t : State} {t' : ℕ} {v : VSlot} : FKeep (State.prepV t t' v) := by
  unfold State.prepV
  repeat' (first
    | (with_reducible first
      | apply State.setTile_keep | apply State.vld_keep | apply State.pushWrite_keep | exact Keep.refl _ | intro _
      | apply FKeep.ok | exact FKeep.error | apply FKeep.bind)
    | simp only [Keep.mk_eq, id_eq] | split)

theorem State.landBlocks_keep {t' : ℕ} {w : VWrite} {d : TDesc} {bs : List (ℕ × List ASum)} {part : ℕ → Bool} (h : Keep s t) : EKeep s (State.landBlocks t t' w d bs part) := by
  unfold State.landBlocks
  repeat' (first
    | (with_reducible first
      | exact h | apply State.putBlocks_keep | apply State.driftWrites_keep | apply State.credit_keep | apply EKeep.ok
      | apply Keep.ite | exact EKeep.error)
    | simp only [Keep.mk_eq, id_eq] | split)

theorem State.landVst_keep {t' : ℕ} {w : VWrite} {d : TDesc} (h : Keep s t) : Keep s (State.landVst t t' w d) :=
  State.credit_keep (State.putElems_keep h)

theorem State.landVcvt_keep {s t : State} {t' : Nat} {w : VWrite} {d : TDesc} (h : Keep s t) : EKeep s (t.landVcvt t' w d) := by
  unfold State.landVcvt
  dsimp only
  split
  · exact State.landBlocks_keep h
  · split
    · exact EKeep.ok (State.credit_keep (State.writePairs_keep h))
    · split
      · exact EKeep.error
      · rename_i r e
        exact EKeep.ok (State.credit_keep (State.writeVals_keep h _ e))

theorem State.landVslice_keep {t' : ℕ} {w : VWrite} {h' : TDesc} {m : TDesc} {l : TDesc} (h : Keep s t) : EKeep s (State.landVslice t t' w h' m l) := by
  unfold State.landVslice
  repeat' (first
    | (with_reducible first
      | exact h | apply State.landBlocks_keep | exact Keep.refl _ | intro _ | apply EKeep.bindS))

theorem State.landWrite_keep {t' : ℕ} {w : VWrite} (h : Keep s t) : EKeep s (State.landWrite t t' w) := by
  unfold State.landWrite
  repeat' (first
    | (with_reducible first
      | exact h | apply State.landVslice_keep | apply State.landVst_keep | apply State.landVcvt_keep | apply EKeep.ok)
    | split)

theorem State.seeWrites_keep {s t : State} {t' : Nat} (h : Keep s t) : EKeep s (t.seeWrites t') := by
  unfold State.seeWrites
  dsimp only
  split
  · exact EKeep.ok h
  · exact EKeep.foldl (EKeep.ok (State.setTile_keep h)) fun _ _ he => EKeep.bindS he fun a => State.landWrite_keep (Keep.refl a)

theorem execVectorWriteLand_keep {t' : Fin 64} (h : Keep s t) : OKeep s (execVectorWriteLand t' t) := by
  unfold execVectorWriteLand
  repeat' (first
    | (with_reducible first
      | exact h | apply State.setTile_keep | apply OKeep.next | apply OKeep.occurs)
    | simp only [Keep.mk_eq, id_eq] | split)

/-! ## VecUpd -/

theorem State.startUpd_keep {t' : ℕ} {u : VUpd} (h : Keep s t) : Keep s (State.startUpd t t' u) := by
  unfold State.startUpd
  repeat' (first
    | (with_reducible first
      | exact h | apply State.setTile_keep | apply State.setCtx_keep | apply Keep.ite)
    | simp only [Keep.mk_eq, id_eq] | split)

theorem State.storeUpd_keep {t' : ℕ} {d : TDesc} {vals : List W32} {sr : Bool} {pz : Bool} {ebase : ℕ} (h : Keep s t) : EKeep s (State.storeUpd t t' d vals sr pz ebase) := by
  unfold State.storeUpd
  repeat' (first
    | (with_reducible first
      | exact h | apply State.putBlocks_keep | apply State.putElems_keep | apply EKeep.ok | exact EKeep.error)
    | simp only [Keep.mk_eq, id_eq] | split)

theorem State.zeroGrad_keep {t' : ℕ} {d : TDesc} {n : ℕ} {pz : Bool} (h : Keep s t) : Keep s (State.zeroGrad t t' d n pz) := by
  unfold State.zeroGrad
  repeat' (first
    | (with_reducible first
      | exact h | apply State.putBlocks_keep | apply State.putElems_keep | apply Keep.ite))

theorem State.storePre_keep {t' : ℕ} {u : VUpd} {bs : List (List (List W32) × Refresh)} {pz : Bool} (h : Keep s t) : Keep s (State.storePre t t' u bs pz) := by
  unfold State.storePre
  repeat' (first
    | (with_reducible first
      | exact h | apply State.putElems_keep | apply Keep.ite))

theorem State.countPre_keep {s t : State} {u : VUpd} {bs : List (List (List W32) × Refresh)} (h : Keep s t) : Keep s (t.countPre u bs) := by
  unfold State.countPre
  split
  · exact h
  · dsimp only
    split
    · exact h
    · refine State.setCtx_keep (State.noteHbm_keep (State.setMem_keep h fun w => ?_))
      have w1 : ∀ {x y z p q r : Nat}, Memory.wf (bumpLe (bumpLe t.mem x y z) p q r) = true := wf_bumpLe (wf_bumpLe w)
      split
      · exact w1
      · exact Memory.wf_wrLe (Memory.wf_wrLe w1)

theorem State.countUpdReads_keep {s t : State} {t' : Nat} {u : VUpd} (h : Keep s t) : EKeep s (t.countUpdReads t' u) :=
  EKeep.foldl (EKeep.ok h) fun _ _ he => EKeep.bindS he fun a => EKeep.bind fun _ => EKeep.ok (State.countNeg_keep (State.setCvst_keep (Keep.refl a)))

theorem State.finishUpd_keep {t' : ℕ} {u : VUpd} (h : Keep s t) : EKeep s (State.finishUpd t t' u) := by
  unfold State.finishUpd
  repeat' (first
    | (with_reducible first
      | exact h | apply State.countUpdReads_keep | apply State.storeUpd_keep | apply State.storePre_keep
      | apply State.zeroGrad_keep | apply State.countPre_keep | apply State.setTile_keep | apply State.credit_keep
      | exact Keep.refl _ | intro _ | apply EKeep.ok | apply EKeep.bindS))

theorem execVupdComplete_keep {t' : Fin 64} (h : Keep s t) : OKeep s (execVupdComplete t' t) := by
  unfold execVupdComplete
  repeat' (first
    | (with_reducible first
      | exact h | apply State.orFault_keep | apply State.finishUpd_keep | exact Keep.refl _ | apply OKeep.next
      | apply OKeep.occurs)
    | split)

theorem State.finishSadv_keep {s t : State} {t' : Nat} {a : Sadv} (h : Keep s t) : EKeep s (t.finishSadv t' a) := by
  have hm : ∀ (l : List Nat) (acc : Mem × List Nat × W32 × List MetaOp), Memory.wf acc.1 = true →
      Memory.wf (l.foldl (fun (acc : Mem × List Nat × W32 × List MetaOp) b =>
        ((Sadv.block a.td acc.1 b).1, if (Sadv.block a.td acc.1 b).2.1 then acc.2.1 ++ [b] else acc.2.1,
          acc.2.2.1 ||| (Sadv.block a.td acc.1 b).2.2.1, acc.2.2.2 ++ (Sadv.block a.td acc.1 b).2.2.2)) acc).1 = true := by
    intro l
    induction l with
    | nil => intro acc w; exact w
    | cons b l ih => intro acc w; exact ih _ (wf_sadvBlock w)
  unfold State.finishSadv
  dsimp only
  split
  · exact EKeep.error
  · split
    · exact EKeep.error
    · exact EKeep.ok (State.signal_keep (State.credit_keep (State.setTile_keep (State.setCvst_keep (State.markWrite_keep (State.metaOps_keep
        (State.setMem_keep h fun w => hm _ _ w)))))))

theorem execSadvComplete_keep {t' : Fin 64} (h : Keep s t) : OKeep s (execSadvComplete t' t) := by
  unfold execSadvComplete
  repeat' (first
    | (with_reducible first
      | exact h | apply State.orFault_keep | apply State.finishSadv_keep | exact Keep.refl _ | apply OKeep.next
      | apply OKeep.occurs)
    | split)

/-! ## HbmOps -/

theorem State.ask_keep {r : HReq} (h : Keep s t) : Keep s (State.ask t r) := by
  unfold State.ask
  repeat' (first
    | (with_reducible first
      | exact h | assumption | intro _ | apply KeepC.setHbm | apply Hbm.wf_setCtl)
    | simp only [Keep.mk_eq, id_eq])

theorem State.unask_keep {s t : State} {gone : HReq → Bool} (h : Keep s t) : Keep s (t.unask gone) :=
  Keep.setHbm h fun x => Hbm.wf_sift x

theorem State.retire_keep {i : ℕ} {addr : ℕ} (h : Keep s t) : Keep s (State.retire t i addr) := by
  unfold State.retire
  repeat' (first
    | (with_reducible first
      | exact h | apply State.logEvent_keep | assumption | intro _ | apply Keep.ite | apply KeepC.setHbm | apply Hbm.wf_setCtl)
    | simp only [Keep.mk_eq, id_eq])

theorem State.repairRow_keep {i : ℕ} {addr : ℕ} {can : Bool} (h : Keep s t) : Keep s (State.repairRow t i addr can) := by
  unfold State.repairRow
  repeat' (first
    | (with_reducible first
      | exact h | apply State.logEvent_keep | apply State.retire_keep | assumption | intro _ | apply Keep.ite
      | apply KeepC.setHbm | apply Hbm.wf_setCtl)
    | simp only [Keep.mk_eq, id_eq])

theorem State.noteErrors_keep {i : ℕ} {addr : ℕ} {corrected : ℕ} {uncorr : ℕ} {can : Bool} (h : Keep s t) : Keep s (State.noteErrors t i addr corrected uncorr can) := by
  unfold State.noteErrors
  repeat' (first
    | (with_reducible first
      | exact h | apply State.repairRow_keep | assumption | intro _ | apply Keep.ite | apply KeepC.setHbm | apply Hbm.wf_setCtl
      | apply Hbm.wf_setGran | apply Hbm.wf_cec)
    | simp only [Keep.mk_eq, id_eq])

theorem State.serveRead_keep {i : ℕ} {n : ℕ} {hs : Hubs} {r : HReq} {bad : List ℕ} {can : Bool} (h : Keep s t) : Keep s (State.serveRead t i n hs r bad can) := by
  unfold State.serveRead
  repeat' (first
    | (with_reducible first
      | exact h | apply State.noteErrors_keep | apply State.setTile_keep | assumption | intro _ | apply KeepC.of
      | apply KeepC.setHbm | apply Hbm.wf_setCtl)
    | simp only [Keep.mk_eq, id_eq])

theorem State.serveHub_keep {i : ℕ} {hs : Hubs} {addr : ℕ} {bad : List ℕ} {can : Bool} (h : Keep s t) : Keep s (State.serveHub t i hs addr bad can) := by
  unfold State.serveHub
  repeat' (first
    | (with_reducible first
      | exact h | apply State.noteErrors_keep | assumption | intro _ | apply KeepC.setHbm | apply Hbm.wf_setCtl)
    | simp only [Keep.mk_eq, id_eq])

theorem State.hbmRead_keep {stack : ℕ} {hs : Hubs} {bad : List ℕ} {can : Bool} (h : Keep s t) : Keep s (State.hbmRead t stack hs bad can) := by
  unfold State.hbmRead
  repeat' (first
    | (with_reducible first
      | exact h | apply State.serveRead_keep | apply State.serveHub_keep | assumption | intro _ | apply Keep.ite
      | apply KeepC.setHbm | apply Hbm.wf_setCtl)
    | simp only [Keep.mk_eq, id_eq] | split)

theorem State.accepted_keep {t' : ℕ} {c : ℕ} {j : ℕ} (h : Keep s t) : Keep s (State.accepted t t' c j) := by
  unfold State.accepted
  repeat' (first
    | (with_reducible first
      | exact h | apply State.chrAdd_keep | apply State.setTile_keep)
    | simp only [Keep.mk_eq, id_eq] | split)

theorem State.noteWrotePoison_keep {poison : Bool} (h : Keep s t) : Keep s (State.noteWrotePoison t poison) := by
  unfold State.noteWrotePoison
  repeat' (first
    | (with_reducible first
      | exact h | apply State.setCtx_keep | apply Keep.ite)
    | split)

theorem State.serveWrite_keep {i : ℕ} {n : ℕ} {hs : Hubs} {r : HReq} (h : Keep s t) : Keep s (State.serveWrite t i n hs r) := by
  unfold State.serveWrite
  repeat' (first
    | (with_reducible first
      | exact h | apply State.accepted_keep | apply State.noteWrotePoison_keep | assumption | intro _ | apply Keep.ite
      | apply KeepC.setHbm | apply Hbm.wf_setCtl | apply Hbm.wf_writeGran)
    | simp only [Keep.mk_eq, id_eq])

theorem execHbmWriteAccept_keep {stack : Fin 12 × Hubs} (h : Keep s t) : OKeep s (execHbmWriteAccept stack t) := by
  unfold execHbmWriteAccept
  repeat' (first
    | (with_reducible first
      | exact h | apply State.serveWrite_keep | assumption | intro _ | apply OKeep.next | apply OKeep.occurs
      | apply KeepC.setHbm | apply Hbm.wf_setCtl)
    | simp only [Keep.mk_eq, id_eq] | split)

theorem execHbmRefresh_keep {a0 : Fin 12} (h : Keep s t) : OKeep s (execHbmRefresh a0 t) :=
  OKeep.next h

/-! ## Streams -/

theorem State.ctr_keep {t' : ℕ} {c : ℕ} {counter : ℕ} {n : ℕ} (h : Keep s t) : Keep s (State.ctr t t' c counter n) :=
  State.chrAdd_keep h

theorem State.demandTo_keep {t' : ℕ} {c : ℕ} {n : ℕ} (h : Keep s t) : Keep s (State.demandTo t t' c n) := by
  unfold State.demandTo
  repeat' (first
    | (with_reducible first
      | exact h | apply State.ctr_keep | apply State.setTile_keep)
    | simp only [Keep.mk_eq, id_eq] | split)

theorem State.startIn_keep {t' : ℕ} {c : ℕ} {raw : List Byte} {d : SDesc} {td : TDesc} {use : InbUse} (h : Keep s t) : Keep s (State.startIn t t' c raw d td use) := by
  unfold State.startIn
  repeat' (first
    | (with_reducible first
      | exact h | apply State.setTile_keep | apply State.demandTo_keep | apply Keep.ite))

theorem State.startOut_keep {t' : ℕ} {c : ℕ} {d : SDesc} {td : TDesc} {spill : Option (ℕ × ℕ)} (h : Keep s t) : Keep s (State.startOut t t' c d td spill) :=
  State.setTile_keep h

theorem State.startLoad_keep {t' : ℕ} {c : ℕ} {l : LoadRec} (h : Keep s t) : Keep s (State.startLoad t t' c l) :=
  State.startIn_keep h

theorem State.fetch_keep {t' : ℕ} {c : ℕ} {j : ℕ} {ahead : Bool} (h : Keep s t) : Keep s (State.fetch t t' c j ahead) := by
  unfold State.fetch
  repeat' (first
    | (with_reducible first
      | exact h | apply State.setTile_keep | apply State.ask_keep | apply Keep.ite)
    | simp only [Keep.mk_eq, id_eq] | split)

theorem State.freeEntry_keep {t' : ℕ} {c : ℕ} {j : ℕ} {a : ℕ} (h : Keep s t) : Keep s (State.freeEntry t t' c j a) := by
  unfold State.freeEntry
  repeat' (first
    | (with_reducible first
      | exact h | assumption | intro _ | apply KeepC.setHbm | apply Hbm.wf_setCtl)
    | simp only [Keep.mk_eq, id_eq])

theorem State.refetch_keep {t' : ℕ} {c : ℕ} {f : Flight} (h : Keep s t) : Keep s (State.refetch t t' c f) :=
  State.ctr_keep (State.ctr_keep (State.fetch_keep (State.setPtile_keep (State.unask_keep (State.freeEntry_keep h)))))

theorem State.demandFetch_keep {t' : ℕ} {c : ℕ} (h : Keep s t) : Keep s (State.demandFetch t t' c) := by
  unfold State.demandFetch
  repeat' (first
    | (with_reducible first
      | exact h | apply State.refetch_keep | apply State.jobFault_keep | apply State.ctr_keep | apply State.fetch_keep
      | apply Keep.ite)
    | simp only [Keep.mk_eq, id_eq] | split)

theorem execDemandFetch_keep {t' : Fin 64} {c : BitVec 6} (h : Keep s t) : OKeep s (execDemandFetch t' c t) := by
  unfold execDemandFetch
  repeat' (first
    | (with_reducible first
      | exact h | apply State.demandFetch_keep | apply OKeep.occurs))

theorem State.runAheadFetch_keep {t' : ℕ} {c : ℕ} (h : Keep s t) : Keep s (State.runAheadFetch t t' c) := by
  unfold State.runAheadFetch
  repeat' (first
    | (with_reducible first
      | exact h | apply State.setTile_keep | apply State.ctr_keep | apply State.setPtile_keep | apply State.fetch_keep
      | assumption | intro _ | apply Keep.ite | apply KeepC.setHbm | apply Hbm.wf_setCtl)
    | simp only [Keep.mk_eq, id_eq] | split)

theorem execRunAheadFetch_keep {t' : Fin 64} {c : BitVec 6} (h : Keep s t) : OKeep s (execRunAheadFetch t' c t) := by
  unfold execRunAheadFetch
  repeat' (first
    | (with_reducible first
      | exact h | apply State.runAheadFetch_keep | apply OKeep.occurs))

theorem State.checkFail_keep {a : ℕ} {k : W32 × W32 × W32} (h : Keep s t) : Keep s (State.checkFail t a k) :=
  State.event_keep h

theorem State.place_keep {t' : ℕ} {i : Inb} {f : Flight} {poison : Bool} (h : Keep s t) : Keep s (State.place t t' i f poison) := by
  unfold State.place
  repeat' (first
    | (with_reducible first
      | exact h | apply State.setTile_keep | apply State.setTag_keep | apply State.markWrite_keep | apply State.setMem_keep
      | assumption | intro _ | apply Memory.wf_wrBytes)
    | simp only [Keep.mk_eq, id_eq] | split)

theorem State.endFill_keep {t' : ℕ} {c : ℕ} {i : Inb} (h : Keep s t) : Keep s (State.endFill t t' c i) := by
  unfold State.endFill
  repeat' (first
    | (with_reducible first
      | exact h | apply State.setTile_keep | apply State.noteHbm_keep | apply State.setMem_keep | assumption | intro _
      | apply Keep.ite | apply wf_setFrState)
    | simp only [Keep.mk_eq, id_eq] | split)

theorem State.deliver_keep {t' : ℕ} {c : ℕ} (h : Keep s t) : Keep s (State.deliver t t' c) := by
  unfold State.deliver
  repeat' (first
    | (with_reducible first
      | exact h | apply State.ask_keep | apply State.setTile_keep | apply State.checkFail_keep | apply State.place_keep
      | apply State.ctr_keep | apply State.freeEntry_keep | apply State.chrAdd_keep | apply State.endFill_keep | apply Keep.ite
      | apply KeepC.of)
    | simp only [Keep.mk_eq, id_eq] | split)

theorem execInboundGranuleWrite_keep {t' : Fin 64} {c : BitVec 6} (h : Keep s t) : OKeep s (execInboundGranuleWrite t' c t) := by
  unfold execInboundGranuleWrite
  repeat' (first
    | (with_reducible first
      | exact h | apply State.deliver_keep | apply OKeep.occurs))

theorem State.sendOut_keep {t' : ℕ} {c : ℕ} {o : Outb} (h : Keep s t) : Keep s (State.sendOut t t' c o) := by
  unfold State.sendOut
  repeat' (first
    | (with_reducible first
      | exact h | apply State.jobFault_keep | apply State.checkFail_keep | apply State.setTile_keep | apply State.ask_keep
      | apply State.accepted_keep | apply State.setTag_keep | apply State.markWrite_keep | apply State.setMem_keep | assumption
      | intro _ | apply Keep.ite | apply Memory.wf_wrBytes))

theorem State.pump_keep {t' : ℕ} {from_ : ℕ} (h : Keep s t) : Keep s (State.pump t t' from_) := by
  unfold State.pump
  repeat' (first
    | (with_reducible first
      | exact h | apply State.sendOut_keep)
    | simp only [Keep.mk_eq, id_eq] | split)

theorem State.endSpill_keep {t' : ℕ} {o : Outb} (h : Keep s t) : Keep s (State.endSpill t t' o) := by
  unfold State.endSpill
  repeat' (first
    | (with_reducible first
      | exact h | apply State.setTile_keep | apply State.noteHbm_keep | apply State.setMem_keep | assumption | intro _
      | apply Keep.ite | apply wf_setFrState)
    | simp only [Keep.mk_eq, id_eq] | split)

theorem State.streamComplete_keep {t' : ℕ} {c : ℕ} {out : Bool} (h : Keep s t) : Keep s (State.streamComplete t t' c out) := by
  unfold State.streamComplete
  repeat' (first
    | (with_reducible first
      | exact h | apply State.setTile_keep | apply State.endSpill_keep | apply State.signal_keep | apply Keep.ite)
    | simp only [Keep.mk_eq, id_eq] | split)

theorem execStreamComplete_keep {t' : Fin 64} {c : BitVec 6} {out : Bool} (h : Keep s t) : OKeep s (execStreamComplete t' c out t) :=
  OKeep.next (State.streamComplete_keep h)

theorem execIloadComplete_keep {t' : Fin 64} {c : BitVec 6} (h : Keep s t) : OKeep s (execIloadComplete t' c t) := by
  unfold execIloadComplete
  repeat' (first
    | (with_reducible first
      | exact h | apply State.signal_keep | apply State.setTile_keep | apply OKeep.next | apply OKeep.occurs)
    | simp only [Keep.mk_eq, id_eq] | split)

theorem State.sdem_keep {t' : ℕ} {v : SSlot} (h : Keep s t) : Keep s (State.sdem t t' v) := by
  unfold State.sdem
  repeat' (first
    | (with_reducible first
      | exact h | apply State.demandTo_keep | apply Keep.ite)
    | split)

/-! ## Barrel -/

theorem State.prepBcfg_keep {t : State} {t' : ℕ} {lane : ℕ} {drec : ℕ} : FKeep (State.prepBcfg t t' lane drec) := by
  unfold State.prepBcfg
  repeat' (first
    | (with_reducible first
      | apply State.setTile_keep | exact Keep.refl _ | intro _ | apply FKeep.ok | exact FKeep.error | apply FKeep.bind)
    | split)

theorem State.setFr_keep {l : Lane} {k : ℕ} {v : ℕ} (h : Keep s t) : Keep s (State.setFr t l k v) := by
  unfold State.setFr
  repeat' (first
    | (with_reducible first
      | exact h | apply State.noteHbm_keep | apply State.setMem_keep | assumption | intro _ | apply wf_setFrState))

theorem State.dropFill_keep {t' : ℕ} {lane : ℕ} {k : ℕ} (h : Keep s t) : Keep s (State.dropFill t t' lane k) := by
  unfold State.dropFill
  repeat' (first
    | (with_reducible first
      | exact h | apply State.unask_keep | apply State.setTile_keep | apply Keep.ite))

theorem State.dropSpill_keep {t' : ℕ} {lane : ℕ} {k : ℕ} (h : Keep s t) : Keep s (State.dropSpill t t' lane k) := by
  unfold State.dropSpill
  repeat' (first
    | (with_reducible first
      | exact h | apply State.setTile_keep | apply Keep.ite)
    | simp only [Keep.mk_eq, id_eq] | split)

theorem State.evict_keep {t' : ℕ} {lane : ℕ} (h : Keep s t) : Keep s (State.evict t t' lane) := by
  unfold State.evict
  repeat' (first
    | (with_reducible first
      | exact h | apply State.setFr_keep | apply State.dropFill_keep | exact Keep.refl _ | intro _ | apply Keep.ite
      | apply Keep.foldl))

theorem State.beginSpills_keep {t' : ℕ} {lane : ℕ} (h : Keep s t) : Keep s (State.beginSpills t t' lane) :=
  State.setTile_keep h

theorem State.wantFills_keep {t' : ℕ} {lane : ℕ} (h : Keep s t) : Keep s (State.wantFills t t' lane) := by
  unfold State.wantFills
  repeat' (first
    | (with_reducible first
      | exact h | apply State.setFr_keep | apply State.setTile_keep | exact Keep.refl _ | intro _ | apply Keep.ite
      | apply Keep.foldl))

theorem State.doPush_keep {t' : ℕ} {lane : ℕ} {r : PushRec} (h : Keep s t) : Keep s (State.doPush t t' lane r) := by
  unfold State.doPush
  repeat' (first
    | (with_reducible first
      | exact h | apply State.noteHbm_keep | apply State.setMem_keep | apply State.setTile_keep | apply State.evict_keep
      | apply State.beginSpills_keep | assumption | intro _ | apply Memory.wf_wrBytes))

theorem State.prepBpush_keep {t : State} {t' : ℕ} {lane : ℕ} {drec : ℕ} : FKeep (State.prepBpush t t' lane drec) := by
  unfold State.prepBpush
  repeat' (first
    | (with_reducible first
      | apply State.doPush_keep | exact Keep.refl _ | intro _ | apply FKeep.ok | exact FKeep.error | apply FKeep.bind)
    | split)

theorem State.doPop_keep {t' : ℕ} {lane : ℕ} (h : Keep s t) : Keep s (State.doPop t t' lane) :=
  State.wantFills_keep (State.setTile_keep (State.dropSpill_keep (State.dropFill_keep h)))

theorem State.prepBpop_keep {t : State} {t' : ℕ} {lane : ℕ} {drec : ℕ} : FKeep (State.prepBpop t t' lane drec) := by
  unfold State.prepBpop
  repeat' (first
    | (with_reducible first
      | apply State.doPop_keep | exact Keep.refl _ | intro _ | apply FKeep.ok | exact FKeep.error | apply FKeep.bind)
    | simp only [Keep.mk_eq, id_eq] | split)

theorem execBarrelSpill_keep {t' : Fin 64} {lane : BitVec 6} (h : Keep s t) : OKeep s (execBarrelSpill t' lane t) := by
  unfold execBarrelSpill
  repeat' (first
    | (with_reducible first
      | exact h | apply State.startOut_keep | apply OKeep.next | apply OKeep.occurs)
    | split)

theorem execBarrelFill_keep {t' : Fin 64} {lane : BitVec 6} (h : Keep s t) : OKeep s (execBarrelFill t' lane t) := by
  unfold execBarrelFill
  repeat' (first
    | (with_reducible first
      | exact h | apply State.startIn_keep | apply OKeep.next | apply OKeep.occurs)
    | split)

end Sys2Proof.Machine
end

