-- ==== Sys2Proof/Laws/KeepLink.lean ====
section
/-! SUPPORT. Laws/KeepLink.lean: what every operation keeps, one lemma each: the links and the transport. -/

namespace Sys2Proof.Machine

variable {s t : State}

/-! ## Link -/

theorem State.putLink_keep {p : ℕ} {v : ℕ} {x : LinkPort} (h : Keep s t) : Keep s (State.putLink t p v x) := by
  unfold State.putLink
  repeat' (first
    | (with_reducible first
      | exact h | apply State.setLink_keep | apply KeepC.of)
    | simp only [Keep.mk_eq, id_eq])

theorem State.dropPacket_keep {p : ℕ} {v : ℕ} (h : Keep s t) : Keep s (State.dropPacket t p v) := by
  unfold State.dropPacket
  repeat' (first
    | (with_reducible first
      | exact h | apply State.putLink_keep)
    | split)

theorem State.sendPacket_keep {p : ℕ} {cls : ℕ} {hop : ℕ} {b : List Byte} (h : Keep s t) : Keep s (State.sendPacket t p cls hop b) := by
  unfold State.sendPacket
  repeat' (first
    | (with_reducible first
      | exact h | apply State.putLink_keep | apply State.setLink_keep | apply Keep.ite))

theorem State.writeLaser_keep {p : ℕ} (h : Keep s t) : Keep s (State.writeLaser t p) := by
  unfold State.writeLaser
  repeat' (first
    | (with_reducible first
      | exact h | apply State.logLaser_keep | apply State.setLink_keep | apply Keep.ite)
    | simp only [Keep.mk_eq, id_eq] | split)

theorem State.portTo_keep {p : ℕ} {st : PortSt} (h : Keep s t) : Keep s (State.portTo t p st) := by
  unfold State.portTo
  repeat' (first
    | (with_reducible first
      | exact h | apply State.writeLaser_keep | apply State.setLink_keep | apply Keep.ite))

theorem State.bringUp_keep {p : ℕ} (h : Keep s t) : Keep s (State.bringUp t p) := by
  unfold State.bringUp
  repeat' (first
    | (with_reducible first
      | exact h | apply State.portTo_keep | apply State.setLink_keep | apply Keep.ite))

theorem State.linkEvent_keep {p : ℕ} (h : Keep s t) : Keep s (State.linkEvent t p) :=
  State.event_keep h

theorem execPortBringup_keep {p : Fin 24} {delay : BitVec 24 × BitVec 16} (h : Keep s t) : OKeep s (execPortBringup p delay t) := by
  unfold execPortBringup
  repeat' (first
    | (with_reducible first
      | exact h | apply State.bringUp_keep | apply State.portTo_keep | apply State.setLink_keep | apply State.linkEvent_keep
      | apply OKeep.next | apply OKeep.occurs | apply Keep.ite | apply KeepC.of)
    | simp only [Keep.mk_eq, id_eq] | split)

theorem execPortBringupTimeout_keep {p : Fin 24} (h : Keep s t) : OKeep s (execPortBringupTimeout p t) := by
  unfold execPortBringupTimeout
  repeat' (first
    | (with_reducible first
      | exact h | apply State.setLink_keep | apply State.linkEvent_keep | apply OKeep.occurs | apply Keep.ite))

theorem execPortBringupRetry_keep {p : Fin 24} (h : Keep s t) : OKeep s (execPortBringupRetry p t) := by
  unfold execPortBringupRetry
  repeat' (first
    | (with_reducible first
      | exact h | apply State.bringUp_keep | apply OKeep.occurs))

theorem execInitRepeat_keep {p : Fin 24} (h : Keep s t) : OKeep s (execInitRepeat p t) := by
  unfold execInitRepeat
  repeat' (first
    | (with_reducible first
      | exact h | apply State.setLink_keep | apply OKeep.occurs))

theorem State.rxFlit_keep {p : ℕ} {kind : ℕ} {flit : List Byte} {bad : Bool} {corr : List ℕ} {act : State → FlHdr → LinkPort → State} (h : Keep s t) (hact : ∀ b0 b1 b2, Keep b0 (act b0 b1 b2)) : OKeep s (State.rxFlit t p kind flit bad corr act) := by
  unfold State.rxFlit
  repeat' (first
    | (with_reducible first
      | exact h | refine Keep.trans ?_ (hact _ _ _) | apply State.setLink_keep | apply OKeep.next | apply OKeep.occurs
      | exact OKeep.fault)
    | simp only [Keep.mk_eq, id_eq] | split)

theorem execFlitData_keep {p : Fin 24} {flit : List Byte} {bad : Bool} {corr : List ℕ} (h : Keep s t) : OKeep s (execFlitData p flit bad corr t) := by
  unfold execFlitData
  repeat' (first
    | (with_reducible first
      | exact h | apply State.rxFlit_keep | apply State.putLink_keep | exact Keep.refl _ | intro _))

theorem execFlitIdle_keep {p : Fin 24} {flit : List Byte} {bad : Bool} {corr : List ℕ} (h : Keep s t) : OKeep s (execFlitIdle p flit bad corr t) := by
  unfold execFlitIdle
  repeat' (first
    | (with_reducible first
      | exact h | apply State.rxFlit_keep | apply State.setLink_keep | exact Keep.refl _ | intro _))

theorem State.replayFrom_keep {p : ℕ} {x : LinkPort} {n : ℕ} (h : Keep s t) : Keep s (State.replayFrom t p x n) := by
  unfold State.replayFrom
  repeat' (first
    | (with_reducible first
      | exact h | apply State.setLink_keep | apply State.portTo_keep | apply Keep.ite)
    | split)

theorem execFlitRetry_keep {p : Fin 24} {flit : List Byte} {bad : Bool} {corr : List ℕ} (h : Keep s t) : OKeep s (execFlitRetry p flit bad corr t) := by
  unfold execFlitRetry
  repeat' (first
    | (with_reducible first
      | exact h | apply State.rxFlit_keep | apply State.replayFrom_keep | exact Keep.refl _ | intro _))

theorem State.takeInit_keep {p : ℕ} {x : LinkPort} {f : List Byte} (h : Keep s t) : Keep s (State.takeInit t p x f) := by
  unfold State.takeInit
  repeat' (first
    | (with_reducible first
      | exact h | apply State.setLink_keep | apply Keep.ite)
    | simp only [Keep.mk_eq, id_eq] | split)

theorem execFlitInit_keep {p : Fin 24} {flit : List Byte} {bad : Bool} {corr : List ℕ} (h : Keep s t) : OKeep s (execFlitInit p flit bad corr t) := by
  unfold execFlitInit
  repeat' (first
    | (with_reducible first
      | exact h | apply State.rxFlit_keep | apply State.takeInit_keep | exact Keep.refl _ | intro _))

theorem State.spareLane_keep {p : ℕ} {l : ℕ} {answered : Bool} (h : Keep s t) : Keep s (State.spareLane t p l answered) := by
  unfold State.spareLane
  repeat' (first
    | (with_reducible first
      | exact h | apply State.portTo_keep | apply State.setLink_keep | apply Keep.ite))

theorem State.takeLane_keep {p : ℕ} {x : LinkPort} {l : ℕ} (h : Keep s t) : Keep s (State.takeLane t p x l) := by
  unfold State.takeLane
  repeat' (first
    | (with_reducible first
      | exact h | apply State.setLink_keep | apply State.spareLane_keep | apply State.portTo_keep | apply Keep.ite)
    | simp only [Keep.mk_eq, id_eq] | split)

theorem execFlitLane_keep {p : Fin 24} {flit : List Byte} {bad : Bool} {corr : List ℕ} (h : Keep s t) : OKeep s (execFlitLane p flit bad corr t) := by
  unfold execFlitLane
  repeat' (first
    | (with_reducible first
      | exact h | apply State.rxFlit_keep | apply State.takeLane_keep | exact Keep.refl _ | intro _))

theorem execRetryRepeat_keep {p : Fin 24} (h : Keep s t) : OKeep s (execRetryRepeat p t) := by
  unfold execRetryRepeat
  repeat' (first
    | (with_reducible first
      | exact h | apply State.setLink_keep | apply OKeep.next | apply OKeep.occurs)
    | simp only [Keep.mk_eq, id_eq] | split)

theorem execLaneSpare_keep {p : Fin 24} {lost : Option (Fin 4)} (h : Keep s t) : OKeep s (execLaneSpare p lost t) := by
  unfold execLaneSpare
  repeat' (first
    | (with_reducible first
      | exact h | apply State.spareLane_keep | apply State.portTo_keep | apply OKeep.next | apply OKeep.occurs | apply Keep.ite)
    | simp only [Keep.mk_eq, id_eq] | split)

theorem execLaneRepeat_keep {p : Fin 24} (h : Keep s t) : OKeep s (execLaneRepeat p t) := by
  unfold execLaneRepeat
  repeat' (first
    | (with_reducible first
      | exact h | apply State.setLink_keep | apply OKeep.next | apply OKeep.occurs)
    | simp only [Keep.mk_eq, id_eq] | split)

theorem execLaneSpareComplete_keep {p : Fin 24} {delay : BitVec 24 × BitVec 16} (h : Keep s t) : OKeep s (execLaneSpareComplete p delay t) := by
  unfold execLaneSpareComplete
  repeat' (first
    | (with_reducible first
      | exact h | apply State.setLink_keep | apply OKeep.next | apply OKeep.occurs)
    | simp only [Keep.mk_eq, id_eq] | split)

theorem State.exchange_keep {p : ℕ} {target : ℤ} (h : Keep s t) : Keep s (State.exchange t p target) :=
  State.setLink_keep h

theorem State.steer_keep (h : Keep s t) : Keep s (State.steer t) := by
  unfold State.steer
  repeat' (first
    | (with_reducible first
      | exact h | apply Keep.ite | apply KeepC.of)
    | simp only [Keep.mk_eq, id_eq] | split)

theorem State.timeCtrl_keep (h : Keep s t) : Keep s (State.timeCtrl t) := by
  unfold State.timeCtrl
  repeat' (first
    | (with_reducible first
      | exact h | apply Keep.ite | apply KeepC.of)
    | simp only [Keep.mk_eq, id_eq])

theorem execTimeExchange_keep {p : Fin 24} {t1 : BitVec 80} {t2 : BitVec 80} {t3 : BitVec 16} {t4 : BitVec 80} (h : Keep s t) : OKeep s (execTimeExchange p t1 t2 t3 t4 t) := by
  unfold execTimeExchange
  repeat' (first
    | (with_reducible first
      | exact h | apply State.setLink_keep | apply OKeep.occurs | apply KeepC.of)
    | simp only [Keep.mk_eq, id_eq])

theorem State.takeTime_keep {p : ℕ} {x : LinkPort} {b : List Byte} {frac : ℕ} (h : Keep s t) : Keep s (State.takeTime t p x b frac) := by
  unfold State.takeTime
  repeat' (first
    | (with_reducible first
      | exact h | apply State.setLink_keep | apply State.exchange_keep | apply Keep.ite | apply KeepC.of)
    | simp only [Keep.mk_eq, id_eq] | split)

theorem execFlitTime_keep {p : Fin 24} {flit : List Byte} {bad : Bool} {corr : List ℕ} {frac : BitVec 16} (h : Keep s t) : OKeep s (execFlitTime p flit bad corr frac t) := by
  unfold execFlitTime
  repeat' (first
    | (with_reducible first
      | exact h | apply State.rxFlit_keep | apply State.takeTime_keep | exact Keep.refl _ | intro _))

theorem execTimeLockTimeout_keep (h : Keep s t) : OKeep s (execTimeLockTimeout t) := by
  unfold execTimeLockTimeout
  repeat' (first
    | (with_reducible first
      | exact h | apply State.setLink_keep | apply OKeep.next | apply OKeep.occurs | apply KeepC.of)
    | simp only [Keep.mk_eq, id_eq] | split)

theorem execTransceiverInsert_keep {p : Fin 24} {serial : List Byte} {oui : List Byte × List Byte} {part : List Byte × List Byte × List Byte} {optical : Bool} {passive : Bool} {suitable : Bool} (h : Keep s t) : OKeep s (execTransceiverInsert p serial oui part optical passive suitable t) := by
  unfold execTransceiverInsert
  repeat' (first
    | (with_reducible first
      | exact h | apply State.setLink_keep | apply State.writeLaser_keep | apply State.bringUp_keep | apply OKeep.occurs
      | apply Keep.ite))

theorem execTransceiverRemove_keep {p : Fin 24} (h : Keep s t) : OKeep s (execTransceiverRemove p t) := by
  unfold execTransceiverRemove
  repeat' (first
    | (with_reducible first
      | exact h | apply State.portTo_keep | apply State.writeLaser_keep | apply State.setLink_keep | apply OKeep.occurs
      | apply Keep.ite))

theorem execTransceiverPoll_keep {p : Fin 24} {t10 : ℤ} {flags : List Byte} {volt : ℕ} {lanes : List ℕ × List ℕ × List ℕ} (h : Keep s t) : OKeep s (execTransceiverPoll p t10 flags volt lanes t) := by
  unfold execTransceiverPoll
  repeat' (first
    | (with_reducible first
      | exact h | apply State.setLink_keep | apply State.event_keep | apply State.portTo_keep | exact Keep.refl _ | intro _
      | apply OKeep.next | apply OKeep.occurs | apply Keep.ite | apply KeepC.of | apply Keep.foldl)
    | simp only [Keep.mk_eq, id_eq] | split)

theorem execLaserRecordWrite_keep {p : Fin 24} (h : Keep s t) : OKeep s (execLaserRecordWrite p t) := by
  unfold execLaserRecordWrite
  repeat' (first
    | (with_reducible first
      | exact h | apply State.writeLaser_keep | apply OKeep.occurs))

/-! ## Transport -/

theorem State.sendOn_keep {cls : ℕ} {h' : Th} {path : ℕ} {payload : List Byte} (h : Keep s t) : Keep s (State.sendOn t cls h' path payload) := by
  unfold State.sendOn
  repeat' (first
    | (with_reducible first
      | exact h | apply State.sendPacket_keep)
    | split)

theorem State.sendMgmt_keep {job : ℕ} {step : W32} {dst : ℕ} {kind : ℕ} {body : List Byte} (h : Keep s t) : Keep s (State.sendMgmt t job step dst kind body) :=
  State.sendOn_keep h

theorem State.respond_keep {h' : Th} {typ : ℕ} {pidx : ℕ} {aux : ℕ} (h : Keep s t) : Keep s (State.respond t h' typ pidx aux) :=
  State.sendOn_keep h

theorem State.ack_keep {h' : Th} (h : Keep s t) : Keep s (State.ack t h') :=
  State.respond_keep h

theorem State.nack_keep {h' : Th} {pidx : ℕ} {cause : ℕ} (h : Keep s t) : Keep s (State.nack t h' pidx cause) :=
  State.respond_keep h

theorem State.forward_keep {cls : ℕ} {h' : Th} {b : List Byte} (h : Keep s t) : Keep s (State.forward t cls h' b) := by
  unfold State.forward
  repeat' (first
    | (with_reducible first
      | exact h | apply State.sendPacket_keep | apply Keep.ite)
    | split)

theorem State.recvPkt_keep {p : ℕ} {hop : Bool} {cls : ℕ} {typ : ℕ} {sel : List Byte → Bool} {held : State → List Byte → Th → Bool} {act : State → List Byte → Th → State} (h : Keep s t) (hact : ∀ b0 b1 b2, Keep b0 (act b0 b1 b2)) : OKeep s (State.recvPkt t p hop cls typ sel held act) := by
  unfold State.recvPkt
  repeat' (first
    | (with_reducible first
      | exact h | refine Keep.trans ?_ (hact _ _ _) | apply State.forward_keep | apply State.dropPacket_keep | apply OKeep.next)
    | simp only [Keep.mk_eq, id_eq] | split)

theorem State.openSend_keep {t' : ℕ} {dst : ℕ} {dtile : ℕ} {pcnt : ℕ} {cargo : Cargo} (h : Keep s t) : Keep s (State.openSend t t' dst dtile pcnt cargo) := by
  unfold State.openSend
  repeat' (first
    | (with_reducible first
      | exact h | apply KeepC.of)
    | simp only [Keep.mk_eq, id_eq] | split)

theorem State.setSend_keep {k : ℕ} {d : SendD} (h : Keep s t) : Keep s (State.setSend t k d) :=
  h

theorem State.closeSend_keep {k : ℕ} {d : SendD} {release : Bool} (h : Keep s t) : Keep s (State.closeSend t k d release) := by
  unfold State.closeSend
  repeat' (first
    | (with_reducible first
      | exact h | apply State.sendOn_keep | apply Keep.ite | apply KeepC.of)
    | simp only [Keep.mk_eq, id_eq])

theorem State.startLink_keep {t' : ℕ} {c : ℕ} {d : SDesc} {td : TDesc} (h : Keep s t) : Keep s (State.startLink t t' c d td) :=
  State.openSend_keep (State.startOut_keep h)

theorem State.writePacket_keep {s t : State} {t' : Nat} {d : SendD} {o : Outb} (h : Keep s t) : Keep s (t.writePacket t' d o).2 :=
  Keep.ite (State.checkFail_keep h) h

theorem State.setRecv_keep {k : ℕ} {d : RecvD} (h : Keep s t) : Keep s (State.setRecv t k d) :=
  h

theorem State.freeRecv_keep {k : ℕ} (h : Keep s t) : Keep s (State.freeRecv t k) :=
  h

theorem State.landGranule_keep {a : ℕ} {b : List Byte} {tr : ℕ} (h : Keep s t) : Keep s (State.landGranule t a b tr) := by
  unfold State.landGranule
  repeat' (first
    | (with_reducible first
      | exact h | apply State.setTag_keep | apply State.markWrite_keep | apply State.setMem_keep | assumption | intro _
      | apply Keep.ite | apply KeepC.setHbm | apply Hbm.wf_writeGran | apply Memory.wf_wrBytes)
    | simp only [Keep.mk_eq, id_eq])

theorem State.landPacket_keep {stop : ℕ} {b : List Byte} {h' : Th} (h : Keep s t) : Keep s (State.landPacket t stop b h') := by
  unfold State.landPacket
  repeat' (first
    | (with_reducible first
      | exact h | apply State.landGranule_keep | apply State.incFrom_keep | apply Keep.ite))

theorem State.meetRecv_keep {stop : ℕ} {k : ℕ} {d : RecvD} {b : List Byte} {h' : Th} (h : Keep s t) : Keep s (State.meetRecv t stop k d b h') := by
  unfold State.meetRecv
  repeat' (first
    | (with_reducible first
      | exact h | apply State.ack_keep | apply State.setRecv_keep | apply State.nack_keep | apply State.freeRecv_keep
      | apply State.landPacket_keep | apply Keep.ite))

theorem State.recvData_keep {stop : ℕ} {b : List Byte} {h' : Th} (h : Keep s t) : Keep s (State.recvData t stop b h') := by
  unfold State.recvData
  repeat' (first
    | (with_reducible first
      | exact h | apply State.nack_keep | apply State.freeRecv_keep | apply State.meetRecv_keep | apply Keep.ite)
    | split)

theorem execWrite_keep {p : Fin 25} {hop : Bool} (h : Keep s t) : OKeep s (execWrite p hop t) := by
  unfold execWrite
  repeat' (first
    | (with_reducible first
      | exact h | apply State.recvPkt_keep | apply State.recvData_keep | exact Keep.refl _ | intro _))

theorem execInc_keep {p : Fin 25} {hop : Bool} (h : Keep s t) : OKeep s (execInc p hop t) := by
  unfold execInc
  repeat' (first
    | (with_reducible first
      | exact h | apply State.recvPkt_keep | apply State.recvData_keep | exact Keep.refl _ | intro _))

theorem execTransferReceiveComplete_keep {t' : Fin 64} {i : Fin 16} (h : Keep s t) : OKeep s (execTransferReceiveComplete t' i t) := by
  unfold execTransferReceiveComplete
  repeat' (first
    | (with_reducible first
      | exact h | apply State.setRecv_keep | apply State.signal_keep | apply State.ack_keep | apply OKeep.next
      | apply OKeep.occurs)
    | simp only [Keep.mk_eq, id_eq] | split)

theorem execDescriptorIdleFree_keep {t' : Fin 64} {i : Fin 16} (h : Keep s t) : OKeep s (execDescriptorIdleFree t' i t) := by
  unfold execDescriptorIdleFree
  repeat' (first
    | (with_reducible first
      | exact h | apply State.freeRecv_keep | apply OKeep.next | apply OKeep.occurs)
    | simp only [Keep.mk_eq, id_eq] | split)

theorem execRelease_keep {p : Fin 25} {hop : Bool} (h : Keep s t) : OKeep s (execRelease p hop t) := by
  unfold execRelease
  repeat' (first
    | (with_reducible first
      | exact h | apply State.recvPkt_keep | apply State.freeRecv_keep | exact Keep.refl _ | intro _)
    | split)

theorem State.takeAck_keep {h' : Th} (h : Keep s t) : Keep s (State.takeAck t h') := by
  unfold State.takeAck
  repeat' (first
    | (with_reducible first
      | exact h | apply State.closeSend_keep | apply State.signal_keep | apply State.setTile_keep | apply State.sendMgmt_keep
      | apply Keep.ite)
    | simp only [Keep.mk_eq, id_eq] | split)

theorem execAck_keep {p : Fin 25} {hop : Bool} (h : Keep s t) : OKeep s (execAck p hop t) := by
  unfold execAck
  repeat' (first
    | (with_reducible first
      | exact h | apply State.recvPkt_keep | apply State.takeAck_keep | exact Keep.refl _ | intro _))

theorem State.recvNack_keep {p : ℕ} {hop : Bool} {cause : ℕ} {act : State → Th → ℕ → SendD → State} (h : Keep s t) (hact : ∀ b0 b1 b2 b3, Keep b0 (act b0 b1 b2 b3)) : OKeep s (State.recvNack t p hop cause act) := by
  unfold State.recvNack
  repeat' (first
    | (with_reducible first
      | exact h | refine Keep.trans ?_ (hact _ _ _ _) | apply State.recvPkt_keep | exact Keep.refl _ | intro _)
    | split)

theorem execNackGap_keep {p : Fin 25} {hop : Bool} (h : Keep s t) : OKeep s (execNackGap p hop t) := by
  unfold execNackGap
  repeat' (first
    | (with_reducible first
      | exact h | apply State.recvNack_keep | apply State.setSend_keep | exact Keep.refl _ | intro _))

theorem execNackBusy_keep {p : Fin 25} {hop : Bool} (h : Keep s t) : OKeep s (execNackBusy p hop t) := by
  unfold execNackBusy
  repeat' (first
    | (with_reducible first
      | exact h | apply State.recvNack_keep | apply State.setSend_keep | exact Keep.refl _ | intro _))

theorem execNackNotres_keep {p : Fin 25} {hop : Bool} (h : Keep s t) : OKeep s (execNackNotres p hop t) := by
  unfold execNackNotres
  repeat' (first
    | (with_reducible first
      | exact h | apply State.recvNack_keep | apply State.setSend_keep | exact Keep.refl _ | intro _))

theorem execNackPerm_keep {p : Fin 25} {hop : Bool} (h : Keep s t) : OKeep s (execNackPerm p hop t) := by
  unfold execNackPerm
  repeat' (first
    | (with_reducible first
      | exact h | apply State.recvNack_keep | apply State.jobFault_keep | apply State.closeSend_keep | exact Keep.refl _
      | intro _))

theorem execBackoffExpiry_keep {t' : Fin 64} {i : Fin 16} (h : Keep s t) : OKeep s (execBackoffExpiry t' i t) := by
  unfold execBackoffExpiry
  repeat' (first
    | (with_reducible first
      | exact h | apply State.setSend_keep | apply OKeep.next | apply OKeep.occurs)
    | simp only [Keep.mk_eq, id_eq] | split)

end Sys2Proof.Machine
end

