-- ==== Sys2Proof/Laws/KeepIssue.lean ====
section
/-! SUPPORT. Laws/KeepIssue.lean: what every operation keeps, one lemma each: saving and restoring, fences, rollout and the issue of bundles. -/

namespace Sys2Proof.Machine

variable {s t : State}

/-! ## Save -/

theorem State.readKeyed_keep {s t : State} {a : Nat} {k : W32 × W32 × W32} (h : Keep s t) : Keep s (t.readKeyed a k).2.2 := by
  unfold State.readKeyed
  dsimp only
  repeat' (first | exact h | exact State.checkFail_keep h | split)

theorem State.writeKeyed_keep {a : ℕ} {b : List Byte} {pz : Bool} {k : W32 × W32 × W32} (h : Keep s t) : Keep s (State.writeKeyed t a b pz k) := by
  unfold State.writeKeyed
  repeat' (first
    | (with_reducible first
      | exact h | apply State.markWrite_keep | apply State.setMem_keep | assumption | intro _ | apply Keep.ite
      | apply KeepC.setHbm | apply Hbm.wf_writeGran | apply Memory.wf_wrBytes)
    | simp only [Keep.mk_eq, id_eq])

theorem State.putArea_keep {n : Nat} {c : Ctx} {rb : Bool} {ver : W32} : ∀ {gs : List AreaGran} {s t : State} {a : Nat} (_ : Keep s t),
    Keep s (t.putArea n c rb ver a gs)
  | [], _, _, _, h => h
  | g :: gs, s, t, a, h => by
    unfold State.putArea
    dsimp only
    split
    · exact State.putArea_keep (State.writeKeyed_keep (State.checkFail_keep h))
    · exact State.putArea_keep (State.writeKeyed_keep h)

theorem State.saveTile_keep {s t : State} {n : Nat} {c : Ctx} {rb : Bool} {ver : W32} {t' : Nat} (h : Keep s t) :
    Keep s (t.saveTile n c rb ver t').1 := by
  unfold State.saveTile
  dsimp only
  with_reducible exact State.putArea_keep h

theorem State.getArea_keep {n : Nat} {c : Ctx} {rb : Bool} {ver : W32} : ∀ {k : Nat} {s t : State} {a : Nat} (_ : Keep s t),
    Keep s (t.getArea n c rb ver a k).2
  | 0, _, _, _, h => h
  | k + 1, s, t, a, h => by
    unfold State.getArea
    exact State.getArea_keep (State.readKeyed_keep h)

theorem State.clearSramBut_keep {s t : State} {t' : Nat} {live : List (Nat × Nat)} (h : Keep s t) : Keep s (t.clearSramBut t' live) :=
  Keep.setHbm h fun x => Hbm.wf_filter x

theorem State.clearSram_keep {s t : State} {t' : Nat} (h : Keep s t) : Keep s (t.clearSram t') := State.clearSramBut_keep h

theorem State.putLive_keep {t' : Nat} : ∀ {l : List (Nat × Nat)} {gs : List (List Byte × Bool)} {s t : State} (_ : Keep s t),
    Keep s (t.putLive t' l gs)
  | [], _, _, _, h => by unfold State.putLive; exact h
  | p :: ps, gs, s, t, h => by
    unfold State.putLive
    exact State.putLive_keep (Keep.foldl h fun u b => State.markWrite_keep (State.setMem_keep (Keep.refl u) Memory.wf_wrBytes))

theorem State.restoreTile_keep {s t : State} {n : Nat} {c : Ctx} {rb : Bool} {t' : Nat} {v : SavedTile} (h : Keep s t) :
    Keep s (t.restoreTile n c rb t' v) := by
  unfold State.restoreTile
  extract_lets k place
  split
  rename_i img s1 e1
  split
  rename_i gs s2 e2
  extract_lets b x bad x' s3 s4
  have k1 : Keep s s1 := by
    have := State.getArea_keep (n := n) (c := c) (rb := rb) (ver := v.ver) (k := k) (a := place) h
    rwa [e1] at this
  have k2 : Keep s s2 := by
    have := State.getArea_keep (n := n) (c := c) (rb := rb) (ver := v.ver) (k := (v.live.map fun p => p.2 / 4096).sum) (a := place + imageSize) k1
    rwa [e2] at this
  have k4 : Keep s s4 := State.setTile_keep (State.putLive_keep (State.clearSram_keep (State.spend_keep k2)))
  exact Keep.ite k4 (State.startLoad_keep k4)

theorem State.firstStart_keep {s t : State} {n : Nat} {c : Ctx} {t' : Nat} (h : Keep s t) : EKeep s (t.firstStart n c t') := by
  unfold State.firstStart
  exact EKeep.bind fun a => EKeep.ok (State.startLoad_keep (State.setTile_keep (State.putLive_keep (State.clearSram_keep (State.getArea_keep h)))))

theorem State.dropAhead_keep {s t : State} {t' : Nat} (h : Keep s t) : Keep s (t.dropAhead t') := by
  have k : Keep s ((t.tile t').inb.foldl (fun s p => s.ctr t' p.1 6 (p.2.fl.filter fun f => f.runAhead && decide (p.2.demand ≤ f.j)).length) t) :=
    Keep.foldl h fun u b => State.ctr_keep (Keep.refl u)
  unfold State.dropAhead
  generalize (t.tile t').inb.foldl (fun s p => s.ctr t' p.1 6 (p.2.fl.filter fun f => f.runAhead && decide (p.2.demand ≤ f.j)).length) t = u at k ⊢
  exact Keep.setHbm (State.setTile_keep k) fun x => State.forget_wf x

theorem State.saveAll_keep {s t : State} {n : Nat} {rb : Bool} {ver : W32} {ts : List Nat} (h : Keep s t) :
    Keep s (t.saveAll n rb ver ts) := by
  unfold State.saveAll
  split
  · exact h
  · rename_i c _
    have hk : ∀ (l : List Nat) (acc : State × SMap SavedTile), Keep s acc.1 → Keep s (l.foldl (fun (acc : State × SMap SavedTile) t =>
        (((acc.1.dropAhead t).saveTile n c rb ver t).1, sins acc.2 t ((acc.1.dropAhead t).saveTile n c rb ver t).2)) acc).1 := by
      intro l
      induction l with
      | nil => intro acc k; exact k
      | cons b l ih =>
        intro acc k
        rw [List.foldl_cons]
        apply ih
        with_reducible exact State.saveTile_keep (State.dropAhead_keep k)
    have k := hk ts (t, if rb then c.rb else c.saved) h
    dsimp only
    split
    · with_reducible exact k
    · apply State.setCtx_keep
      with_reducible exact k

theorem State.restoreAll_keep {n : ℕ} {rb : Bool} {ts : List ℕ} (h : Keep s t) : Keep s (State.restoreAll t n rb ts) := by
  unfold State.restoreAll
  repeat' (first
    | (with_reducible first
      | exact h | apply State.restoreTile_keep | exact Keep.refl _ | intro _ | apply Keep.foldl)
    | split)

/-! ## CollBase -/

theorem State.rawWrite_keep {a : ℕ} {b : List Byte} (h : Keep s t) : Keep s (State.rawWrite t a b) := by
  unfold State.rawWrite
  repeat' (first
    | (with_reducible first
      | exact h | apply State.setMem_keep | assumption | intro _ | apply Keep.ite | apply KeepC.setHbm | apply Hbm.wf_writeRaw
      | apply Memory.wf_wrBytes)
    | simp only [Keep.mk_eq, id_eq])

/-! ## Sched -/

theorem State.settle_keep (h : Keep s t) : Keep s (State.settle t) :=
  h

theorem State.preempt_keep {r : ℕ} {c : Ctx} {inc : Option ℕ} (h : Keep s t) : Keep s (State.preempt t r c inc) := by
  unfold State.preempt
  repeat' (first
    | (with_reducible first
      | exact h | apply State.setCtx_keep | apply Keep.ite | apply KeepC.of)
    | simp only [Keep.mk_eq, id_eq])

theorem State.resched_keep (h : Keep s t) : Keep s (State.resched t) := by
  unfold State.resched
  repeat' (first
    | (with_reducible first
      | exact h | apply State.settle_keep | apply State.preempt_keep | apply Keep.ite)
    | split)

theorem State.endWindow_keep {n : ℕ} (h : Keep s t) : Keep s (State.endWindow t n) := by
  unfold State.endWindow
  repeat' (first
    | (with_reducible first
      | exact h | apply State.resched_keep | apply State.setCtx_keep | apply Keep.ite)
    | simp only [Keep.mk_eq, id_eq] | split)

theorem State.boundary_keep (h : Keep s t) : Keep s (State.boundary t) := by
  unfold State.boundary
  repeat' (first
    | (with_reducible first
      | exact h | apply State.resched_keep | apply State.stopCtx_keep | apply Keep.ite)
    | split)

theorem State.haltEnd_keep (h : Keep s t) : Keep s (State.haltEnd t) := by
  unfold State.haltEnd
  repeat' (first
    | (with_reducible first
      | exact h | apply State.endWindow_keep | apply State.boundary_keep | apply Keep.ite)
    | simp only [Keep.mk_eq, id_eq] | split)

/-! ## Fence -/

/-! The placement stays one to one -/

theorem Placement.distinct_of_bind {p q : Placement} (e : q.bind = p.bind) (h : p.distinct) : q.distinct := by
  intro t u ht hu k
  refine h t u ht hu ?_
  rwa [Placement.phys, Placement.phys, e] at k

theorem Placement.not_bound {p : Placement} {k : Nat} (h : p.bound k = false) {u : Nat} (hu : u < 64) : p.phys u ≠ k := by
  intro e
  have : p.bound k = true := by
    rw [Placement.bound, List.any_eq_true]
    exact ⟨u, List.mem_range.2 hu, by simp [e]⟩
  rw [h] at this; cases this

theorem Placement.freeSpare_free {p : Placement} {q k : Nat} (h : p.freeSpare q = some k) : p.bound k = false := by
  unfold Placement.freeSpare at h
  split at h
  · split at h
    · cases h
    · rename_i hb; cases h; simpa using hb
  · cases h

theorem foldl_pick {f : Option Nat → Nat → Option Nat} (hf : ∀ b x k, f b x = some k → b = some k ∨ k = x) :
    ∀ {l : List Nat} {b : Option Nat} {k : Nat}, l.foldl f b = some k → b = some k ∨ k ∈ l
  | [], _, _, h => .inl h
  | x :: l, b, k, h => by
    rw [List.foldl_cons] at h
    rcases foldl_pick hf h with h1 | h1
    · rcases hf b x k h1 with h2 | h2
      · exact .inl h2
      · exact .inr (h2 ▸ List.mem_cons_self ..)
    · exact .inr (List.mem_cons_of_mem _ h1)

theorem Placement.target_free {p : Placement} {x k : Nat} (h : p.target x = some k) : p.bound k = false := by
  unfold Placement.target at h
  split at h
  · rename_i e; cases h; exact Placement.freeSpare_free e
  · rcases foldl_pick (by
      intro b x k h
      split at h
      · cases h; exact .inr rfl
      · split at h
        · cases h; exact .inr rfl
        · exact .inl h) h with e | e
    · cases e
    · obtain ⟨q, _, e⟩ := List.mem_filterMap.1 e
      exact Placement.freeSpare_free e

theorem Placement.distinct_put {p q : Placement} {t k : Nat} (e : q.bind = sput bindDefault p.bind t k) (hb : p.bound k = false)
    (h : p.distinct) : q.distinct := by
  intro u v hu hv k'
  simp only [Placement.phys, e, sget_sput] at k'
  split at k' <;> split at k'
  · omega
  · exact absurd k'.symm (Placement.not_bound hb hv)
  · exact absurd k' (Placement.not_bound hb hu)
  · exact h u v hu hv k'

theorem State.loseCapacity_keep {s t : State} (h : Keep s t) : Keep s t.loseCapacity :=
  Keep.foldl (Keep.setPlc h fun _ => Placement.distinct_of_bind rfl) fun u _ => by
    split
    · exact Keep.ite (State.stopCtx_keep (Keep.refl u)) (Keep.refl u)
    · exact Keep.refl u

theorem State.fenceTile_keep {s t : State} {p cause : Nat} (h : Keep s t) : Keep s (t.fenceTile p cause) := by
  unfold State.fenceTile
  split
  · exact h
  · dsimp only
    have k1 : Keep s (State.logEvent { t with plc := { t.plc with fenced := t.plc.fenced ||| BitVec.ofNat 68 (2 ^ p) } } (.evFence p cause)) :=
      State.logEvent_keep (Keep.setPlc h fun _ => Placement.distinct_of_bind rfl)
    refine State.event_keep ?_
    split
    · exact k1
    · split
      · rename_i e
        exact State.setTile_keep (State.clearSram_keep (Keep.setPlc k1 fun _ => Placement.distinct_put rfl (Placement.target_free e)))
      · exact State.loseCapacity_keep (State.clearSram_keep k1)

theorem State.fenceAtPp_keep {t' : ℕ} (h : Keep s t) : Keep s (State.fenceAtPp t t') := by
  unfold State.fenceAtPp
  repeat' (first
    | (with_reducible first
      | exact h | apply State.fenceTile_keep | apply Keep.ite))

/-! ## Rollout -/

theorem State.clearLive_keep {g : GEntry} {r : ℕ} (h : Keep s t) : Keep s (State.clearLive t g r) := by
  unfold State.clearLive
  repeat' (first
    | (with_reducible first
      | exact h | apply State.rawWrite_keep | apply Keep.ite))

theorem State.expel_keep {n : ℕ} {idx : ℕ} (h : Keep s t) : Keep s (State.expel t n idx) := by
  unfold State.expel
  repeat' (first
    | (with_reducible first
      | exact h | apply State.clearLive_keep | apply State.stopCtx_keep | exact Keep.refl _ | intro _ | apply Keep.ite
      | apply Keep.foldl)
    | simp only [Keep.mk_eq, id_eq] | split)

theorem State.loadRun_keep {n : ℕ} (h : Keep s t) : Keep s (State.loadRun t n) := by
  unfold State.loadRun
  repeat' (first
    | (with_reducible first
      | exact h | apply State.stopCtx_keep | apply State.setCtx_keep | apply State.expel_keep | exact Keep.refl _ | intro _
      | apply Keep.ite | apply Keep.foldl)
    | simp only [Keep.mk_eq, id_eq] | split)

theorem State.decideRollout_keep {n : ℕ} (h : Keep s t) : Keep s (State.decideRollout t n) := by
  unfold State.decideRollout
  repeat' (first
    | (with_reducible first
      | exact h | apply State.loadRun_keep | apply State.setCtx_keep | apply State.jobFault_keep | apply State.event_keep
      | exact Keep.refl _ | intro _ | apply Keep.ite | apply Keep.foldl)
    | simp only [Keep.mk_eq, id_eq] | split)

theorem State.roLeave_keep {r : RoArea} {id : ℕ} (h : Keep s t) : Keep s (State.roLeave t r id) := by
  unfold State.roLeave
  repeat' (first
    | (with_reducible first
      | exact h | apply State.rawWrite_keep | exact Keep.refl _ | intro _ | apply Keep.foldl)
    | simp only [Keep.mk_eq, id_eq] | split)

theorem State.roJoin_keep {r : RoArea} {q : RoReq} (h : Keep s t) : Keep s (State.roJoin t r q) := by
  unfold State.roJoin
  repeat' (first
    | (with_reducible first
      | exact h | apply State.rawWrite_keep | exact Keep.refl _ | intro _ | apply Keep.foldl)
    | simp only [Keep.mk_eq, id_eq] | split)

theorem State.applyRollout_keep {n : ℕ} (h : Keep s t) : Keep s (State.applyRollout t n) := by
  unfold State.applyRollout
  repeat' (first
    | (with_reducible first
      | exact h | apply State.roLeave_keep | apply State.roJoin_keep | apply State.rawWrite_keep | apply State.setCtx_keep
      | exact Keep.refl _ | intro _ | apply Keep.foldl)
    | simp only [Keep.mk_eq, id_eq] | split)

/-! ## Issue -/

theorem State.noteHold_keep {t' : ℕ} {hs : List Hold} (h : Keep s t) : Keep s (State.noteHold t t' hs) := by
  unfold State.noteHold
  repeat' (first
    | (with_reducible first
      | exact h | apply State.stallAt_keep | apply State.setTile_keep | exact Keep.refl _ | intro _ | apply Keep.foldl))

theorem State.prepS_keep {t : State} {t' : ℕ} {v : SSlot} : FKeep (State.prepS t t' v) := by
  unfold State.prepS
  repeat' (first
    | (with_reducible first
      | apply State.startIn_keep | apply State.startOut_keep | apply State.startLink_keep | apply State.startLoad_keep
      | apply State.sdem_keep | exact Keep.refl _ | intro _ | apply FKeep.ok | apply Keep.ite | exact FKeep.error
      | apply FKeep.bind)
    | simp only [Keep.mk_eq, id_eq] | split)

theorem State.prepArray_keep {t : State} {t' : ℕ} {h' : ℕ × ℕ × ℕ} : FKeep (State.prepArray t t' h') := by
  unfold State.prepArray
  repeat' (first
    | (with_reducible first
      | apply State.issueArray_keep | exact Keep.refl _ | intro _ | apply FKeep.ok | apply FKeep.bind))

theorem State.prepF_keep {t : State} {t' : ℕ} {v : FSlot} : FKeep (State.prepF t t' v) := by
  unfold State.prepF
  repeat' (first
    | (with_reducible first
      | apply State.prepArray_keep | exact Keep.refl _ | intro _ | apply FKeep.ok | exact FKeep.error)
    | simp only [Keep.mk_eq, id_eq] | split)

theorem State.prepB_keep {t : State} {t' : Nat} {v : BSlot} : FKeep (t.prepB t' v) := by
  unfold State.prepB
  split
  · exact FKeep.error
  · have hm : ∀ (l : List (Nat × Nat × Nat)) (fs : List (State → State)), l.mapM (t.prepArray t') = .ok fs → ∀ f ∈ fs, ∀ u, Keep u (f u) := by
      intro l
      induction l with
      | nil => intro fs e; cases e; intro f hf; cases hf
      | cons a l ih =>
        intro fs e
        rw [List.mapM_cons] at e
        cases ea : t.prepArray t' a with
        | error x => rw [ea] at e; cases e
        | ok g =>
          rw [ea] at e
          cases el : l.mapM (t.prepArray t') with
          | error x => rw [el] at e; cases e
          | ok gs =>
            rw [el] at e
            cases e
            intro f hf u
            rcases List.mem_cons.1 hf with rfl | hf
            · exact State.prepArray_keep _ ea u
            · exact ih gs el f hf u
    cases e : (v.halves (t.tile t').bphase).mapM (t.prepArray t') with
    | error x => rintro u ⟨⟩
    | ok fs =>
      refine FKeep.ok fun u => ?_
      have k : Keep u (fs.foldl (fun s f => f s) u) := by
        have := hm _ fs e
        clear e
        have gen : ∀ (l : List (State → State)) (w : State), (∀ f ∈ l, ∀ u, Keep u (f u)) → Keep w (l.foldl (fun s f => f s) w) := by
          intro l
          induction l with
          | nil => intro w _; exact Keep.refl w
          | cons g l ih =>
            intro w hw
            exact (hw g (List.mem_cons_self ..) w).trans (ih _ fun f hf => hw f (List.mem_cons_of_mem _ hf))
        exact gen fs u this
      dsimp only
      split
      · exact State.setTile_keep k
      · exact k

theorem State.prepVslot_keep {t : State} {t' : ℕ} {v : VSlot} : FKeep (State.prepVslot t t' v) := by
  unfold State.prepVslot
  repeat' (first
    | (with_reducible first
      | apply State.startUpd_keep | apply State.prepV_keep | exact Keep.refl _ | intro _ | apply FKeep.ok | apply FKeep.bind)
    | split)

theorem State.abandonCheck_keep {t' : ℕ} (h : Keep s t) : Keep s (State.abandonCheck t t') := by
  unfold State.abandonCheck
  repeat' (first
    | (with_reducible first
      | exact h | apply State.setPtile_keep | apply Keep.ite))

theorem State.doPp_keep {t' : ℕ} {seg : List Byte} {load : List Byte} {stops : Bool} {keeps : Bool} (h : Keep s t) : Keep s (State.doPp t t' seg load stops keeps) := by
  unfold State.doPp
  repeat' (first
    | (with_reducible first
      | exact h | apply State.abandonCheck_keep | apply State.setTile_keep | apply State.decideRollout_keep
      | apply State.saveAll_keep | apply State.fenceAtPp_keep | apply State.setCtx_keep | apply State.boundary_keep
      | apply Keep.ite)
    | simp only [Keep.mk_eq, id_eq] | split)

theorem State.prepC_keep {t : State} {t' : ℕ} {v : CSlot} {next : ℕ} : FKeep (State.prepC t t' v next) := by
  unfold State.prepC
  repeat' (first
    | (with_reducible first
      | apply State.setTile_keep | apply State.incFrom_keep | apply State.doPp_keep | apply State.haltEnd_keep
      | apply State.prepBcfg_keep | apply State.prepBpush_keep | apply State.prepBpop_keep | exact Keep.refl _ | intro _
      | apply FKeep.ok | exact FKeep.error | apply FKeep.bind)
    | simp only [Keep.mk_eq, id_eq] | split)

theorem State.advance_keep {t' : ℕ} {b : Bundle} {fetched : Bool} {levels : List ℕ} (h : Keep s t) : Keep s (State.advance t t' b fetched levels) :=
  State.setTile_keep h

theorem EKeep.bindF {s : State} {e : Except JF (State → State)} {f : (State → State) → Except JF State} (he : FKeep e)
    (h : ∀ g, (∀ u, Keep u (g u)) → EKeep s (f g)) : EKeep s (e >>= f) := by
  cases e with
  | error x => rintro u ⟨⟩
  | ok g => exact h g (he g rfl)

theorem State.prepBundle_keep {s t : State} {t' : Nat} {b : Bundle} {fetched : Bool} (h : Keep s t) : EKeep s (t.prepBundle t' b fetched) := by
  unfold State.prepBundle
  refine EKeep.bind fun _ => EKeep.bind fun _ => EKeep.bindF State.prepF_keep fun f hf => EKeep.bindF State.prepB_keep fun g hg =>
    EKeep.bindF State.prepVslot_keep fun v hv => EKeep.bindF State.prepS_keep fun i hi => EKeep.bindF State.prepC_keep fun c hc => EKeep.ok ?_
  have k : Keep s ((t.setTile t' ((t.tile t').stamp t.clk.etick)).chrAdd (t.plc.phys t') 1 5 0 1) := State.chrAdd_keep (State.setTile_keep h)
  split
  · exact State.advance_keep ((((((k.trans (hf _)).trans (hg _)).trans (hv _)).trans (hi _)).trans (hc _)))
  · exact State.advance_keep (((((((State.chrAdd_keep k).trans (hf _)).trans (hg _)).trans (hv _)).trans (hi _)).trans (hc _)))

theorem State.issue_keep {t' : ℕ} {b : Bundle} {fetched : Bool} (h : Keep s t) : OKeep s (State.issue t t' b fetched) := by
  unfold State.issue
  repeat' (first
    | (with_reducible first
      | exact h | apply State.orFault_keep | apply State.prepBundle_keep | apply State.noteHold_keep | exact Keep.refl _
      | apply OKeep.next)
    | simp only [Keep.mk_eq, id_eq] | split)

theorem execBundleIssue_keep {t' : Fin 64} (h : Keep s t) : OKeep s (execBundleIssue t' t) :=
  State.issue_keep h

theorem State.only_keep {t' : ℕ} {b : Bundle} (h : Keep s t) : OKeep s (State.only t t' b) :=
  State.issue_keep h

theorem execWatchdog_keep {t' : Fin 64} (h : Keep s t) : OKeep s (execWatchdog t' t) := by
  unfold execWatchdog
  repeat' (first
    | (with_reducible first
      | exact h | apply State.jobFault_keep | apply OKeep.next | apply OKeep.occurs)
    | split)

theorem execIntrusionOverrun_keep {t' : Fin 64} (h : Keep s t) : OKeep s (execIntrusionOverrun t' t) := by
  unfold execIntrusionOverrun
  repeat' (first
    | (with_reducible first
      | exact h | apply State.setCtx_keep | apply State.setTile_keep | apply State.event_keep | apply OKeep.next
      | apply OKeep.occurs)
    | simp only [Keep.mk_eq, id_eq] | split)

theorem execSyncIncrementLand_keep {t' : Fin 64} {obj : BitVec 8} (h : Keep s t) : OKeep s (execSyncIncrementLand t' obj t) := by
  unfold execSyncIncrementLand
  repeat' (first
    | (with_reducible first
      | exact h | apply State.setTile_keep | apply OKeep.next | apply OKeep.occurs)
    | simp only [Keep.mk_eq, id_eq] | split)

theorem execSyncWindowStore_keep {t' : Fin 12 × Fin 64} {obj : BitVec 8} {v : BitVec 32} (h : Keep s t) : OKeep s (execSyncWindowStore t' obj v t) := by
  unfold execSyncWindowStore
  repeat' (first
    | (with_reducible first
      | exact h | apply State.incFrom_keep | apply OKeep.occurs))

theorem State.startHalted_keep {t' : ℕ} {off : ℕ} (h : Keep s t) : EKeep s (State.startHalted t t' off) := by
  unfold State.startHalted
  repeat' (first
    | (with_reducible first
      | exact h | apply State.signal_keep | apply State.startLoad_keep | apply State.setTile_keep | intro _ | apply EKeep.ok
      | apply EKeep.bind)
    | split)

theorem execTileStartStore_keep {t' : Fin 64} {off : BitVec 32} (h : Keep s t) : OKeep s (execTileStartStore t' off t) := by
  unfold execTileStartStore
  repeat' (first
    | (with_reducible first
      | exact h | apply State.orFault_keep | apply State.startHalted_keep | exact Keep.refl _ | apply OKeep.occurs))

/-! ## Slots -/

theorem execMma256x128_keep {t' : Fin 64} {slot : Fin 3} {rec : BitVec 19} (h : Keep s t) : OKeep s (execMma256x128 t' slot rec t) :=
  State.only_keep h

theorem execMma128x128_keep {t' : Fin 64} {slot : Fin 3} {rec : BitVec 19} (h : Keep s t) : OKeep s (execMma128x128 t' slot rec t) :=
  State.only_keep h

theorem execMma2x256x64_keep {t' : Fin 64} {slot : Fin 3} {rec : BitVec 19} (h : Keep s t) : OKeep s (execMma2x256x64 t' slot rec t) :=
  State.only_keep h

theorem execMma128x64_keep {t' : Fin 64} {slot : Fin 3} {rec : BitVec 19} (h : Keep s t) : OKeep s (execMma128x64 t' slot rec t) :=
  State.only_keep h

theorem execMmaTree64_keep {t' : Fin 64} {slot : Fin 3} {rec : BitVec 19} (h : Keep s t) : OKeep s (execMmaTree64 t' slot rec t) :=
  State.only_keep h

theorem execMmaDiag_keep {t' : Fin 64} {slot : Fin 3} {rec : BitVec 19} (h : Keep s t) : OKeep s (execMmaDiag t' slot rec t) :=
  State.only_keep h

theorem execMld_keep {t' : Fin 64} {slot : Fin 3} {rec : BitVec 19} (h : Keep s t) : OKeep s (execMld t' slot rec t) :=
  State.only_keep h

theorem execMma256x128Cx_keep {t' : Fin 64} {slot : Fin 3} {rec : BitVec 19} (h : Keep s t) : OKeep s (execMma256x128Cx t' slot rec t) :=
  State.only_keep h

theorem execMma128x128Cx_keep {t' : Fin 64} {slot : Fin 3} {rec : BitVec 19} (h : Keep s t) : OKeep s (execMma128x128Cx t' slot rec t) :=
  State.only_keep h

theorem execMma128x64Cx_keep {t' : Fin 64} {slot : Fin 3} {rec : BitVec 19} (h : Keep s t) : OKeep s (execMma128x64Cx t' slot rec t) :=
  State.only_keep h

theorem execMmbPair_keep {t' : Fin 64} {op0 : BitVec 6} {rec0 : BitVec 19} {op1 : BitVec 6} {rec1 : BitVec 19} (h : Keep s t) : OKeep s (execMmbPair t' op0 rec0 op1 rec1 t) :=
  State.only_keep h

theorem execBBoth_keep {t' : Fin 64} {op0 : BitVec 6} {rec0 : BitVec 19} {op1 : BitVec 6} {rec1 : BitVec 19} (h : Keep s t) : OKeep s (execBBoth t' op0 rec0 op1 rec1 t) :=
  State.only_keep h

theorem execHalf0ToB0_keep {t' : Fin 64} {op0 : BitVec 6} {rec0 : BitVec 19} (h : Keep s t) : OKeep s (execHalf0ToB0 t' op0 rec0 t) :=
  State.only_keep h

theorem execHalf0ToB1_keep {t' : Fin 64} {op0 : BitVec 6} {rec0 : BitVec 19} (h : Keep s t) : OKeep s (execHalf0ToB1 t' op0 rec0 t) :=
  State.only_keep h

theorem execVadd_keep {t' : Fin 64} {vd : BitVec 5} {va : BitVec 5} {vb : BitVec 5} {k : BitVec 3} (h : Keep s t) : OKeep s (execVadd t' vd va vb k t) :=
  State.only_keep h

theorem execVsub_keep {t' : Fin 64} {vd : BitVec 5} {va : BitVec 5} {vb : BitVec 5} {k : BitVec 3} (h : Keep s t) : OKeep s (execVsub t' vd va vb k t) :=
  State.only_keep h

theorem execVmul_keep {t' : Fin 64} {vd : BitVec 5} {va : BitVec 5} {vb : BitVec 5} {k : BitVec 3} (h : Keep s t) : OKeep s (execVmul t' vd va vb k t) :=
  State.only_keep h

theorem execVmin_keep {t' : Fin 64} {vd : BitVec 5} {va : BitVec 5} {vb : BitVec 5} {k : BitVec 3} (h : Keep s t) : OKeep s (execVmin t' vd va vb k t) :=
  State.only_keep h

theorem execVmax_keep {t' : Fin 64} {vd : BitVec 5} {va : BitVec 5} {vb : BitVec 5} {k : BitVec 3} (h : Keep s t) : OKeep s (execVmax t' vd va vb k t) :=
  State.only_keep h

theorem execVcopysign_keep {t' : Fin 64} {vd : BitVec 5} {va : BitVec 5} {vb : BitVec 5} {k : BitVec 3} (h : Keep s t) : OKeep s (execVcopysign t' vd va vb k t) :=
  State.only_keep h

theorem execVsel_keep {t' : Fin 64} {vd : BitVec 5} {va : BitVec 5} {vb : BitVec 5} {k : BitVec 3} (h : Keep s t) : OKeep s (execVsel t' vd va vb k t) :=
  State.only_keep h

theorem execVcmpEq_keep {t' : Fin 64} {vd : BitVec 5} {va : BitVec 5} {vb : BitVec 5} {k : BitVec 3} (h : Keep s t) : OKeep s (execVcmpEq t' vd va vb k t) :=
  State.only_keep h

theorem execVcmpNe_keep {t' : Fin 64} {vd : BitVec 5} {va : BitVec 5} {vb : BitVec 5} {k : BitVec 3} (h : Keep s t) : OKeep s (execVcmpNe t' vd va vb k t) :=
  State.only_keep h

theorem execVcmpLt_keep {t' : Fin 64} {vd : BitVec 5} {va : BitVec 5} {vb : BitVec 5} {k : BitVec 3} (h : Keep s t) : OKeep s (execVcmpLt t' vd va vb k t) :=
  State.only_keep h

theorem execVcmpLe_keep {t' : Fin 64} {vd : BitVec 5} {va : BitVec 5} {vb : BitVec 5} {k : BitVec 3} (h : Keep s t) : OKeep s (execVcmpLe t' vd va vb k t) :=
  State.only_keep h

theorem execVdiv_keep {t' : Fin 64} {vd : BitVec 5} {va : BitVec 5} {vb : BitVec 5} {k : BitVec 3} (h : Keep s t) : OKeep s (execVdiv t' vd va vb k t) :=
  State.only_keep h

theorem execVaddPair_keep {t' : Fin 64} {vd : BitVec 5} {va : BitVec 5} {vb : BitVec 5} {k : BitVec 3} (h : Keep s t) : OKeep s (execVaddPair t' vd va vb k t) :=
  State.only_keep h

theorem execVfma_keep {t' : Fin 64} {vd : BitVec 5} {va : BitVec 5} {vb : BitVec 5} {vc : BitVec 5} {k : BitVec 3} (h : Keep s t) : OKeep s (execVfma t' vd va vb vc k t) :=
  State.only_keep h

theorem execVabs_keep {t' : Fin 64} {vd : BitVec 5} {va : BitVec 5} {k : BitVec 3} (h : Keep s t) : OKeep s (execVabs t' vd va k t) :=
  State.only_keep h

theorem execVneg_keep {t' : Fin 64} {vd : BitVec 5} {va : BitVec 5} {k : BitVec 3} (h : Keep s t) : OKeep s (execVneg t' vd va k t) :=
  State.only_keep h

theorem execVrcp_keep {t' : Fin 64} {vd : BitVec 5} {va : BitVec 5} {k : BitVec 3} (h : Keep s t) : OKeep s (execVrcp t' vd va k t) :=
  State.only_keep h

theorem execVsqrt_keep {t' : Fin 64} {vd : BitVec 5} {va : BitVec 5} {k : BitVec 3} (h : Keep s t) : OKeep s (execVsqrt t' vd va k t) :=
  State.only_keep h

theorem execVrsqrt_keep {t' : Fin 64} {vd : BitVec 5} {va : BitVec 5} {k : BitVec 3} (h : Keep s t) : OKeep s (execVrsqrt t' vd va k t) :=
  State.only_keep h

theorem execVexp_keep {t' : Fin 64} {vd : BitVec 5} {va : BitVec 5} {k : BitVec 3} (h : Keep s t) : OKeep s (execVexp t' vd va k t) :=
  State.only_keep h

theorem execVexp2_keep {t' : Fin 64} {vd : BitVec 5} {va : BitVec 5} {k : BitVec 3} (h : Keep s t) : OKeep s (execVexp2 t' vd va k t) :=
  State.only_keep h

theorem execVlog_keep {t' : Fin 64} {vd : BitVec 5} {va : BitVec 5} {k : BitVec 3} (h : Keep s t) : OKeep s (execVlog t' vd va k t) :=
  State.only_keep h

theorem execVlog2_keep {t' : Fin 64} {vd : BitVec 5} {va : BitVec 5} {k : BitVec 3} (h : Keep s t) : OKeep s (execVlog2 t' vd va k t) :=
  State.only_keep h

theorem execVsigmoid_keep {t' : Fin 64} {vd : BitVec 5} {va : BitVec 5} {k : BitVec 3} (h : Keep s t) : OKeep s (execVsigmoid t' vd va k t) :=
  State.only_keep h

theorem execVtanh_keep {t' : Fin 64} {vd : BitVec 5} {va : BitVec 5} {k : BitVec 3} (h : Keep s t) : OKeep s (execVtanh t' vd va k t) :=
  State.only_keep h

theorem execVgeluTanh_keep {t' : Fin 64} {vd : BitVec 5} {va : BitVec 5} {k : BitVec 3} (h : Keep s t) : OKeep s (execVgeluTanh t' vd va k t) :=
  State.only_keep h

theorem execVerf_keep {t' : Fin 64} {vd : BitVec 5} {va : BitVec 5} {k : BitVec 3} (h : Keep s t) : OKeep s (execVerf t' vd va k t) :=
  State.only_keep h

theorem execVgelu_keep {t' : Fin 64} {vd : BitVec 5} {va : BitVec 5} {k : BitVec 3} (h : Keep s t) : OKeep s (execVgelu t' vd va k t) :=
  State.only_keep h

theorem execVredPair_keep {t' : Fin 64} {vd : BitVec 5} {va : BitVec 5} {k : BitVec 3} (h : Keep s t) : OKeep s (execVredPair t' vd va k t) :=
  State.only_keep h

theorem execVredAdd_keep {t' : Fin 64} {vd : BitVec 5} {va : BitVec 5} {k : BitVec 3} (h : Keep s t) : OKeep s (execVredAdd t' vd va k t) :=
  State.only_keep h

theorem execVredMax_keep {t' : Fin 64} {vd : BitVec 5} {va : BitVec 5} {k : BitVec 3} (h : Keep s t) : OKeep s (execVredMax t' vd va k t) :=
  State.only_keep h

theorem execVredMin_keep {t' : Fin 64} {vd : BitVec 5} {va : BitVec 5} {k : BitVec 3} (h : Keep s t) : OKeep s (execVredMin t' vd va k t) :=
  State.only_keep h

theorem execVredAcc_keep {t' : Fin 64} {vd : BitVec 5} {va : BitVec 5} {k : BitVec 3} {lane : BitVec 9} (h : Keep s t) : OKeep s (execVredAcc t' vd va k lane t) :=
  State.only_keep h

theorem execVld_keep {t' : Fin 64} {vr : BitVec 5} {drec : BitVec 16} {x : BitVec 4} (h : Keep s t) : OKeep s (execVld t' vr drec x t) :=
  State.only_keep h

theorem execVst_keep {t' : Fin 64} {vr : BitVec 5} {k : BitVec 3} {drec : BitVec 16} {x : BitVec 4} (h : Keep s t) : OKeep s (execVst t' vr k drec x t) :=
  State.only_keep h

theorem execVcvt_keep {t' : Fin 64} {vr : BitVec 5} {k : BitVec 3} {drec : BitVec 16} {x : BitVec 4} {wform : BitVec 2} {grad : Bool} {ht : Bool} (h : Keep s t) : OKeep s (execVcvt t' vr k drec x wform grad ht t) :=
  State.only_keep h

theorem execVdrop_keep {t' : Fin 64} {kd : BitVec 3} {q : BitVec 16} {drec : BitVec 16} {x : BitVec 4} (h : Keep s t) : OKeep s (execVdrop t' kd q drec x t) :=
  State.only_keep h

theorem execVslice_keep {t' : Fin 64} {k : BitVec 3} {drec : BitVec 16} {x : BitVec 4} (h : Keep s t) : OKeep s (execVslice t' k drec x t) :=
  State.only_keep h

theorem execVupd_keep {t' : Fin 64} {drec : BitVec 16} (h : Keep s t) : OKeep s (execVupd t' drec t) :=
  State.only_keep h

theorem execSgo_keep {t' : Fin 64} {ctx : BitVec 5} {opr : BitVec 16} {x : BitVec 4} {xen : Bool} (h : Keep s t) : OKeep s (execSgo t' ctx opr x xen t) :=
  State.only_keep h

theorem execSdem_keep {t' : Fin 64} {ctx : BitVec 5} {n : BitVec 16} (h : Keep s t) : OKeep s (execSdem t' ctx n t) :=
  State.only_keep h

theorem execSdemX_keep {t' : Fin 64} {ctx : BitVec 5} {x : BitVec 4} (h : Keep s t) : OKeep s (execSdemX t' ctx x t) :=
  State.only_keep h

theorem execIload_keep {t' : Fin 64} {ctx : BitVec 5} {opr : BitVec 16} (h : Keep s t) : OKeep s (execIload t' ctx opr t) :=
  State.only_keep h

theorem execWait_keep {t' : Fin 64} {obj : BitVec 8} {v : BitVec 24} (h : Keep s t) : OKeep s (execWait t' obj v t) :=
  State.only_keep h

theorem execWaitge_keep {t' : Fin 64} {obj : BitVec 8} {v : BitVec 24} (h : Keep s t) : OKeep s (execWaitge t' obj v t) :=
  State.only_keep h

theorem execSig_keep {t' : Fin 64} {obj : BitVec 8} {n : BitVec 16} (h : Keep s t) : OKeep s (execSig t' obj n t) :=
  State.only_keep h

theorem execSigT_keep {t' : Fin 64} {obj : BitVec 8} {n : BitVec 16} {tile : BitVec 6} (h : Keep s t) : OKeep s (execSigT t' obj n tile t) :=
  State.only_keep h

theorem execSset_keep {t' : Fin 64} {obj : BitVec 8} {v : BitVec 24} (h : Keep s t) : OKeep s (execSset t' obj v t) :=
  State.only_keep h

theorem execLpI_keep {t' : Fin 64} {lvl : BitVec 2} {count : BitVec 24} (h : Keep s t) : OKeep s (execLpI t' lvl count t) :=
  State.only_keep h

theorem execLpX_keep {t' : Fin 64} {lvl : BitVec 2} {x : BitVec 4} (h : Keep s t) : OKeep s (execLpX t' lvl x t) :=
  State.only_keep h

theorem execXset_keep {t' : Fin 64} {x : BitVec 4} {imm : BitVec 24} (h : Keep s t) : OKeep s (execXset t' x imm t) :=
  State.only_keep h

theorem execXadd_keep {t' : Fin 64} {x : BitVec 4} {imm : BitVec 24} (h : Keep s t) : OKeep s (execXadd t' x imm t) :=
  State.only_keep h

theorem execTread_keep {t' : Fin 64} {x : BitVec 4} (h : Keep s t) : OKeep s (execTread t' x t) :=
  State.only_keep h

theorem execCvrd_keep {t' : Fin 64} {x : BitVec 4} (h : Keep s t) : OKeep s (execCvrd t' x t) :=
  State.only_keep h

theorem execCvclr_keep {t' : Fin 64} (h : Keep s t) : OKeep s (execCvclr t' t) :=
  State.only_keep h

theorem execJmp_keep {t' : Fin 64} {addr : BitVec 13} (h : Keep s t) : OKeep s (execJmp t' addr t) :=
  State.only_keep h

theorem execPp_keep {t' : Fin 64} {drec : BitVec 16} (h : Keep s t) : OKeep s (execPp t' drec t) :=
  State.only_keep h

theorem execHalt_keep {t' : Fin 64} (h : Keep s t) : OKeep s (execHalt t' t) :=
  State.only_keep h

theorem execBcfg_keep {t' : Fin 64} {lane : BitVec 6} {drec : BitVec 16} (h : Keep s t) : OKeep s (execBcfg t' lane drec t) :=
  State.only_keep h

theorem execBpush_keep {t' : Fin 64} {lane : BitVec 6} {drec : BitVec 16} (h : Keep s t) : OKeep s (execBpush t' lane drec t) :=
  State.only_keep h

theorem execBpop_keep {t' : Fin 64} {lane : BitVec 6} {drec : BitVec 16} (h : Keep s t) : OKeep s (execBpop t' lane drec t) :=
  State.only_keep h

theorem execSadv_keep {t' : Fin 64} {drec : BitVec 16} {xb : BitVec 4} {xn : BitVec 4} {obj : BitVec 8} (h : Keep s t) : OKeep s (execSadv t' drec xb xn obj t) :=
  State.only_keep h

end Sys2Proof.Machine
end

