-- ==== Sys2Proof/Laws/KeepColl.lean ====
section
/-! SUPPORT. Laws/KeepColl.lean: what every operation keeps, one lemma each: the collectives, the escapement and the commit. -/

namespace Sys2Proof.Machine

variable {s t : State}

/-! ## Coll -/

theorem State.setInstance_keep {n : ℕ} {i : CInst} (h : Keep s t) : Keep s (State.setInstance t n i) := by
  unfold State.setInstance
  repeat' (first
    | (with_reducible first
      | exact h | apply State.setCtx_keep)
    | split)

theorem State.trigger_keep {n : ℕ} {c : Ctx} {cid : ℕ} (h : Keep s t) : EKeep s (State.trigger t n c cid) := by
  unfold State.trigger
  repeat' (first
    | (with_reducible first
      | exact h | apply State.setTile_keep | apply State.setCtx_keep | intro _ | apply EKeep.ok | exact EKeep.error
      | apply EKeep.bind)
    | simp only [Keep.mk_eq, id_eq] | split)

theorem execCollectiveTrigger_keep {cid : BitVec 10} (h : Keep s t) : OKeep s (execCollectiveTrigger cid t) := by
  unfold execCollectiveTrigger
  repeat' (first
    | (with_reducible first
      | exact h | apply State.orFault_keep | apply State.trigger_keep | exact Keep.refl _ | apply OKeep.next
      | apply OKeep.occurs)
    | split)

theorem State.showGran_keep {d : CDesc} {n : ℕ} {size : ℕ} {v : Contrib} {k : ℕ} {b : List Byte} (h : Keep s t) : Keep s (State.showGran t d n size v k b) := by
  unfold State.showGran
  repeat' (first
    | (with_reducible first
      | exact h | apply State.spend_keep | apply State.rawWrite_keep)
    | simp only [Keep.mk_eq, id_eq] | split)

theorem State.readPiece_keep {d : TDesc} {step : W32} : ∀ {l : List (Nat × Nat)} {s t : State} {a : Nat} (_ : Keep s t),
    Keep s (t.readPiece d step l a).2.2
  | [], _, _, _, h => h
  | p :: ps, s, t, a, h => by
    unfold State.readPiece
    exact State.readPiece_keep (State.readKeyed_keep h)

theorem State.placeOwn_keep {n : ℕ} {c : Ctx} {i : CInst} {j : ℕ} (h : Keep s t) : EKeep s (State.placeOwn t n c i j) := by
  unfold State.placeOwn
  repeat' (first
    | (with_reducible first
      | exact h | apply State.readPiece_keep | apply State.setCtx_keep | apply State.showGran_keep | apply EKeep.ok
      | exact EKeep.error)
    | simp only [Keep.mk_eq, id_eq] | split)

theorem State.readSlot_keep {s t : State} {i : CInst} {n : Nat} {v : Contrib} (h : Keep s t) : Keep s (t.readSlot i n v).2 := by
  unfold State.readSlot
  dsimp only
  generalize ({ v with data := t.slotBytes i n v } : Contrib) = w
  generalize t.slotBytes i n v = b
  generalize List.range (b.length / 4096) = l
  have gen : ∀ (l : List Nat) (a : Contrib × State), Keep s a.2 → Keep s (l.foldl (fun (acc : Contrib × State) k =>
      let r := t.slotGran i n v k ((b.drop (4096 * k)).take 4096)
      let a := (i.d.slotAt n (i.src.pieceSize i.d.count) (v.home.getD 0) v.rank) + 4096 * k
      let q := i.src.keyOf (((i.src.pieceGrans (i.srcElem v.piece) i.d.count).getD k (0, 0)).2) v.wstep
      let u := if r.2.1 then acc.2.checkFail a q else if r.2.2 then { acc.2 with cvUnchecked := acc.2.cvUnchecked + 1 } else acc.2
      ({ acc.1 with bad := if (r.1 || r.2.1) && !acc.1.bad.contains k then acc.1.bad ++ [k] else acc.1.bad }, u)) a).2 := by
    intro l
    induction l with
    | nil => intro a k; exact k
    | cons x l ih => intro a k; exact ih _ (Keep.ite (State.checkFail_keep k) (Keep.ite k k))
  exact gen l _ h

theorem State.sendCtl_keep {c : Ctx} {g : GEntry} {t' : ℕ} {ranks : List ℕ} {h' : Ch} {parts : List (List Byte)} (h : Keep s t) : Keep s (State.sendCtl t c g t' ranks h' parts) := by
  unfold State.sendCtl
  repeat' (first
    | (with_reducible first
      | exact h | apply State.openSend_keep | exact Keep.refl _ | intro _ | apply Keep.foldl))

theorem State.agreeUp_keep {n : ℕ} {c : Ctx} {i : CInst} {fin : ℕ × ℕ} (h : Keep s t) : Keep s (State.agreeUp t n c i fin) := by
  unfold State.agreeUp
  repeat' (first
    | (with_reducible first
      | exact h | apply State.setCtx_keep | apply State.sendCtl_keep | apply Keep.ite)
    | simp only [Keep.mk_eq, id_eq] | split)

theorem State.agree_keep {n : ℕ} {cid : ℕ} {due : Bool} (h : Keep s t) : Keep s (State.agree t n cid due) := by
  unfold State.agree
  repeat' (first
    | (with_reducible first
      | exact h | apply State.setCtx_keep | apply State.agreeUp_keep | apply Keep.ite)
    | simp only [Keep.mk_eq, id_eq] | split)

theorem execCollectiveDeadline_keep {cid : BitVec 10} (h : Keep s t) : OKeep s (execCollectiveDeadline cid t) := by
  unfold execCollectiveDeadline
  repeat' (first
    | (with_reducible first
      | exact h | apply State.agree_keep | apply OKeep.next | apply OKeep.occurs)
    | split)

theorem State.readLeaves_keep {i : CInst} {n : Nat} : ∀ {l : List (Option Contrib × Option Contrib)} {s t : State} (_ : Keep s t),
    Keep s (t.readLeaves i n l).2
  | [], _, _, h => h
  | l :: ls, s, t, h => by
    unfold State.readLeaves
    refine State.readLeaves_keep ?_
    dsimp only
    repeat' (first | exact h | apply State.readSlot_keep | split)

theorem State.seal_keep {d : TDesc} {step : W32} {bs : List CvBlk} (h : Keep s t) : Keep s (State.seal t d step bs) := by
  unfold State.seal
  repeat' (first
    | (with_reducible first
      | exact h | apply State.noteWrotePoison_keep | apply State.writeKeyed_keep | exact Keep.refl _ | intro _ | apply Keep.ite
      | apply Keep.foldl))

theorem State.writePieces_keep {t' : Nat} {d : TDesc} {f : Form} : ∀ {ps : List (List (Nat × ASum) × Bool)} {s t : State} (_ : Keep s t),
    XKeep Written.s s (State.writePieces t' d f ps t)
  | [], _, _, h => XKeep.ok h
  | p :: ps, s, t, h => by
    unfold State.writePieces
    intro w e
    cases ea : t.writeVals t' d p.1 f p.2 with
    | error x => rw [ea] at e; cases e
    | ok a =>
      rw [ea] at e
      simp only [bind, Except.bind] at e
      cases eb : State.writePieces t' d f ps a.s with
      | error x => rw [eb] at e; cases e
      | ok b =>
        rw [eb] at e
        cases e
        exact Keep.trans (State.writeVals_keep h _ ea) (State.writePieces_keep (Keep.refl _) b eb)

theorem State.reduceHere_keep {s t : State} {c : Ctx} {i : CInst} {inc : Nat × Nat} {js : List Nat} (h : Keep s t) :
    EKeep s (t.reduceHere c i inc js) := by
  unfold State.reduceHere
  dsimp only
  split
  · exact EKeep.error
  · have gen : ∀ (l : List Nat) (a : List (List (Nat × ASum) × Bool) × State), Keep s a.2 →
        Keep s (l.foldl (fun (acc : List (List (Nat × ASum) × Bool) × State) j =>
          let (ls, u) := acc.2.readLeaves i (t.groupOf c i).n (t.leaves c i inc j)
          let se := i.srcElem j
          (acc.1 ++ [((List.range i.d.count).map fun e => (i.dstElem j + e, i.reduced se ls e), tainted ls)], u.setCvst i.d.tile (i.entryCv se ls))) a).2 := by
      intro l
      induction l with
      | nil => intro a k; exact k
      | cons x l ih => intro a k; exact ih _ (State.setCvst_keep (State.readLeaves_keep k))
    exact EKeep.bindX (π := Written.s) (State.writePieces_keep (gen js _ h))
      fun w => EKeep.ok (State.credit_keep (State.seal_keep (State.driftWrites_keep (Keep.refl w.s))))

theorem State.reduceGo_keep {n : ℕ} {c : Ctx} {i : CInst} {inc : ℕ × ℕ} (h : Keep s t) : EKeep s (State.reduceGo t n c i inc) := by
  unfold State.reduceGo
  repeat' (first
    | (with_reducible first
      | exact h | apply State.setInstance_keep | apply State.reduceHere_keep | exact Keep.refl _ | intro _ | apply EKeep.ok
      | apply EKeep.bindS)
    | simp only [Keep.mk_eq, id_eq] | split)

theorem State.putGrans_keep {d : TDesc} {step : W32} {gs : List (ℕ × ℕ)} {b : List Byte} {bad : Bool} (h : Keep s t) : Keep s (State.putGrans t d step gs b bad) := by
  unfold State.putGrans
  repeat' (first
    | (with_reducible first
      | exact h | apply State.noteWrotePoison_keep | apply State.writeKeyed_keep | exact Keep.refl _ | intro _
      | apply Keep.foldl))

theorem State.gatherHere_keep {s t : State} {c : Ctx} {i : CInst} {inc : Nat} (h : Keep s t) : EKeep s (t.gatherHere c i inc) := by
  unfold State.gatherHere
  dsimp only
  split
  · exact EKeep.error
  · refine EKeep.ok (Keep.foldl h fun u b => ?_)
    split
    · exact State.putGrans_keep (State.readSlot_keep (Keep.refl u))
    · exact State.putGrans_keep (Keep.refl u)

theorem State.gatherGo_keep {n : ℕ} {c : Ctx} {i : CInst} {inc : ℕ} (h : Keep s t) : EKeep s (State.gatherGo t n c i inc) := by
  unfold State.gatherGo
  repeat' (first
    | (with_reducible first
      | exact h | apply State.gatherHere_keep | apply State.setInstance_keep | exact Keep.refl _ | intro _ | apply EKeep.ok
      | apply EKeep.bindS)
    | split)

theorem State.advanceInst_keep {n : ℕ} {c : Ctx} {i : CInst} (h : Keep s t) : EKeep s (State.advanceInst t n c i) := by
  unfold State.advanceInst
  repeat' (first
    | (with_reducible first
      | exact h | apply State.placeOwn_keep | apply State.agree_keep | apply State.setInstance_keep | apply State.openSend_keep
      | apply State.reduceGo_keep | apply State.gatherGo_keep | exact Keep.refl _ | intro _ | apply EKeep.ok | apply EKeep.bindS)
    | simp only [Keep.mk_eq, id_eq] | split)

theorem dataRow_keep {op : ℕ} {cid : BitVec 10} (h : Keep s t) : OKeep s (dataRow op cid t) := by
  unfold dataRow
  repeat' (first
    | (with_reducible first
      | exact h | apply State.orFault_keep | apply State.advanceInst_keep | exact Keep.refl _ | apply OKeep.next
      | apply OKeep.occurs)
    | split)

theorem execReduce_keep {cid : BitVec 10} (h : Keep s t) : OKeep s (execReduce cid t) :=
  dataRow_keep h

theorem execAllreduce_keep {cid : BitVec 10} (h : Keep s t) : OKeep s (execAllreduce cid t) :=
  dataRow_keep h

theorem execReducescatter_keep {cid : BitVec 10} (h : Keep s t) : OKeep s (execReducescatter cid t) :=
  dataRow_keep h

theorem execAllgather_keep {cid : BitVec 10} (h : Keep s t) : OKeep s (execAllgather cid t) :=
  dataRow_keep h

theorem execAlltoall_keep {cid : BitVec 10} (h : Keep s t) : OKeep s (execAlltoall cid t) :=
  dataRow_keep h

theorem State.withColl_keep {b : List Byte} {h' : Th} {act : CollAt → State} (h : Keep s t) (hact : ∀ b0, Keep t (act b0)) : Keep s (State.withColl t b h' act) := by
  unfold State.withColl
  repeat' (first
    | (with_reducible first
      | exact h | exact h.trans (hact _) | apply State.nack_keep | apply State.ack_keep | apply State.setCtx_keep
      | apply Keep.ite)
    | simp only [Keep.mk_eq, id_eq] | split)

theorem State.inOrder_keep {s t late take : State} {h' : Th} {got : Nat} {gap : Option W64} (h : Keep s t) (hl : Keep s late) (k : Keep s take) :
    Keep s (t.inOrder h' got gap late take) := by
  unfold State.inOrder
  repeat' (first
    | (with_reducible first | exact h | exact k | exact State.ack_keep h | exact State.ack_keep k | exact State.nack_keep hl)
    | split)

theorem State.toCarry_keep {n : ℕ} {d : CDesc} {gn : ℕ} {v : Contrib} (h : Keep s t) : Keep s (State.toCarry t n d gn v) := by
  unfold State.toCarry
  repeat' (first
    | (with_reducible first
      | exact h | apply State.setCtx_keep | apply State.showGran_keep)
    | simp only [Keep.mk_eq, id_eq] | split)

theorem State.takeData_keep {a : CollAt} {b : List Byte} {h' : Th} {carry : Bool} (h : Keep s t) : Keep s (State.takeData t a b h' carry) := by
  unfold State.takeData
  repeat' (first
    | (with_reducible first
      | exact h | apply State.showGran_keep | apply State.setCtx_keep | apply State.toCarry_keep | apply State.agree_keep
      | apply Keep.ite))

theorem State.slotGap_keep {a : CollAt} (h : Keep s t) : Keep s (State.slotGap t a) := by
  unfold State.slotGap
  repeat' (first
    | (with_reducible first
      | exact h | apply State.setCtx_keep)
    | split)

theorem execCollData_keep {p : Fin 25} {hop : Bool} (h : Keep s t) : OKeep s (execCollData p hop t) := by
  unfold execCollData
  repeat' (first
    | (with_reducible first
      | exact h | apply State.recvPkt_keep | apply State.withColl_keep | apply State.inOrder_keep | apply State.slotGap_keep
      | apply State.takeData_keep | apply State.ack_keep | apply State.nack_keep | exact Keep.refl _ | intro _ | apply Keep.ite))

theorem execResult_keep {p : Fin 25} {hop : Bool} (h : Keep s t) : OKeep s (execResult p hop t) := by
  unfold execResult
  repeat' (first
    | (with_reducible first
      | exact h | apply State.recvPkt_keep | apply State.withColl_keep | apply State.ack_keep | apply State.nack_keep
      | apply State.jobFault_keep | apply State.setCtx_keep | apply State.landGranule_keep | apply State.inOrder_keep
      | apply State.noteWrotePoison_keep | exact Keep.refl _ | intro _ | apply Keep.ite)
    | simp only [Keep.mk_eq, id_eq] | split)

theorem State.takeCtl_keep {a : CollAt} {b : List Byte} {h' : Th} {done : State → CMsg → State} (h : Keep s t) (hdone : ∀ b0 b1, Keep b0 (done b0 b1)) : Keep s (State.takeCtl t a b h' done) := by
  unfold State.takeCtl
  repeat' (first
    | (with_reducible first
      | exact h | refine Keep.trans ?_ (hdone _ _) | apply State.setCtx_keep | apply State.inOrder_keep | apply Keep.ite))

theorem execAgreeUp_keep {p : Fin 25} {hop : Bool} (h : Keep s t) : OKeep s (execAgreeUp p hop t) := by
  unfold execAgreeUp
  repeat' (first
    | (with_reducible first
      | exact h | apply State.recvPkt_keep | apply State.withColl_keep | apply State.ack_keep | apply State.nack_keep
      | apply State.takeCtl_keep | apply State.agree_keep | exact Keep.refl _ | intro _ | apply Keep.ite))

theorem State.agreeDown_keep {n : ℕ} {cid : ℕ} {m : CMsg} (h : Keep s t) : Keep s (State.agreeDown t n cid m) := by
  unfold State.agreeDown
  repeat' (first
    | (with_reducible first
      | exact h | apply State.sendCtl_keep | apply State.setCtx_keep)
    | simp only [Keep.mk_eq, id_eq] | split)

theorem execAgreeDown_keep {p : Fin 25} {hop : Bool} (h : Keep s t) : OKeep s (execAgreeDown p hop t) := by
  unfold execAgreeDown
  repeat' (first
    | (with_reducible first
      | exact h | apply State.recvPkt_keep | apply State.withColl_keep | apply State.ack_keep | apply State.nack_keep
      | apply State.takeCtl_keep | apply State.agreeDown_keep | exact Keep.refl _ | intro _ | apply Keep.ite))

theorem State.putStatus_keep {n : ℕ} {i : CInst} {b : List Byte} {cnt : ℕ} (h : Keep s t) : Keep s (State.putStatus t n i b cnt) := by
  unfold State.putStatus
  repeat' (first
    | (with_reducible first
      | exact h | apply State.setCtx_keep | apply State.rawWrite_keep | apply Keep.ite)
    | split)

theorem State.writeStatus_keep {n : ℕ} {i : CInst} {esclate : ℕ} (h : Keep s t) : Keep s (State.writeStatus t n i esclate) :=
  State.putStatus_keep h

theorem State.completeData_keep {n : ℕ} {c : Ctx} {i : CInst} (h : Keep s t) : Keep s (State.completeData t n c i) := by
  unfold State.completeData
  repeat' (first
    | (with_reducible first
      | exact h | apply State.toCarry_keep | apply State.setCtx_keep | apply State.putStatus_keep | apply State.setTile_keep
      | exact Keep.refl _ | intro _ | apply Keep.foldl))

/-! ## Escape -/

theorem State.sendEsc_keep {c : Ctx} {g : GEntry} {d : CDesc} {rank : ℕ} {kind : ℕ} {cid : ℕ} {t' : ℕ} (h : Keep s t) : Keep s (State.sendEsc t c g d rank kind cid t') :=
  State.sendOn_keep h

theorem State.escGo_keep {n : ℕ} (h : Keep s t) : Keep s (State.escGo t n) := by
  unfold State.escGo
  repeat' (first
    | (with_reducible first
      | exact h | apply State.sendEsc_keep | apply State.setCtx_keep | exact Keep.refl _ | intro _ | apply Keep.ite
      | apply Keep.foldl)
    | simp only [Keep.mk_eq, id_eq] | split)

theorem State.arrive_keep {n : ℕ} {i : CInst} (h : Keep s t) : Keep s (State.arrive t n i) := by
  unfold State.arrive
  repeat' (first
    | (with_reducible first
      | exact h | apply State.loadRun_keep | apply State.escGo_keep | apply State.setCtx_keep | apply Keep.ite)
    | simp only [Keep.mk_eq, id_eq] | split)

theorem execEscape_keep {cid : BitVec 10} (h : Keep s t) : OKeep s (execEscape cid t) := by
  unfold execEscape
  repeat' (first
    | (with_reducible first
      | exact h | apply State.arrive_keep | apply OKeep.next | apply OKeep.occurs)
    | split)

theorem State.takeArrive_keep {b : List Byte} {h' : Th} (h : Keep s t) : Keep s (State.takeArrive t b h') := by
  unfold State.takeArrive
  repeat' (first
    | (with_reducible first
      | exact h | apply State.setCtx_keep | apply State.escGo_keep | apply Keep.ite)
    | simp only [Keep.mk_eq, id_eq] | split)

theorem execArrive_keep {p : Fin 25} {hop : Bool} (h : Keep s t) : OKeep s (execArrive p hop t) := by
  unfold execArrive
  repeat' (first
    | (with_reducible first
      | exact h | apply State.recvPkt_keep | apply State.takeArrive_keep | exact Keep.refl _ | intro _))

theorem State.takeSchedule_keep {b : List Byte} {h' : Th} (h : Keep s t) : Keep s (State.takeSchedule t b h') := by
  unfold State.takeSchedule
  repeat' (first
    | (with_reducible first
      | exact h | apply State.setCtx_keep | apply State.sendEsc_keep | exact Keep.refl _ | intro _ | apply Keep.ite
      | apply Keep.foldl)
    | simp only [Keep.mk_eq, id_eq] | split)

theorem execSchedule_keep {p : Fin 25} {hop : Bool} (h : Keep s t) : OKeep s (execSchedule p hop t) := by
  unfold execSchedule
  repeat' (first
    | (with_reducible first
      | exact h | apply State.recvPkt_keep | apply State.takeSchedule_keep | exact Keep.refl _ | intro _))

theorem State.openStep_keep {n : ℕ} {c : Ctx} {t' : ℕ} (h : Keep s t) : Keep s (State.openStep t n c t') := by
  unfold State.openStep
  repeat' (first
    | (with_reducible first
      | exact h | apply State.setTile_keep | apply State.applyRollout_keep | apply State.setCtx_keep | exact Keep.refl _
      | intro _ | apply Keep.foldl)
    | simp only [Keep.mk_eq, id_eq] | split)

theorem State.escRelease_keep {n : ℕ} {c : Ctx} {e : Esc} {t' : ℕ} (h : Keep s t) : Keep s (State.escRelease t n c e t') := by
  unfold State.escRelease
  repeat' (first
    | (with_reducible first
      | exact h | apply State.setCtx_keep | apply State.writeStatus_keep | apply State.setTile_keep | apply State.openStep_keep
      | exact Keep.refl _ | intro _ | apply Keep.ite | apply Keep.foldl)
    | split)

theorem execEscapementRelease_keep (h : Keep s t) : OKeep s (execEscapementRelease t) := by
  unfold execEscapementRelease
  repeat' (first
    | (with_reducible first
      | exact h | apply State.escRelease_keep | apply OKeep.next | apply OKeep.occurs)
    | split)

/-! ## Commit -/

theorem State.putRun_keep {base : ℕ} {ring : ℕ} {o : ℕ} {b : List Byte} (h : Keep s t) : Keep s (State.putRun t base ring o b) := by
  unfold State.putRun
  repeat' (first
    | (with_reducible first
      | exact h | apply State.rawWrite_keep | exact Keep.refl _ | intro _ | apply Keep.foldl))

theorem State.putEntry_keep {c : Ctx} (h : Keep s t) : Keep s (State.putEntry t c) := by
  unfold State.putEntry
  repeat' (first
    | (with_reducible first
      | exact h | apply State.rawWrite_keep | apply Keep.ite))

theorem State.applyCommit_keep {n : ℕ} {arg : ℕ} (h : Keep s t) : Keep s (State.applyCommit t n arg) := by
  unfold State.applyCommit
  repeat' (first
    | (with_reducible first
      | exact h | apply State.stopCtx_keep | apply State.setCtx_keep | apply State.putEntry_keep | apply State.rawWrite_keep
      | apply State.putRun_keep | apply State.writeStatus_keep | apply State.setTile_keep | apply State.endWindow_keep)
    | simp only [Keep.mk_eq, id_eq] | split)

theorem State.readShard_keep {s t : State} {ver : W32} {ds : List TDesc} (h : Keep s t) : Keep s (t.readShard ver ds).2 := by
  have gen : ∀ (l : List (Nat × W32 × W32 × W32)) (a : Bool × State), Keep s a.2 →
      Keep s (l.foldl (fun (acc : Bool × State) q => let r := acc.2.readKeyed q.1 q.2; (acc.1 || r.2.1, r.2.2)) a).2 := by
    intro l
    induction l with
    | nil => intro a k; exact k
    | cons x l ih => intro a k; exact ih _ (State.readKeyed_keep k)
  exact gen _ _ h

theorem State.askRestore_keep {n : ℕ} {tids : List ℕ} {failed : List ℕ} (h : Keep s t) : Keep s (State.askRestore t n tids failed) := by
  unfold State.askRestore
  repeat' (first
    | (with_reducible first
      | exact h | apply State.stopCtx_keep | apply State.setCtx_keep | apply State.sendMgmt_keep)
    | simp only [Keep.mk_eq, id_eq] | split)

theorem State.restart_keep {n : ℕ} (h : Keep s t) : Keep s (State.restart t n) := by
  unfold State.restart
  repeat' (first
    | (with_reducible first
      | exact h | apply State.decideRollout_keep | apply State.restoreAll_keep | apply Keep.ite)
    | split)

theorem State.dropSends_keep {ts : List ℕ} {commit : ℕ} (h : Keep s t) : Keep s (State.dropSends t ts commit) :=
  h

theorem State.afterPoison_keep {n : ℕ} {c : Ctx} (h : Keep s t) : Keep s (State.afterPoison t n c) := by
  unfold State.afterPoison
  repeat' (first
    | (with_reducible first
      | exact h | apply State.stopCtx_keep | apply State.askRestore_keep | apply Keep.ite))

theorem State.applyAbort_keep {n : ℕ} {expel : ℕ} {split : Bool} (h : Keep s t) : Keep s (State.applyAbort t n expel split) := by
  unfold State.applyAbort
  repeat' (first
    | (with_reducible first
      | exact h | apply State.dropSends_keep | apply State.dropTiles_keep | apply State.rawWrite_keep | apply State.expel_keep
      | apply State.setCtx_keep | apply State.stopCtx_keep | apply State.restart_keep | apply State.afterPoison_keep
      | exact Keep.refl _ | intro _ | apply Keep.ite | apply Keep.foldl)
    | simp only [Keep.mk_eq, id_eq] | split)

theorem State.sendVerdict_keep {c : Ctx} {g : GEntry} {cid : ℕ} {t' : ℕ} {ranks : List ℕ} {kind : ℕ} {expel : ℕ} {split : Bool} {abort : Bool} {arg : ℕ} (h : Keep s t) : Keep s (State.sendVerdict t c g cid t' ranks kind expel split abort arg) :=
  State.sendCtl_keep h

theorem State.decideAs_keep {n : ℕ} {commit : Bool} {expel : ℕ} {split : Bool} (h : Keep s t) : Keep s (State.decideAs t n commit expel split) := by
  unfold State.decideAs
  repeat' (first
    | (with_reducible first
      | exact h | apply State.applyCommit_keep | apply State.applyAbort_keep | apply State.sendVerdict_keep | apply Keep.ite)
    | simp only [Keep.mk_eq, id_eq] | split)

theorem State.commitGo_keep {n : ℕ} (h : Keep s t) : Keep s (State.commitGo t n) := by
  unfold State.commitGo
  repeat' (first
    | (with_reducible first
      | exact h | apply State.event_keep | apply State.setCtx_keep | apply State.decideAs_keep | apply State.sendVerdict_keep
      | apply Keep.ite)
    | simp only [Keep.mk_eq, id_eq] | split)

theorem State.abortNow_keep {n : ℕ} (h : Keep s t) : Keep s (State.abortNow t n) := by
  unfold State.abortNow
  repeat' (first
    | (with_reducible first
      | exact h | apply State.stopCtx_keep | apply State.commitGo_keep | apply State.setCtx_keep | apply State.dropTiles_keep
      | apply Keep.ite)
    | simp only [Keep.mk_eq, id_eq] | split)

theorem State.fenceNow_keep {p : ℕ} {cause : ℕ} (h : Keep s t) : Keep s (State.fenceNow t p cause) := by
  unfold State.fenceNow
  repeat' (first
    | (with_reducible first
      | exact h | apply State.fenceTile_keep | apply State.abortNow_keep)
    | simp only [Keep.mk_eq, id_eq] | split)

theorem execCommit_keep {cid : BitVec 10} (h : Keep s t) : OKeep s (execCommit cid t) := by
  unfold execCommit
  repeat' (first
    | (with_reducible first
      | exact h | apply State.commitGo_keep | apply OKeep.next | apply OKeep.occurs)
    | simp only [Keep.mk_eq, id_eq] | split)

theorem State.tellDecided_keep {a : CollAt} {r : ℕ} (h : Keep s t) : Keep s (State.tellDecided t a r) := by
  unfold State.tellDecided
  repeat' (first
    | (with_reducible first
      | exact h | apply State.sendVerdict_keep | apply Keep.ite))

theorem execReady_keep {p : Fin 25} {hop : Bool} (h : Keep s t) : OKeep s (execReady p hop t) := by
  unfold execReady
  repeat' (first
    | (with_reducible first
      | exact h | apply State.recvPkt_keep | apply State.withColl_keep | apply State.ack_keep | apply State.tellDecided_keep
      | apply State.takeCtl_keep | apply State.commitGo_keep | exact Keep.refl _ | intro _ | apply Keep.ite))

theorem State.takeDecide_keep {n : ℕ} {m : CMsg} {cid : ℕ} (h : Keep s t) : Keep s (State.takeDecide t n m cid) := by
  unfold State.takeDecide
  repeat' (first
    | (with_reducible first
      | exact h | apply State.sendVerdict_keep | apply State.applyAbort_keep | apply State.applyCommit_keep | apply Keep.ite)
    | simp only [Keep.mk_eq, id_eq] | split)

theorem State.recvDecide_keep {p : ℕ} {hop : Bool} {abort : Bool} (h : Keep s t) : OKeep s (State.recvDecide t p hop abort) := by
  unfold State.recvDecide
  repeat' (first
    | (with_reducible first
      | exact h | apply State.recvPkt_keep | apply State.withColl_keep | apply State.ack_keep | apply State.takeCtl_keep
      | apply State.takeDecide_keep | exact Keep.refl _ | intro _ | apply Keep.ite))

theorem execDecideCommit_keep {p : Fin 25} {hop : Bool} (h : Keep s t) : OKeep s (execDecideCommit p hop t) :=
  State.recvDecide_keep h

theorem execDecideAbort_keep {p : Fin 25} {hop : Bool} (h : Keep s t) : OKeep s (execDecideAbort p hop t) :=
  State.recvDecide_keep h

theorem execEscTimeout_keep (h : Keep s t) : OKeep s (execEscTimeout t) := by
  unfold execEscTimeout
  repeat' (first
    | (with_reducible first
      | exact h | apply State.commitGo_keep | apply State.setCtx_keep | apply OKeep.next | apply OKeep.occurs)
    | simp only [Keep.mk_eq, id_eq] | split)

theorem execCommitTimeout_keep (h : Keep s t) : OKeep s (execCommitTimeout t) := by
  unfold execCommitTimeout
  repeat' (first
    | (with_reducible first
      | exact h | apply State.decideAs_keep | apply State.setCtx_keep | apply OKeep.next | apply OKeep.occurs)
    | simp only [Keep.mk_eq, id_eq] | split)

theorem execRootTakeover_keep (h : Keep s t) : OKeep s (execRootTakeover t) := by
  unfold execRootTakeover
  repeat' (first
    | (with_reducible first
      | exact h | apply State.setCtx_keep | apply State.sendCtl_keep | apply State.commitGo_keep | apply OKeep.next
      | apply OKeep.occurs)
    | simp only [Keep.mk_eq, id_eq] | split)

theorem State.answerQuery_keep {a : CollAt} {h' : Th} (h : Keep s t) : Keep s (State.answerQuery t a h') := by
  unfold State.answerQuery
  repeat' (first
    | (with_reducible first
      | exact h | apply State.tellDecided_keep | apply State.sendVerdict_keep | apply Keep.ite)
    | split)

theorem execQuery_keep {p : Fin 25} {hop : Bool} (h : Keep s t) : OKeep s (execQuery p hop t) := by
  unfold execQuery
  repeat' (first
    | (with_reducible first
      | exact h | apply State.recvPkt_keep | apply State.withColl_keep | apply State.ack_keep | apply State.answerQuery_keep
      | exact Keep.refl _ | intro _))

theorem State.loseRank_keep {n : ℕ} {c : Ctx} {g : GEntry} {r : ℕ} (h : Keep s t) : Keep s (State.loseRank t n c g r) := by
  unfold State.loseRank
  repeat' (first
    | (with_reducible first
      | exact h | apply State.stopCtx_keep | apply State.decideAs_keep | apply State.setCtx_keep)
    | split)

theorem execRejoinLimitExpiry_keep {rank : BitVec 16} (h : Keep s t) : OKeep s (execRejoinLimitExpiry rank t) := by
  unfold execRejoinLimitExpiry
  repeat' (first
    | (with_reducible first
      | exact h | apply State.loseRank_keep | apply OKeep.next | apply OKeep.occurs)
    | simp only [Keep.mk_eq, id_eq] | split)

theorem State.hashShard_keep {n : ℕ} {c : Ctx} {i : CInst} {g : GEntry} (h : Keep s t) : Keep s (State.hashShard t n c i g) :=
  State.setCtx_keep (State.readShard_keep h)

theorem State.digestGo_keep {n : ℕ} {c : Ctx} {i : CInst} (h : Keep s t) : Keep s (State.digestGo t n c i) := by
  unfold State.digestGo
  repeat' (first
    | (with_reducible first
      | exact h | apply State.hashShard_keep | apply State.setInstance_keep | apply State.sendCtl_keep | apply State.setCtx_keep
      | apply Keep.ite)
    | simp only [Keep.mk_eq, id_eq] | split)

theorem execDigest_keep {cid : BitVec 10} (h : Keep s t) : OKeep s (execDigest cid t) := by
  unfold execDigest
  repeat' (first
    | (with_reducible first
      | exact h | apply State.digestGo_keep | apply OKeep.next | apply OKeep.occurs)
    | split)

theorem execDigestPacket_keep {p : Fin 25} {hop : Bool} (h : Keep s t) : OKeep s (execDigestPacket p hop t) := by
  unfold execDigestPacket
  repeat' (first
    | (with_reducible first
      | exact h | apply State.recvPkt_keep | apply State.withColl_keep | apply State.ack_keep | apply State.nack_keep
      | apply State.takeCtl_keep | apply State.setCtx_keep | exact Keep.refl _ | intro _ | apply Keep.ite)
    | simp only [Keep.mk_eq, id_eq] | split)

theorem execCollectiveComplete_keep {cid : BitVec 10} (h : Keep s t) : OKeep s (execCollectiveComplete cid t) := by
  unfold execCollectiveComplete
  repeat' (first
    | (with_reducible first
      | exact h | apply State.completeData_keep | apply State.writeStatus_keep | apply State.setCtx_keep
      | apply State.setTile_keep | apply OKeep.next | apply OKeep.occurs)
    | simp only [Keep.mk_eq, id_eq] | split)

/-! ## Mgmt -/

theorem State.recvMgmt_keep {p : ℕ} {hop : Bool} {kind : ℕ} {act : State →   List Byte → Th → ℕ → Ctx → State} (h : Keep s t) (hact : ∀ b0 b1 b2 b3 b4, Keep b0 (act b0 b1 b2 b3 b4)) : OKeep s (State.recvMgmt t p hop kind act) := by
  unfold State.recvMgmt
  repeat' (first
    | (with_reducible first
      | exact h | refine Keep.trans ?_ (hact _ _ _ _ _) | apply State.recvPkt_keep | exact Keep.refl _ | intro _
      | apply Keep.ite)
    | split)

theorem execRejoinReq_keep {p : Fin 25} {hop : Bool} (h : Keep s t) : OKeep s (execRejoinReq p hop t) := by
  unfold execRejoinReq
  repeat' (first
    | (with_reducible first
      | exact h | apply State.recvMgmt_keep | apply State.sendMgmt_keep | apply State.setCtx_keep | exact Keep.refl _ | intro _))

theorem State.catchUp_keep {n : ℕ} {c : Ctx} (h : Keep s t) : Keep s (State.catchUp t n c) :=
  State.restart_keep (State.askRestore_keep (State.setCtx_keep (State.dropTiles_keep h)))

theorem execRejoinAck_keep {p : Fin 25} {hop : Bool} (h : Keep s t) : OKeep s (execRejoinAck p hop t) := by
  unfold execRejoinAck
  repeat' (first
    | (with_reducible first
      | exact h | apply State.recvMgmt_keep | apply State.applyAbort_keep | apply State.applyCommit_keep
      | apply State.catchUp_keep | exact Keep.refl _ | intro _ | apply Keep.ite)
    | split)

theorem execRestoreReq_keep {p : Fin 25} {hop : Bool} (h : Keep s t) : OKeep s (execRestoreReq p hop t) := by
  unfold execRestoreReq
  repeat' (first
    | (with_reducible first
      | exact h | apply State.recvMgmt_keep | apply State.sendMgmt_keep | apply State.openSend_keep | exact Keep.refl _
      | intro _ | apply Keep.ite | apply Keep.foldl))

theorem execRestoreDone_keep {p : Fin 25} {hop : Bool} (h : Keep s t) : OKeep s (execRestoreDone p hop t) := by
  unfold execRestoreDone
  repeat' (first
    | (with_reducible first
      | exact h | apply State.recvMgmt_keep | apply State.restart_keep | apply State.setCtx_keep | apply State.askRestore_keep
      | exact Keep.refl _ | intro _ | apply Keep.ite)
    | split)

theorem State.loseDevice_keep {n : ℕ} {c : Ctx} {dev : ℕ} (h : Keep s t) : Keep s (State.loseDevice t n c dev) := by
  unfold State.loseDevice
  repeat' (first
    | (with_reducible first
      | exact h | apply State.commitGo_keep | apply State.setCtx_keep)
    | simp only [Keep.mk_eq, id_eq] | split)

theorem execFailReport_keep {p : Fin 25} {hop : Bool} (h : Keep s t) : OKeep s (execFailReport p hop t) := by
  unfold execFailReport
  repeat' (first
    | (with_reducible first
      | exact h | apply State.recvMgmt_keep | apply State.loseDevice_keep | exact Keep.refl _ | intro _))

theorem execEcho_keep {p : Fin 25} {hop : Bool} (h : Keep s t) : OKeep s (execEcho p hop t) := by
  unfold execEcho
  repeat' (first
    | (with_reducible first
      | exact h | apply State.recvPkt_keep | apply State.sendOn_keep | exact Keep.refl _ | intro _))

/-! ## LinkFeed -/

theorem State.piecePacket_keep {s t : State} {t' : Nat} {d : SendD} {c : Ctx} {i : CInst} {j : Nat} {result : Bool} (h : Keep s t) :
    Keep s (t.piecePacket t' d c i j result).2 := by
  unfold State.piecePacket
  dsimp only
  with_reducible exact State.readKeyed_keep h

theorem State.nextPacket_keep {s t : State} {t' : Nat} {d : SendD} (h : Keep s t) :
    ∀ c b u, t.nextPacket t' d = .packet c b u → Keep s u := by
  intro c b u e
  unfold State.nextPacket at e
  dsimp only at e
  repeat' (first | (cases e; done) | split at e)
  all_goals first
    | (cases e; with_reducible exact h)
    | (cases e; with_reducible exact State.piecePacket_keep h)
    | (cases e; with_reducible exact State.writePacket_keep h)

theorem State.feedOne_keep {s t : State} {k : Nat} (h : Keep s t) : Keep s (t.feedOne k) := by
  unfold State.feedOne
  split
  · exact h
  · split
    · exact h
    · split
      · exact h
      · exact State.closeSend_keep h
      · exact State.jobFault_keep h
      · rename_i e
        have k1 := State.nextPacket_keep h _ _ _ e
        dsimp only
        split
        · exact State.setSend_keep (State.sendPacket_keep k1)
        · exact State.setSend_keep k1

theorem State.linkFeed_keep (h : Keep s t) : Keep s (State.linkFeed t) := by
  unfold State.linkFeed
  repeat' (first
    | (with_reducible first
      | exact h | apply State.feedOne_keep | exact Keep.refl _ | intro _ | apply Keep.foldl))

theorem State.unreachable_keep {k : ℕ} {d : SendD} (h : Keep s t) : Keep s (State.unreachable t k d) := by
  unfold State.unreachable
  repeat' (first
    | (with_reducible first
      | exact h | apply State.closeSend_keep | apply State.abortNow_keep | apply State.setCtx_keep | apply State.sendMgmt_keep
      | apply Keep.ite)
    | simp only [Keep.mk_eq, id_eq] | split)

theorem execE2eTimeout_keep {t' : Fin 64} {i : Fin 16} (h : Keep s t) : OKeep s (execE2eTimeout t' i t) := by
  unfold execE2eTimeout
  repeat' (first
    | (with_reducible first
      | exact h | apply State.unreachable_keep | apply State.setSend_keep | apply OKeep.next | apply OKeep.occurs
      | apply Keep.ite)
    | simp only [Keep.mk_eq, id_eq] | split)

end Sys2Proof.Machine
end

