-- ==== Sys2Proof/Laws/KeepDevice.lean ====
section
/-! SUPPORT. Laws/KeepDevice.lean: what every operation keeps, one lemma each: the fault watch, contexts, DMA, the tick, resets, tests, register writes and the control cores. -/

namespace Sys2Proof.Machine

variable {s t : State}

/-! ## ArrayFault -/

theorem State.signature_keep {cause : ℕ} {unit : ℕ} {stage : ℕ} {p : ℕ} {c : Capture} (h : Keep s t) : Keep s (State.signature t cause unit stage p c) := by
  unfold State.signature
  repeat' (first
    | (with_reducible first
      | exact h | apply State.event_keep | apply State.logEvent_keep | apply State.setPtile_keep | apply Keep.ite
      | apply KeepC.of)
    | simp only [Keep.mk_eq, id_eq])

theorem State.reexecute_keep {s t : State} {t' i n tries : Nat} {ks : List Nat} (h : Keep s t) : Keep s (t.reexecute t' i n tries ks) := by
  have gen : ∀ (l : List Plane) (a : State × List (Plane × Plane)), Keep s a.1 → Keep s (l.foldl (fun (a : State × List (Plane × Plane)) p =>
      let (s, p') := a.1.reloadPlane p; (s, a.2 ++ [(p, p')])) a).1 := by
    intro l
    induction l with
    | nil => intro a k; exact k
    | cons x l ih => intro a k; exact ih _ (State.reloadPlane_keep k)
  unfold State.reexecute
  exact State.setTile_keep (gen _ _ h)

theorem State.residueFail_keep {t' : ℕ} {i : ℕ} {n : ℕ} {q : AInst} {ks : List ℕ} (h : Keep s t) : Keep s (State.residueFail t t' i n q ks) := by
  unfold State.residueFail
  repeat' (first
    | (with_reducible first
      | exact h | apply State.logEvent_keep | apply State.setPtile_keep | apply State.signature_keep | apply State.fenceNow_keep
      | apply State.reexecute_keep | apply Keep.ite | apply KeepC.of)
    | simp only [Keep.mk_eq, id_eq])

theorem State.tryCommit_keep {s t : State} {t' i fail : Nat} (h : Keep s t) : EKeep s (t.tryCommit t' i fail) := by
  unfold State.tryCommit
  dsimp only
  split
  · exact EKeep.ok h
  · refine EKeep.bindS (EKeep.foldl (EKeep.ok h) fun _ _ he => EKeep.bindS he fun a => State.commitAt_keep (Keep.refl a)) fun a => ?_
    split
    · exact EKeep.ok (Keep.refl a)
    · exact EKeep.ok (State.residueFail_keep (Keep.refl a))

theorem execCommitGroup_keep {t' : Fin 64} {a : Fin 3} {fail : BitVec 2} (h : Keep s t) : OKeep s (execCommitGroup t' a fail t) := by
  unfold execCommitGroup
  repeat' (first
    | (with_reducible first
      | exact h | apply State.orFault_keep | apply State.tryCommit_keep | exact Keep.refl _ | apply OKeep.occurs))

theorem execTourbillonSelect_keep {p : Fin 68} (h : Keep s t) : OKeep s (execTourbillonSelect p t) := by
  unfold execTourbillonSelect
  repeat' (first
    | (with_reducible first
      | exact h | apply State.setPtile_keep | apply OKeep.occurs))

theorem execWatchCheck_keep {p : Fin 68} (h : Keep s t) : OKeep s (execWatchCheck p t) := by
  unfold execWatchCheck
  repeat' (first
    | (with_reducible first
      | exact h | apply State.setPtile_keep | apply OKeep.next | apply OKeep.occurs)
    | simp only [Keep.mk_eq, id_eq] | split)

theorem State.watchFail_keep {k : ℕ} {c : Check} {sums : List ASum} (h : Keep s t) : Keep s (State.watchFail t k c sums) := by
  unfold State.watchFail
  repeat' (first
    | (with_reducible first
      | exact h | apply State.logEvent_keep | apply State.signature_keep | apply State.fenceNow_keep | apply State.setPtile_keep
      | apply State.setCtx_keep | apply Keep.ite)
    | simp only [Keep.mk_eq, id_eq] | split)

theorem execWatchCheckComplete_keep {p : Fin 68} {wrong : List (ℕ × ℕ)} (h : Keep s t) : OKeep s (execWatchCheckComplete p wrong t) := by
  unfold execWatchCheckComplete
  repeat' (first
    | (with_reducible first
      | exact h | apply State.setPtile_keep | apply State.watchFail_keep | apply OKeep.next | apply OKeep.occurs
      | apply Keep.ite)
    | simp only [Keep.mk_eq, id_eq] | split)

theorem execArraySuspectExpiry_keep {p : Fin 68} {a : Fin 3} (h : Keep s t) : OKeep s (execArraySuspectExpiry p a t) := by
  unfold execArraySuspectExpiry
  repeat' (first
    | (with_reducible first
      | exact h | apply State.setPtile_keep | apply OKeep.next | apply OKeep.occurs)
    | simp only [Keep.mk_eq, id_eq] | split)

theorem State.driftPut_keep {b : DriftBlk} (h : Keep s t) : Keep s (State.driftPut t b) := by
  unfold State.driftPut
  repeat' (first
    | (with_reducible first
      | exact h | apply State.setCtx_keep | apply State.rawWrite_keep | apply Keep.ite)
    | split)

theorem execDriftSample_keep {p : Fin 68} (h : Keep s t) : OKeep s (execDriftSample p t) := by
  unfold execDriftSample
  repeat' (first
    | (with_reducible first
      | exact h | apply State.driftPut_keep | apply State.setPtile_keep | apply OKeep.occurs)
    | simp only [Keep.mk_eq, id_eq] | split)

/-! ## CtxCmd -/

theorem State.liveAll_keep {c : Ctx} (h : Keep s t) : Keep s (State.liveAll t c) := by
  unfold State.liveAll
  repeat' (first
    | (with_reducible first
      | exact h | apply State.rawWrite_keep | exact Keep.refl _ | intro _ | apply Keep.ite | apply Keep.foldl))

theorem State.register_keep {s t : State} {b : List Byte} (h : Keep s t) : Keep s (t.register b).2.2 := by
  unfold State.register
  split
  · with_reducible exact h
  · dsimp only
    split
    · with_reducible exact h
    · with_reducible exact State.resched_keep (State.loadRun_keep (State.liveAll_keep (State.setCtx_keep h)))

theorem execCtxRegister_keep {s t : State} {p : Fin 2} {r : Fin 16} {ok : Bool} {h' : List Host.Cell} (h : Keep s t) :
    OKeep s (execCtxRegister p r ok h' t) := by
  unfold execCtxRegister
  refine startCmd_keep h fun f => ?_
  split
  · exact State.finish_keep (Keep.refl t)
  · split
    · exact State.finish_keep (Keep.refl t)
    · exact State.finish_keep (State.register_keep (Keep.refl t))

theorem execCtxStop_keep {p : Fin 2} {r : Fin 16} (h : Keep s t) : OKeep s (execCtxStop p r t) := by
  unfold execCtxStop
  repeat' (first
    | (with_reducible first
      | exact h | apply startCmd_keep | apply State.finish_keep | apply State.resched_keep | apply State.stopCtx_keep
      | apply State.begin_keep | apply State.setCtx_keep | apply State.boundary_keep | apply State.preempt_keep
      | exact Keep.refl _ | intro _ | apply Keep.ite)
    | simp only [Keep.mk_eq, id_eq] | split)

theorem execCtxDeregister_keep {p : Fin 2} {r : Fin 16} (h : Keep s t) : OKeep s (execCtxDeregister p r t) := by
  unfold execCtxDeregister
  repeat' (first
    | (with_reducible first
      | exact h | apply startCmd_keep | apply State.finish_keep | apply State.resched_keep | exact Keep.refl _ | intro _
      | apply Keep.ite | apply KeepC.of)
    | simp only [Keep.mk_eq, id_eq] | split)

theorem execCtxSignal_keep {p : Fin 2} {r : Fin 16} (h : Keep s t) : OKeep s (execCtxSignal p r t) := by
  unfold execCtxSignal
  repeat' (first
    | (with_reducible first
      | exact h | apply startCmd_keep | apply State.finish_keep | apply State.incFrom_keep | apply State.setCtx_keep
      | exact Keep.refl _ | intro _ | apply OKeep.next | apply Keep.ite)
    | simp only [Keep.mk_eq, id_eq] | split)

theorem execWindowRelease_keep {n : Fin 8} (h : Keep s t) : OKeep s (execWindowRelease n t) := by
  unfold execWindowRelease
  repeat' (first
    | (with_reducible first
      | exact h | apply State.resched_keep | apply State.setCtx_keep | apply OKeep.next | apply OKeep.occurs)
    | simp only [Keep.mk_eq, id_eq] | split)

theorem execDeadlineMiss_keep {n : Fin 8} (h : Keep s t) : OKeep s (execDeadlineMiss n t) := by
  unfold execDeadlineMiss
  repeat' (first
    | (with_reducible first
      | exact h | apply State.event_keep | apply State.setCtx_keep | apply OKeep.next | apply OKeep.occurs)
    | simp only [Keep.mk_eq, id_eq] | split)

theorem State.goOn_keep {r : ℕ} {c : Ctx} (h : Keep s t) : Keep s (State.goOn t r c) := by
  unfold State.goOn
  repeat' (first
    | (with_reducible first
      | exact h | apply State.setTile_keep | apply State.settle_keep | apply State.setCtx_keep | exact Keep.refl _ | intro _
      | apply Keep.ite | apply KeepC.of | apply Keep.foldl)
    | simp only [Keep.mk_eq, id_eq])

theorem State.switchOut_keep {r : ℕ} {x : ℕ} {c : Ctx} (h : Keep s t) : Keep s (State.switchOut t r x c) := by
  unfold State.switchOut
  repeat' (first
    | (with_reducible first
      | exact h | apply State.dropTiles_keep | apply State.saveAll_keep | apply State.setCtx_keep | apply State.settle_keep
      | apply KeepC.of)
    | simp only [Keep.mk_eq, id_eq] | split)

theorem execSwitch_keep (h : Keep s t) : OKeep s (execSwitch t) := by
  unfold execSwitch
  repeat' (first
    | (with_reducible first
      | exact h | apply State.settle_keep | apply State.goOn_keep | apply State.switchOut_keep | apply OKeep.next
      | apply OKeep.occurs | apply Keep.ite | apply KeepC.of)
    | simp only [Keep.mk_eq, id_eq] | split)

theorem State.startTours_keep {t' : ℕ} (h : Keep s t) : Keep s (State.startTours t t') :=
  State.setPtile_keep h

theorem State.bringIn_keep {s t : State} {n : Nat} {c : Ctx} (h : Keep s t) : EKeep s (t.bringIn n c) := by
  unfold State.bringIn
  split
  · exact EKeep.ok (State.restoreAll_keep h)
  · have gen : ∀ (l : List Nat) (u : State), Keep s u → EKeep s (l.foldlM (fun s t => match s.firstStart n c t with
        | .ok s => .ok (s.startTours t)
        | .error f => .error { f with tile := some t }) u) := by
      intro l
      induction l with
      | nil => intro u k; exact EKeep.ok k
      | cons x l ih =>
        intro u k
        rw [List.foldlM_cons]
        cases e : u.firstStart n c x with
        | error f => exact EKeep.error
        | ok v => exact ih _ (State.startTours_keep (State.firstStart_keep k _ e))
    exact gen _ _ h

theorem Keep.sched {s t : State} {x : Sched} (h : Keep s t) : Keep s { t with sched := x } := h

theorem execSwitchComplete_keep {s t : State} (h : Keep s t) : OKeep s (execSwitchComplete t) := by
  unfold execSwitchComplete
  split
  · exact OKeep.next h
  · dsimp only
    split
    · exact OKeep.next (State.settle_keep (Keep.sched h))
    · split
      · exact OKeep.next (State.settle_keep (Keep.sched h))
      · split
        · exact OKeep.next (State.settle_keep (Keep.sched h))
        · refine OKeep.next (State.orFault_keep (State.setCtx_keep (Keep.sched h)) (EKeep.bindS (State.bringIn_keep (Keep.refl _)) fun a => ?_))
          split
          · exact EKeep.ok (State.resched_keep (State.setCtx_keep (Keep.foldl (Keep.refl a) fun u g => State.setTile_keep (Keep.refl u))))
          · exact EKeep.ok (Keep.foldl (Keep.refl a) fun u g => State.setTile_keep (Keep.refl u))

/-! ## HostDma -/

theorem State.dmaKeyed_keep {e : SqEntry} {b : List Byte} {bad : List ℕ} (h : Keep s t) : Keep s (State.dmaKeyed t e b bad) := by
  unfold State.dmaKeyed
  repeat' (first
    | (with_reducible first
      | exact h | assumption | exact Keep.refl _ | intro _ | apply KeepC.setHbm | apply Hbm.wf_writeGran | apply Keep.foldl)
    | simp only [Keep.mk_eq, id_eq])

theorem State.dmaMarks_keep {gs : List ℕ} (h : Keep s t) : Keep s (State.dmaMarks t gs) := by
  unfold State.dmaMarks
  repeat' (first
    | (with_reducible first
      | exact h | assumption | intro _ | apply KeepC.setHbm | apply Hbm.wf_setGran | apply Hbm.wf_foldl)
    | simp only [Keep.mk_eq, id_eq])

theorem State.dmaRaw_keep {e : SqEntry} {b : List Byte} {bad : List ℕ} (h : Keep s t) : Keep s (State.dmaRaw t e b bad) := by
  unfold State.dmaRaw
  repeat' (first
    | (with_reducible first
      | exact h | apply State.dmaMarks_keep | assumption | intro _ | apply KeepC.setHbm | apply Hbm.wf_writeRaw)
    | simp only [Keep.mk_eq, id_eq])

theorem execDmaToDevice_keep {p : Fin 2} {r : Fin 16} {got : ℕ} {h' : List Host.Cell} {bad : List ℕ} (h : Keep s t) : OKeep s (execDmaToDevice p r got h' bad t) := by
  unfold execDmaToDevice
  repeat' (first
    | (with_reducible first
      | exact h | apply startCmd_keep | apply State.finish_keep | apply State.dmaKeyed_keep | apply State.dmaRaw_keep
      | apply State.begin_keep | exact Keep.refl _ | intro _ | apply Keep.ite))

theorem State.dmaCheckFail_keep {ctx : ℕ} {a : ℕ} {k : W32 × W32 × W32} (h : Keep s t) : Keep s (State.dmaCheckFail t ctx a k) :=
  State.event_keep h

theorem State.dmaCheck_keep {s t : State} {e : SqEntry} {g : Nat} (h : Keep s t) : Keep s (t.dmaCheck e g).2 := by
  unfold State.dmaCheck
  dsimp only
  split
  · exact h
  · split
    · exact h
    · split
      · exact h
      · split
        · exact h
        · exact State.dmaCheckFail_keep h

theorem State.dmaOut_keep {s t : State} {p : Nat} {e : SqEntry} (h : Keep s t) : Keep s (t.dmaOut p e).2 := by
  have gen : ∀ (l : List Nat) (a : List Nat × State), Keep s a.2 → Keep s (l.foldl (fun (a : List Nat × State) g =>
      (if (a.2.dmaCheck e g).1 then a.1 ++ [g] else a.1, (a.2.dmaCheck e g).2)) a).2 := by
    intro l
    induction l with
    | nil => intro a k; exact k
    | cons x l ih => intro a k; exact ih _ (State.dmaCheck_keep k)
  exact State.setHost_keep (State.toHost_keep (gen e.grans ([], t) h))

theorem execDmaFromDevice_keep {p : Fin 2} {r : Fin 16} (h : Keep s t) : OKeep s (execDmaFromDevice p r t) := by
  unfold execDmaFromDevice
  repeat' (first
    | (with_reducible first
      | exact h | apply startCmd_keep | apply State.finish_keep | apply State.dmaOut_keep | apply State.begin_keep
      | apply State.resched_keep | apply State.stopCtx_keep | exact Keep.refl _ | intro _ | apply Keep.ite))

theorem execDmaComplete_keep {p : Fin 2} {r : Fin 16} {i : ℕ} (h : Keep s t) : OKeep s (execDmaComplete p r i t) := by
  unfold execDmaComplete
  repeat' (first
    | (with_reducible first
      | exact h | apply State.setHost_keep | apply OKeep.next)
    | simp only [Keep.mk_eq, id_eq] | split)

theorem execTelemetryRead_keep {p : Fin 2} {r : Fin 16} (h : Keep s t) : OKeep s (execTelemetryRead p r t) := by
  unfold execTelemetryRead
  repeat' (first
    | (with_reducible first
      | exact h | apply startCmd_keep | apply State.finish_keep | apply State.toHost_keep | apply State.spend_keep
      | exact Keep.refl _ | intro _)
    | split)

/-! ## Tick -/

theorem State.streamStalls_keep {t' : ℕ} (h : Keep s t) : Keep s (State.streamStalls t t') := by
  unfold State.streamStalls
  repeat' (first
    | (with_reducible first
      | exact h | apply State.stallAt_keep | apply State.ctr_keep | exact Keep.refl _ | intro _ | apply Keep.ite
      | apply Keep.foldl))

theorem State.updLater_keep {t' : ℕ} (h : Keep s t) : Keep s (State.updLater t t') := by
  unfold State.updLater
  repeat' (first
    | (with_reducible first
      | exact h | apply State.setTile_keep | apply Keep.ite))

theorem State.arrayStalls_keep {t' : ℕ} {i : ℕ} (h : Keep s t) : Keep s (State.arrayStalls t t' i) := by
  unfold State.arrayStalls
  repeat' (first
    | (with_reducible first
      | exact h | apply State.stallAt_keep | apply Keep.ite))

theorem State.closeTile_keep {t' : ℕ} (h : Keep s t) : Keep s (State.closeTile t t') := by
  unfold State.closeTile
  repeat' (first
    | (with_reducible first
      | exact h | apply State.delayArray_keep | apply State.arrayStalls_keep | apply State.stallAt_keep
      | apply State.updLater_keep | apply State.streamStalls_keep | apply State.chrAdd_keep | apply State.setTile_keep
      | exact Keep.refl _ | intro _ | apply Keep.ite | apply Keep.foldl))

theorem State.seeTile_keep {t' : ℕ} (h : Keep s t) : Keep s (State.seeTile t t') := by
  unfold State.seeTile
  repeat' (first
    | (with_reducible first
      | exact h | apply State.orFault_keep | apply State.seeWrites_keep | apply State.setTile_keep | exact Keep.refl _))

theorem State.tileTick_keep {t' : ℕ} (h : Keep s t) : Keep s (State.tileTick t t') := by
  unfold State.tileTick
  repeat' (first
    | (with_reducible first
      | exact h | apply State.orFault_keep | apply State.rootAll_keep | apply State.feed_keep | apply State.jobFault_keep
      | apply State.pump_keep | exact Keep.refl _ | intro _ | apply Keep.ite | apply Keep.foldl)
    | simp only [Keep.mk_eq, id_eq] | split)

theorem State.chrGated_keep {counter : ℕ} (h : Keep s t) : Keep s (State.chrGated t counter) := by
  unfold State.chrGated
  repeat' (first
    | (with_reducible first
      | exact h | apply State.setPtile_keep | exact Keep.refl _ | intro _ | apply Keep.ite | apply Keep.foldl))

theorem State.useTick_keep (h : Keep s t) : Keep s (State.useTick t) := by
  unfold State.useTick
  repeat' (first
    | (with_reducible first
      | exact h | apply State.setCtx_keep | apply Keep.ite)
    | split)

theorem State.enabledTick_keep (h : Keep s t) : Keep s (State.enabledTick t) := by
  unfold State.enabledTick
  repeat' (first
    | (with_reducible first
      | exact h | apply State.useTick_keep | apply State.tileTick_keep | exact Keep.refl _ | intro _ | apply KeepC.of
      | apply Keep.foldl)
    | simp only [Keep.mk_eq, id_eq])

theorem State.linkTick_keep (h : Keep s t) : Keep s (State.linkTick t) :=
  State.linkFeed_keep h

theorem State.askRejoin_keep (h : Keep s t) : Keep s (State.askRejoin t) := by
  unfold State.askRejoin
  repeat' (first
    | (with_reducible first
      | exact h | apply State.sendMgmt_keep | apply State.setCtx_keep | apply Keep.ite)
    | simp only [Keep.mk_eq, id_eq] | split)

theorem State.sramErrors_keep (h : Keep s t) : Keep s (State.sramErrors t) :=
  State.markWrite_keep h

theorem execTick_keep (h : Keep s t) : OKeep s (execTick t) := by
  unfold execTick
  repeat' (first
    | (with_reducible first
      | exact h | apply State.closeTile_keep | apply State.steer_keep | apply State.unclamp_keep | apply State.flushMeta_keep
      | apply State.seeTile_keep | apply State.enabledTick_keep | apply State.chrGated_keep | apply State.askRejoin_keep
      | apply State.linkTick_keep | apply State.sramErrors_keep | exact Keep.refl _ | intro _ | apply OKeep.next
      | apply Keep.ite | apply KeepC.of | apply Keep.foldl)
    | simp only [Keep.mk_eq, id_eq] | split)

/-! ## Reset -/

theorem State.reapplyHbm_keep (h : Keep s t) : Keep s (State.reapplyHbm t) := by
  unfold State.reapplyHbm
  repeat' (first
    | (with_reducible first
      | exact h | assumption | exact Keep.refl _ | intro _ | apply KeepC.setHbm | apply Hbm.wf_setCtl | apply Keep.foldl)
    | simp only [Keep.mk_eq, id_eq] | split)

theorem State.regulatorBoot_keep (h : Keep s t) : Keep s (State.regulatorBoot t) :=
  h

theorem State.trialBoot_keep {i : Image} (h : Keep s t) : Keep s (State.trialBoot t i) := by
  unfold State.trialBoot
  repeat' (first
    | (with_reducible first
      | exact h | apply State.putSelect_keep | apply State.logEvent_keep | apply Keep.ite))

theorem Fuses.after_confirm (u : Fuses) (f : Flash) (i : Image) : u.After (u.confirm f i) := by
  refine ⟨rfl, ?_, ?_, ?_⟩
  · unfold Fuses.confirm
    dsimp only
    split
    · rw [BitVec.or_assoc, BitVec.or_comm (BitVec.ofNat _ _), ← BitVec.or_assoc, BitVec.or_self]
    · exact BitVec.or_self
  · unfold Fuses.confirm
    dsimp only
    split
    · exact BitVec.or_self
    · rw [BitVec.or_assoc, BitVec.or_comm (_ &&& _), ← BitVec.or_assoc, BitVec.or_self]
  · intro h
    unfold Fuses.confirm
    dsimp only
    split
    · exact h
    · assumption

theorem State.reachReady_keep {s t : State} {i : Image} (h : Keep s t) : Keep s (t.reachReady i) := by
  unfold State.reachReady
  dsimp only
  have k : Keep s { t with phase := .running } := h
  split
  · exact State.putSelect_keep k
  · split
    · exact ⟨h.hbm, h.plc, h.queue, h.fuses.trans (Fuses.after_confirm ..)⟩
    · exact k

theorem State.fatal_keep (h : Keep s t) : Keep s (State.fatal t) :=
  h

theorem State.outOfService_keep {cause : ℕ} (h : Keep s t) : Keep s (State.outOfService t cause) :=
  State.fatal_keep (State.logEvent_keep h)

/-! The placement at boot -/

theorem sget_foldl_sput {α : Type} [DecidableEq α] {d : Nat → α} {f : Nat → α} : ∀ {l : List Nat} {m : SMap α} {k : Nat},
    sget d (l.foldl (fun m t => sput d m t (f t)) m) k = if k ∈ l then f k else sget d m k
  | [], _, _ => by simp
  | x :: l, m, k => by
    rw [List.foldl_cons, sget_foldl_sput, sget_sput]
    by_cases h : k ∈ l
    · simp [h]
    · by_cases e : x = k
      · subst e; simp
      · simp [h, e, show ¬ k = x from fun h => e h.symm]

theorem Fuses.working_nodup (u : Fuses) (q : Nat) : (u.working q).Nodup := by
  unfold Fuses.working
  refine List.Nodup.filter _ ?_
  rw [List.nodup_iff_pairwise_ne, List.pairwise_map]
  refine List.Pairwise.imp ?_ (List.nodup_iff_pairwise_ne.1 List.nodup_range)
  intro a b h; omega

theorem Fuses.working_range {u : Fuses} {q k : Nat} (h : k ∈ u.working q) : k / 17 = q := by
  unfold Fuses.working at h
  obtain ⟨i, hi, rfl⟩ := List.mem_map.1 (List.mem_of_mem_filter h)
  have := List.mem_range.1 hi
  omega

theorem Fuses.placement_distinct {u : Fuses} (h : u.legal) : u.placement.distinct := by
  have hp : ∀ t, t < 64 → ∃ (hl : t % 16 < (u.working (t / 16)).length), u.placement.phys t = (u.working (t / 16))[t % 16] := by
    intro t ht
    have hl : t % 16 < (u.working (t / 16)).length := by have := h (t / 16) (by omega); omega
    refine ⟨hl, ?_⟩
    unfold Placement.phys Fuses.placement
    rw [sget_foldl_sput, if_pos (List.mem_range.2 ht)]
    simp [hl]
  intro t v ht hv e
  obtain ⟨h1, e1⟩ := hp t ht
  obtain ⟨h2, e2⟩ := hp v hv
  rw [e1, e2] at e
  have q1 := Fuses.working_range (List.getElem_mem h1)
  have q2 := Fuses.working_range (List.getElem_mem h2)
  rw [e, q2] at q1
  have hq : t / 16 = v / 16 := q1.symm
  have hr : t % 16 = v % 16 := by
    simp only [hq] at e h1
    exact (List.Nodup.getElem_inj_iff (Fuses.working_nodup u (v / 16))).1 e
  omega

theorem Placement.refence_distinct {p : Placement} {k : Nat} (h : p.distinct) : (p.refence k).distinct := by
  unfold Placement.refence
  split
  · exact h
  · dsimp only
    split
    · exact Placement.distinct_of_bind rfl h
    · split
      · rename_i e
        exact Placement.distinct_put (p := { p with fenced := p.fenced ||| BitVec.ofNat 68 (2 ^ k) }) rfl (Placement.target_free e)
          (Placement.distinct_of_bind rfl h)
      · exact Placement.distinct_of_bind rfl h

theorem State.bootPlacement_distinct {s : State} (h : s.fuses.legal) : s.bootPlacement.distinct := by
  unfold State.bootPlacement
  have gen : ∀ (l : List Nat) (p : Placement), p.distinct → (l.foldl Placement.refence p).distinct := by
    intro l
    induction l with
    | nil => intro p k; exact k
    | cons x l ih => intro p k; exact ih _ (Placement.refence_distinct k)
  exact gen _ _ (Fuses.placement_distinct h)

theorem State.boot_keep {s t : State} {test : Bool} {cause : Option Nat} (h : Keep s t) : Keep s (t.boot test cause) := by
  unfold State.boot
  dsimp only
  have k0 : Keep s { t with flash := { t.flash with boots := t.flash.boots + 1 } } := h
  split
  · exact State.fatal_keep k0
  · rename_i i _
    have k1 := State.trialBoot_keep (i := i) k0
    have kp : ∀ {u : State} {x : SMap TcPkg}, Keep s u → Keep s { u.regulatorBoot with plc := u.bootPlacement, tc := x } := by
      intro u x k
      have k' := State.regulatorBoot_keep k
      exact ⟨k'.hbm, fun hl _ => State.bootPlacement_distinct (k.fuses.legal hl), k'.queue, k'.fuses⟩
    have fin : ∀ {w : State}, Keep s w → Keep s (if w.flash.outOfService = true then w.fatal
        else if (!test) = true then w.outOfService 3 else w.reachReady i) := fun k =>
      Keep.ite (State.fatal_keep k) (Keep.ite (State.outOfService_keep k) (State.reachReady_keep k))
    generalize State.trialBoot _ i = u at k1 ⊢
    have k2 : Keep s { u with sec := u.sec.derive u.fuses i (freshBytes u.freeCtr 32), freeCtr := u.freeCtr + 1 } := k1
    generalize ({ u with sec := u.sec.derive u.fuses i (freshBytes u.freeCtr 32), freeCtr := u.freeCtr + 1 } : State) = v at k2 ⊢
    split
    · exact fin (kp (State.logEvent_keep k2))
    · exact fin (kp k2)

theorem Placement.init_distinct : Placement.init.distinct := by
  intro t u ht hu e
  simp only [Placement.phys, Placement.init, sget, sfind, Option.getD_none, bindDefault] at e
  omega

theorem State.moduleReset_keep {s t : State} {pins : Pins} (h : Keep s t) : Keep s (t.moduleReset pins) := by
  unfold State.moduleReset
  refine Keep.foldl ?_ fun u p => State.setHost_keep (Keep.refl u)
  exact ⟨fun _ => rfl, fun hl _ => Fuses.placement_distinct (h.fuses.legal hl), h.queue, h.fuses⟩

theorem State.moduleBoot_keep {test : Bool} (h : Keep s t) : Keep s (State.moduleBoot t test) := by
  unfold State.moduleBoot
  repeat' (first
    | (with_reducible first
      | exact h | apply State.setHost_keep | apply State.boot_keep | apply State.reapplyHbm_keep | apply Keep.ite
      | apply KeepC.of)
    | simp only [Keep.mk_eq, id_eq])

theorem execModuleResetAssert_keep (h : Keep s t) : OKeep s (execModuleResetAssert t) := by
  unfold execModuleResetAssert
  repeat' (first
    | (with_reducible first
      | exact h | apply State.moduleReset_keep | apply OKeep.occurs))

theorem execModuleResetRelease_keep {test : Bool} (h : Keep s t) : OKeep s (execModuleResetRelease test t) := by
  unfold execModuleResetRelease
  repeat' (first
    | (with_reducible first
      | exact h | apply State.moduleBoot_keep | apply OKeep.occurs | apply Keep.ite | apply KeepC.of)
    | simp only [Keep.mk_eq, id_eq])

theorem execModPwrokAssert_keep {test : Bool} (h : Keep s t) : OKeep s (execModPwrokAssert test t) := by
  unfold execModPwrokAssert
  repeat' (first
    | (with_reducible first
      | exact h | apply State.moduleBoot_keep | apply OKeep.occurs | apply Keep.ite | apply KeepC.of)
    | simp only [Keep.mk_eq, id_eq])

theorem execPowerFail_keep (h : Keep s t) : OKeep s (execPowerFail t) := by
  unfold execPowerFail
  repeat' (first
    | (with_reducible first
      | exact h | apply State.moduleReset_keep | apply OKeep.occurs))

theorem Hbm.wf_reborn {h : Hbm} (w : h.wf = true) : ({ h with cec := [], ctl := h.ctl.filterMap (fun p =>
    if p.2.reborn = Hctl.init then none else some (p.1, p.2.reborn)) } : Hbm).wf = true := by
  have := Hbm.wf_ctlMap (f := fun p => p.2.reborn) w
  rw [Hbm.wf_iff] at this ⊢
  exact ⟨this.1, this.2.1, this.2.2.1, rfl⟩

theorem State.dieReset_keep {s t : State} (h : Keep s t) : Keep s t.dieReset := by
  unfold State.dieReset
  refine State.timeCtrl_keep (Keep.foldl ?_ fun u p => State.setHost_keep (Keep.refl u))
  have k1 : Keep s (match t.abandonAll.resCtx with
      | some (n, c) => t.abandonAll.setCtx n { c with saved := [] }
      | none => t.abandonAll) := by
    split
    · exact State.setCtx_keep (State.abandonAll_keep h)
    · exact State.abandonAll_keep h
  exact ⟨fun w => Hbm.wf_reborn (k1.hbm w), k1.plc, k1.queue, k1.fuses⟩

theorem State.selfRefresh_keep {on : Bool} (h : Keep s t) : Keep s (State.selfRefresh t on) := by
  unfold State.selfRefresh
  repeat' (first
    | (with_reducible first
      | exact h | assumption | exact Keep.refl _ | intro _ | apply KeepC.setHbm | apply Hbm.wf_setCtl | apply Keep.foldl)
    | simp only [Keep.mk_eq, id_eq])

theorem State.hbmBoot_keep (h : Keep s t) : Keep s (State.hbmBoot t) := by
  unfold State.hbmBoot
  repeat' (first
    | (with_reducible first
      | exact h | apply State.logEvent_keep | apply State.selfRefresh_keep | assumption | exact Keep.refl _ | intro _
      | apply KeepC.setHbm | apply Hbm.wf_setCtl | apply Keep.foldl)
    | simp only [Keep.mk_eq, id_eq])

theorem State.reviveCtx_keep {n : ℕ} (h : Keep s t) : Keep s (State.reviveCtx t n) := by
  unfold State.reviveCtx
  repeat' (first
    | (with_reducible first
      | exact h | apply State.setCtx_keep | apply State.stopCtx_keep | apply State.rawWrite_keep | exact Keep.refl _ | intro _
      | apply Keep.ite | apply Keep.foldl)
    | simp only [Keep.mk_eq, id_eq] | split)

theorem State.startPorts_keep (h : Keep s t) : Keep s (State.startPorts t) := by
  unfold State.startPorts
  repeat' (first
    | (with_reducible first
      | exact h | apply State.bringUp_keep | exact Keep.refl _ | intro _ | apply Keep.ite | apply Keep.foldl))

theorem State.restart439_keep {cause : ℕ} {test : Bool} (h : Keep s t) : Keep s (State.restart439 t cause test) := by
  unfold State.restart439
  repeat' (first
    | (with_reducible first
      | exact h | apply State.boot_keep | apply State.dieReset_keep | apply State.selfRefresh_keep | apply State.event_keep
      | apply State.startPorts_keep | apply State.hbmBoot_keep | apply State.resched_keep | apply State.reviveCtx_keep
      | exact Keep.refl _ | intro _ | apply Keep.ite | apply Keep.foldl))

theorem State.laserRecords_keep (h : Keep s t) : Keep s (State.laserRecords t) := by
  unfold State.laserRecords
  repeat' (first
    | (with_reducible first
      | exact h | apply State.writeLaser_keep | exact Keep.refl _ | intro _ | apply Keep.ite | apply Keep.foldl))

theorem State.fullReset_keep {cause : ℕ} {test : Bool} (h : Keep s t) : Keep s (State.fullReset t cause test) := by
  unfold State.fullReset
  exact State.restart439_keep (State.setHost_keep (State.setHost_keep (State.laserRecords_keep (State.logEvent_keep h))))

theorem execDeviceReset_keep {p : Fin 2} {r : Fin 16} {test : Bool} (h : Keep s t) : OKeep s (execDeviceReset p r test t) := by
  unfold execDeviceReset
  repeat' (first
    | (with_reducible first
      | exact h | apply startCmd_keep | apply State.fullReset_keep | apply State.finish_keep | exact Keep.refl _ | intro _))

theorem execRouterFault_keep {test : Bool} (h : Keep s t) : OKeep s (execRouterFault test t) := by
  unfold execRouterFault
  repeat' (first
    | (with_reducible first
      | exact h | apply State.fullReset_keep | apply State.logEvent_keep | apply OKeep.occurs | apply Keep.ite))

theorem execCluster0UncorrectableError_keep {test : Bool} (h : Keep s t) : OKeep s (execCluster0UncorrectableError test t) := by
  unfold execCluster0UncorrectableError
  repeat' (first
    | (with_reducible first
      | exact h | apply State.fullReset_keep | apply OKeep.occurs))

theorem execFirmwareWatchdog_keep {a0 : Fin 4} {test : Bool} (h : Keep s t) : OKeep s (execFirmwareWatchdog a0 test t) := by
  unfold execFirmwareWatchdog
  repeat' (first
    | (with_reducible first
      | exact h | apply State.fullReset_keep | apply OKeep.occurs))

theorem execSecurityBlockFault_keep {test : Bool} (h : Keep s t) : OKeep s (execSecurityBlockFault test t) := by
  unfold execSecurityBlockFault
  repeat' (first
    | (with_reducible first
      | exact h | apply State.fullReset_keep | apply OKeep.occurs))

theorem State.laneFails_keep {i : ℕ} {test : Bool} (h : Keep s t) : Keep s (State.laneFails t i test) := by
  unfold State.laneFails
  repeat' (first
    | (with_reducible first
      | exact h | apply State.fullReset_keep | assumption | intro _ | apply Keep.ite | apply KeepC.setHbm | apply Hbm.wf_setCtl)
    | simp only [Keep.mk_eq, id_eq])

theorem execHbmRead_keep {stack : Fin 12 × Hubs} {bad : List ℕ} {can : Bool} {lane : Bool} {test : Bool} (h : Keep s t) : OKeep s (execHbmRead stack bad can lane test t) := by
  unfold execHbmRead
  repeat' (first
    | (with_reducible first
      | exact h | apply State.hbmRead_keep | apply State.laneFails_keep | apply OKeep.occurs | apply Keep.ite))

theorem execThermalTrip_keep {i : Fin 84} {temp : ℤ} (h : Keep s t) : OKeep s (execThermalTrip i temp t) := by
  unfold execThermalTrip
  repeat' (first
    | (with_reducible first
      | exact h | apply State.dieReset_keep | apply State.selfRefresh_keep | apply State.setHost_keep
      | apply State.logEvent_keep | apply OKeep.occurs | apply KeepC.of)
    | simp only [Keep.mk_eq, id_eq])

theorem execThermalTripRecovery_keep {die : List ℤ} {test : Bool} (h : Keep s t) : OKeep s (execThermalTripRecovery die test t) := by
  unfold execThermalTripRecovery
  repeat' (first
    | (with_reducible first
      | exact h | apply State.fullReset_keep | apply OKeep.occurs))

theorem execRailExcursion_keep {r : Fin 16} (h : Keep s t) : OKeep s (execRailExcursion r t) :=
  OKeep.next h

theorem execRailInRange_keep {r : Fin 16} (h : Keep s t) : OKeep s (execRailInRange r t) :=
  OKeep.next h

theorem execPciePortReset_keep {p : Fin 2} {perst : Bool} (h : Keep s t) : OKeep s (execPciePortReset p perst t) := by
  unfold execPciePortReset
  repeat' (first
    | (with_reducible first
      | exact h | apply State.loseLease_keep | apply State.setHost_keep | apply OKeep.next | apply Keep.ite | apply KeepC.of)
    | simp only [Keep.mk_eq, id_eq])

theorem execPerstRelease_keep {p : Fin 2} (h : Keep s t) : OKeep s (execPerstRelease p t) :=
  OKeep.next (State.setHost_keep h)

theorem execEpochMarker_keep {s t : State} {t' : Fin 64} {stop : Fin 72} {cls : Fin 3} (h : Keep s t) :
    OKeep s (execEpochMarker t' stop cls t) := by
  unfold execEpochMarker
  dsimp only
  split
  · exact OKeep.next h
  · exact OKeep.next (Keep.setPlc h fun _ => Placement.distinct_of_bind rfl)

theorem execPlacementExclusive_keep {s t : State} {t' : Fin 64} (h : Keep s t) : OKeep s (execPlacementExclusive t' t) := by
  unfold execPlacementExclusive
  split
  · exact OKeep.next h
  · exact OKeep.occurs (Keep.setPlc h fun _ => Placement.distinct_of_bind rfl) h

/-! ## TestRun -/

theorem State.testRan_keep {k : TcPkg} {p : ℕ} {fail : Bool} (h : Keep s t) : Keep s (State.testRan t k p fail) := by
  unfold State.testRan
  repeat' (first
    | (with_reducible first
      | exact h | apply State.event_keep | apply KeepC.of)
    | simp only [Keep.mk_eq, id_eq] | split)

theorem State.testSignature_keep {p : ℕ} {unit : ℕ} (h : Keep s t) : Keep s (State.testSignature t p unit) :=
  State.signature_keep (State.spend_keep h)

theorem State.testOne_keep {fails : List (ℕ × ℕ × ℕ)} {p : ℕ} {k : TcPkg} (h : Keep s t) : Keep s (State.testOne fails p t k) := by
  unfold State.testOne
  repeat' (first
    | (with_reducible first
      | exact h | apply State.testSignature_keep | apply State.testRan_keep | exact Keep.refl _ | intro _ | apply Keep.foldl))

theorem State.testTiles_keep {ks : List TcPkg} {ts : List ℕ} {fails : List (ℕ × ℕ × ℕ)} (h : Keep s t) : Keep s (State.testTiles t ks ts fails) := by
  unfold State.testTiles
  repeat' (first
    | (with_reducible first
      | exact h | apply State.testOne_keep | apply State.fenceTile_keep | exact Keep.refl _ | intro _ | apply Keep.ite
      | apply Keep.foldl))

theorem State.saveImages_keep {n : ℕ} {c : Ctx} (h : Keep s t) : Keep s (State.saveImages t n c) := by
  unfold State.saveImages
  repeat' (first
    | (with_reducible first
      | exact h | apply State.putArea_keep | apply State.dropAhead_keep | apply State.setCtx_keep | exact Keep.refl _ | intro _
      | apply Keep.foldl)
    | simp only [Keep.mk_eq, id_eq] | split)

theorem State.afterTest_keep {t' : ℕ} (h : Keep s t) : Keep s (State.afterTest t t') := by
  unfold State.afterTest
  repeat' (first
    | (with_reducible first
      | exact h | apply State.clearSramBut_keep | apply State.spend_keep | apply State.setTile_keep | apply State.startLoad_keep
      | apply Keep.ite))

theorem State.beginTest_keep (h : Keep s t) : Keep s (State.beginTest t) := by
  unfold State.beginTest
  repeat' (first
    | (with_reducible first
      | exact h | apply State.preempt_keep | apply State.saveImages_keep | apply Keep.ite | apply KeepC.of)
    | simp only [Keep.mk_eq, id_eq] | split)

theorem State.expelTested_keep (h : Keep s t) : Keep s (State.expelTested t) := by
  unfold State.expelTested
  repeat' (first
    | (with_reducible first
      | exact h | apply State.expel_keep | exact Keep.refl _ | intro _ | apply Keep.foldl)
    | simp only [Keep.mk_eq, id_eq] | split)

theorem State.endTest_keep {full : Bool} {fails : List (ℕ × ℕ × ℕ)} (h : Keep s t) : Keep s (State.endTest t full fails) := by
  unfold State.endTest
  repeat' (first
    | (with_reducible first
      | exact h | apply State.testTiles_keep | apply State.expelTested_keep | apply State.resched_keep | apply State.goOn_keep
      | apply State.afterTest_keep | exact Keep.refl _ | intro _ | apply Keep.ite | apply KeepC.of | apply Keep.foldl)
    | simp only [Keep.mk_eq, id_eq] | split)

theorem execTestWindow_keep {full : Bool} {fails : List (ℕ × ℕ × ℕ)} (h : Keep s t) : OKeep s (execTestWindow full fails t) := by
  unfold execTestWindow
  repeat' (first
    | (with_reducible first
      | exact h | apply State.endTest_keep | apply State.beginTest_keep | apply OKeep.next | apply OKeep.occurs)
    | split)

theorem execSpareTestRun_keep {p : Fin 68} {fails : List (ℕ × ℕ × ℕ)} (h : Keep s t) : OKeep s (execSpareTestRun p fails t) := by
  unfold execSpareTestRun
  repeat' (first
    | (with_reducible first
      | exact h | apply State.testTiles_keep | apply OKeep.occurs))

/-! ## RegWrite -/

theorem State.hifStart_keep {p : ℕ} (h : Keep s t) : Keep s (State.hifStart t p) := by
  unfold State.hifStart
  repeat' (first
    | (with_reducible first
      | exact h | apply State.hifErr_keep | apply State.holdLock_keep | apply State.clearLate_keep | apply State.setReg_keep
      | apply State.setHost_keep | apply Keep.ite))

theorem State.hifStop_keep {p : ℕ} (h : Keep s t) : Keep s (State.hifStop t p) := by
  unfold State.hifStop
  repeat' (first
    | (with_reducible first
      | exact h | apply State.holdLock_keep | apply State.setReg_keep | apply State.setHost_keep | apply State.loseLease_keep
      | apply Keep.ite))

theorem State.portEnables_keep {was : Bool} {n : ℕ} (h : Keep s t) : Keep s (State.portEnables t was n) := by
  unfold State.portEnables
  repeat' (first
    | (with_reducible first
      | exact h | apply State.bringUp_keep | apply Keep.ite))

theorem State.dropChecks_keep (h : Keep s t) : Keep s (State.dropChecks t) := by
  unfold State.dropChecks
  repeat' (first
    | (with_reducible first
      | exact h | apply State.setPtile_keep | exact Keep.refl _ | intro _ | apply Keep.ite | apply Keep.foldl))

theorem State.clearBank_keep {k : ℕ} (h : Keep s t) : Keep s (State.clearBank t k) :=
  State.setPtile_keep h

theorem State.settleReg_keep {s t u : State} {k : Nat} (h : Keep s t) : Keep s (State.settleReg u k t) := by
  unfold State.settleReg
  dsimp only
  have k0 : Keep s ((if (!u.blockOn k && t.blockOn k) = true then t.clearLate k else t).holdLock u k) :=
    State.holdLock_keep (Keep.ite (State.clearLate_keep h) h)
  generalize (if (!u.blockOn k && t.blockOn k) = true then t.clearLate k else t).holdLock u k = v at k0 ⊢
  have k1 : Keep s { v with power := { v.power with clampEnd := true } } := k0
  repeat' (first
    | (with_reducible first
      | exact k0 | exact k1 | apply Keep.ite | apply State.timeCtrl_keep | apply State.portEnables_keep | apply State.dropChecks_keep | apply State.clearBank_keep
      | exact Keep.foldl k0 fun w n => State.portEnables_keep (Keep.refl w)))

theorem State.writeFields_keep {k : ℕ} {v : ℕ} {fs : List RField} (h : Keep s t) : Keep s (State.writeFields t k v fs) := by
  unfold State.writeFields
  repeat' (first
    | (with_reducible first
      | exact h | apply State.late_keep | apply State.hifStart_keep | apply State.hifStop_keep | apply State.settleReg_keep
      | apply State.setReg_keep | apply Keep.ite))

theorem State.clearBits_keep {k : ℕ} {v : ℕ} {mask : ℕ} (h : Keep s t) : Keep s (State.clearBits t k v mask) := by
  unfold State.clearBits
  repeat' (first
    | (with_reducible first
      | exact h | apply State.setLink_keep | apply State.setReg_keep | apply Keep.ite))

theorem State.writeReg_keep {ag : ℕ} {off : ℕ} {full : Bool} {v : ℕ} (h : Keep s t) : Keep s (State.writeReg t ag off full v) := by
  unfold State.writeReg
  repeat' (first
    | (with_reducible first
      | exact h | apply State.setHost_keep | apply State.hifErr_keep | apply State.late_keep | apply State.clearBits_keep
      | apply State.writeFields_keep | apply Keep.ite)
    | split)

theorem execClkDevtimeLoRead_keep {ag : Fin 3} (h : Keep s t) : OKeep s (execClkDevtimeLoRead ag t) := by
  unfold execClkDevtimeLoRead
  repeat' (first
    | (with_reducible first
      | exact h | apply State.readReg_keep | apply OKeep.occurs))

theorem execPairLoRead_keep {ag : Fin 3} {off : BitVec 24} (h : Keep s t) : OKeep s (execPairLoRead ag off t) := by
  unfold execPairLoRead
  repeat' (first
    | (with_reducible first
      | exact h | apply State.readReg_keep | apply OKeep.occurs))

theorem execRegisterWrite_keep {ag : Fin 3} {off : BitVec 24} {full : Bool} {v : BitVec 32} (h : Keep s t) : OKeep s (execRegisterWrite ag off full v t) :=
  OKeep.next (State.writeReg_keep h)

theorem execHifEnable_keep {p : Fin 2} (h : Keep s t) : OKeep s (execHifEnable p t) :=
  OKeep.next (State.writeReg_keep h)

theorem execHifQuiesce_keep {p : Fin 2} (h : Keep s t) : OKeep s (execHifQuiesce p t) :=
  OKeep.next (State.writeReg_keep h)

theorem execLnkEnable_keep {ag : Fin 3} (h : Keep s t) : OKeep s (execLnkEnable ag t) :=
  OKeep.next (State.writeReg_keep h)

theorem execLnkDisable_keep {ag : Fin 3} (h : Keep s t) : OKeep s (execLnkDisable ag t) :=
  OKeep.next (State.writeReg_keep h)

theorem execLnkPortEnable_keep {ag : Fin 3} {n : Fin 24} {mode : BitVec 2} (h : Keep s t) : OKeep s (execLnkPortEnable ag n mode t) :=
  OKeep.next (State.writeReg_keep h)

theorem execLnkPortDisable_keep {ag : Fin 3} {n : Fin 24} (h : Keep s t) : OKeep s (execLnkPortDisable ag n t) :=
  OKeep.next (State.writeReg_keep h)

theorem execChrBankEnable_keep {ag : Fin 3} {p : Fin 68} {b : Fin 4} {mode : BitVec 2} {target : BitVec 3} {sctx : BitVec 5} (h : Keep s t) : OKeep s (execChrBankEnable ag p b mode target sctx t) :=
  OKeep.next (State.writeReg_keep h)

theorem execChrBankDisable_keep {ag : Fin 3} {p : Fin 68} {b : Fin 4} (h : Keep s t) : OKeep s (execChrBankDisable ag p b t) :=
  OKeep.next (State.writeReg_keep h)

theorem execFastenClear_keep {ag : Fin 3} (h : Keep s t) : OKeep s (execFastenClear ag t) :=
  OKeep.next (State.writeReg_keep h)

theorem execRglPeriodWrite_keep {ag : Fin 3} {hours : BitVec 14} (h : Keep s t) : OKeep s (execRglPeriodWrite ag hours t) :=
  OKeep.next (State.writeReg_keep h)

theorem execFwenClear_keep {ag : Fin 3} (h : Keep s t) : OKeep s (execFwenClear ag t) :=
  OKeep.next (State.writeReg_keep h)

theorem execDrenClear_keep {ag : Fin 3} (h : Keep s t) : OKeep s (execDrenClear ag t) :=
  OKeep.next (State.writeReg_keep h)

/-! ## ControlCore -/

theorem State.toCore_keep {l : List ℕ} (h : Keep s t) : Keep s (State.toCore t l) :=
  h

theorem State.stepped_keep {core : ℕ} (h : Keep s t) : Keep s (State.stepped t core) :=
  h

theorem State.coreFill_keep {a : ℕ} {n : ℕ} (h : Keep s t) : Keep s (State.coreFill t a n) := by
  unfold State.coreFill
  repeat' (first
    | (with_reducible first
      | exact h | exact Keep.refl _ | intro _ | apply KeepC.of | apply Keep.foldl)
    | simp only [Keep.mk_eq, id_eq])

theorem State.coreStore_keep {a : ℕ} {d : List Byte} (h : Keep s t) : Keep s (State.coreStore t a d) := by
  unfold State.coreStore
  repeat' (first
    | (with_reducible first
      | exact h | exact Keep.refl _ | intro _ | apply KeepC.of | apply Keep.foldl)
    | simp only [Keep.mk_eq, id_eq])

theorem State.coreClean_keep {b : ℕ} (h : Keep s t) : Keep s (State.coreClean t b) := by
  unfold State.coreClean
  repeat' (first
    | (with_reducible first
      | exact h | assumption | intro _ | apply Keep.ite | apply KeepC.setHbm | apply Hbm.wf_writeRaw)
    | simp only [Keep.mk_eq, id_eq] | split)

theorem State.coreDrop_keep {b : ℕ} (h : Keep s t) : Keep s (State.coreDrop t b) :=
  h

theorem State.coreMem_keep {k : ℕ} {c : Ctx} {store : Bool} {a : ℕ} {n : ℕ} {d : List Byte} (h : Keep s t) : Keep s (State.coreMem t k c store a n d) := by
  unfold State.coreMem
  repeat' (first
    | (with_reducible first
      | exact h | apply State.jobFault_keep | apply State.coreStore_keep | apply State.setCtx_keep | apply State.toCore_keep
      | apply State.coreFill_keep | apply Keep.ite))

theorem State.coreCbo_keep {c : Ctx} {clean : Bool} {drop : Bool} {a : ℕ} (h : Keep s t) : Keep s (State.coreCbo t c clean drop a) := by
  unfold State.coreCbo
  repeat' (first
    | (with_reducible first
      | exact h | apply State.jobFault_keep | apply State.coreClean_keep | apply State.coreDrop_keep | apply Keep.ite))

theorem State.coreTimer_keep {core : ℕ} {sp : ℕ} {store : Bool} {d : List Byte} (h : Keep s t) : Keep s (State.coreTimer t core sp store d) := by
  unfold State.coreTimer
  repeat' (first
    | (with_reducible first
      | exact h | apply State.toCore_keep | apply Keep.ite | apply KeepC.of)
    | simp only [Keep.mk_eq, id_eq] | split)

theorem State.coreSync_keep {core : ℕ} {c : Ctx} {store : Bool} {a : ℕ} {d : List Byte} (h : Keep s t) : Keep s (State.coreSync t core c store a d) := by
  unfold State.coreSync
  repeat' (first
    | (with_reducible first
      | exact h | apply State.jobFault_keep | apply State.incFrom_keep | apply State.orFault_keep | apply State.startHalted_keep
      | apply State.toCore_keep | exact Keep.refl _ | apply Keep.ite))

theorem State.coreChr_keep {store : Bool} {a : ℕ} (h : Keep s t) : Keep s (State.coreChr t store a) := by
  unfold State.coreChr
  repeat' (first
    | (with_reducible first
      | exact h | apply State.readReg_keep | apply State.toCore_keep | apply Keep.ite))

theorem execControlCoreAccess_keep {core : Fin 12} {sp : Fin 10} {store : Bool} {a : BitVec 48} {n : BitVec 7} {d : List Byte} (h : Keep s t) : OKeep s (execControlCoreAccess core sp store a n d t) := by
  unfold execControlCoreAccess
  repeat' (first
    | (with_reducible first
      | exact h | apply State.coreDrop_keep | apply State.coreClean_keep | apply State.stepped_keep | apply State.coreMem_keep
      | apply State.coreSync_keep | apply State.coreChr_keep | apply State.coreCbo_keep | apply State.coreTimer_keep
      | apply OKeep.occurs)
    | simp only [Keep.mk_eq, id_eq] | split)

theorem execCoreCacheUncorrectable_keep (h : Keep s t) : OKeep s (execCoreCacheUncorrectable t) := by
  unfold execCoreCacheUncorrectable
  repeat' (first
    | (with_reducible first
      | exact h | apply State.setCtx_keep | apply OKeep.next)
    | split)

theorem execEcall_keep {eid : BitVec 64} {fid : BitVec 64} {arg : BitVec 64} (h : Keep s t) : OKeep s (execEcall eid fid arg t) := by
  unfold execEcall
  repeat' (first
    | (with_reducible first
      | exact h | apply State.toCore_keep | apply OKeep.occurs | apply KeepC.of)
    | simp only [Keep.mk_eq, id_eq])

theorem State.shiftOut_keep {b : List Byte} (h : Keep s t) : Keep s (State.shiftOut t b) :=
  h

theorem State.dbgRead_keep {a : ℕ} {n : ℕ} (h : Keep s t) : OKeep s (State.dbgRead t a n) := by
  unfold State.dbgRead
  repeat' (first
    | (with_reducible first
      | exact h | apply State.shiftOut_keep | apply OKeep.next | apply KeepC.of | exact OKeep.fault)
    | simp only [Keep.mk_eq, id_eq] | split)

theorem State.dbgWrite_keep {a : ℕ} {d : List Byte} (h : Keep s t) : OKeep s (State.dbgWrite t a d) := by
  unfold State.dbgWrite
  repeat' (first
    | (with_reducible first
      | exact h | apply State.setMem_keep | assumption | intro _ | apply OKeep.next | apply Keep.ite | apply KeepC.setHbm
      | apply Hbm.wf_writeRaw | apply Memory.wf_wrBytes | exact OKeep.fault)
    | simp only [Keep.mk_eq, id_eq] | split)

theorem execDebugAccess_keep {op : Fin 8} {a : BitVec 48} {b : BitVec 64} {d : List Byte} (h : Keep s t) : OKeep s (execDebugAccess op a b d t) := by
  unfold execDebugAccess
  repeat' (first
    | (with_reducible first
      | exact h | apply State.readReg_keep | apply State.shiftOut_keep | apply State.spend_keep | apply State.dbgRead_keep
      | apply State.dbgWrite_keep | apply OKeep.next | apply KeepC.of | exact OKeep.refused)
    | simp only [Keep.mk_eq, id_eq] | split)

end Sys2Proof.Machine
end

