-- ==== Sys2Proof/Laws/State.lean ====
section
/-! SUPPORT. Laws/State.lean: what each named update of the state leaves as it was, field by field, and what it writes. -/

namespace Sys2Proof.Machine

variable (s : State)

@[simp] theorem State.setTile_pending (t : Nat) (x : Tile) : (s.setTile t x).pending = s.pending := rfl
@[simp] theorem State.setTile_freeCtr (t : Nat) (x : Tile) : (s.setTile t x).freeCtr = s.freeCtr := rfl
@[simp] theorem State.setTile_phase (t : Nat) (x : Tile) : (s.setTile t x).phase = s.phase := rfl
@[simp] theorem State.setTile_pins (t : Nat) (x : Tile) : (s.setTile t x).pins = s.pins := rfl
@[simp] theorem State.setTile_clk (t : Nat) (x : Tile) : (s.setTile t x).clk = s.clk := rfl
@[simp] theorem State.setTile_cfg (t : Nat) (x : Tile) : (s.setTile t x).cfg = s.cfg := rfl
@[simp] theorem State.setTile_lockWas (t : Nat) (x : Tile) : (s.setTile t x).lockWas = s.lockWas := rfl
@[simp] theorem State.setTile_w1cNow (t : Nat) (x : Tile) : (s.setTile t x).w1cNow = s.w1cNow := rfl
@[simp] theorem State.setTile_hi (t : Nat) (x : Tile) : (s.setTile t x).hi = s.hi := rfl
@[simp] theorem State.setTile_busRead (t : Nat) (x : Tile) : (s.setTile t x).busRead = s.busRead := rfl
@[simp] theorem State.setTile_power (t : Nat) (x : Tile) : (s.setTile t x).power = s.power := rfl
@[simp] theorem State.setTile_rgl (t : Nat) (x : Tile) : (s.setTile t x).rgl = s.rgl := rfl
@[simp] theorem State.setTile_fuses (t : Nat) (x : Tile) : (s.setTile t x).fuses = s.fuses := rfl
@[simp] theorem State.setTile_flash (t : Nat) (x : Tile) : (s.setTile t x).flash = s.flash := rfl
@[simp] theorem State.setTile_sec (t : Nat) (x : Tile) : (s.setTile t x).sec = s.sec := rfl
@[simp] theorem State.setTile_tc (t : Nat) (x : Tile) : (s.setTile t x).tc = s.tc := rfl
@[simp] theorem State.setTile_sigs (t : Nat) (x : Tile) : (s.setTile t x).sigs = s.sigs := rfl
@[simp] theorem State.setTile_hosts (t : Nat) (x : Tile) : (s.setTile t x).hosts = s.hosts := rfl
@[simp] theorem State.setTile_lease (t : Nat) (x : Tile) : (s.setTile t x).lease = s.lease := rfl
@[simp] theorem State.setTile_plc (t : Nat) (x : Tile) : (s.setTile t x).plc = s.plc := rfl
@[simp] theorem State.setTile_hbm (t : Nat) (x : Tile) : (s.setTile t x).hbm = s.hbm := rfl
@[simp] theorem State.setTile_metaQ (t : Nat) (x : Tile) : (s.setTile t x).metaQ = s.metaQ := rfl
@[simp] theorem State.setTile_cvUnchecked (t : Nat) (x : Tile) : (s.setTile t x).cvUnchecked = s.cvUnchecked := rfl
@[simp] theorem State.setTile_cvFail (t : Nat) (x : Tile) : (s.setTile t x).cvFail = s.cvFail := rfl
@[simp] theorem State.setTile_testLate (t : Nat) (x : Tile) : (s.setTile t x).testLate = s.testLate := rfl
@[simp] theorem State.setTile_ctxs (t : Nat) (x : Tile) : (s.setTile t x).ctxs = s.ctxs := rfl
@[simp] theorem State.setTile_sched (t : Nat) (x : Tile) : (s.setTile t x).sched = s.sched := rfl
@[simp] theorem State.setTile_ptiles (t : Nat) (x : Tile) : (s.setTile t x).ptiles = s.ptiles := rfl
@[simp] theorem State.setTile_links (t : Nat) (x : Tile) : (s.setTile t x).links = s.links := rfl
@[simp] theorem State.setTile_lnk (t : Nat) (x : Tile) : (s.setTile t x).lnk = s.lnk := rfl
@[simp] theorem State.setTile_coreRet (t : Nat) (x : Tile) : (s.setTile t x).coreRet = s.coreRet := rfl
@[simp] theorem State.setTile_coreHalt (t : Nat) (x : Tile) : (s.setTile t x).coreHalt = s.coreHalt := rfl
@[simp] theorem State.setTile_coreStep (t : Nat) (x : Tile) : (s.setTile t x).coreStep = s.coreStep := rfl
@[simp] theorem State.setTile_l2 (t : Nat) (x : Tile) : (s.setTile t x).l2 = s.l2 := rfl
@[simp] theorem State.setTile_stimecmp (t : Nat) (x : Tile) : (s.setTile t x).stimecmp = s.stimecmp := rfl

@[simp] theorem State.setPtile_pending (p : Nat) (x : PTile) : (s.setPtile p x).pending = s.pending := rfl
@[simp] theorem State.setPtile_freeCtr (p : Nat) (x : PTile) : (s.setPtile p x).freeCtr = s.freeCtr := rfl
@[simp] theorem State.setPtile_phase (p : Nat) (x : PTile) : (s.setPtile p x).phase = s.phase := rfl
@[simp] theorem State.setPtile_pins (p : Nat) (x : PTile) : (s.setPtile p x).pins = s.pins := rfl
@[simp] theorem State.setPtile_clk (p : Nat) (x : PTile) : (s.setPtile p x).clk = s.clk := rfl
@[simp] theorem State.setPtile_cfg (p : Nat) (x : PTile) : (s.setPtile p x).cfg = s.cfg := rfl
@[simp] theorem State.setPtile_lockWas (p : Nat) (x : PTile) : (s.setPtile p x).lockWas = s.lockWas := rfl
@[simp] theorem State.setPtile_w1cNow (p : Nat) (x : PTile) : (s.setPtile p x).w1cNow = s.w1cNow := rfl
@[simp] theorem State.setPtile_hi (p : Nat) (x : PTile) : (s.setPtile p x).hi = s.hi := rfl
@[simp] theorem State.setPtile_busRead (p : Nat) (x : PTile) : (s.setPtile p x).busRead = s.busRead := rfl
@[simp] theorem State.setPtile_power (p : Nat) (x : PTile) : (s.setPtile p x).power = s.power := rfl
@[simp] theorem State.setPtile_rgl (p : Nat) (x : PTile) : (s.setPtile p x).rgl = s.rgl := rfl
@[simp] theorem State.setPtile_fuses (p : Nat) (x : PTile) : (s.setPtile p x).fuses = s.fuses := rfl
@[simp] theorem State.setPtile_flash (p : Nat) (x : PTile) : (s.setPtile p x).flash = s.flash := rfl
@[simp] theorem State.setPtile_sec (p : Nat) (x : PTile) : (s.setPtile p x).sec = s.sec := rfl
@[simp] theorem State.setPtile_tc (p : Nat) (x : PTile) : (s.setPtile p x).tc = s.tc := rfl
@[simp] theorem State.setPtile_sigs (p : Nat) (x : PTile) : (s.setPtile p x).sigs = s.sigs := rfl
@[simp] theorem State.setPtile_hosts (p : Nat) (x : PTile) : (s.setPtile p x).hosts = s.hosts := rfl
@[simp] theorem State.setPtile_lease (p : Nat) (x : PTile) : (s.setPtile p x).lease = s.lease := rfl
@[simp] theorem State.setPtile_plc (p : Nat) (x : PTile) : (s.setPtile p x).plc = s.plc := rfl
@[simp] theorem State.setPtile_hbm (p : Nat) (x : PTile) : (s.setPtile p x).hbm = s.hbm := rfl
@[simp] theorem State.setPtile_metaQ (p : Nat) (x : PTile) : (s.setPtile p x).metaQ = s.metaQ := rfl
@[simp] theorem State.setPtile_cvUnchecked (p : Nat) (x : PTile) : (s.setPtile p x).cvUnchecked = s.cvUnchecked := rfl
@[simp] theorem State.setPtile_cvFail (p : Nat) (x : PTile) : (s.setPtile p x).cvFail = s.cvFail := rfl
@[simp] theorem State.setPtile_testLate (p : Nat) (x : PTile) : (s.setPtile p x).testLate = s.testLate := rfl
@[simp] theorem State.setPtile_ctxs (p : Nat) (x : PTile) : (s.setPtile p x).ctxs = s.ctxs := rfl
@[simp] theorem State.setPtile_sched (p : Nat) (x : PTile) : (s.setPtile p x).sched = s.sched := rfl
@[simp] theorem State.setPtile_tiles (p : Nat) (x : PTile) : (s.setPtile p x).tiles = s.tiles := rfl
@[simp] theorem State.setPtile_links (p : Nat) (x : PTile) : (s.setPtile p x).links = s.links := rfl
@[simp] theorem State.setPtile_lnk (p : Nat) (x : PTile) : (s.setPtile p x).lnk = s.lnk := rfl
@[simp] theorem State.setPtile_coreRet (p : Nat) (x : PTile) : (s.setPtile p x).coreRet = s.coreRet := rfl
@[simp] theorem State.setPtile_coreHalt (p : Nat) (x : PTile) : (s.setPtile p x).coreHalt = s.coreHalt := rfl
@[simp] theorem State.setPtile_coreStep (p : Nat) (x : PTile) : (s.setPtile p x).coreStep = s.coreStep := rfl
@[simp] theorem State.setPtile_l2 (p : Nat) (x : PTile) : (s.setPtile p x).l2 = s.l2 := rfl
@[simp] theorem State.setPtile_stimecmp (p : Nat) (x : PTile) : (s.setPtile p x).stimecmp = s.stimecmp := rfl

@[simp] theorem State.setCtx_pending (n : Nat) (c : Ctx) : (s.setCtx n c).pending = s.pending := rfl
@[simp] theorem State.setCtx_freeCtr (n : Nat) (c : Ctx) : (s.setCtx n c).freeCtr = s.freeCtr := rfl
@[simp] theorem State.setCtx_phase (n : Nat) (c : Ctx) : (s.setCtx n c).phase = s.phase := rfl
@[simp] theorem State.setCtx_pins (n : Nat) (c : Ctx) : (s.setCtx n c).pins = s.pins := rfl
@[simp] theorem State.setCtx_clk (n : Nat) (c : Ctx) : (s.setCtx n c).clk = s.clk := rfl
@[simp] theorem State.setCtx_cfg (n : Nat) (c : Ctx) : (s.setCtx n c).cfg = s.cfg := rfl
@[simp] theorem State.setCtx_lockWas (n : Nat) (c : Ctx) : (s.setCtx n c).lockWas = s.lockWas := rfl
@[simp] theorem State.setCtx_w1cNow (n : Nat) (c : Ctx) : (s.setCtx n c).w1cNow = s.w1cNow := rfl
@[simp] theorem State.setCtx_hi (n : Nat) (c : Ctx) : (s.setCtx n c).hi = s.hi := rfl
@[simp] theorem State.setCtx_busRead (n : Nat) (c : Ctx) : (s.setCtx n c).busRead = s.busRead := rfl
@[simp] theorem State.setCtx_power (n : Nat) (c : Ctx) : (s.setCtx n c).power = s.power := rfl
@[simp] theorem State.setCtx_rgl (n : Nat) (c : Ctx) : (s.setCtx n c).rgl = s.rgl := rfl
@[simp] theorem State.setCtx_fuses (n : Nat) (c : Ctx) : (s.setCtx n c).fuses = s.fuses := rfl
@[simp] theorem State.setCtx_flash (n : Nat) (c : Ctx) : (s.setCtx n c).flash = s.flash := rfl
@[simp] theorem State.setCtx_sec (n : Nat) (c : Ctx) : (s.setCtx n c).sec = s.sec := rfl
@[simp] theorem State.setCtx_tc (n : Nat) (c : Ctx) : (s.setCtx n c).tc = s.tc := rfl
@[simp] theorem State.setCtx_sigs (n : Nat) (c : Ctx) : (s.setCtx n c).sigs = s.sigs := rfl
@[simp] theorem State.setCtx_hosts (n : Nat) (c : Ctx) : (s.setCtx n c).hosts = s.hosts := rfl
@[simp] theorem State.setCtx_lease (n : Nat) (c : Ctx) : (s.setCtx n c).lease = s.lease := rfl
@[simp] theorem State.setCtx_plc (n : Nat) (c : Ctx) : (s.setCtx n c).plc = s.plc := rfl
@[simp] theorem State.setCtx_hbm (n : Nat) (c : Ctx) : (s.setCtx n c).hbm = s.hbm := rfl
@[simp] theorem State.setCtx_metaQ (n : Nat) (c : Ctx) : (s.setCtx n c).metaQ = s.metaQ := rfl
@[simp] theorem State.setCtx_cvUnchecked (n : Nat) (c : Ctx) : (s.setCtx n c).cvUnchecked = s.cvUnchecked := rfl
@[simp] theorem State.setCtx_cvFail (n : Nat) (c : Ctx) : (s.setCtx n c).cvFail = s.cvFail := rfl
@[simp] theorem State.setCtx_testLate (n : Nat) (c : Ctx) : (s.setCtx n c).testLate = s.testLate := rfl
@[simp] theorem State.setCtx_sched (n : Nat) (c : Ctx) : (s.setCtx n c).sched = s.sched := rfl
@[simp] theorem State.setCtx_tiles (n : Nat) (c : Ctx) : (s.setCtx n c).tiles = s.tiles := rfl
@[simp] theorem State.setCtx_ptiles (n : Nat) (c : Ctx) : (s.setCtx n c).ptiles = s.ptiles := rfl
@[simp] theorem State.setCtx_links (n : Nat) (c : Ctx) : (s.setCtx n c).links = s.links := rfl
@[simp] theorem State.setCtx_lnk (n : Nat) (c : Ctx) : (s.setCtx n c).lnk = s.lnk := rfl
@[simp] theorem State.setCtx_coreRet (n : Nat) (c : Ctx) : (s.setCtx n c).coreRet = s.coreRet := rfl
@[simp] theorem State.setCtx_coreHalt (n : Nat) (c : Ctx) : (s.setCtx n c).coreHalt = s.coreHalt := rfl
@[simp] theorem State.setCtx_coreStep (n : Nat) (c : Ctx) : (s.setCtx n c).coreStep = s.coreStep := rfl
@[simp] theorem State.setCtx_l2 (n : Nat) (c : Ctx) : (s.setCtx n c).l2 = s.l2 := rfl
@[simp] theorem State.setCtx_stimecmp (n : Nat) (c : Ctx) : (s.setCtx n c).stimecmp = s.stimecmp := rfl

@[simp] theorem State.setHost_pending (p : Nat) (h : HostPort) : (s.setHost p h).pending = s.pending := rfl
@[simp] theorem State.setHost_freeCtr (p : Nat) (h : HostPort) : (s.setHost p h).freeCtr = s.freeCtr := rfl
@[simp] theorem State.setHost_phase (p : Nat) (h : HostPort) : (s.setHost p h).phase = s.phase := rfl
@[simp] theorem State.setHost_pins (p : Nat) (h : HostPort) : (s.setHost p h).pins = s.pins := rfl
@[simp] theorem State.setHost_clk (p : Nat) (h : HostPort) : (s.setHost p h).clk = s.clk := rfl
@[simp] theorem State.setHost_cfg (p : Nat) (h : HostPort) : (s.setHost p h).cfg = s.cfg := rfl
@[simp] theorem State.setHost_lockWas (p : Nat) (h : HostPort) : (s.setHost p h).lockWas = s.lockWas := rfl
@[simp] theorem State.setHost_w1cNow (p : Nat) (h : HostPort) : (s.setHost p h).w1cNow = s.w1cNow := rfl
@[simp] theorem State.setHost_hi (p : Nat) (h : HostPort) : (s.setHost p h).hi = s.hi := rfl
@[simp] theorem State.setHost_busRead (p : Nat) (h : HostPort) : (s.setHost p h).busRead = s.busRead := rfl
@[simp] theorem State.setHost_power (p : Nat) (h : HostPort) : (s.setHost p h).power = s.power := rfl
@[simp] theorem State.setHost_rgl (p : Nat) (h : HostPort) : (s.setHost p h).rgl = s.rgl := rfl
@[simp] theorem State.setHost_fuses (p : Nat) (h : HostPort) : (s.setHost p h).fuses = s.fuses := rfl
@[simp] theorem State.setHost_flash (p : Nat) (h : HostPort) : (s.setHost p h).flash = s.flash := rfl
@[simp] theorem State.setHost_sec (p : Nat) (h : HostPort) : (s.setHost p h).sec = s.sec := rfl
@[simp] theorem State.setHost_tc (p : Nat) (h : HostPort) : (s.setHost p h).tc = s.tc := rfl
@[simp] theorem State.setHost_sigs (p : Nat) (h : HostPort) : (s.setHost p h).sigs = s.sigs := rfl
@[simp] theorem State.setHost_lease (p : Nat) (h : HostPort) : (s.setHost p h).lease = s.lease := rfl
@[simp] theorem State.setHost_plc (p : Nat) (h : HostPort) : (s.setHost p h).plc = s.plc := rfl
@[simp] theorem State.setHost_hbm (p : Nat) (h : HostPort) : (s.setHost p h).hbm = s.hbm := rfl
@[simp] theorem State.setHost_metaQ (p : Nat) (h : HostPort) : (s.setHost p h).metaQ = s.metaQ := rfl
@[simp] theorem State.setHost_cvUnchecked (p : Nat) (h : HostPort) : (s.setHost p h).cvUnchecked = s.cvUnchecked := rfl
@[simp] theorem State.setHost_cvFail (p : Nat) (h : HostPort) : (s.setHost p h).cvFail = s.cvFail := rfl
@[simp] theorem State.setHost_testLate (p : Nat) (h : HostPort) : (s.setHost p h).testLate = s.testLate := rfl
@[simp] theorem State.setHost_ctxs (p : Nat) (h : HostPort) : (s.setHost p h).ctxs = s.ctxs := rfl
@[simp] theorem State.setHost_sched (p : Nat) (h : HostPort) : (s.setHost p h).sched = s.sched := rfl
@[simp] theorem State.setHost_tiles (p : Nat) (h : HostPort) : (s.setHost p h).tiles = s.tiles := rfl
@[simp] theorem State.setHost_ptiles (p : Nat) (h : HostPort) : (s.setHost p h).ptiles = s.ptiles := rfl
@[simp] theorem State.setHost_links (p : Nat) (h : HostPort) : (s.setHost p h).links = s.links := rfl
@[simp] theorem State.setHost_lnk (p : Nat) (h : HostPort) : (s.setHost p h).lnk = s.lnk := rfl
@[simp] theorem State.setHost_coreRet (p : Nat) (h : HostPort) : (s.setHost p h).coreRet = s.coreRet := rfl
@[simp] theorem State.setHost_coreHalt (p : Nat) (h : HostPort) : (s.setHost p h).coreHalt = s.coreHalt := rfl
@[simp] theorem State.setHost_coreStep (p : Nat) (h : HostPort) : (s.setHost p h).coreStep = s.coreStep := rfl
@[simp] theorem State.setHost_l2 (p : Nat) (h : HostPort) : (s.setHost p h).l2 = s.l2 := rfl
@[simp] theorem State.setHost_stimecmp (p : Nat) (h : HostPort) : (s.setHost p h).stimecmp = s.stimecmp := rfl

@[simp] theorem State.setLink_pending (n : Nat) (x : LinkPort) : (s.setLink n x).pending = s.pending := rfl
@[simp] theorem State.setLink_freeCtr (n : Nat) (x : LinkPort) : (s.setLink n x).freeCtr = s.freeCtr := rfl
@[simp] theorem State.setLink_phase (n : Nat) (x : LinkPort) : (s.setLink n x).phase = s.phase := rfl
@[simp] theorem State.setLink_pins (n : Nat) (x : LinkPort) : (s.setLink n x).pins = s.pins := rfl
@[simp] theorem State.setLink_clk (n : Nat) (x : LinkPort) : (s.setLink n x).clk = s.clk := rfl
@[simp] theorem State.setLink_cfg (n : Nat) (x : LinkPort) : (s.setLink n x).cfg = s.cfg := rfl
@[simp] theorem State.setLink_lockWas (n : Nat) (x : LinkPort) : (s.setLink n x).lockWas = s.lockWas := rfl
@[simp] theorem State.setLink_w1cNow (n : Nat) (x : LinkPort) : (s.setLink n x).w1cNow = s.w1cNow := rfl
@[simp] theorem State.setLink_hi (n : Nat) (x : LinkPort) : (s.setLink n x).hi = s.hi := rfl
@[simp] theorem State.setLink_busRead (n : Nat) (x : LinkPort) : (s.setLink n x).busRead = s.busRead := rfl
@[simp] theorem State.setLink_power (n : Nat) (x : LinkPort) : (s.setLink n x).power = s.power := rfl
@[simp] theorem State.setLink_rgl (n : Nat) (x : LinkPort) : (s.setLink n x).rgl = s.rgl := rfl
@[simp] theorem State.setLink_fuses (n : Nat) (x : LinkPort) : (s.setLink n x).fuses = s.fuses := rfl
@[simp] theorem State.setLink_flash (n : Nat) (x : LinkPort) : (s.setLink n x).flash = s.flash := rfl
@[simp] theorem State.setLink_sec (n : Nat) (x : LinkPort) : (s.setLink n x).sec = s.sec := rfl
@[simp] theorem State.setLink_tc (n : Nat) (x : LinkPort) : (s.setLink n x).tc = s.tc := rfl
@[simp] theorem State.setLink_sigs (n : Nat) (x : LinkPort) : (s.setLink n x).sigs = s.sigs := rfl
@[simp] theorem State.setLink_hosts (n : Nat) (x : LinkPort) : (s.setLink n x).hosts = s.hosts := rfl
@[simp] theorem State.setLink_lease (n : Nat) (x : LinkPort) : (s.setLink n x).lease = s.lease := rfl
@[simp] theorem State.setLink_plc (n : Nat) (x : LinkPort) : (s.setLink n x).plc = s.plc := rfl
@[simp] theorem State.setLink_hbm (n : Nat) (x : LinkPort) : (s.setLink n x).hbm = s.hbm := rfl
@[simp] theorem State.setLink_metaQ (n : Nat) (x : LinkPort) : (s.setLink n x).metaQ = s.metaQ := rfl
@[simp] theorem State.setLink_cvUnchecked (n : Nat) (x : LinkPort) : (s.setLink n x).cvUnchecked = s.cvUnchecked := rfl
@[simp] theorem State.setLink_cvFail (n : Nat) (x : LinkPort) : (s.setLink n x).cvFail = s.cvFail := rfl
@[simp] theorem State.setLink_testLate (n : Nat) (x : LinkPort) : (s.setLink n x).testLate = s.testLate := rfl
@[simp] theorem State.setLink_ctxs (n : Nat) (x : LinkPort) : (s.setLink n x).ctxs = s.ctxs := rfl
@[simp] theorem State.setLink_sched (n : Nat) (x : LinkPort) : (s.setLink n x).sched = s.sched := rfl
@[simp] theorem State.setLink_tiles (n : Nat) (x : LinkPort) : (s.setLink n x).tiles = s.tiles := rfl
@[simp] theorem State.setLink_ptiles (n : Nat) (x : LinkPort) : (s.setLink n x).ptiles = s.ptiles := rfl
@[simp] theorem State.setLink_lnk (n : Nat) (x : LinkPort) : (s.setLink n x).lnk = s.lnk := rfl
@[simp] theorem State.setLink_coreRet (n : Nat) (x : LinkPort) : (s.setLink n x).coreRet = s.coreRet := rfl
@[simp] theorem State.setLink_coreHalt (n : Nat) (x : LinkPort) : (s.setLink n x).coreHalt = s.coreHalt := rfl
@[simp] theorem State.setLink_coreStep (n : Nat) (x : LinkPort) : (s.setLink n x).coreStep = s.coreStep := rfl
@[simp] theorem State.setLink_l2 (n : Nat) (x : LinkPort) : (s.setLink n x).l2 = s.l2 := rfl
@[simp] theorem State.setLink_stimecmp (n : Nat) (x : LinkPort) : (s.setLink n x).stimecmp = s.stimecmp := rfl

@[simp] theorem State.setReg_pending (k v : Nat) : (s.setReg k v).pending = s.pending := rfl
@[simp] theorem State.setReg_freeCtr (k v : Nat) : (s.setReg k v).freeCtr = s.freeCtr := rfl
@[simp] theorem State.setReg_phase (k v : Nat) : (s.setReg k v).phase = s.phase := rfl
@[simp] theorem State.setReg_pins (k v : Nat) : (s.setReg k v).pins = s.pins := rfl
@[simp] theorem State.setReg_clk (k v : Nat) : (s.setReg k v).clk = s.clk := rfl
@[simp] theorem State.setReg_lockWas (k v : Nat) : (s.setReg k v).lockWas = s.lockWas := rfl
@[simp] theorem State.setReg_w1cNow (k v : Nat) : (s.setReg k v).w1cNow = s.w1cNow := rfl
@[simp] theorem State.setReg_hi (k v : Nat) : (s.setReg k v).hi = s.hi := rfl
@[simp] theorem State.setReg_busRead (k v : Nat) : (s.setReg k v).busRead = s.busRead := rfl
@[simp] theorem State.setReg_power (k v : Nat) : (s.setReg k v).power = s.power := rfl
@[simp] theorem State.setReg_rgl (k v : Nat) : (s.setReg k v).rgl = s.rgl := rfl
@[simp] theorem State.setReg_fuses (k v : Nat) : (s.setReg k v).fuses = s.fuses := rfl
@[simp] theorem State.setReg_flash (k v : Nat) : (s.setReg k v).flash = s.flash := rfl
@[simp] theorem State.setReg_sec (k v : Nat) : (s.setReg k v).sec = s.sec := rfl
@[simp] theorem State.setReg_tc (k v : Nat) : (s.setReg k v).tc = s.tc := rfl
@[simp] theorem State.setReg_sigs (k v : Nat) : (s.setReg k v).sigs = s.sigs := rfl
@[simp] theorem State.setReg_hosts (k v : Nat) : (s.setReg k v).hosts = s.hosts := rfl
@[simp] theorem State.setReg_lease (k v : Nat) : (s.setReg k v).lease = s.lease := rfl
@[simp] theorem State.setReg_plc (k v : Nat) : (s.setReg k v).plc = s.plc := rfl
@[simp] theorem State.setReg_hbm (k v : Nat) : (s.setReg k v).hbm = s.hbm := rfl
@[simp] theorem State.setReg_metaQ (k v : Nat) : (s.setReg k v).metaQ = s.metaQ := rfl
@[simp] theorem State.setReg_cvUnchecked (k v : Nat) : (s.setReg k v).cvUnchecked = s.cvUnchecked := rfl
@[simp] theorem State.setReg_cvFail (k v : Nat) : (s.setReg k v).cvFail = s.cvFail := rfl
@[simp] theorem State.setReg_testLate (k v : Nat) : (s.setReg k v).testLate = s.testLate := rfl
@[simp] theorem State.setReg_ctxs (k v : Nat) : (s.setReg k v).ctxs = s.ctxs := rfl
@[simp] theorem State.setReg_sched (k v : Nat) : (s.setReg k v).sched = s.sched := rfl
@[simp] theorem State.setReg_tiles (k v : Nat) : (s.setReg k v).tiles = s.tiles := rfl
@[simp] theorem State.setReg_ptiles (k v : Nat) : (s.setReg k v).ptiles = s.ptiles := rfl
@[simp] theorem State.setReg_links (k v : Nat) : (s.setReg k v).links = s.links := rfl
@[simp] theorem State.setReg_lnk (k v : Nat) : (s.setReg k v).lnk = s.lnk := rfl
@[simp] theorem State.setReg_coreRet (k v : Nat) : (s.setReg k v).coreRet = s.coreRet := rfl
@[simp] theorem State.setReg_coreHalt (k v : Nat) : (s.setReg k v).coreHalt = s.coreHalt := rfl
@[simp] theorem State.setReg_coreStep (k v : Nat) : (s.setReg k v).coreStep = s.coreStep := rfl
@[simp] theorem State.setReg_l2 (k v : Nat) : (s.setReg k v).l2 = s.l2 := rfl
@[simp] theorem State.setReg_stimecmp (k v : Nat) : (s.setReg k v).stimecmp = s.stimecmp := rfl

@[simp] theorem State.setMem_pending (m : Mem) : (s.setMem m).pending = s.pending := rfl
@[simp] theorem State.setMem_freeCtr (m : Mem) : (s.setMem m).freeCtr = s.freeCtr := rfl
@[simp] theorem State.setMem_phase (m : Mem) : (s.setMem m).phase = s.phase := rfl
@[simp] theorem State.setMem_pins (m : Mem) : (s.setMem m).pins = s.pins := rfl
@[simp] theorem State.setMem_clk (m : Mem) : (s.setMem m).clk = s.clk := rfl
@[simp] theorem State.setMem_cfg (m : Mem) : (s.setMem m).cfg = s.cfg := rfl
@[simp] theorem State.setMem_lockWas (m : Mem) : (s.setMem m).lockWas = s.lockWas := rfl
@[simp] theorem State.setMem_w1cNow (m : Mem) : (s.setMem m).w1cNow = s.w1cNow := rfl
@[simp] theorem State.setMem_hi (m : Mem) : (s.setMem m).hi = s.hi := rfl
@[simp] theorem State.setMem_busRead (m : Mem) : (s.setMem m).busRead = s.busRead := rfl
@[simp] theorem State.setMem_power (m : Mem) : (s.setMem m).power = s.power := rfl
@[simp] theorem State.setMem_rgl (m : Mem) : (s.setMem m).rgl = s.rgl := rfl
@[simp] theorem State.setMem_fuses (m : Mem) : (s.setMem m).fuses = s.fuses := rfl
@[simp] theorem State.setMem_flash (m : Mem) : (s.setMem m).flash = s.flash := rfl
@[simp] theorem State.setMem_sec (m : Mem) : (s.setMem m).sec = s.sec := rfl
@[simp] theorem State.setMem_tc (m : Mem) : (s.setMem m).tc = s.tc := rfl
@[simp] theorem State.setMem_sigs (m : Mem) : (s.setMem m).sigs = s.sigs := rfl
@[simp] theorem State.setMem_hosts (m : Mem) : (s.setMem m).hosts = s.hosts := rfl
@[simp] theorem State.setMem_lease (m : Mem) : (s.setMem m).lease = s.lease := rfl
@[simp] theorem State.setMem_plc (m : Mem) : (s.setMem m).plc = s.plc := rfl
@[simp] theorem State.setMem_metaQ (m : Mem) : (s.setMem m).metaQ = s.metaQ := rfl
@[simp] theorem State.setMem_cvUnchecked (m : Mem) : (s.setMem m).cvUnchecked = s.cvUnchecked := rfl
@[simp] theorem State.setMem_cvFail (m : Mem) : (s.setMem m).cvFail = s.cvFail := rfl
@[simp] theorem State.setMem_testLate (m : Mem) : (s.setMem m).testLate = s.testLate := rfl
@[simp] theorem State.setMem_ctxs (m : Mem) : (s.setMem m).ctxs = s.ctxs := rfl
@[simp] theorem State.setMem_sched (m : Mem) : (s.setMem m).sched = s.sched := rfl
@[simp] theorem State.setMem_tiles (m : Mem) : (s.setMem m).tiles = s.tiles := rfl
@[simp] theorem State.setMem_ptiles (m : Mem) : (s.setMem m).ptiles = s.ptiles := rfl
@[simp] theorem State.setMem_links (m : Mem) : (s.setMem m).links = s.links := rfl
@[simp] theorem State.setMem_lnk (m : Mem) : (s.setMem m).lnk = s.lnk := rfl
@[simp] theorem State.setMem_coreRet (m : Mem) : (s.setMem m).coreRet = s.coreRet := rfl
@[simp] theorem State.setMem_coreHalt (m : Mem) : (s.setMem m).coreHalt = s.coreHalt := rfl
@[simp] theorem State.setMem_coreStep (m : Mem) : (s.setMem m).coreStep = s.coreStep := rfl
@[simp] theorem State.setMem_l2 (m : Mem) : (s.setMem m).l2 = s.l2 := rfl
@[simp] theorem State.setMem_stimecmp (m : Mem) : (s.setMem m).stimecmp = s.stimecmp := rfl

@[simp] theorem State.spend_pending (n : Nat) : (s.spend n).pending = s.pending := rfl
@[simp] theorem State.spend_phase (n : Nat) : (s.spend n).phase = s.phase := rfl
@[simp] theorem State.spend_pins (n : Nat) : (s.spend n).pins = s.pins := rfl
@[simp] theorem State.spend_clk (n : Nat) : (s.spend n).clk = s.clk := rfl
@[simp] theorem State.spend_cfg (n : Nat) : (s.spend n).cfg = s.cfg := rfl
@[simp] theorem State.spend_lockWas (n : Nat) : (s.spend n).lockWas = s.lockWas := rfl
@[simp] theorem State.spend_w1cNow (n : Nat) : (s.spend n).w1cNow = s.w1cNow := rfl
@[simp] theorem State.spend_hi (n : Nat) : (s.spend n).hi = s.hi := rfl
@[simp] theorem State.spend_busRead (n : Nat) : (s.spend n).busRead = s.busRead := rfl
@[simp] theorem State.spend_power (n : Nat) : (s.spend n).power = s.power := rfl
@[simp] theorem State.spend_rgl (n : Nat) : (s.spend n).rgl = s.rgl := rfl
@[simp] theorem State.spend_fuses (n : Nat) : (s.spend n).fuses = s.fuses := rfl
@[simp] theorem State.spend_flash (n : Nat) : (s.spend n).flash = s.flash := rfl
@[simp] theorem State.spend_sec (n : Nat) : (s.spend n).sec = s.sec := rfl
@[simp] theorem State.spend_tc (n : Nat) : (s.spend n).tc = s.tc := rfl
@[simp] theorem State.spend_sigs (n : Nat) : (s.spend n).sigs = s.sigs := rfl
@[simp] theorem State.spend_hosts (n : Nat) : (s.spend n).hosts = s.hosts := rfl
@[simp] theorem State.spend_lease (n : Nat) : (s.spend n).lease = s.lease := rfl
@[simp] theorem State.spend_plc (n : Nat) : (s.spend n).plc = s.plc := rfl
@[simp] theorem State.spend_hbm (n : Nat) : (s.spend n).hbm = s.hbm := rfl
@[simp] theorem State.spend_metaQ (n : Nat) : (s.spend n).metaQ = s.metaQ := rfl
@[simp] theorem State.spend_cvUnchecked (n : Nat) : (s.spend n).cvUnchecked = s.cvUnchecked := rfl
@[simp] theorem State.spend_cvFail (n : Nat) : (s.spend n).cvFail = s.cvFail := rfl
@[simp] theorem State.spend_testLate (n : Nat) : (s.spend n).testLate = s.testLate := rfl
@[simp] theorem State.spend_ctxs (n : Nat) : (s.spend n).ctxs = s.ctxs := rfl
@[simp] theorem State.spend_sched (n : Nat) : (s.spend n).sched = s.sched := rfl
@[simp] theorem State.spend_tiles (n : Nat) : (s.spend n).tiles = s.tiles := rfl
@[simp] theorem State.spend_ptiles (n : Nat) : (s.spend n).ptiles = s.ptiles := rfl
@[simp] theorem State.spend_links (n : Nat) : (s.spend n).links = s.links := rfl
@[simp] theorem State.spend_lnk (n : Nat) : (s.spend n).lnk = s.lnk := rfl
@[simp] theorem State.spend_coreRet (n : Nat) : (s.spend n).coreRet = s.coreRet := rfl
@[simp] theorem State.spend_coreHalt (n : Nat) : (s.spend n).coreHalt = s.coreHalt := rfl
@[simp] theorem State.spend_coreStep (n : Nat) : (s.spend n).coreStep = s.coreStep := rfl
@[simp] theorem State.spend_l2 (n : Nat) : (s.spend n).l2 = s.l2 := rfl
@[simp] theorem State.spend_stimecmp (n : Nat) : (s.spend n).stimecmp = s.stimecmp := rfl

@[simp] theorem State.hifErr_pending (p b : Nat) : (s.hifErr p b).pending = s.pending := rfl
@[simp] theorem State.hifErr_freeCtr (p b : Nat) : (s.hifErr p b).freeCtr = s.freeCtr := rfl
@[simp] theorem State.hifErr_phase (p b : Nat) : (s.hifErr p b).phase = s.phase := rfl
@[simp] theorem State.hifErr_pins (p b : Nat) : (s.hifErr p b).pins = s.pins := rfl
@[simp] theorem State.hifErr_clk (p b : Nat) : (s.hifErr p b).clk = s.clk := rfl
@[simp] theorem State.hifErr_hi (p b : Nat) : (s.hifErr p b).hi = s.hi := rfl
@[simp] theorem State.hifErr_busRead (p b : Nat) : (s.hifErr p b).busRead = s.busRead := rfl
@[simp] theorem State.hifErr_power (p b : Nat) : (s.hifErr p b).power = s.power := rfl
@[simp] theorem State.hifErr_rgl (p b : Nat) : (s.hifErr p b).rgl = s.rgl := rfl
@[simp] theorem State.hifErr_fuses (p b : Nat) : (s.hifErr p b).fuses = s.fuses := rfl
@[simp] theorem State.hifErr_flash (p b : Nat) : (s.hifErr p b).flash = s.flash := rfl
@[simp] theorem State.hifErr_sec (p b : Nat) : (s.hifErr p b).sec = s.sec := rfl
@[simp] theorem State.hifErr_tc (p b : Nat) : (s.hifErr p b).tc = s.tc := rfl
@[simp] theorem State.hifErr_sigs (p b : Nat) : (s.hifErr p b).sigs = s.sigs := rfl
@[simp] theorem State.hifErr_hosts (p b : Nat) : (s.hifErr p b).hosts = s.hosts := rfl
@[simp] theorem State.hifErr_lease (p b : Nat) : (s.hifErr p b).lease = s.lease := rfl
@[simp] theorem State.hifErr_plc (p b : Nat) : (s.hifErr p b).plc = s.plc := rfl
@[simp] theorem State.hifErr_hbm (p b : Nat) : (s.hifErr p b).hbm = s.hbm := rfl
@[simp] theorem State.hifErr_metaQ (p b : Nat) : (s.hifErr p b).metaQ = s.metaQ := rfl
@[simp] theorem State.hifErr_cvUnchecked (p b : Nat) : (s.hifErr p b).cvUnchecked = s.cvUnchecked := rfl
@[simp] theorem State.hifErr_cvFail (p b : Nat) : (s.hifErr p b).cvFail = s.cvFail := rfl
@[simp] theorem State.hifErr_testLate (p b : Nat) : (s.hifErr p b).testLate = s.testLate := rfl
@[simp] theorem State.hifErr_ctxs (p b : Nat) : (s.hifErr p b).ctxs = s.ctxs := rfl
@[simp] theorem State.hifErr_sched (p b : Nat) : (s.hifErr p b).sched = s.sched := rfl
@[simp] theorem State.hifErr_tiles (p b : Nat) : (s.hifErr p b).tiles = s.tiles := rfl
@[simp] theorem State.hifErr_ptiles (p b : Nat) : (s.hifErr p b).ptiles = s.ptiles := rfl
@[simp] theorem State.hifErr_links (p b : Nat) : (s.hifErr p b).links = s.links := rfl
@[simp] theorem State.hifErr_lnk (p b : Nat) : (s.hifErr p b).lnk = s.lnk := rfl
@[simp] theorem State.hifErr_coreRet (p b : Nat) : (s.hifErr p b).coreRet = s.coreRet := rfl
@[simp] theorem State.hifErr_coreHalt (p b : Nat) : (s.hifErr p b).coreHalt = s.coreHalt := rfl
@[simp] theorem State.hifErr_coreStep (p b : Nat) : (s.hifErr p b).coreStep = s.coreStep := rfl
@[simp] theorem State.hifErr_l2 (p b : Nat) : (s.hifErr p b).l2 = s.l2 := rfl
@[simp] theorem State.hifErr_stimecmp (p b : Nat) : (s.hifErr p b).stimecmp = s.stimecmp := rfl

@[simp] theorem State.logEvent_pending (b : NvBody) : (s.logEvent b).pending = s.pending := rfl
@[simp] theorem State.logEvent_freeCtr (b : NvBody) : (s.logEvent b).freeCtr = s.freeCtr := rfl
@[simp] theorem State.logEvent_phase (b : NvBody) : (s.logEvent b).phase = s.phase := rfl
@[simp] theorem State.logEvent_pins (b : NvBody) : (s.logEvent b).pins = s.pins := rfl
@[simp] theorem State.logEvent_clk (b : NvBody) : (s.logEvent b).clk = s.clk := rfl
@[simp] theorem State.logEvent_cfg (b : NvBody) : (s.logEvent b).cfg = s.cfg := rfl
@[simp] theorem State.logEvent_lockWas (b : NvBody) : (s.logEvent b).lockWas = s.lockWas := rfl
@[simp] theorem State.logEvent_w1cNow (b : NvBody) : (s.logEvent b).w1cNow = s.w1cNow := rfl
@[simp] theorem State.logEvent_hi (b : NvBody) : (s.logEvent b).hi = s.hi := rfl
@[simp] theorem State.logEvent_busRead (b : NvBody) : (s.logEvent b).busRead = s.busRead := rfl
@[simp] theorem State.logEvent_power (b : NvBody) : (s.logEvent b).power = s.power := rfl
@[simp] theorem State.logEvent_rgl (b : NvBody) : (s.logEvent b).rgl = s.rgl := rfl
@[simp] theorem State.logEvent_fuses (b : NvBody) : (s.logEvent b).fuses = s.fuses := rfl
@[simp] theorem State.logEvent_sec (b : NvBody) : (s.logEvent b).sec = s.sec := rfl
@[simp] theorem State.logEvent_tc (b : NvBody) : (s.logEvent b).tc = s.tc := rfl
@[simp] theorem State.logEvent_sigs (b : NvBody) : (s.logEvent b).sigs = s.sigs := rfl
@[simp] theorem State.logEvent_hosts (b : NvBody) : (s.logEvent b).hosts = s.hosts := rfl
@[simp] theorem State.logEvent_lease (b : NvBody) : (s.logEvent b).lease = s.lease := rfl
@[simp] theorem State.logEvent_plc (b : NvBody) : (s.logEvent b).plc = s.plc := rfl
@[simp] theorem State.logEvent_hbm (b : NvBody) : (s.logEvent b).hbm = s.hbm := rfl
@[simp] theorem State.logEvent_metaQ (b : NvBody) : (s.logEvent b).metaQ = s.metaQ := rfl
@[simp] theorem State.logEvent_cvUnchecked (b : NvBody) : (s.logEvent b).cvUnchecked = s.cvUnchecked := rfl
@[simp] theorem State.logEvent_cvFail (b : NvBody) : (s.logEvent b).cvFail = s.cvFail := rfl
@[simp] theorem State.logEvent_testLate (b : NvBody) : (s.logEvent b).testLate = s.testLate := rfl
@[simp] theorem State.logEvent_ctxs (b : NvBody) : (s.logEvent b).ctxs = s.ctxs := rfl
@[simp] theorem State.logEvent_sched (b : NvBody) : (s.logEvent b).sched = s.sched := rfl
@[simp] theorem State.logEvent_tiles (b : NvBody) : (s.logEvent b).tiles = s.tiles := rfl
@[simp] theorem State.logEvent_ptiles (b : NvBody) : (s.logEvent b).ptiles = s.ptiles := rfl
@[simp] theorem State.logEvent_links (b : NvBody) : (s.logEvent b).links = s.links := rfl
@[simp] theorem State.logEvent_lnk (b : NvBody) : (s.logEvent b).lnk = s.lnk := rfl
@[simp] theorem State.logEvent_coreRet (b : NvBody) : (s.logEvent b).coreRet = s.coreRet := rfl
@[simp] theorem State.logEvent_coreHalt (b : NvBody) : (s.logEvent b).coreHalt = s.coreHalt := rfl
@[simp] theorem State.logEvent_coreStep (b : NvBody) : (s.logEvent b).coreStep = s.coreStep := rfl
@[simp] theorem State.logEvent_l2 (b : NvBody) : (s.logEvent b).l2 = s.l2 := rfl
@[simp] theorem State.logEvent_stimecmp (b : NvBody) : (s.logEvent b).stimecmp = s.stimecmp := rfl

@[simp] theorem State.logAgeing_pending (b : NvBody) : (s.logAgeing b).pending = s.pending := rfl
@[simp] theorem State.logAgeing_freeCtr (b : NvBody) : (s.logAgeing b).freeCtr = s.freeCtr := rfl
@[simp] theorem State.logAgeing_phase (b : NvBody) : (s.logAgeing b).phase = s.phase := rfl
@[simp] theorem State.logAgeing_pins (b : NvBody) : (s.logAgeing b).pins = s.pins := rfl
@[simp] theorem State.logAgeing_clk (b : NvBody) : (s.logAgeing b).clk = s.clk := rfl
@[simp] theorem State.logAgeing_cfg (b : NvBody) : (s.logAgeing b).cfg = s.cfg := rfl
@[simp] theorem State.logAgeing_lockWas (b : NvBody) : (s.logAgeing b).lockWas = s.lockWas := rfl
@[simp] theorem State.logAgeing_w1cNow (b : NvBody) : (s.logAgeing b).w1cNow = s.w1cNow := rfl
@[simp] theorem State.logAgeing_hi (b : NvBody) : (s.logAgeing b).hi = s.hi := rfl
@[simp] theorem State.logAgeing_busRead (b : NvBody) : (s.logAgeing b).busRead = s.busRead := rfl
@[simp] theorem State.logAgeing_power (b : NvBody) : (s.logAgeing b).power = s.power := rfl
@[simp] theorem State.logAgeing_rgl (b : NvBody) : (s.logAgeing b).rgl = s.rgl := rfl
@[simp] theorem State.logAgeing_fuses (b : NvBody) : (s.logAgeing b).fuses = s.fuses := rfl
@[simp] theorem State.logAgeing_sec (b : NvBody) : (s.logAgeing b).sec = s.sec := rfl
@[simp] theorem State.logAgeing_tc (b : NvBody) : (s.logAgeing b).tc = s.tc := rfl
@[simp] theorem State.logAgeing_sigs (b : NvBody) : (s.logAgeing b).sigs = s.sigs := rfl
@[simp] theorem State.logAgeing_hosts (b : NvBody) : (s.logAgeing b).hosts = s.hosts := rfl
@[simp] theorem State.logAgeing_lease (b : NvBody) : (s.logAgeing b).lease = s.lease := rfl
@[simp] theorem State.logAgeing_plc (b : NvBody) : (s.logAgeing b).plc = s.plc := rfl
@[simp] theorem State.logAgeing_hbm (b : NvBody) : (s.logAgeing b).hbm = s.hbm := rfl
@[simp] theorem State.logAgeing_metaQ (b : NvBody) : (s.logAgeing b).metaQ = s.metaQ := rfl
@[simp] theorem State.logAgeing_cvUnchecked (b : NvBody) : (s.logAgeing b).cvUnchecked = s.cvUnchecked := rfl
@[simp] theorem State.logAgeing_cvFail (b : NvBody) : (s.logAgeing b).cvFail = s.cvFail := rfl
@[simp] theorem State.logAgeing_testLate (b : NvBody) : (s.logAgeing b).testLate = s.testLate := rfl
@[simp] theorem State.logAgeing_ctxs (b : NvBody) : (s.logAgeing b).ctxs = s.ctxs := rfl
@[simp] theorem State.logAgeing_sched (b : NvBody) : (s.logAgeing b).sched = s.sched := rfl
@[simp] theorem State.logAgeing_tiles (b : NvBody) : (s.logAgeing b).tiles = s.tiles := rfl
@[simp] theorem State.logAgeing_ptiles (b : NvBody) : (s.logAgeing b).ptiles = s.ptiles := rfl
@[simp] theorem State.logAgeing_links (b : NvBody) : (s.logAgeing b).links = s.links := rfl
@[simp] theorem State.logAgeing_lnk (b : NvBody) : (s.logAgeing b).lnk = s.lnk := rfl
@[simp] theorem State.logAgeing_coreRet (b : NvBody) : (s.logAgeing b).coreRet = s.coreRet := rfl
@[simp] theorem State.logAgeing_coreHalt (b : NvBody) : (s.logAgeing b).coreHalt = s.coreHalt := rfl
@[simp] theorem State.logAgeing_coreStep (b : NvBody) : (s.logAgeing b).coreStep = s.coreStep := rfl
@[simp] theorem State.logAgeing_l2 (b : NvBody) : (s.logAgeing b).l2 = s.l2 := rfl
@[simp] theorem State.logAgeing_stimecmp (b : NvBody) : (s.logAgeing b).stimecmp = s.stimecmp := rfl

@[simp] theorem State.logLaser_pending (b : NvBody) : (s.logLaser b).pending = s.pending := rfl
@[simp] theorem State.logLaser_freeCtr (b : NvBody) : (s.logLaser b).freeCtr = s.freeCtr := rfl
@[simp] theorem State.logLaser_phase (b : NvBody) : (s.logLaser b).phase = s.phase := rfl
@[simp] theorem State.logLaser_pins (b : NvBody) : (s.logLaser b).pins = s.pins := rfl
@[simp] theorem State.logLaser_clk (b : NvBody) : (s.logLaser b).clk = s.clk := rfl
@[simp] theorem State.logLaser_cfg (b : NvBody) : (s.logLaser b).cfg = s.cfg := rfl
@[simp] theorem State.logLaser_lockWas (b : NvBody) : (s.logLaser b).lockWas = s.lockWas := rfl
@[simp] theorem State.logLaser_w1cNow (b : NvBody) : (s.logLaser b).w1cNow = s.w1cNow := rfl
@[simp] theorem State.logLaser_hi (b : NvBody) : (s.logLaser b).hi = s.hi := rfl
@[simp] theorem State.logLaser_busRead (b : NvBody) : (s.logLaser b).busRead = s.busRead := rfl
@[simp] theorem State.logLaser_power (b : NvBody) : (s.logLaser b).power = s.power := rfl
@[simp] theorem State.logLaser_rgl (b : NvBody) : (s.logLaser b).rgl = s.rgl := rfl
@[simp] theorem State.logLaser_fuses (b : NvBody) : (s.logLaser b).fuses = s.fuses := rfl
@[simp] theorem State.logLaser_sec (b : NvBody) : (s.logLaser b).sec = s.sec := rfl
@[simp] theorem State.logLaser_tc (b : NvBody) : (s.logLaser b).tc = s.tc := rfl
@[simp] theorem State.logLaser_sigs (b : NvBody) : (s.logLaser b).sigs = s.sigs := rfl
@[simp] theorem State.logLaser_hosts (b : NvBody) : (s.logLaser b).hosts = s.hosts := rfl
@[simp] theorem State.logLaser_lease (b : NvBody) : (s.logLaser b).lease = s.lease := rfl
@[simp] theorem State.logLaser_plc (b : NvBody) : (s.logLaser b).plc = s.plc := rfl
@[simp] theorem State.logLaser_hbm (b : NvBody) : (s.logLaser b).hbm = s.hbm := rfl
@[simp] theorem State.logLaser_metaQ (b : NvBody) : (s.logLaser b).metaQ = s.metaQ := rfl
@[simp] theorem State.logLaser_cvUnchecked (b : NvBody) : (s.logLaser b).cvUnchecked = s.cvUnchecked := rfl
@[simp] theorem State.logLaser_cvFail (b : NvBody) : (s.logLaser b).cvFail = s.cvFail := rfl
@[simp] theorem State.logLaser_testLate (b : NvBody) : (s.logLaser b).testLate = s.testLate := rfl
@[simp] theorem State.logLaser_ctxs (b : NvBody) : (s.logLaser b).ctxs = s.ctxs := rfl
@[simp] theorem State.logLaser_sched (b : NvBody) : (s.logLaser b).sched = s.sched := rfl
@[simp] theorem State.logLaser_tiles (b : NvBody) : (s.logLaser b).tiles = s.tiles := rfl
@[simp] theorem State.logLaser_ptiles (b : NvBody) : (s.logLaser b).ptiles = s.ptiles := rfl
@[simp] theorem State.logLaser_links (b : NvBody) : (s.logLaser b).links = s.links := rfl
@[simp] theorem State.logLaser_lnk (b : NvBody) : (s.logLaser b).lnk = s.lnk := rfl
@[simp] theorem State.logLaser_coreRet (b : NvBody) : (s.logLaser b).coreRet = s.coreRet := rfl
@[simp] theorem State.logLaser_coreHalt (b : NvBody) : (s.logLaser b).coreHalt = s.coreHalt := rfl
@[simp] theorem State.logLaser_coreStep (b : NvBody) : (s.logLaser b).coreStep = s.coreStep := rfl
@[simp] theorem State.logLaser_l2 (b : NvBody) : (s.logLaser b).l2 = s.l2 := rfl
@[simp] theorem State.logLaser_stimecmp (b : NvBody) : (s.logLaser b).stimecmp = s.stimecmp := rfl

@[simp] theorem State.toCore_pending (l : List Nat) : (s.toCore l).pending = s.pending := rfl
@[simp] theorem State.toCore_freeCtr (l : List Nat) : (s.toCore l).freeCtr = s.freeCtr := rfl
@[simp] theorem State.toCore_phase (l : List Nat) : (s.toCore l).phase = s.phase := rfl
@[simp] theorem State.toCore_pins (l : List Nat) : (s.toCore l).pins = s.pins := rfl
@[simp] theorem State.toCore_clk (l : List Nat) : (s.toCore l).clk = s.clk := rfl
@[simp] theorem State.toCore_cfg (l : List Nat) : (s.toCore l).cfg = s.cfg := rfl
@[simp] theorem State.toCore_lockWas (l : List Nat) : (s.toCore l).lockWas = s.lockWas := rfl
@[simp] theorem State.toCore_w1cNow (l : List Nat) : (s.toCore l).w1cNow = s.w1cNow := rfl
@[simp] theorem State.toCore_hi (l : List Nat) : (s.toCore l).hi = s.hi := rfl
@[simp] theorem State.toCore_busRead (l : List Nat) : (s.toCore l).busRead = s.busRead := rfl
@[simp] theorem State.toCore_power (l : List Nat) : (s.toCore l).power = s.power := rfl
@[simp] theorem State.toCore_rgl (l : List Nat) : (s.toCore l).rgl = s.rgl := rfl
@[simp] theorem State.toCore_fuses (l : List Nat) : (s.toCore l).fuses = s.fuses := rfl
@[simp] theorem State.toCore_flash (l : List Nat) : (s.toCore l).flash = s.flash := rfl
@[simp] theorem State.toCore_sec (l : List Nat) : (s.toCore l).sec = s.sec := rfl
@[simp] theorem State.toCore_tc (l : List Nat) : (s.toCore l).tc = s.tc := rfl
@[simp] theorem State.toCore_sigs (l : List Nat) : (s.toCore l).sigs = s.sigs := rfl
@[simp] theorem State.toCore_hosts (l : List Nat) : (s.toCore l).hosts = s.hosts := rfl
@[simp] theorem State.toCore_lease (l : List Nat) : (s.toCore l).lease = s.lease := rfl
@[simp] theorem State.toCore_plc (l : List Nat) : (s.toCore l).plc = s.plc := rfl
@[simp] theorem State.toCore_hbm (l : List Nat) : (s.toCore l).hbm = s.hbm := rfl
@[simp] theorem State.toCore_metaQ (l : List Nat) : (s.toCore l).metaQ = s.metaQ := rfl
@[simp] theorem State.toCore_cvUnchecked (l : List Nat) : (s.toCore l).cvUnchecked = s.cvUnchecked := rfl
@[simp] theorem State.toCore_cvFail (l : List Nat) : (s.toCore l).cvFail = s.cvFail := rfl
@[simp] theorem State.toCore_testLate (l : List Nat) : (s.toCore l).testLate = s.testLate := rfl
@[simp] theorem State.toCore_ctxs (l : List Nat) : (s.toCore l).ctxs = s.ctxs := rfl
@[simp] theorem State.toCore_sched (l : List Nat) : (s.toCore l).sched = s.sched := rfl
@[simp] theorem State.toCore_tiles (l : List Nat) : (s.toCore l).tiles = s.tiles := rfl
@[simp] theorem State.toCore_ptiles (l : List Nat) : (s.toCore l).ptiles = s.ptiles := rfl
@[simp] theorem State.toCore_links (l : List Nat) : (s.toCore l).links = s.links := rfl
@[simp] theorem State.toCore_lnk (l : List Nat) : (s.toCore l).lnk = s.lnk := rfl
@[simp] theorem State.toCore_coreHalt (l : List Nat) : (s.toCore l).coreHalt = s.coreHalt := rfl
@[simp] theorem State.toCore_coreStep (l : List Nat) : (s.toCore l).coreStep = s.coreStep := rfl
@[simp] theorem State.toCore_l2 (l : List Nat) : (s.toCore l).l2 = s.l2 := rfl
@[simp] theorem State.toCore_stimecmp (l : List Nat) : (s.toCore l).stimecmp = s.stimecmp := rfl

@[simp] theorem State.stepped_pending (k : Nat) : (s.stepped k).pending = s.pending := rfl
@[simp] theorem State.stepped_freeCtr (k : Nat) : (s.stepped k).freeCtr = s.freeCtr := rfl
@[simp] theorem State.stepped_phase (k : Nat) : (s.stepped k).phase = s.phase := rfl
@[simp] theorem State.stepped_pins (k : Nat) : (s.stepped k).pins = s.pins := rfl
@[simp] theorem State.stepped_clk (k : Nat) : (s.stepped k).clk = s.clk := rfl
@[simp] theorem State.stepped_cfg (k : Nat) : (s.stepped k).cfg = s.cfg := rfl
@[simp] theorem State.stepped_lockWas (k : Nat) : (s.stepped k).lockWas = s.lockWas := rfl
@[simp] theorem State.stepped_w1cNow (k : Nat) : (s.stepped k).w1cNow = s.w1cNow := rfl
@[simp] theorem State.stepped_hi (k : Nat) : (s.stepped k).hi = s.hi := rfl
@[simp] theorem State.stepped_busRead (k : Nat) : (s.stepped k).busRead = s.busRead := rfl
@[simp] theorem State.stepped_power (k : Nat) : (s.stepped k).power = s.power := rfl
@[simp] theorem State.stepped_rgl (k : Nat) : (s.stepped k).rgl = s.rgl := rfl
@[simp] theorem State.stepped_fuses (k : Nat) : (s.stepped k).fuses = s.fuses := rfl
@[simp] theorem State.stepped_flash (k : Nat) : (s.stepped k).flash = s.flash := rfl
@[simp] theorem State.stepped_sec (k : Nat) : (s.stepped k).sec = s.sec := rfl
@[simp] theorem State.stepped_tc (k : Nat) : (s.stepped k).tc = s.tc := rfl
@[simp] theorem State.stepped_sigs (k : Nat) : (s.stepped k).sigs = s.sigs := rfl
@[simp] theorem State.stepped_hosts (k : Nat) : (s.stepped k).hosts = s.hosts := rfl
@[simp] theorem State.stepped_lease (k : Nat) : (s.stepped k).lease = s.lease := rfl
@[simp] theorem State.stepped_plc (k : Nat) : (s.stepped k).plc = s.plc := rfl
@[simp] theorem State.stepped_hbm (k : Nat) : (s.stepped k).hbm = s.hbm := rfl
@[simp] theorem State.stepped_metaQ (k : Nat) : (s.stepped k).metaQ = s.metaQ := rfl
@[simp] theorem State.stepped_cvUnchecked (k : Nat) : (s.stepped k).cvUnchecked = s.cvUnchecked := rfl
@[simp] theorem State.stepped_cvFail (k : Nat) : (s.stepped k).cvFail = s.cvFail := rfl
@[simp] theorem State.stepped_testLate (k : Nat) : (s.stepped k).testLate = s.testLate := rfl
@[simp] theorem State.stepped_ctxs (k : Nat) : (s.stepped k).ctxs = s.ctxs := rfl
@[simp] theorem State.stepped_sched (k : Nat) : (s.stepped k).sched = s.sched := rfl
@[simp] theorem State.stepped_tiles (k : Nat) : (s.stepped k).tiles = s.tiles := rfl
@[simp] theorem State.stepped_ptiles (k : Nat) : (s.stepped k).ptiles = s.ptiles := rfl
@[simp] theorem State.stepped_links (k : Nat) : (s.stepped k).links = s.links := rfl
@[simp] theorem State.stepped_lnk (k : Nat) : (s.stepped k).lnk = s.lnk := rfl
@[simp] theorem State.stepped_coreRet (k : Nat) : (s.stepped k).coreRet = s.coreRet := rfl
@[simp] theorem State.stepped_coreHalt (k : Nat) : (s.stepped k).coreHalt = s.coreHalt := rfl
@[simp] theorem State.stepped_l2 (k : Nat) : (s.stepped k).l2 = s.l2 := rfl
@[simp] theorem State.stepped_stimecmp (k : Nat) : (s.stepped k).stimecmp = s.stimecmp := rfl

@[simp] theorem State.shiftOut_pending (b : List Byte) : (s.shiftOut b).pending = s.pending := rfl
@[simp] theorem State.shiftOut_freeCtr (b : List Byte) : (s.shiftOut b).freeCtr = s.freeCtr := rfl
@[simp] theorem State.shiftOut_phase (b : List Byte) : (s.shiftOut b).phase = s.phase := rfl
@[simp] theorem State.shiftOut_pins (b : List Byte) : (s.shiftOut b).pins = s.pins := rfl
@[simp] theorem State.shiftOut_clk (b : List Byte) : (s.shiftOut b).clk = s.clk := rfl
@[simp] theorem State.shiftOut_cfg (b : List Byte) : (s.shiftOut b).cfg = s.cfg := rfl
@[simp] theorem State.shiftOut_lockWas (b : List Byte) : (s.shiftOut b).lockWas = s.lockWas := rfl
@[simp] theorem State.shiftOut_w1cNow (b : List Byte) : (s.shiftOut b).w1cNow = s.w1cNow := rfl
@[simp] theorem State.shiftOut_hi (b : List Byte) : (s.shiftOut b).hi = s.hi := rfl
@[simp] theorem State.shiftOut_busRead (b : List Byte) : (s.shiftOut b).busRead = s.busRead := rfl
@[simp] theorem State.shiftOut_power (b : List Byte) : (s.shiftOut b).power = s.power := rfl
@[simp] theorem State.shiftOut_rgl (b : List Byte) : (s.shiftOut b).rgl = s.rgl := rfl
@[simp] theorem State.shiftOut_fuses (b : List Byte) : (s.shiftOut b).fuses = s.fuses := rfl
@[simp] theorem State.shiftOut_flash (b : List Byte) : (s.shiftOut b).flash = s.flash := rfl
@[simp] theorem State.shiftOut_tc (b : List Byte) : (s.shiftOut b).tc = s.tc := rfl
@[simp] theorem State.shiftOut_sigs (b : List Byte) : (s.shiftOut b).sigs = s.sigs := rfl
@[simp] theorem State.shiftOut_hosts (b : List Byte) : (s.shiftOut b).hosts = s.hosts := rfl
@[simp] theorem State.shiftOut_lease (b : List Byte) : (s.shiftOut b).lease = s.lease := rfl
@[simp] theorem State.shiftOut_plc (b : List Byte) : (s.shiftOut b).plc = s.plc := rfl
@[simp] theorem State.shiftOut_hbm (b : List Byte) : (s.shiftOut b).hbm = s.hbm := rfl
@[simp] theorem State.shiftOut_metaQ (b : List Byte) : (s.shiftOut b).metaQ = s.metaQ := rfl
@[simp] theorem State.shiftOut_cvUnchecked (b : List Byte) : (s.shiftOut b).cvUnchecked = s.cvUnchecked := rfl
@[simp] theorem State.shiftOut_cvFail (b : List Byte) : (s.shiftOut b).cvFail = s.cvFail := rfl
@[simp] theorem State.shiftOut_testLate (b : List Byte) : (s.shiftOut b).testLate = s.testLate := rfl
@[simp] theorem State.shiftOut_ctxs (b : List Byte) : (s.shiftOut b).ctxs = s.ctxs := rfl
@[simp] theorem State.shiftOut_sched (b : List Byte) : (s.shiftOut b).sched = s.sched := rfl
@[simp] theorem State.shiftOut_tiles (b : List Byte) : (s.shiftOut b).tiles = s.tiles := rfl
@[simp] theorem State.shiftOut_ptiles (b : List Byte) : (s.shiftOut b).ptiles = s.ptiles := rfl
@[simp] theorem State.shiftOut_links (b : List Byte) : (s.shiftOut b).links = s.links := rfl
@[simp] theorem State.shiftOut_lnk (b : List Byte) : (s.shiftOut b).lnk = s.lnk := rfl
@[simp] theorem State.shiftOut_coreRet (b : List Byte) : (s.shiftOut b).coreRet = s.coreRet := rfl
@[simp] theorem State.shiftOut_coreHalt (b : List Byte) : (s.shiftOut b).coreHalt = s.coreHalt := rfl
@[simp] theorem State.shiftOut_coreStep (b : List Byte) : (s.shiftOut b).coreStep = s.coreStep := rfl
@[simp] theorem State.shiftOut_l2 (b : List Byte) : (s.shiftOut b).l2 = s.l2 := rfl
@[simp] theorem State.shiftOut_stimecmp (b : List Byte) : (s.shiftOut b).stimecmp = s.stimecmp := rfl

@[simp] theorem State.answer_pending (b : List Byte) : (s.answer b).pending = s.pending := rfl
@[simp] theorem State.answer_freeCtr (b : List Byte) : (s.answer b).freeCtr = s.freeCtr := rfl
@[simp] theorem State.answer_phase (b : List Byte) : (s.answer b).phase = s.phase := rfl
@[simp] theorem State.answer_pins (b : List Byte) : (s.answer b).pins = s.pins := rfl
@[simp] theorem State.answer_clk (b : List Byte) : (s.answer b).clk = s.clk := rfl
@[simp] theorem State.answer_cfg (b : List Byte) : (s.answer b).cfg = s.cfg := rfl
@[simp] theorem State.answer_lockWas (b : List Byte) : (s.answer b).lockWas = s.lockWas := rfl
@[simp] theorem State.answer_w1cNow (b : List Byte) : (s.answer b).w1cNow = s.w1cNow := rfl
@[simp] theorem State.answer_hi (b : List Byte) : (s.answer b).hi = s.hi := rfl
@[simp] theorem State.answer_busRead (b : List Byte) : (s.answer b).busRead = s.busRead := rfl
@[simp] theorem State.answer_power (b : List Byte) : (s.answer b).power = s.power := rfl
@[simp] theorem State.answer_rgl (b : List Byte) : (s.answer b).rgl = s.rgl := rfl
@[simp] theorem State.answer_fuses (b : List Byte) : (s.answer b).fuses = s.fuses := rfl
@[simp] theorem State.answer_flash (b : List Byte) : (s.answer b).flash = s.flash := rfl
@[simp] theorem State.answer_tc (b : List Byte) : (s.answer b).tc = s.tc := rfl
@[simp] theorem State.answer_sigs (b : List Byte) : (s.answer b).sigs = s.sigs := rfl
@[simp] theorem State.answer_hosts (b : List Byte) : (s.answer b).hosts = s.hosts := rfl
@[simp] theorem State.answer_lease (b : List Byte) : (s.answer b).lease = s.lease := rfl
@[simp] theorem State.answer_plc (b : List Byte) : (s.answer b).plc = s.plc := rfl
@[simp] theorem State.answer_hbm (b : List Byte) : (s.answer b).hbm = s.hbm := rfl
@[simp] theorem State.answer_metaQ (b : List Byte) : (s.answer b).metaQ = s.metaQ := rfl
@[simp] theorem State.answer_cvUnchecked (b : List Byte) : (s.answer b).cvUnchecked = s.cvUnchecked := rfl
@[simp] theorem State.answer_cvFail (b : List Byte) : (s.answer b).cvFail = s.cvFail := rfl
@[simp] theorem State.answer_testLate (b : List Byte) : (s.answer b).testLate = s.testLate := rfl
@[simp] theorem State.answer_ctxs (b : List Byte) : (s.answer b).ctxs = s.ctxs := rfl
@[simp] theorem State.answer_sched (b : List Byte) : (s.answer b).sched = s.sched := rfl
@[simp] theorem State.answer_tiles (b : List Byte) : (s.answer b).tiles = s.tiles := rfl
@[simp] theorem State.answer_ptiles (b : List Byte) : (s.answer b).ptiles = s.ptiles := rfl
@[simp] theorem State.answer_links (b : List Byte) : (s.answer b).links = s.links := rfl
@[simp] theorem State.answer_lnk (b : List Byte) : (s.answer b).lnk = s.lnk := rfl
@[simp] theorem State.answer_coreRet (b : List Byte) : (s.answer b).coreRet = s.coreRet := rfl
@[simp] theorem State.answer_coreHalt (b : List Byte) : (s.answer b).coreHalt = s.coreHalt := rfl
@[simp] theorem State.answer_coreStep (b : List Byte) : (s.answer b).coreStep = s.coreStep := rfl
@[simp] theorem State.answer_l2 (b : List Byte) : (s.answer b).l2 = s.l2 := rfl
@[simp] theorem State.answer_stimecmp (b : List Byte) : (s.answer b).stimecmp = s.stimecmp := rfl

@[simp] theorem State.setSend_pending (k : Nat) (d : SendD) : (s.setSend k d).pending = s.pending := rfl
@[simp] theorem State.setSend_freeCtr (k : Nat) (d : SendD) : (s.setSend k d).freeCtr = s.freeCtr := rfl
@[simp] theorem State.setSend_phase (k : Nat) (d : SendD) : (s.setSend k d).phase = s.phase := rfl
@[simp] theorem State.setSend_pins (k : Nat) (d : SendD) : (s.setSend k d).pins = s.pins := rfl
@[simp] theorem State.setSend_clk (k : Nat) (d : SendD) : (s.setSend k d).clk = s.clk := rfl
@[simp] theorem State.setSend_cfg (k : Nat) (d : SendD) : (s.setSend k d).cfg = s.cfg := rfl
@[simp] theorem State.setSend_lockWas (k : Nat) (d : SendD) : (s.setSend k d).lockWas = s.lockWas := rfl
@[simp] theorem State.setSend_w1cNow (k : Nat) (d : SendD) : (s.setSend k d).w1cNow = s.w1cNow := rfl
@[simp] theorem State.setSend_hi (k : Nat) (d : SendD) : (s.setSend k d).hi = s.hi := rfl
@[simp] theorem State.setSend_busRead (k : Nat) (d : SendD) : (s.setSend k d).busRead = s.busRead := rfl
@[simp] theorem State.setSend_power (k : Nat) (d : SendD) : (s.setSend k d).power = s.power := rfl
@[simp] theorem State.setSend_rgl (k : Nat) (d : SendD) : (s.setSend k d).rgl = s.rgl := rfl
@[simp] theorem State.setSend_fuses (k : Nat) (d : SendD) : (s.setSend k d).fuses = s.fuses := rfl
@[simp] theorem State.setSend_flash (k : Nat) (d : SendD) : (s.setSend k d).flash = s.flash := rfl
@[simp] theorem State.setSend_sec (k : Nat) (d : SendD) : (s.setSend k d).sec = s.sec := rfl
@[simp] theorem State.setSend_tc (k : Nat) (d : SendD) : (s.setSend k d).tc = s.tc := rfl
@[simp] theorem State.setSend_sigs (k : Nat) (d : SendD) : (s.setSend k d).sigs = s.sigs := rfl
@[simp] theorem State.setSend_hosts (k : Nat) (d : SendD) : (s.setSend k d).hosts = s.hosts := rfl
@[simp] theorem State.setSend_lease (k : Nat) (d : SendD) : (s.setSend k d).lease = s.lease := rfl
@[simp] theorem State.setSend_plc (k : Nat) (d : SendD) : (s.setSend k d).plc = s.plc := rfl
@[simp] theorem State.setSend_hbm (k : Nat) (d : SendD) : (s.setSend k d).hbm = s.hbm := rfl
@[simp] theorem State.setSend_metaQ (k : Nat) (d : SendD) : (s.setSend k d).metaQ = s.metaQ := rfl
@[simp] theorem State.setSend_cvUnchecked (k : Nat) (d : SendD) : (s.setSend k d).cvUnchecked = s.cvUnchecked := rfl
@[simp] theorem State.setSend_cvFail (k : Nat) (d : SendD) : (s.setSend k d).cvFail = s.cvFail := rfl
@[simp] theorem State.setSend_testLate (k : Nat) (d : SendD) : (s.setSend k d).testLate = s.testLate := rfl
@[simp] theorem State.setSend_ctxs (k : Nat) (d : SendD) : (s.setSend k d).ctxs = s.ctxs := rfl
@[simp] theorem State.setSend_sched (k : Nat) (d : SendD) : (s.setSend k d).sched = s.sched := rfl
@[simp] theorem State.setSend_tiles (k : Nat) (d : SendD) : (s.setSend k d).tiles = s.tiles := rfl
@[simp] theorem State.setSend_ptiles (k : Nat) (d : SendD) : (s.setSend k d).ptiles = s.ptiles := rfl
@[simp] theorem State.setSend_links (k : Nat) (d : SendD) : (s.setSend k d).links = s.links := rfl
@[simp] theorem State.setSend_coreRet (k : Nat) (d : SendD) : (s.setSend k d).coreRet = s.coreRet := rfl
@[simp] theorem State.setSend_coreHalt (k : Nat) (d : SendD) : (s.setSend k d).coreHalt = s.coreHalt := rfl
@[simp] theorem State.setSend_coreStep (k : Nat) (d : SendD) : (s.setSend k d).coreStep = s.coreStep := rfl
@[simp] theorem State.setSend_l2 (k : Nat) (d : SendD) : (s.setSend k d).l2 = s.l2 := rfl
@[simp] theorem State.setSend_stimecmp (k : Nat) (d : SendD) : (s.setSend k d).stimecmp = s.stimecmp := rfl

@[simp] theorem State.setRecv_pending (k : Nat) (d : RecvD) : (s.setRecv k d).pending = s.pending := rfl
@[simp] theorem State.setRecv_freeCtr (k : Nat) (d : RecvD) : (s.setRecv k d).freeCtr = s.freeCtr := rfl
@[simp] theorem State.setRecv_phase (k : Nat) (d : RecvD) : (s.setRecv k d).phase = s.phase := rfl
@[simp] theorem State.setRecv_pins (k : Nat) (d : RecvD) : (s.setRecv k d).pins = s.pins := rfl
@[simp] theorem State.setRecv_clk (k : Nat) (d : RecvD) : (s.setRecv k d).clk = s.clk := rfl
@[simp] theorem State.setRecv_cfg (k : Nat) (d : RecvD) : (s.setRecv k d).cfg = s.cfg := rfl
@[simp] theorem State.setRecv_lockWas (k : Nat) (d : RecvD) : (s.setRecv k d).lockWas = s.lockWas := rfl
@[simp] theorem State.setRecv_w1cNow (k : Nat) (d : RecvD) : (s.setRecv k d).w1cNow = s.w1cNow := rfl
@[simp] theorem State.setRecv_hi (k : Nat) (d : RecvD) : (s.setRecv k d).hi = s.hi := rfl
@[simp] theorem State.setRecv_busRead (k : Nat) (d : RecvD) : (s.setRecv k d).busRead = s.busRead := rfl
@[simp] theorem State.setRecv_power (k : Nat) (d : RecvD) : (s.setRecv k d).power = s.power := rfl
@[simp] theorem State.setRecv_rgl (k : Nat) (d : RecvD) : (s.setRecv k d).rgl = s.rgl := rfl
@[simp] theorem State.setRecv_fuses (k : Nat) (d : RecvD) : (s.setRecv k d).fuses = s.fuses := rfl
@[simp] theorem State.setRecv_flash (k : Nat) (d : RecvD) : (s.setRecv k d).flash = s.flash := rfl
@[simp] theorem State.setRecv_sec (k : Nat) (d : RecvD) : (s.setRecv k d).sec = s.sec := rfl
@[simp] theorem State.setRecv_tc (k : Nat) (d : RecvD) : (s.setRecv k d).tc = s.tc := rfl
@[simp] theorem State.setRecv_sigs (k : Nat) (d : RecvD) : (s.setRecv k d).sigs = s.sigs := rfl
@[simp] theorem State.setRecv_hosts (k : Nat) (d : RecvD) : (s.setRecv k d).hosts = s.hosts := rfl
@[simp] theorem State.setRecv_lease (k : Nat) (d : RecvD) : (s.setRecv k d).lease = s.lease := rfl
@[simp] theorem State.setRecv_plc (k : Nat) (d : RecvD) : (s.setRecv k d).plc = s.plc := rfl
@[simp] theorem State.setRecv_hbm (k : Nat) (d : RecvD) : (s.setRecv k d).hbm = s.hbm := rfl
@[simp] theorem State.setRecv_metaQ (k : Nat) (d : RecvD) : (s.setRecv k d).metaQ = s.metaQ := rfl
@[simp] theorem State.setRecv_cvUnchecked (k : Nat) (d : RecvD) : (s.setRecv k d).cvUnchecked = s.cvUnchecked := rfl
@[simp] theorem State.setRecv_cvFail (k : Nat) (d : RecvD) : (s.setRecv k d).cvFail = s.cvFail := rfl
@[simp] theorem State.setRecv_testLate (k : Nat) (d : RecvD) : (s.setRecv k d).testLate = s.testLate := rfl
@[simp] theorem State.setRecv_ctxs (k : Nat) (d : RecvD) : (s.setRecv k d).ctxs = s.ctxs := rfl
@[simp] theorem State.setRecv_sched (k : Nat) (d : RecvD) : (s.setRecv k d).sched = s.sched := rfl
@[simp] theorem State.setRecv_tiles (k : Nat) (d : RecvD) : (s.setRecv k d).tiles = s.tiles := rfl
@[simp] theorem State.setRecv_ptiles (k : Nat) (d : RecvD) : (s.setRecv k d).ptiles = s.ptiles := rfl
@[simp] theorem State.setRecv_links (k : Nat) (d : RecvD) : (s.setRecv k d).links = s.links := rfl
@[simp] theorem State.setRecv_coreRet (k : Nat) (d : RecvD) : (s.setRecv k d).coreRet = s.coreRet := rfl
@[simp] theorem State.setRecv_coreHalt (k : Nat) (d : RecvD) : (s.setRecv k d).coreHalt = s.coreHalt := rfl
@[simp] theorem State.setRecv_coreStep (k : Nat) (d : RecvD) : (s.setRecv k d).coreStep = s.coreStep := rfl
@[simp] theorem State.setRecv_l2 (k : Nat) (d : RecvD) : (s.setRecv k d).l2 = s.l2 := rfl
@[simp] theorem State.setRecv_stimecmp (k : Nat) (d : RecvD) : (s.setRecv k d).stimecmp = s.stimecmp := rfl

@[simp] theorem State.freeRecv_pending (k : Nat) : (s.freeRecv k).pending = s.pending := rfl
@[simp] theorem State.freeRecv_freeCtr (k : Nat) : (s.freeRecv k).freeCtr = s.freeCtr := rfl
@[simp] theorem State.freeRecv_phase (k : Nat) : (s.freeRecv k).phase = s.phase := rfl
@[simp] theorem State.freeRecv_pins (k : Nat) : (s.freeRecv k).pins = s.pins := rfl
@[simp] theorem State.freeRecv_clk (k : Nat) : (s.freeRecv k).clk = s.clk := rfl
@[simp] theorem State.freeRecv_cfg (k : Nat) : (s.freeRecv k).cfg = s.cfg := rfl
@[simp] theorem State.freeRecv_lockWas (k : Nat) : (s.freeRecv k).lockWas = s.lockWas := rfl
@[simp] theorem State.freeRecv_w1cNow (k : Nat) : (s.freeRecv k).w1cNow = s.w1cNow := rfl
@[simp] theorem State.freeRecv_hi (k : Nat) : (s.freeRecv k).hi = s.hi := rfl
@[simp] theorem State.freeRecv_busRead (k : Nat) : (s.freeRecv k).busRead = s.busRead := rfl
@[simp] theorem State.freeRecv_power (k : Nat) : (s.freeRecv k).power = s.power := rfl
@[simp] theorem State.freeRecv_rgl (k : Nat) : (s.freeRecv k).rgl = s.rgl := rfl
@[simp] theorem State.freeRecv_fuses (k : Nat) : (s.freeRecv k).fuses = s.fuses := rfl
@[simp] theorem State.freeRecv_flash (k : Nat) : (s.freeRecv k).flash = s.flash := rfl
@[simp] theorem State.freeRecv_sec (k : Nat) : (s.freeRecv k).sec = s.sec := rfl
@[simp] theorem State.freeRecv_tc (k : Nat) : (s.freeRecv k).tc = s.tc := rfl
@[simp] theorem State.freeRecv_sigs (k : Nat) : (s.freeRecv k).sigs = s.sigs := rfl
@[simp] theorem State.freeRecv_hosts (k : Nat) : (s.freeRecv k).hosts = s.hosts := rfl
@[simp] theorem State.freeRecv_lease (k : Nat) : (s.freeRecv k).lease = s.lease := rfl
@[simp] theorem State.freeRecv_plc (k : Nat) : (s.freeRecv k).plc = s.plc := rfl
@[simp] theorem State.freeRecv_hbm (k : Nat) : (s.freeRecv k).hbm = s.hbm := rfl
@[simp] theorem State.freeRecv_metaQ (k : Nat) : (s.freeRecv k).metaQ = s.metaQ := rfl
@[simp] theorem State.freeRecv_cvUnchecked (k : Nat) : (s.freeRecv k).cvUnchecked = s.cvUnchecked := rfl
@[simp] theorem State.freeRecv_cvFail (k : Nat) : (s.freeRecv k).cvFail = s.cvFail := rfl
@[simp] theorem State.freeRecv_testLate (k : Nat) : (s.freeRecv k).testLate = s.testLate := rfl
@[simp] theorem State.freeRecv_ctxs (k : Nat) : (s.freeRecv k).ctxs = s.ctxs := rfl
@[simp] theorem State.freeRecv_sched (k : Nat) : (s.freeRecv k).sched = s.sched := rfl
@[simp] theorem State.freeRecv_tiles (k : Nat) : (s.freeRecv k).tiles = s.tiles := rfl
@[simp] theorem State.freeRecv_ptiles (k : Nat) : (s.freeRecv k).ptiles = s.ptiles := rfl
@[simp] theorem State.freeRecv_links (k : Nat) : (s.freeRecv k).links = s.links := rfl
@[simp] theorem State.freeRecv_coreRet (k : Nat) : (s.freeRecv k).coreRet = s.coreRet := rfl
@[simp] theorem State.freeRecv_coreHalt (k : Nat) : (s.freeRecv k).coreHalt = s.coreHalt := rfl
@[simp] theorem State.freeRecv_coreStep (k : Nat) : (s.freeRecv k).coreStep = s.coreStep := rfl
@[simp] theorem State.freeRecv_l2 (k : Nat) : (s.freeRecv k).l2 = s.l2 := rfl
@[simp] theorem State.freeRecv_stimecmp (k : Nat) : (s.freeRecv k).stimecmp = s.stimecmp := rfl

@[simp] theorem State.settle_pending : s.settle.pending = s.pending := rfl
@[simp] theorem State.settle_freeCtr : s.settle.freeCtr = s.freeCtr := rfl
@[simp] theorem State.settle_phase : s.settle.phase = s.phase := rfl
@[simp] theorem State.settle_pins : s.settle.pins = s.pins := rfl
@[simp] theorem State.settle_clk : s.settle.clk = s.clk := rfl
@[simp] theorem State.settle_cfg : s.settle.cfg = s.cfg := rfl
@[simp] theorem State.settle_lockWas : s.settle.lockWas = s.lockWas := rfl
@[simp] theorem State.settle_w1cNow : s.settle.w1cNow = s.w1cNow := rfl
@[simp] theorem State.settle_hi : s.settle.hi = s.hi := rfl
@[simp] theorem State.settle_busRead : s.settle.busRead = s.busRead := rfl
@[simp] theorem State.settle_power : s.settle.power = s.power := rfl
@[simp] theorem State.settle_rgl : s.settle.rgl = s.rgl := rfl
@[simp] theorem State.settle_fuses : s.settle.fuses = s.fuses := rfl
@[simp] theorem State.settle_flash : s.settle.flash = s.flash := rfl
@[simp] theorem State.settle_sec : s.settle.sec = s.sec := rfl
@[simp] theorem State.settle_tc : s.settle.tc = s.tc := rfl
@[simp] theorem State.settle_sigs : s.settle.sigs = s.sigs := rfl
@[simp] theorem State.settle_hosts : s.settle.hosts = s.hosts := rfl
@[simp] theorem State.settle_lease : s.settle.lease = s.lease := rfl
@[simp] theorem State.settle_plc : s.settle.plc = s.plc := rfl
@[simp] theorem State.settle_hbm : s.settle.hbm = s.hbm := rfl
@[simp] theorem State.settle_metaQ : s.settle.metaQ = s.metaQ := rfl
@[simp] theorem State.settle_cvUnchecked : s.settle.cvUnchecked = s.cvUnchecked := rfl
@[simp] theorem State.settle_cvFail : s.settle.cvFail = s.cvFail := rfl
@[simp] theorem State.settle_testLate : s.settle.testLate = s.testLate := rfl
@[simp] theorem State.settle_sched : s.settle.sched = s.sched := rfl
@[simp] theorem State.settle_tiles : s.settle.tiles = s.tiles := rfl
@[simp] theorem State.settle_ptiles : s.settle.ptiles = s.ptiles := rfl
@[simp] theorem State.settle_links : s.settle.links = s.links := rfl
@[simp] theorem State.settle_lnk : s.settle.lnk = s.lnk := rfl
@[simp] theorem State.settle_coreRet : s.settle.coreRet = s.coreRet := rfl
@[simp] theorem State.settle_coreHalt : s.settle.coreHalt = s.coreHalt := rfl
@[simp] theorem State.settle_coreStep : s.settle.coreStep = s.coreStep := rfl
@[simp] theorem State.settle_l2 : s.settle.l2 = s.l2 := rfl
@[simp] theorem State.settle_stimecmp : s.settle.stimecmp = s.stimecmp := rfl

@[simp] theorem State.chrAdd_pending (p m g c n : Nat) : (s.chrAdd p m g c n).pending = s.pending := rfl
@[simp] theorem State.chrAdd_freeCtr (p m g c n : Nat) : (s.chrAdd p m g c n).freeCtr = s.freeCtr := rfl
@[simp] theorem State.chrAdd_phase (p m g c n : Nat) : (s.chrAdd p m g c n).phase = s.phase := rfl
@[simp] theorem State.chrAdd_pins (p m g c n : Nat) : (s.chrAdd p m g c n).pins = s.pins := rfl
@[simp] theorem State.chrAdd_clk (p m g c n : Nat) : (s.chrAdd p m g c n).clk = s.clk := rfl
@[simp] theorem State.chrAdd_cfg (p m g c n : Nat) : (s.chrAdd p m g c n).cfg = s.cfg := rfl
@[simp] theorem State.chrAdd_lockWas (p m g c n : Nat) : (s.chrAdd p m g c n).lockWas = s.lockWas := rfl
@[simp] theorem State.chrAdd_w1cNow (p m g c n : Nat) : (s.chrAdd p m g c n).w1cNow = s.w1cNow := rfl
@[simp] theorem State.chrAdd_hi (p m g c n : Nat) : (s.chrAdd p m g c n).hi = s.hi := rfl
@[simp] theorem State.chrAdd_busRead (p m g c n : Nat) : (s.chrAdd p m g c n).busRead = s.busRead := rfl
@[simp] theorem State.chrAdd_power (p m g c n : Nat) : (s.chrAdd p m g c n).power = s.power := rfl
@[simp] theorem State.chrAdd_rgl (p m g c n : Nat) : (s.chrAdd p m g c n).rgl = s.rgl := rfl
@[simp] theorem State.chrAdd_fuses (p m g c n : Nat) : (s.chrAdd p m g c n).fuses = s.fuses := rfl
@[simp] theorem State.chrAdd_flash (p m g c n : Nat) : (s.chrAdd p m g c n).flash = s.flash := rfl
@[simp] theorem State.chrAdd_sec (p m g c n : Nat) : (s.chrAdd p m g c n).sec = s.sec := rfl
@[simp] theorem State.chrAdd_tc (p m g c n : Nat) : (s.chrAdd p m g c n).tc = s.tc := rfl
@[simp] theorem State.chrAdd_sigs (p m g c n : Nat) : (s.chrAdd p m g c n).sigs = s.sigs := rfl
@[simp] theorem State.chrAdd_hosts (p m g c n : Nat) : (s.chrAdd p m g c n).hosts = s.hosts := rfl
@[simp] theorem State.chrAdd_lease (p m g c n : Nat) : (s.chrAdd p m g c n).lease = s.lease := rfl
@[simp] theorem State.chrAdd_plc (p m g c n : Nat) : (s.chrAdd p m g c n).plc = s.plc := rfl
@[simp] theorem State.chrAdd_hbm (p m g c n : Nat) : (s.chrAdd p m g c n).hbm = s.hbm := rfl
@[simp] theorem State.chrAdd_metaQ (p m g c n : Nat) : (s.chrAdd p m g c n).metaQ = s.metaQ := rfl
@[simp] theorem State.chrAdd_cvUnchecked (p m g c n : Nat) : (s.chrAdd p m g c n).cvUnchecked = s.cvUnchecked := rfl
@[simp] theorem State.chrAdd_cvFail (p m g c n : Nat) : (s.chrAdd p m g c n).cvFail = s.cvFail := rfl
@[simp] theorem State.chrAdd_testLate (p m g c n : Nat) : (s.chrAdd p m g c n).testLate = s.testLate := rfl
@[simp] theorem State.chrAdd_ctxs (p m g c n : Nat) : (s.chrAdd p m g c n).ctxs = s.ctxs := rfl
@[simp] theorem State.chrAdd_sched (p m g c n : Nat) : (s.chrAdd p m g c n).sched = s.sched := rfl
@[simp] theorem State.chrAdd_tiles (p m g c n : Nat) : (s.chrAdd p m g c n).tiles = s.tiles := rfl
@[simp] theorem State.chrAdd_links (p m g c n : Nat) : (s.chrAdd p m g c n).links = s.links := rfl
@[simp] theorem State.chrAdd_lnk (p m g c n : Nat) : (s.chrAdd p m g c n).lnk = s.lnk := rfl
@[simp] theorem State.chrAdd_coreRet (p m g c n : Nat) : (s.chrAdd p m g c n).coreRet = s.coreRet := rfl
@[simp] theorem State.chrAdd_coreHalt (p m g c n : Nat) : (s.chrAdd p m g c n).coreHalt = s.coreHalt := rfl
@[simp] theorem State.chrAdd_coreStep (p m g c n : Nat) : (s.chrAdd p m g c n).coreStep = s.coreStep := rfl
@[simp] theorem State.chrAdd_l2 (p m g c n : Nat) : (s.chrAdd p m g c n).l2 = s.l2 := rfl
@[simp] theorem State.chrAdd_stimecmp (p m g c n : Nat) : (s.chrAdd p m g c n).stimecmp = s.stimecmp := rfl

/-! Reads after writes -/

@[simp] theorem State.host_setHost (p q : Nat) (h : HostPort) : (s.setHost p h).host q = if p = q then h else s.host q := by
  simp [State.host, State.setHost]

@[simp] theorem State.link_setLink (p q : Nat) (x : LinkPort) : (s.setLink p x).link q = if p = q then x else s.link q := by
  simp [State.link, State.setLink]

@[simp] theorem State.find_setCtx (n m : Nat) (c : Ctx) : sfind (s.setCtx n c).ctxs m = if n = m then some c else sfind s.ctxs m := by
  simp [State.setCtx]

@[simp] theorem State.reg_setReg (k j v : Nat) : (s.setReg k v).reg j = if k = j then v % 2 ^ 32 else s.reg j := by
  unfold State.reg State.setReg; simp only [sget_sput]; split <;> simp

/-- The resident context is registered. -/
theorem find_of_resCtx {s : State} {n : Nat} {c : Ctx} (h : s.resCtx = some (n, c)) : sfind s.ctxs n = some c := by
  unfold State.resCtx at h
  split at h
  · cases h
  · rename_i m _; cases hh : sfind s.ctxs m <;> simp_all

end Sys2Proof.Machine
end

