-- ==== Sys2Proof/Laws/Rows.lean ====
section
/-! SUPPORT. Laws/Rows.lean: what the shared forms of a row do: an event that occurs, a command of a host ring, a packet at its
destination, a packet of the collective engine. -/

namespace Sys2Proof.Machine

@[simp] theorem occurs_true (t s : State) : occurs true t s = .next t := rfl

@[simp] theorem occurs_false (t s : State) : occurs false t s = .next s := rfl

/-- A ring's front command that passes the shared checks runs. -/
theorem startCmd_ok {s : State} {p r opc : Nat} {f : Fetched} {run : Fetched → State} (h : s.front p r opc = some f) (hg : s.gate p f = stOk) :
    startCmd p r opc s run = .next (run f) := by simp [startCmd, h, hg]

/-- One that the shared checks refuse completes with their status. -/
theorem startCmd_refused {s : State} {p r opc : Nat} {f : Fetched} {run : Fetched → State} (h : s.front p r opc = some f) (hg : s.gate p f ≠ stOk) :
    startCmd p r opc s run = .next (s.finish p r f (s.gate p f) 0 0) := by simp [startCmd, h, hg]

/-- Without such a command nothing changes. -/
theorem startCmd_none {s : State} {p r opc : Nat} {run : Fetched → State} (h : s.front p r opc = none) : startCmd p r opc s run = .next s := by
  simp [startCmd, h]

/-- A packet that has arrived, of the row's kind and not held, is taken off its channel and acts. -/
theorem recvPkt_act {s : State} {p cls typ : Nat} {hop : Bool} {b : List Byte} {sel : List Byte → Bool} {held : State → List Byte → Th → Bool}
    {act : State → List Byte → Th → State} (h : s.Arrived p hop cls typ b) (hs : sel b = true) (hh : held s b (Th.ofBytes b) = false) :
    s.recvPkt p hop cls typ sel held act = .next (act (s.dropPacket p (2 * cls + b2n hop)) b (Th.ofBytes b)) := by
  simp [State.recvPkt, h.front, h.typ, h.dst, hs, hh]

/-- Taking a packet off a channel leaves memory, the scheduler and the contexts. -/
theorem dropPacket_rest (s : State) (p v : Nat) :
    (s.dropPacket p v).hbm = s.hbm ∧ (s.dropPacket p v).sched = s.sched ∧ (s.dropPacket p v).ctxs = s.ctxs := by
  unfold State.dropPacket
  split
  · unfold State.putLink; (repeat' split) <;> exact ⟨rfl, rfl, rfl⟩
  · exact ⟨rfl, rfl, rfl⟩

/-- A packet of the collective engine that belongs where it says acts. -/
theorem withColl_fits {v : State} {b : List Byte} {a : CollAt} (h : v.CollFits b a) (act : CollAt → State) :
    v.withColl b (Th.ofBytes b) act = act a := by
  obtain ⟨n, c, ch, d, g⟩ := a
  obtain ⟨h1, h2, h3, h4, h5, h6, h7⟩ := h
  simp only at h1 h2 h3 h4 h5 h6 h7
  unfold State.withColl
  simp only [h1, h2, ← h3, ← h4, ← h5, h7]
  simp; omega

/-- A row of the resident context's collective table is its instance's. -/
theorem dataRow_eq {s : State} {op n : Nat} {cid : BitVec 10} {c : Ctx} {i : CInst} (hr : s.resCtx = some (n, c)) (hi : c.inst cid.toNat = some i)
    (ho : i.d.op = op) : dataRow op cid s = .next (s.orFault i.d.tile (s.advanceInst n c i)) := by
  simp [dataRow, hr, hi, ho, occurs]

end Sys2Proof.Machine
end

