-- ==== Sys2Proof/Laws/Vector.lean ====
section
/-! SUPPORT. Laws/Vector.lean: reads of vector registers and masks after writes, and what the issue of a bundle that holds one V
slot does. -/

namespace Sys2Proof.Machine

/-- The lanes of a packed register are the ones it was made from. -/
theorem sget_packLanes (l : List W32) (i : Nat) : sget zero32 (packLanes l) i = l.getD i 0 := by
  have key : ∀ (l : List W32) (n : Nat) (m : SMap W32),
      sget zero32 ((l.zipIdx n).foldl (fun m p => sput zero32 m p.2 p.1) m) i =
        if n ≤ i ∧ i < n + l.length then l.getD (i - n) 0 else sget zero32 m i := by
    intro l
    induction l with
    | nil => intro n m; simp only [List.zipIdx_nil, List.foldl_nil, List.length_nil]; rw [if_neg (by omega)]
    | cons a l ih =>
      intro n m
      rw [List.zipIdx_cons, List.foldl_cons, ih, sget_sput]
      simp only [List.length_cons]
      by_cases h : n = i
      · subst h; simp
      · by_cases h2 : n + 1 ≤ i ∧ i < n + 1 + l.length
        · have e : i - n = (i - (n + 1)) + 1 := by omega
          rw [if_pos h2, if_pos (by omega), e, List.getD_cons_succ]
        · rw [if_neg h2, if_neg h, if_neg (by omega)]
  have := key l 0 []
  rw [packLanes, this]
  split
  · rfl
  · rw [List.getD_eq_default _ _ (by omega)]; rfl

@[simp] theorem length_lanesOf (x : Tile) (r : Nat) : (x.lanesOf r).length = 512 := by simp [Tile.lanesOf]

/-- A register written with 512 lanes holds them; every other register is as it was. -/
theorem lanesOf_setV (x : Tile) (d r : Nat) (l : List W32) (h : l.length = 512) :
    (x.setV d l).lanesOf r = if d = r then l else x.lanesOf r := by
  simp only [Tile.lanesOf, Tile.setV, sget_sput]
  split
  · apply List.ext_getElem
    · simp [h]
    · intro i h1 h2
      simp only [List.getElem_map, List.getElem_range, sget_packLanes]
      simp [h2]
  · rfl

theorem length_blend (m : BitVec 512) (a b : List W32) : (blend m a b).length = min a.length b.length := by simp [blend]

/-- A masked write takes the new lane where the mask bit is 1. -/
theorem getD_blend (m : BitVec 512) (a b : List W32) (i : Nat) (ha : i < a.length) (hb : i < b.length) :
    (blend m a b).getD i 0 = if m.getLsbD i then b.getD i 0 else a.getD i 0 := by
  simp [blend, ha, hb]

theorem getLsbD_one_shift (i r : Nat) (h : i < 32) : (BitVec.ofNat 32 (2 ^ i)).getLsbD r = decide (r = i) := by
  simp only [BitVec.getLsbD_ofNat, Nat.testBit_two_pow]
  by_cases e : i = r
  · subst e; simp [h]
  · simp [e, Ne.symm e]

theorem bitOf_eq_testBit (v i : Nat) : bitOf v i = v.testBit i := by
  unfold bitOf
  rw [Nat.testBit_eq_decide_div_mod_eq]
  rfl

theorem getLsbD_bvPut {w : Nat} (b : BitVec w) (i r : Nat) (v : Bool) (h : i < w) :
    (bvPut b i v).getLsbD r = if r = i then v else b.getLsbD r := by
  have e : (BitVec.ofNat w (2 ^ i)).getLsbD r = decide (r = i) := by
    simp only [BitVec.getLsbD_ofNat, Nat.testBit_two_pow]
    by_cases e : i = r
    · subst e; simp [h]
    · simp [e, Ne.symm e]
  unfold bvPut
  by_cases hr : r = i
  · subst hr
    split <;> simp_all
  · split
    · rw [BitVec.getLsbD_or, e]; simp [hr]
    · simp only [BitVec.getLsbD_and, BitVec.getLsbD_not, e, hr]
      by_cases hw : r < w
      · simp [hw]
      · simp [hw, BitVec.getLsbD_of_ge b r (by omega)]

theorem vMark_eq (x : Tile) (r : Nat) : x.vMark r = x.vpois.getLsbD r := by
  rw [Tile.vMark, bitOf_eq_testBit]; rfl

@[simp] theorem vMark_setV (x : Tile) (d r : Nat) (l : List W32) : (x.setV d l).vMark r = x.vMark r := rfl

/-- The destination takes the mark; every other register keeps its own. -/
theorem vMark_markV (x : Tile) (d r : Nat) (l : List Nat) (k : Nat) (b : Bool) (h : d < 32) :
    (x.markV d l k b).vMark r = if r = d then (l.any x.vMark || x.kMark k || (b && x.vMark d)) else x.vMark r := by
  rw [vMark_eq, Tile.markV, getLsbD_bvPut _ _ _ _ h]
  split
  · rfl
  · rw [vMark_eq]

/-- What an issued V slot does. -/
theorem holds_ofV (s : State) (t : Nat) (v : VSlot) (h : s.bundleRecs t (.ofV v) = []) (hs : (s.tile t).starting = false) :
    s.holds t (.ofV v) false = s.vHolds t v.check := by
  rw [State.holds, h, hs]
  show [] ++ [] ++ [] ++ [] ++ s.vHolds t v.check ++ [] ++ [] = _
  simp

theorem prepBundle_ofV (s : State) (t : Nat) (v : VSlot) (g : State → State) (hv : v.op ≠ 0) (h : s.prepVslot t v.check = .ok g) :
    s.prepBundle t (.ofV v) false = .ok ((g (s.openedV t)).writeBack t) := by
  have e : ((List.range 4).filter fun n => bitOf 0 n && ((s.tile t).level n).active) = [] := rfl
  have hv' : ¬ v.check.op = 0 := hv
  unfold State.prepBundle
  simp only [Bundle.ofV, Bundle.nop] at *
  simp [State.prepF, State.prepB, State.prepC, State.prepS, FSlot.nop, BSlot.nop, CSlot.nop, SSlot.nop, BSlot.halves, illegalIf, bind,
    Except.bind, pure, Except.pure, h, e, hv', advance_nil, State.openedV, State.opened]

/-- A V-slot row whose instruction nothing holds and that passes its checks. -/
theorem only_ofV {s : State} {t : Nat} {v : VSlot} {g : State → State} (h : s.canIssue t = true) (hr : s.bundleRecs t (.ofV v) = [])
    (hh : s.vHolds t v.check = []) (hv : v.op ≠ 0) (hp : s.prepVslot t v.check = .ok g) :
    s.only t (.ofV v) = .next ((g (s.openedV t)).writeBack t) :=
  issue_ok h ((holds_ofV s t v hr (canIssue_starting h)).trans hh) (prepBundle_ofV s t v g hv hp)

theorem openedV_tile_ne (s : State) (t k : Nat) (h : k ≠ t) : (s.openedV t).tile k = s.tile k := by
  rw [State.openedV, tile_chrAdd, opened_tile_ne s t k h]

theorem openedV_ptile (s : State) (t p : Nat) : (s.openedV t).ptile p = { s.ptile p with chr := ((s.openedV t).ptile p).chr } := by
  rw [State.openedV, ptile_chrAdd, opened_ptile]

theorem openedV_ptile_ne (s : State) (t p : Nat) (h : p ≠ s.plc.phys t) : (s.openedV t).ptile p = s.ptile p := by
  rw [State.openedV, ptile_chrAdd_ne _ _ _ _ _ _ _ h, opened_ptile_ne s t p h]

/-- A V slot that rewrites its tile leaves a state that counts as issued. -/
theorem issuedV_set (s : State) (t : Nat) (x y : Tile) (e : y = x.stamp s.clk.etick) : s.Issued (((s.openedV t).setTile t y).writeBack t) t x := by
  subst e
  refine ⟨by simp only [State.writeBack, State.setTile, State.openedV, State.opened, State.chrAdd, State.setPtile], ?_, ?_, ?_, ?_⟩
  · simp
  · intro k hk
    rw [writeBack_tile, tile_setTile, if_neg (fun e => hk e.symm), openedV_tile_ne s t k hk]
  · intro p
    rw [writeBack_ptile, ptile_setTile]; exact openedV_ptile s t p
  · intro p hp
    rw [writeBack_ptile, ptile_setTile]; exact openedV_ptile_ne s t p hp

end Sys2Proof.Machine
end

