-- ==== Sys2Proof/WellFormed.lean ====
section
/-! DEFINITION. WellFormed.lean: which operands a command may carry beyond what their types say. -/

namespace Sys2Proof

/-- Host memory operands are a canonical byte table: addresses strictly rising, no byte that reads as an unlisted one. -/
def cellsOk : List Host.Cell → Bool
  | [] => true
  | [(_, b)] => b != 0
  | (a, b) :: (c, d) :: r => decide (a < c) && b != 0 && cellsOk ((c, d) :: r)

/-- A well-formed command: host memory operands are canonical, a flit has 256 bytes (R298), an HBM request has eight accesses
(R230), the loops read 72 die sensors and 12 stacks (R514), and a token has 14,630 bytes (R550). -/
def WellFormed (i : Instr) : Bool :=
  match i with
  | .doorbellPoll _ _ h | .tcPush _ _ _ h | .fwWrite _ _ _ h | .ctxRegister _ _ _ h | .dmaToDevice _ _ _ h _ => cellsOk h
  | .flitData _ f _ _ | .flitIdle _ f _ _ | .flitRetry _ f _ _ | .flitInit _ f _ _ | .flitTime _ f _ _ _ | .flitLane _ f _ _ =>
    f.length == 256
  | .hbmRead _ b _ _ _ => b.length == 8
  | .thermalLoop die hbm _ => die.length == 72 && hbm.length == 12
  | .thermalTripRecovery die _ => die.length == 72
  | .debugToken b => b.length == 14630
  | _ => true

end Sys2Proof
end

