-- ==== Sys2Proof/Tests/Slice0.lean ====
section
/-! SUPPORT. Tests/Slice0.lean: the model's own tests: ill-formed commands, a state that meets the hypotheses of each statement
(named after it), and single steps whose results the spec gives. -/

namespace Sys2Proof.Tests

open Sys2Proof.Machine

set_option Elab.async false

/-! Ill-formed commands -/

/-- A host memory operand out of order is ill-formed. -/
theorem test_cells_order : WellFormed (.doorbellPoll 0 true [(8, 1), (4, 1)]) = false := by decide

/-- A host memory operand that lists a byte that reads as an unlisted one is ill-formed. -/
theorem test_cells_zero : WellFormed (.tcPush 0 1 true [(8, 0)]) = false := by decide

/-- So is one of DMA_TO_DEVICE, CTX_REGISTER or FW_WRITE. -/
theorem test_cells_rows : [Instr.dmaToDevice 0 1 0 [(3, 0)] [], .ctxRegister 0 1 true [(3, 0)], .fwWrite 0 1 true [(3, 0)]].all WellFormed = false := by
  decide

/-- A flit has 256 bytes (R298). -/
theorem test_flit_length : ([.flitIdle 0 [] false [], .flitData 0 [] false [], .flitRetry 0 [] false [], .flitInit 0 [] false [],
    .flitTime 0 [] false [] 0, .flitLane 0 [] false []] : List Instr).all (fun i => !WellFormed i) = true := by decide

/-- An HBM request has eight accesses (R230). -/
theorem test_hbm_accesses : WellFormed (.hbmRead (0, []) [] false false false) = false := by decide

/-- The loop reads 72 die sensors and 12 stacks (R514). -/
theorem test_sensor_count : WellFormed (.thermalLoop [] [] 0) = false := by decide

/-- The trip's recovery reads 72 die sensors. -/
theorem test_recovery_sensors : WellFormed (.thermalTripRecovery [] true) = false := by decide

/-- A token has 14,630 bytes (R550). -/
theorem test_token_length : WellFormed (.debugToken []) = false := by decide

/-! Small states -/

/-- A tile that runs. -/
def on0 : Tile := { Tile.init with run := .on }

/-- A module that runs, in an enabled tick. -/
def base : State := { State.reset with phase := .running, clk := ⟨1000000, 100, 0, true, true⟩ }

/-- The same with tile 0 as given. -/
def withTile (x : Tile) : State := { base with tiles := [(0, x)] }

/-- First address of tile 0's SRAM (R221). -/
def sr : Nat := 0x010000000000

/-- Bytes written to memory. -/
def put (s : State) (l : List (Nat × List Byte)) : State := l.foldl (fun s p => s.setMem (wrBytes s.mem p.1 p.2)) s

/-- A normally consumed descriptor of two dimensions at most (R52). -/
def desc (tid fmt bshape e0 e1 rank mbase sbase : Nat) : List Byte :=
  packFields 64 [(0, 4, tid), (4, 4, fmt + 16 * bshape + 512 + 4096 * rank + 0x390000), (8, 4, e0), (12, 4, e1), (16, 4, 1), (20, 4, 1),
    (24, 8, mbase), (32, 8, sbase)]

/-- An array operation record without advances (R269). -/
def arec (kstart klen m movd0 movd1 dstd0 dstd1 w xd : Nat) : List Byte :=
  packFields 128 ([(0, 4, movd0), (4, 4, movd1), (8, 4, dstd0), (12, 4, dstd1), (80, 2, kstart), (82, 2, klen), (84, 4, m), (92, 4, w),
    (96, 4, xd), (100, 4, if xd = 0 then 0 else xd + 64), (104, 4, if xd = 0 then 0 else xd + 128)] ++ [0, 1, 2, 3].map fun i => (108 + 4 * i, 4, 31))

/-- A context on tile 0 and tile 1. -/
def ctx0 : Ctx := { State.reset.newCtx { RegRec.empty with job := 9, tiles := 3, wdog := 1000 } [] with st := .running, begun := true }

/-- The context resident. -/
def resident (s : State) (c : Ctx) : State := { s with ctxs := [(0, c)], sched := ⟨some 0, false, false, none⟩ }

/-! States that meet the statements' hypotheses: the queue, the invariants, the control slots -/

theorem wit_StepRunsFront : State.reset.pending = [] := rfl

/-- A state that meets the invariant and steps. -/
theorem wit_StepKeepsInv : let s : State := { base with pending := [.hbmRefresh 0] }
    s.Inv ∧ ∃ t, step s = .next t := by
  refine ⟨⟨by decide, by unfold Fuses.legal; decide, by decide, ?_⟩, _, rfl⟩
  intro t u ht hu h
  have e : ∀ k, base.plc.phys k = 17 * (k / 16) + k % 16 := fun k => rfl
  simp only [e] at h
  omega

theorem wit_FusesOnlyBlow : let s : State := { base with pending := [.hbmRefresh 0] }
    s.Inv ∧ ∃ t, step s = .next t := wit_StepKeepsInv

theorem wit_QueueOnlyShrinks : ∃ t, exec (.hbmRefresh 0) { base with pending := [.tick] } = .next t := ⟨_, rfl⟩

theorem wit_IndexRegisterSlots : (withTile on0).canIssue 0 = true ∧ ((withTile on0).tile 0).counts 15 = false ∧
    (let s := withTile { on0 with lv := [(3, ⟨2, 0, true⟩)] }
     s.canIssue 0 = true ∧ (s.tile 0).counts 15 = true) := by decide

theorem wit_TimeAndStatusSlots : let s := withTile on0
    s.canIssue 0 = true ∧ (14 : Nat) % 2 = 0 ∧ (s.tile 0).counts 14 = false ∧ (s.tile 0).counts 15 = false := by decide

theorem wit_LoopSlots : let s := withTile { on0 with x := [(1, 1)] }
    s.canIssue 0 = true ∧ (∀ k, k ≤ 3 → ((s.tile 0).level k).active = false) ∧ (1 : BitVec 24) ≠ 0 ∧
    0 < (sget zero32 (s.tile 0).x 1).toInt ∧
    (let x : Tile := { on0 with lv := [(2, ⟨2, 5, true⟩)] }
     (sget zero32 x.x 14).toNat + 1 < (x.level 2).count) ∧
    (let x : Tile := { on0 with lv := [(2, ⟨2, 5, true⟩)], x := [(14, 1)] }
     (x.level 2).count ≤ (sget zero32 x.x 14).toNat + 1) := by decide

theorem wit_LocalSyncSlots : let s := withTile { on0 with sync := [(3, 7)] }
    s.canIssue 0 = true ∧ (7 : BitVec 24).toNat ≤ (sget zero32 (s.tile 0).sync 3).toNat ∧ s.owes 0 3 = false ∧ (s.tile 0).incHeld 3 65535 = false := by
  decide

theorem wit_WaitHolds : let s := withTile { on0 with sync := [(3, 7)] }
    s.canIssue 0 = true ∧ (sget zero32 (s.tile 0).sync 3).toNat < (8 : BitVec 24).toNat := by decide

theorem wit_RemoteSyncSlot : let s := resident (withTile on0) ctx0
    s.canIssue 0 = true ∧ s.resCtx = some (0, ctx0) ∧ bitOf ctx0.rr.tiles.toNat 1 = true := by decide

theorem wit_JumpAndHaltSlots : (withTile on0).canIssue 0 = true ∧ ((withTile on0).tile 0).looping = false ∧
    (let s := withTile { on0 with lv := [(0, ⟨2, 0, true⟩)] }
     s.canIssue 0 = true ∧ (s.tile 0).looping = true) := by decide

/-! The records that the following states hold in tile 0's SRAM -/

/-- A carried LG8 descriptor with an overflow bitmap (R46, R61). -/
def descS (tid e0 mbase sbase obase : Nat) : List Byte :=
  packFields 64 [(0, 4, tid), (4, 4, 16 + 128 + 512 + 0x390000), (8, 4, e0), (12, 4, 1), (16, 4, 1), (20, 4, 1), (24, 8, mbase), (32, 8, sbase), (40, 8, obase)]

/-- Descriptors and records by SRAM offset: LG8 and FP32 tensors; array records for each shape; a segment record and its program load
record; a carried tensor; the source and slices of vslice; an update record. -/
def recs : List (Nat × List Byte) :=
  [(64, desc 7 0 1 256 256 1 (sr + 0x10000) (sr + 0x40000)), (128, desc 8 3 0 512 1 1 (sr + 0x50000) 0), (192, desc 9 3 0 512 1 1 (sr + 0x52000) 0),
   (256, arec 0 256 16 64 0 64 0 4 0), (384, arec 128 128 16 64 0 64 0 4 0), (512, arec 0 256 16 64 64 64 64 4 0), (640, arec 192 64 16 64 0 64 0 4 0),
   (768, arec 0 0 16 64 64 64 0 4 0), (896, arec 0 256 0 64 0 0 0 0 0), (1024, arec 0 256 16 64 8192 128 192 (4 + 4096) 8256), (8192, desc 21 0 1 256 256 1 (sr + 0x10000) (sr + 0x40000)),
   (8256, desc 22 0 1 256 256 1 (sr + 0x10000) (sr + 0x40000)), (8320, desc 23 0 1 256 256 1 (sr + 0x10000) (sr + 0x40000)),
   (8384, desc 24 0 1 256 256 1 (sr + 0x10000) (sr + 0x40000)), (2048, packFields 32 [(12, 4, 5), (16, 4, 2112)]), (2112, packFields 32 [(8, 2, 0), (10, 2, 1)]),
   (2304, descS 10 256 (sr + 0x54000) (sr + 0x55000) (sr + 0x56000)), (3072, desc 11 3 0 512 1 1 (sr + 0x60000) 0),
   (3136, desc 12 0 1 512 1 1 (sr + 0x62000) (sr + 0x63000)), (3200, desc 13 0 1 512 1 1 (sr + 0x64000) (sr + 0x65000)),
   (3264, desc 14 0 1 512 1 1 (sr + 0x66000) (sr + 0x67000)), (4096, packFields 64 [(4, 4, 512), (24, 4, 128), (28, 4, 192)])]

/-- The bytes of a table, at their addresses. -/
def cells (l : List (Nat × List Byte)) : Mem := l.flatMap fun p => (p.2.zipIdx.map fun q => (p.1 + q.2, q.1)).filter fun q => q.2 != 0

/-- Tile 0 with some of these in its SRAM. -/
def img (l : List Nat) (x : Tile) : State :=
  { withTile x with hbm := ⟨cells ((recs.filter fun p => l.contains p.1).map fun p => (sr + p.1, p.2)), [], [], []⟩ }

/-- An answer was given. -/
def isOk {α : Type} (x : Except JF α) : Bool := x.toOption.isSome

theorem wit_PpSlot : let s := img [2048, 2112] on0
    s.canIssue 0 = true ∧ (s.tile 0).looping = false ∧ isOk (s.segAt_ 0 (32 * 64)) = true ∧ s.resCtx = none ∧
    s.readHeld 0 (spans 0 (s.segReads 0 (32 * 64))) = false ∧ s.cHolds 0 ⟨0x0E, 32, 0, 0, 0, false⟩ = [] ∧
    s.ppStops 0 = false ∧ s.ppKeeps = false := by decide +kernel

theorem wit_ScaleAdvanceSlot : (let s := img [2304] { on0 with x := [(1, 16)] }
    s.canIssue 0 = true ∧ (s.tile 0).converting = false ∧ (s.tile 0).vupd = none ∧ (s.tile 0).sadv = none ∧
    s.readHeld 0 (spans 0 [(36 * 64, 64)]) = false ∧ isOk (s.checkSadv 0 36 0 1 5) = true ∧ s.collWrites 0 = false) ∧
    (let a : Sadv := ⟨100, TDesc.ofBytes (descS 10 256 (sr + 0x54000) (sr + 0x55000) (sr + 0x56000)), 0, 16, 5, 0, 0⟩
     let s := img [2304] { on0 with sadv := some a }
     (s.tile 0).sadv = some a ∧ s.clk.enabled = true ∧ s.sadvDue 0 a = true ∧ isOk (s.finishSadv 0 a) = true) := by decide +kernel

theorem wit_LanewiseVectorSlots : let s := withTile on0
    s.canIssue 0 = true ∧ (List.range 0x26).all (fun op => s.vFree 0 (vecR op 1 2 4 6 0 0)) = true ∧ (2 : BitVec 5).toNat % 2 = 0 := by decide +kernel

theorem wit_CompareVectorSlots : let s := withTile on0
    s.canIssue 0 = true ∧ [0, 7].all (fun d => [0x0B, 0x0C, 0x0D, 0x0E].all fun op => s.vFree 0 (vecR op d 2 4 0 0 0)) = true := by decide +kernel

theorem wit_ReductionVectorSlots : let s := withTile on0
    s.canIssue 0 = true ∧ [0x22, 0x23, 0x24, 0x25].all (fun op => s.vFree 0 (vecR op 1 2 0 0 0 511)) = true := by decide +kernel

theorem wit_PairAddVectorSlot : let s := withTile on0
    s.canIssue 0 = true ∧ (30 : BitVec 5).toNat % 2 = 0 ∧ s.vFree 0 (vecR 0x20 30 0 2 0 0 0) = true := by decide +kernel

theorem wit_VectorLoadSlot : let s := img [128] on0
    s.canIssue 0 = true ∧ 0 ≤ (s.tile 0).xs 0 ∧ s.vFree 0 (vecM 0x30 1 0 2 0 0 false false) = true ∧
    s.recsFree 0 (vecM 0x30 1 0 2 0 0 false false) = true ∧
    (match s.descLocal 0 2 0 with
     | .ok d => isOk (s.negChecked d (d.elemsAt s.mem (d.laneIdx 0))) && !s.readHeld 0 (d.idxReads (d.laneIdx 0)) &&
       d.negs (d.elemsAt s.mem (d.laneIdx 0)) == 0
     | .error _ => false) = true := by decide +kernel

theorem wit_VectorStoreSlots :
    (let s := img [128] on0
     s.canIssue 0 = true ∧ 0 ≤ (s.tile 0).xs 0 ∧
     (s.vFree 0 (vecM 0x31 1 0 2 0 0 false false) && s.recsFree 0 (vecM 0x31 1 0 2 0 0 false false)) = true ∧
     (match s.descLocal 0 2 0 with | .ok d => d.fmt == 3 | .error _ => false) = true) ∧
    (let s := img [64] on0
     (s.vFree 0 (vecM 0x32 1 0 1 0 0 false false) && s.recsFree 0 (vecM 0x32 1 0 1 0 0 false false)) = true ∧
     (match s.descLocal 0 1 0 with | .ok d => !formBad d 0 false false | .error _ => false) = true) ∧
    (let s := img [128, 192] on0
     (s.vFree 0 (vecM 0x32 1 0 2 0 0 false true) && s.recsFree 0 (vecM 0x32 1 0 2 0 0 false true)) = true ∧
     (match s.descLocal 0 2 0, s.descLocal 0 2 1 with | .ok d, .ok e => !formBad d 0 false true && e.fmt == 3 | _, _ => false) = true) ∧
    (let s := img [3072, 3136, 3200, 3264] on0
     (s.vFree 0 (vecM 0x34 0 0 48 0 0 false false) && s.recsFree 0 (vecM 0x34 0 0 48 0 0 false false)) = true ∧
     (match s.descLocal 0 48 0, s.descLocal 0 48 1, s.descLocal 0 48 2, s.descLocal 0 48 3 with
      | .ok a, .ok h, .ok m, .ok l => !a.lum && sliceFault a [h, m, l] == none && !s.readHeld 0 (sliceReads a h 0)
      | _, _, _, _ => false) = true) := by decide +kernel

theorem wit_DropoutMaskSlot : let s := img [128] on0
    let b := Bundle.ofV { VSlot.nop with op := 0x33, vd := 7, q := 9, drec := 2, xreg := 0 }
    s.canIssue 0 = true ∧ 0 ≤ (s.tile 0).xs 0 ∧ s.vFree 0 b = true ∧ s.recsFree 0 b = true ∧ isOk (s.descNear 0 2 0) = true := by decide +kernel

/-- The update that record 64 of the image starts. -/
def upd0 : VUpd := match (img [128, 192, 4096] on0).checkUpd 0 4096 with
  | .ok v => v
  | .error _ => ⟨0, URecord.ofBytes [], PGroup.ofBytes [], [], 0, 0⟩

/-- A store of lanes that lands in this tick. -/
def vwr0 : VWrite := ⟨100, false, 0, [TDesc.ofBytes (desc 8 3 0 512 1 1 (sr + 0x50000) 0)], 0, [], 0, 0, false, false, 0, 0⟩

theorem wit_VectorWorkEnds : (let s := img [128, 192, 4096] on0
     let b := vecM 0x35 0 0 64 0 0 false false
     s.canIssue 0 = true ∧ s.vFree 0 b = true ∧ s.recsFree 0 b = true ∧ isOk (s.checkUpd 0 (64 * 64)) = true) ∧
    (let s := img [128, 192, 4096] { on0 with vwr := [vwr0] }
     (s.tile 0).landing s.clk.etick = some 0 ∧ (s.tile 0).vwr[0]? = some vwr0 ∧ s.clk.enabled = true ∧ s.writeHeld 0 vwr0.ivs = false) ∧
    (let w := { vwr0 with landed := true }
     let s := img [128, 192, 4096] { on0 with vwr := [w] }
     (s.tile 0).vwr = [w] ∧ w.landed = true ∧ isOk ((s.setTile 0 { s.tile 0 with vwr := [] }).landWrite 0 w) = true) := by
  decide +kernel

/-- The image with the update in progress, when its time has come. -/
def updating : State := let s := img [128, 192, 4096] { on0 with vupd := some upd0 }
  { s with clk := { s.clk with etick := 2000 } }

theorem wit_VupdComplete : (updating.tile 0).vupd = some upd0 ∧ updating.clk.enabled = true ∧ updating.updDue 0 upd0 = true := by
  decide +kernel

theorem wit_VupdComplete2 : isOk (updating.finishUpd 0 upd0) = true := by decide +kernel

/-! Arrays, streams, HBM and the barrel -/

/-- A loaded plane's column set. -/
def mt0 : PMeta :=
  ⟨0, 0, 256, 16, 0, false, { AOp.ofRec 7 (ARec.ofBytes 0 []) Tile.init with mov0 := TDesc.ofBytes (desc 6 0 1 256 256 1 (sr + 0x10000) (sr + 0x40000)) }⟩

/-- A tile whose array B0 holds a shadow plane. -/
def loaded : Tile := { on0 with b0 := { Arr.init with shadow := { Plane.init with lo := some mt0, hi := some mt0 } } }

/-- What an array instruction needs to issue to B0. -/
def canArray (s : State) (op rec : Nat) : Bool :=
  let r := ARec.ofBytes (rec * 128) (s.sram 0 (rec * 128) 128)
  s.canIssue 0 && s.recsFree 0 (arraySlot 1 op (BitVec.ofNat 19 rec)) && (s.tile 0).accepts 1 s.clk.etick && (!r.swap || ((s.tile 0).arr 1).ready) &&
    s.skHold 0 [(1, op, rec)] == [] &&
    (match s.arrayOp 0 op rec false (((s.tile 0).arr 1).entryPlane r.swap) with
     | .ok o => isOk (s.skOf 0 o)
     | .error _ => false)

theorem wit_ArraySlots : [(1, 2), (7, 7)].all (fun p => canArray (img [64, 128 * p.2] on0) p.1 p.2) = true := by decide +kernel

theorem wit_ArraySlots_cx : canArray (img [64, 128, 192, 1024, 8192, 8256, 8320, 8384] loaded) 0x21 8 = true := by
  decide +kernel

theorem wit_PairSlots : let s := img [64, 384, 896] on0
    s.canIssue 0 = true ∧ isProduct 4 = true ∧ opKnown 7 = true ∧
    [(1, 4, 3), (2, 4, 3), (1, 7, 7), (2, 7, 7)].all (fun p => isOk (s.prepArray 0 p)) = true ∧
    s.holds 0 (.ofB ⟨3, 4, 3, 4, 3, false⟩) false = [] ∧ s.holds 0 (.ofB ⟨4, 7, 7, 7, 7, false⟩) false = [] ∧
    s.holds 0 (.ofB ⟨1, 7, 7, 0, 0, false⟩) false = [] ∧ s.holds 0 (.ofB ⟨2, 7, 7, 0, 0, false⟩) false = [] := by decide +kernel

/-- A stream descriptor of four granules without a tensor (R233). -/
def sdesc (c soff : Nat) : List Byte :=
  packFields 64 [(0, 4, c), (12, 4, soff), (16, 8, 0x1000), (24, 2, 4), (26, 2, 1), (28, 2, 1), (30, 2, 1), (48, 8, 0x1000), (56, 8, 0x5000)]

/-- Paced inbound, outbound, and to another device. -/
def streams : State :=
  { withTile on0 with hbm := ⟨cells [(sr + 5120, sdesc 4 0x100000), (sr + 5184, sdesc 1 0x100000), (sr + 5248, sdesc 2 0x100000),
      (sr + 5312, packFields 32 [(0, 8, 0x2000), (10, 2, 1)])], [], [], []⟩ }

/-- The running form of the first. -/
def inb0 : Inb := ⟨[], SDesc.ofBytes (sdesc 4 0x100000), TDesc.absent, .stream, 1, 0, 0, [], []⟩

theorem wit_StreamSlots : let s := streams
    s.canIssue 0 = true ∧ (s.tile 0).barrelOn = false ∧
    [(80, 0), (81, 1), (82, 2)].all (fun p => s.recsFree 0 (.ofS ⟨1, 31, p.1, 0, false, false⟩) && s.sHolds 0 ⟨1, 31, p.1, 0, false, false⟩ == [] &&
      match s.sgoDesc 0 ⟨1, 31, p.1, 0, false, false⟩ with
      | .ok q => q.2.1.dir == p.2
      | .error _ => false) = true ∧
    s.recsFree 0 (.ofS ⟨4, 31, 83, 0, false, false⟩) = true ∧ sfind (s.tile 0).inb 31 = none ∧
    (match s.recAt 0 (83 * 64) 32 32 with | .ok b => !(LoadRec.ofBytes b).bad | .error _ => false) = true ∧
    (let v := withTile { on0 with inb := [(3, inb0)], x := [(2, 1)] }
     v.canIssue 0 = true ∧ sfind (v.tile 0).inb 3 = some inb0 ∧ inb0.use = .stream ∧ inb0.sd.paced = true ∧ 0 < (v.tile 0).xs 2) := by decide +kernel

/-- A context that may read and write the first 16 pages of HBM. -/
def ctxHbm : Ctx := { ctx0 with regs := [⟨0, 0x10000, 0x1F⟩] }

theorem wit_StreamFetches : let s := resident (withTile { on0 with inb := [(3, inb0)] }) ctxHbm
    sfind (s.tile 0).inb 3 = some inb0 ∧ inb0.fl.length < 8 ∧ inb0.sd.outside inb0.td 0 = false ∧ s.refused 0 (inb0.sd.addr 0) 0 = false ∧ s.streamOn 0 3 = true ∧
    s.staleFlight 0 3 inb0 = none ∧ inb0.wanted = some 0 ∧ s.farHeld 0 (inb0.sd.addr 0) = false ∧
    (let i := { inb0 with demand := 0, sd := { inb0.sd with ahead := 8 } }
     i.next = 0 ∧ i.sd.paced = true ∧ i.demand ≤ 0 ∧ 0 < i.demand + i.sd.ahead ∧ 0 < i.sd.n ∧
     (s.hbm.ctlOf (hbmMap (i.sd.addr 0)).1).win.length < 2048) := by decide +kernel

/-- A granule that has arrived whole. -/
def flight0 : Flight := ⟨0, 0x1000, false, List.replicate 4096 1, 0, false, false, false, false, 0⟩

/-- The stream that waits for it. -/
def inbF : Inb := { inb0 with fl := [flight0], next := 1 }

theorem flight0_whole : flight0.whole = true := by decide +kernel

theorem wit_GranuleDelivery : let s := withTile { on0 with inb := [(3, inbF)] }
    sfind (s.tile 0).inb 3 = some inbF ∧ inbF.use = .stream ∧ s.clk.enabled = true ∧ s.deliverable 0 3 inbF = some flight0 ∧ flight0.runAhead = false ∧
    inbF.fails s.step flight0 = false := by
  refine ⟨rfl, rfl, rfl, ?_, rfl, by decide +kernel⟩
  have h : ∀ (f : Flight), f.j = 0 → f.runAhead = false → f.whole = true →
      (withTile { on0 with inb := [(3, inbF)] }).deliverable 0 3 { inb0 with fl := [f] } = some f := by
    intro f h0 h1 h2
    have d : inb0.demand = 4 ∨ 0 < inb0.demand := by decide +kernel
    have w : inb0.written = 0 := rfl
    have d' : 0 < inb0.demand := by omega
    have p : ∀ i, (withTile { on0 with inb := [(3, inbF)] }).placeHeld 0 i f = false := by
      intro i
      have m : ∀ e, (withTile { on0 with inb := [(3, inbF)] }).moveHolds 0 e 1 f.epoch = false := fun e => rfl
      have q : ∀ k, sget noFlag ((withTile { on0 with inb := [(3, inbF)] }).tile 0).spillHold k = false := fun k => rfl
      unfold State.placeHeld
      cases i.use <;> simp [m, q]
    simp [State.deliverable, h0, h1, h2, w, d', p]
  exact h flight0 rfl rfl flight0_whole

/-- An outbound stream whose granules are all accepted. -/
def outb0 : Outb := ⟨SDesc.ofBytes (sdesc 1 0x100000), TDesc.absent, none, 4, [], 4⟩

theorem wit_StreamEnds : let i := { inb0 with written := 4 }
    let s := withTile { on0 with inb := [(3, i), (4, { i with use := .load 0 1 0 true })], outb := [(3, outb0)] }
    sfind (s.tile 0).inb 3 = some i ∧ i.use = .stream ∧ i.written = i.sd.n ∧ sfind (s.tile 0).outb 3 = some outb0 ∧ outb0.sd.dir = 1 ∧
    outb0.lead = outb0.sd.n ∧ outb0.spill = none ∧ sfind (s.tile 0).inb 4 = some { i with use := .load 0 1 0 true } := by decide +kernel

/-- A request in a controller's queue. -/
def req (w : Bool) : HReq := ⟨0, 3, 0, 0x1000, w, 0, [], none, false⟩

/-- A controller with that request. -/
def asked (w : Bool) : Hctl := { Hctl.init with queue := [req w] }

theorem wit_HbmRows : let s := fun w => { base with hbm := ⟨[], [], [(11, asked w)], []⟩ }
    [true, false].all (fun w => ((s w).hbm.ctlOf 11).queue[0]? == some (req w) && (((s w).hbm.ctlOf 11).pick (s w).plc.phys []).1 == some (.inl 0) &&
      (req w).write == w) = true ∧ hubsOk 11 [] = true ∧
    (let a := (List.range 64).find? fun g => (hbmMap (4096 * g)).1 == 11
     a.any (fun g => hubsOk 11 [(3, 8, 4096 * g)] && (Hctl.init.pick base.plc.phys [(3, 8, 4096 * g)]).1 == some (.inr 0)) = true) := by decide +kernel

/-- A lane record: a window of two granules at 0x200000, records at 0x2000, a frame there with its key. -/
def laneRec : List Byte := packFields 64 [(0, 4, 0x200000), (4, 4, 0x2000), (12, 4, 4), (16, 8, 0x8000), (24, 8, 0x10000), (32, 8, 0x2000)]

/-- The lane with one frame. -/
def lane1 : Lane := ⟨laneRec, 0x1000, 1, 1, []⟩

/-- A frame record of one granule at offset 0, its state as given; push records for a push and a pop; the lane's record. -/
def stash (x : Tile) (st : Nat) : State :=
  { withTile x with hbm := ⟨cells [(0x2000, packFields 32 [(0, 2, 1), (3, 1, 2 * st), (16, 4, 0x1000)]), (sr + 6144, laneRec),
      (sr + 6208, packFields 16 [(0, 2, 1), (8, 4, 0x1000), (12, 4, 0x201000)])], [], [], []⟩ }

theorem wit_BarrelRows : (let s := stash on0 0
     s.canIssue 0 = true ∧ s.recsFree 0 (.ofC ⟨0x10, 5, 96, 0, 0, false⟩) = true ∧
     (match s.recAt 0 (96 * 64) 64 64 with | .ok b => !laneBad b | .error _ => false) = true ∧ ((s.tile 0).laneOf 5).depth = 0) ∧
    (let s := stash { on0 with lanes := [(5, lane1)] } 0
     s.canIssue 0 = true ∧ s.recsFree 0 (.ofC ⟨0x11, 5, 97, 0, 0, false⟩) = true ∧ s.recsFree 0 (.ofC ⟨0x12, 5, 97, 0, 0, false⟩) = true ∧
     (match s.pushRec 0 97 with | .ok r => lane1.pushFault r == none && lane1.keyIs s.mem 0 r | .error _ => false) = true ∧ lane1.depth ≠ 0) ∧
    (let s := stash { on0 with lanes := [(5, { lane1 with owed := [0] })] } 0
     s.nextSpill 0 5 = some 0 ∧ sfind (s.tile 0).outb 31 = none ∧ s.streamOn 0 31 = true) ∧
    (let s := stash { on0 with lanes := [(5, lane1)] } 3
     s.nextFill 0 5 = some 0 ∧ sfind (s.tile 0).inb 31 = none ∧ s.streamOn 0 31 = true) := by decide +kernel

/-! Work in the arrays, the watches, the tile's program and the clock -/

/-- An array instruction of product 1 over one moving row of eight elements, `WR` = 0. -/
def prod1 : AOp := { AOp.ofRec 1 { ARec.ofBytes 0 [] with m := 1, klen := 8 } Tile.init with wr := false }

/-- It with its row through the array. -/
def inst1 (done : Nat) : AInst :=
  { AInst.blank with o := prod1, planes := [Plane.init], p0 := ⟨0, 1, 0, if done = 0 then [⟨0, [List.replicate 8 (0, 1)]⟩] else [], done, 0, 0⟩ }

/-- A split-K record of tiles 0 and 1 with root 0 and two slots (R142). -/
def sk1 : SkRec := ⟨7, 2, 0, 3, 0, 2, 0⟩

/-- A reduction at its root, a part crossing the mesh. -/
def red1 : SkRed := ⟨sk1, 0, 1, 0, 0, [], [⟨0, 1, [], false, 0⟩], { inst1 0 with sk := some sk1 }⟩

theorem wit_ArrayRows :
    (let s := withTile { on0 with f := { Arr.init with loads := [⟨0, 0, AOp.ofRec 7 (ARec.ofBytes 0 []) Tile.init⟩] } }
     s.loadDue 0 0 = true) ∧
    (let s := { withTile { on0 with b0 := { Arr.init with q := [inst1 0] } } with clk := ⟨1000000, 1000, 0, true, true⟩ }
     s.commitDue 0 1 = true ∧ isOk (s.tryCommit 0 1 0) = true) ∧
    (let s := withTile { on0 with b1 := { Arr.init with q := [inst1 1] } }
     s.doneAt 0 2 = some 0) ∧
    (let s := withTile { on0 with sk := [red1] }
     ((s.tile 0).sk.any fun r => r.k.id == 7 && r.canGrant) = true ∧ ((s.tile 0).flyingPart 7).any (fun q => s.partFree 0 q.1 q.2) = true ∧
     isOk (s.partArrive 0 7) = true) := by decide +kernel

/-- A captured check of one element: partials of 3 and 1 end in 4. -/
def check1 (done : Bool) : Check := ⟨0, 0, 1, 0, 8, 8, Plane.init, [[(0, 1)]], [(asEmpty, [⟨0, 3, false⟩, ⟨0, 1, false⟩], ⟨0, 4, false⟩)], done, 0⟩

/-- A module whose fault watch and drift watch are on (R596), with the physical tile as given. -/
def watched (x : PTile) : State := ({ base with ptiles := [(67, x)] } : State).setReg 0x40000 3

theorem wit_WatchRows : (watched PTile.init).watchOn = true ∧ (watched PTile.init).driftOn = true ∧
    (PTile.init.tour.count = 0 ∧ PTile.init.driftBlk = [] ∧ PTile.init.drift.count = 0) ∧
    (∀ d, ((watched { PTile.init with check := some (check1 d) }).ptile 67).check = some (check1 d) ∧
      (watched { PTile.init with check := some (check1 d) }).clk.enabled = true ∧ (watched { PTile.init with check := some (check1 d) }).watchIdle 0 0 = true) ∧
    (∀ e ∈ (check1 true).elems, watchFails e.1 e.2.1 e.2.2 = false) ∧
    (((watched { PTile.init with driftBlk := [⟨1, 0, 0, 3, false, [], ⟨0, [], 0, 0, false, true, false, 0⟩⟩] }).ptile 67).driftBlk ≠ []) ∧
    sfind ((watched { PTile.init with suspect := [(2, 100)] }).ptile 67).suspect 2 = some 100 ∧ (100 : W64) ≤ (watched PTile.init).now := by
  decide +kernel

theorem wit_TileRows :
    (let s := withTile { on0 with incs := [⟨3, 1, 4, 0⟩, ⟨5, 7, 72, 0⟩, ⟨5, 9, 72, 0⟩], sync := [(5, 1)], landed := [(5, 1)] }
     (s.tile 0).incs.zipIdx.find? (fun q => q.1.obj == (5 : BitVec 8).toNat && s.incCome 0 q.2 q.1) = some (⟨5, 7, 72, 0⟩, 1) ∧ (s.tile 0).takes ⟨5, 7, 72, 0⟩ = true) ∧
    (let s := resident (withTile { on0 with held := 1001, seg := Seg.ofBytes (packFields 32 [(0, 4, 5), (4, 4, 10)]), segAt := some 1 }) ctx0
     s.resCtx = some (0, ctx0) ∧ bitOf ctx0.rr.tiles.toNat 0 = true ∧ (s.tile 0).run = .on ∧ ctx0.rr.wdog < (s.tile 0).held ∧
     (s.tile 0).overrun s.clk.etick = true) ∧
    (let s := img [2048, 2112] { on0 with run := .halted }
     (s.tile 0).run = .halted ∧ isOk (s.startHalted 0 2048) = true) := by decide +kernel

/-- A tile whose bundle 0 is the word. -/
def bundled (w : Nat) : State := withTile { on0 with ibuf := [(0, w)] }

theorem wit_BundleIssues : (∀ w, (bundled w).canIssue 0 = true) ∧
    (let s := bundled (2 ^ 216 * (0x08 + 64 * 3))
     let b := s.fetched 0
     s.holds 0 b true = [] ∧ isOk (s.prepBundle 0 b true) = true) ∧
    (let s := bundled 16
     let b := s.fetched 0
     s.holds 0 b true = [] ∧ isOk (s.prepBundle 0 b true) = false) ∧
    (let s := bundled (2 ^ 216 * (0x01 + 64 * 3 + 2 ^ 14))
     s.holds 0 (s.fetched 0) true ≠ []) ∧
    8191 < ((withTile { on0 with pc := 8192 }).tile 0).pc ∧ (withTile { on0 with pc := 8192 }).canIssue 0 = true := by
  refine ⟨fun w => rfl, ?_⟩
  decide +kernel

theorem wit_TickRow : State.reset.phase = .inReset ∧ base.phase ≠ .inReset := by decide

/-! The links and the transport -/

/-- A module with port 23 (with its LNK_Pn_CTRL enable) as given, at device time 2^40. -/
def withLink (x : LinkPort) : State :=
  ({ base with links := [(23, x)], clk := ⟨2 ^ 40, 100, 0, true, true⟩ } : State).setReg 0x20000 1 |>.setReg (0x20100 + 0x40 * 23) 1

theorem wit_PortRows : (withLink LinkPort.init).portOn 23 = true ∧ ((withLink LinkPort.init).link 23).state = .down ∧
    (let s := withLink { LinkPort.init with state := .training }
     (s.link 23).state = .training ∧ s.cageFits 23 = true ∧ (s.link 23).since.toNat + bringUpTicks ≤ s.now.toNat) ∧
    (let s := withLink { LinkPort.init with state := .init, initGot := true }
     (s.link 23).state = .init ∧ (s.link 23).initGot = true ∧ (s.link 23).initAt.toNat + 2 ^ 16 ≤ s.now.toNat) ∧
    ((withLink { LinkPort.init with state := .calibrating }).link 23).state = .calibrating ∧
    (let s := withLink { LinkPort.init with state := .failed }
     (s.link 23).state = .failed ∧ (s.link 23).since.toNat + 2 ^ 30 ≤ s.now.toNat) := by decide +kernel

/-- An optical module never read. -/
def cage1 : Cage := ⟨⟨[1], [2], [3], [4], [5], [6]⟩, true, false, true, true, 0, false, 0, 0, Monitor.init⟩

theorem wit_CageRows : (let s := withLink LinkPort.init
     s.up = true ∧ (s.link 23).cage = none ∧ (s.link 23).state ≠ .failed ∧ (s.link 23).state ≠ .unsupported) ∧
    (let s := withLink { LinkPort.init with cage := some cage1 }
     s.up = true ∧ (s.link 23).cage = some cage1 ∧ 2 ^ 30 ≤ s.now.toNat - cage1.pollAt.toNat ∧ cage1.optical = true ∧ alarmCount [] = 0 ∧ hotFlag [] = false ∧ hotFlag [0, 1] = true) ∧
    (let s := { withLink { LinkPort.init with cage := some cage1 } with clk := ⟨2 ^ 60, 100, 0, true, true⟩ }
     s.up = true ∧ (s.link 23).cage = some cage1 ∧ cage1.recAt.toNat + laserTicks ≤ s.now.toNat) := by
  decide +kernel

/-- A flit of a kind with a good CRC; DATA carries one byte. -/
def flit (kind : Nat) : List Byte :=
  let b := natLe 8 (if kind = 1 then 1 + 2 ^ 32 else kind) ++ List.replicate 244 0
  b ++ natLe 4 (crc32 b).toNat

theorem wit_FlitRows : [0, 1, 2, 3, 4, 5].all (fun k => (flit k).length == 256 && flitCrcOk (flit k) && !(FlHdr.ofBytes (flit k)).bad &&
      (FlHdr.ofBytes (flit k)).kind == k) = true ∧
    (LinkPort.init.noteFec [] 0 |>.state.sends) = false ∧ (({ LinkPort.init with state := .up } : LinkPort).noteFec [] 0).state.sends = true ∧
    (({ LinkPort.init with state := .sparing, laneOut := some 0 } : LinkPort).noteFec [] 0).state.sends = true ∧
    flitCrcOk (List.replicate 256 1) = false ∧ flitCrcOk (flit 6) = true ∧ (FlHdr.ofBytes (flit 6)).bad = true ∧ fieldLe (((flit 4).drop 8).take 44) 0 2 = 0 := by
  decide +kernel

/-- A TIME flit that is a response with number 5 (R327). -/
def timeResp : List Byte :=
  let b := natLe 8 4 ++ natLe 2 1 ++ natLe 2 5 ++ List.replicate 240 0
  b ++ natLe 4 (crc32 b).toNat

/-- Port 23 as the parent of fabric time (R326). -/
def childOf (x : LinkPort) : State := (withLink x).setReg 0x20010 (2 * 23)

theorem wit_FlitRows_time : timeResp.length = 256 ∧ flitCrcOk timeResp = true ∧ (FlHdr.ofBytes timeResp).bad = false ∧ (FlHdr.ofBytes timeResp).kind = 4 ∧
    fieldLe ((timeResp.drop 8).take 44) 0 2 ≠ 0 ∧ BitVec.ofNat 16 (fieldLe ((timeResp.drop 8).take 44) 2 2) = 5 ∧
    (let s := childOf { LinkPort.init with state := .up, timeSeq := 5, timeT3 := some 7 }
     let x := ((s.link 23).noteFec [] s.now).takeHdr (FlHdr.ofBytes timeResp)
     x.timeT3 = some 7 ∧ s.timeParent = some 23 ∧ x.state = .up ∧ x.timeSeq = 5) := by decide +kernel

theorem wit_LaneAndTimeRows : (let x := ({ LinkPort.init with state := .up, lanes := 15, retryAt := some 5, delay := 0xFFFFFF, tlock := true } : LinkPort)
     let s := childOf x
     (s.link 23).retryAt = some 5 ∧ (s.link 23).state = .up ∧ (5 : W64).toNat + 2 * cdiv (s.link 23).delay.toNat 256 + 64 ≤ s.now.toNat ∧
     (s.link 23).laneDue (some 3) = some 3 ∧ s.timeParent = some 23 ∧ s.lnk.reqAt = none ∧ (s.link 23).tlock = true ∧
     s.lnk.exAt.toNat + 2 ^ 26 ≤ s.now.toNat) ∧
    (∀ a, let s := withLink { LinkPort.init with state := .sparing, lanes := 15, laneOut := some 2, laneAns := a }
      (s.link 23).laneDue (some 3) = some 3 ∧ (s.link 23).laneOut = some 2 ∧ (s.link 23).state = .sparing ∧ (s.link 23).laneAns = a ∧
      (s.link 23).laneAt.toNat + 64 ≤ s.now.toNat) := by decide +kernel

/-- A packet at the front of a channel of port 5, a context of job 9 resident, and descriptor 3 of tile 1 sending and receiving. -/
def onWire (v : Nat) (h : Th) (body : List Byte) : State :=
  let b := h.bytes ++ body
  { resident base ctx0 with links := [(5, { LinkPort.init with rxq := [(v, ⟨b, [b.length]⟩)] })],
                            lnk := { LinkCommon.init with send := [(19, ⟨4, 8, 2, 9, 1, .stream 0, 1, 0, 0, none, 0⟩)],
                                                          recv := [(19, ⟨8, 2, 4, 9, 1, 1, 0, false, false, 0, 0, none⟩)] } }

/-- A header from device 8, tile 2, tag 4, to tile 1 of this device. -/
def th0 (typ aux len : Nat) : Th := ⟨typ, 0, 0, 8, 1, 2, 9, 4, 0, 1, len, 0x3000, aux⟩

/-- What arrived. -/
def wireOk (v : Nat) (h : Th) (body : List Byte) : Bool :=
  let s := onWire v h body
  let b := h.bytes ++ body
  s.packet 5 v == some b && (Th.ofBytes b).typ == h.typ && (Th.ofBytes b).dst == s.devId

theorem wit_TransportRows : wireOk 0 (th0 1 0 8) (List.replicate 16 0) = true ∧
    (let s := onWire 0 (th0 1 0 8) (List.replicate 16 0)
     s.farWriteHeld (s.entryStop 5 (th0 1 0 8)) (0x3000 / 4096 * 4096) = false) ∧
    (let b := ({ th0 1 0 8 with dst := 99 } : Th).bytes ++ List.replicate 16 0
     let s := onWire 1 { th0 1 0 8 with dst := 99 } (List.replicate 16 0)
     s.packet 5 1 = some b ∧ (Th.ofBytes b).typ = 1 ∧ (Th.ofBytes b).dst ≠ s.devId) ∧
    wireOk 4 (th0 2 0 8) (List.replicate 8 0) = true ∧ wireOk 3 (th0 8 0 0) [] = true ∧
    (wireOk 2 (th0 10 0 0) [] = true ∧ (((onWire 2 (th0 10 0 0) []).dropPacket 5 2).findRecv (th0 10 0 0)).isSome = true) ∧
    [0, 1, 2, 3].all (fun k => wireOk 2 (th0 9 k 0) [] && fieldLe (th0 9 k 0).bytes 28 2 == k &&
      (((onWire 2 (th0 9 k 0) []).dropPacket 5 2).findSend (th0 9 k 0)).isSome) = true := by decide +kernel

theorem wit_DescriptorRows : (let s := onWire 0 (th0 8 0 0) []
     let v := { s with clk := ⟨2 ^ 60, 100, 0, true, true⟩ }
     (sfind s.lnk.recv 19).any (fun d => !d.completed && d.expected == d.pcnt && decide (d.pktAt.toNat + 8 * v.e2e ≤ v.now.toNat)) = true ∧
     (s.sendAt 19).any (fun d => d.backoff.isNone && decide (d.pcnt ≤ d.next) && decide (d.sentAt.toNat + v.e2e ≤ v.now.toNat) && d.timeouts ≠ 7) = true) ∧
    [(7, none), (0, none), (0, some 4)].all (fun (q : Nat × Option W64) =>
      let s := { base with clk := ⟨2 ^ 60, 100, 0, true, true⟩, lnk := { LinkCommon.init with send := [(19, ⟨4, 8, 2, 9, 1, .stream 0, 1, 0, q.1, q.2, 0⟩)] } }
      (s.sendAt 19).any fun (d : SendD) => d.timeouts == q.1 && d.backoff == q.2 && decide (d.pcnt ≤ d.next) &&
        decide (d.sentAt.toNat + s.e2e ≤ s.now.toNat) && q.2.all (fun w => decide (w ≤ s.now))) = true := by decide +kernel

/-- A management packet of job 9 on port 5: its kind, job, and a body of 16 bytes from byte 12 (R505). -/
def mgmt (kind : Nat) (w : Nat) : List Byte := packFields 28 [(0, 1, kind), (8, 4, 9), (16, 4, w)]

/-- REJOIN_ACK whose first decision is of step 0: its body has no job identifier. -/
def mgmtAck (w : Nat) : List Byte := packFields 28 [(0, 1, 2), (12, 4, w)]

/-- The context with an open step that is neither aborted nor decided, and a restore in progress from the device at rank 0. -/
def ctxM : Ctx := { ctx0 with stepOpen := true, com := { ctx0.com with digest := some [] }, restore := some ⟨[], 0, []⟩ }

/-- A restore from device 8, which stands at rank 0 of group 0, is good where no step was committed here. -/
def donorOk : Bool :=
  let s := { resident (onWire 6 (th0 0x10 0 28) (mgmt 4 0)) { ctxM with rr := { ctxM.rr with groups := 0x9000 } } with
    hbm := ⟨cells [(0x9000, packFields 48 [(0, 4, 1), (16, 8, 0x9100)]), (0x9100, natLe 2 8)], [], [], []⟩ }
  let v := s.dropPacket 5 6
  match v.resCtx with
  | some (_, c) => v.devAt (v.group c 0) 0 == 8 && fieldLe ((th0 0x10 0 28).bytes ++ mgmt 4 0) 44 4 == 0 && v.restoreGood c
  | none => false

theorem wit_MgmtRows : [1, 2, 3, 4, 5, 6].all (fun k => wireOk 6 (th0 0x10 0 28) (mgmt k 0) && fieldLe ((th0 0x10 0 28).bytes ++ mgmt k 0) 32 1 == k &&
      (if k = 2 then (th0 0x10 0 28).job else fieldLe ((th0 0x10 0 28).bytes ++ mgmt k 0) 40 4) == 9) = true ∧
    (let s := resident (onWire 6 (th0 0x10 0 28) (mgmtAck 0)) ctxM
     let v := s.dropPacket 5 6
     v.resCtx.isSome = true ∧ ctxM.stepOpen = true ∧ ctxM.com.digest.isSome = true ∧ ctxM.com.abort = false ∧
     ackDecision ((th0 0x10 0 28).bytes ++ mgmtAck 0) ctxM.step = some false ∧ ackDecision ((th0 0x10 0 28).bytes ++ mgmtAck 1) ctxM.step = some true) ∧
    chunks 65535 (granAddrs ctxM.cur []) = [] ∧ donorOk = true := by decide +kernel

/-- The context with a current tensor, TID 5 of two granules of FP32 elements at 0x6000 (R52). -/
def ctxR : Ctx := { ctx0 with cur := [TDesc.ofBytes (desc 5 3 0 2048 1 1 0x6000 0)] }

/-- A RESTORE_REQ that names one tensor (R413). -/
def restoreB (tid : Nat) : List Byte := (th0 0x10 0 16).bytes ++ packFields 16 [(0, 1, 3), (8, 4, 9), (12, 4, tid)]

/-- The restore is served, of the granules of TID 5, or it is not, of a tensor that is not here. -/
theorem wit_MgmtRows_restore : [(5, [[0x6000, 0x7000]]), (6, [])].all (fun q =>
    let s := resident (onWire 6 (th0 0x10 0 16) ((restoreB q.1).drop 32)) ctxR
    let b := restoreB q.1
    let v := s.dropPacket 5 6
    s.packet 5 6 == some b && (Th.ofBytes b).typ == 0x10 && (Th.ofBytes b).dst == s.devId && v.resCtx == some (0, ctxR) && fieldLe b 32 1 == 3 &&
      fieldLe b 40 4 == ctxR.rr.job &&
      chunks 65535 (granAddrs ctxR.cur ((List.range ((b.length - 44) / 4)).map fun k => fieldLe b (44 + 4 * k) 4)) == q.2 &&
      v.roomSend (ctxR.tiles.headD 0) q.2.length) = true := by decide +kernel
/-! Collectives -/

/-- The collective descriptor (R342) of operation `op` at index `op`: group 0, tile 0, trigger object 3 with 1, done object 4; descriptors at
SRAM offset 64; a deadline of 10 ticks where `pol` is not 0. -/
def cdesc (op pol count root : Nat) : List Byte :=
  packFields 64 [(0, 1, op), (1, 1, 2 * pol), (4, 1, 3), (5, 1, 4), (6, 2, 1), (8, 4, count), (12, 4, root), (16, 4, 64), (20, 4, 64), (24, 4, 0x800),
    (32, 8, 0x8000), (56, 4, if op < 5 && pol ≠ 0 then 10 else 0)]

/-- An fp32 tensor of 2,048 elements at 0x6000 (R52). -/
def ctd : List Byte := desc 5 3 0 2048 1 1 0x6000 0

/-- A table of eight descriptors at 0xA000 and a group at 0x9000 of devices 0 and 8, this one at rank 0, both live (R338). -/
def ctxC : Ctx :=
  { ctx0 with rr := { ctx0.rr with ncoll := 8, coll := 0xA000, groups := 0x9000, rejoin := 1 }, regs := [⟨0, 0x100000, 0x1F⟩] }

/-- It with the group in memory, this device at a rank, some of the descriptors, and the tensor's. -/
def collAt (rank : Nat) (ds : List Nat) (x : Tile) (c : Ctx) : State :=
  { resident (withTile x) c with clk := ⟨2 ^ 40, 100, 0, true, true⟩, hbm := ⟨cells ([(0x9000, packFields 48 [(0, 4, 2), (4, 4, rank), (16, 8, 0x9100), (24, 8, 0x9200)]),
    (0x9100, natLe 2 0 ++ natLe 2 8), (0x9200, [3])] ++ ds.map (fun k => (0xA000 + 64 * k, cdesc k 0 0 0)) ++ if ds = [1] then [(sr + 64, ctd)] else []), [], [], []⟩ }

/-- The context at rank 0 or 1, with the descriptors of ESCAPE and COMMIT. -/
def coll (rank : Nat) (x : Tile) (c : Ctx) : State := collAt rank [5, 7] x c

/-- An instance of operation `op`. -/
def cinst (op pol count root sent : Nat) : CInst :=
  { cid := op, inst := 0, raw := cdesc op pol count root, src := TDesc.ofBytes ctd, dst := TDesc.ofBytes ctd, began := 0, sent := sent, opened := false,
    final := none, upSent := false, agreed := none, written := false, resSent := 0, conv := none, resGot := [], resGap := [], late := 0 }

/-- The context with that running. -/
def runs (i : CInst) : State := collAt 0 [] on0 { ctxC with running := [i] }

theorem wit_CollectiveWork :
    (let s := fun k => collAt 0 [k] { on0 with sync := [(3, 1)] } ctxC
     (s 1).resCtx = some (0, ctxC) ∧
     [1, 5].all (fun k => let s := s k
       s.triggers ctxC k && (match s.collDescs (s.cd ctxC k) with
       | .ok q => ((s.cd ctxC k).fault ctxC (s.group ctxC (s.cd ctxC k).group) q.1 q.2).isNone
       | .error _ => false)) = true) ∧
    [0, 1, 2, 3, 4].all (fun op =>
      (let i := cinst op 0 0 1 (if op = 0 then 0 else 1)
       let s := runs i
       let c := { ctxC with running := [i] }
       (c.inst op) == some i && i.d.op == op && ((s.plan c i)[i.sent]?).any (fun q => q.2 ≠ (s.groupOf c i).rank) && s.roomSend i.d.tile 1)) = true ∧
    (let i := cinst 1 0 0 0 0
     let s := runs i
     let c := { ctxC with running := [i] }
     ((s.plan c i)[i.sent]?).any (fun q => q.2 == (s.groupOf c i).rank && isOk (s.placeOwn 0 c i q.1) &&
       !s.readHeld 0 (granIvs (i.src.pieceGrans (i.srcElem q.1) i.d.count))) = true) ∧
    [2, 4].all (fun op =>
      let i := { cinst op 0 0 0 2 with agreed := some (3, 0) }
      let s := runs i
      let c := { ctxC with running := [i] }
      decide ((s.plan c i).length ≤ i.sent) && i.agreed == some (3, 0) && !i.written && i.conv.isNone && (s.tile 0).unitFree && !s.collWrites 0 &&
        !s.writeHeld 0 (granIvs ((s.expects c i 0 ++ List.range 2).flatMap fun j => i.dst.pieceGrans (i.dstElem j) i.d.count)) &&
        isOk (if op < 3 then s.reduceHere c i (3, 0) (s.expects c i 0) else s.gatherHere c i 3)) = true ∧
    (let i := { cinst 1 0 1024 0 2 with agreed := some (3, 0), written := true, conv := some 0 }
     let s := runs i
     let c := { ctxC with running := [i] }
     (s.resultPlan c i)[i.resSent]? = some (0, 1) ∧ s.roomSend 0 1 = true ∧ 0 ≤ s.clk.etick) ∧
    [5, 6, 7].all (fun op =>
      let i := cinst op 0 0 0 0
      let c := { ctxC with running := [i] }
      (c.inst op) == some i && i.d.op == op && c.esc.isNone && !i.d.step && c.st == .running && c.com.digest.isNone) = true := by decide +kernel

/-- The hash of the group (R340). -/
def ghash : Nat := (crc32cUpdate 0 (natLe 2 0 ++ natLe 2 8)).toNat

/-- A packet of the collective engine from rank 1 with a header's kind, flags, instance and step; its header names one packet. -/
def collTh : Th := ⟨3, 0, 0, 8, 0, 0, 9, 4, 0, 1, 32, 0, 0⟩

/-- Its segment header for descriptor `cid`. -/
def ch1 (kind flags cid inst step : Nat) : Ch := ⟨kind, flags, cid, inst, 1, BitVec.ofNat 32 step, 0, 0, ghash, 0⟩

/-- Its bytes. -/
def collB (q : Ch) : List Byte := collTh.bytes ++ (q.bytes ++ if q.kind < 2 then List.replicate 8 0 else [])

/-- It at the front of its channel, with an instance of operation 1 running. -/
def collS (q : Ch) (c : Ctx) : State :=
  let b := collB q
  { collAt 0 [q.cid] on0 c with links := [(5, { LinkPort.init with rxq := [(0, ⟨b, [b.length]⟩)] })] }

/-- Context and place of the packet. -/
def ctxD : Ctx := { ctxC with step := 5, running := [{ cinst 1 0 1024 0 2 with inst := 3 }] }

/-- Where the packet belongs. -/
def at1 (q : Ch) : CollAt := let s := collS q ctxD; ⟨0, ctxD, q, s.cd ctxD q.cid, s.group ctxD 0⟩

/-- The packet has arrived and belongs to the resident context (R340, R346). -/
def fits1 (q : Ch) : Bool :=
  let s := collS q ctxD
  let v := s.dropPacket 5 0
  let b := collB q
  let a := at1 q
  s.packet 5 0 == some b && (Th.ofBytes b).typ == 3 && (Th.ofBytes b).dst == s.devId && v.resCtx == some (0, ctxD) && ctxD.rr.job == (Th.ofBytes b).job &&
    Ch.ofBytes (b.drop 32) == q && a.d == v.cd ctxD q.cid && a.g == v.group ctxD a.d.group && decide (q.cid < ctxD.rr.ncoll) && v.groupHash a.g == q.ghash &&
    fieldLe b 32 1 == q.kind

theorem wit_CollectivePackets : [0, 1, 2, 3, 4].all (fun k =>
      fits1 (ch1 k 0 1 3 5) && (at1 (ch1 k 0 1 3 5)).age == 1 && fits1 (ch1 k 0 1 2 5) && (at1 (ch1 k 0 1 2 5)).age == 0 &&
      fits1 (ch1 k 0 1 4 5) && (at1 (ch1 k 0 1 4 5)).age == 2) = true ∧
    [ch1 5 0 7 0 5, ch1 5 0 7 0 4, ch1 6 0 7 0 5, ch1 6 4 7 0 5, ch1 7 0 7 0 5].all fits1 = true := by decide +kernel

theorem wit_CollectivePackets_sides :
    (let a := at1 (ch1 0 0 1 3 5)
     (Th.ofBytes (collB (ch1 0 0 1 3 5))).pidx = 0 ∧ (Th.ofBytes (collB (ch1 0 0 1 3 5))).pcnt = 1 ∧
     ((a.c.slot a.ch.cid a.ch.inst a.ch.step a.ch.piece a.ch.srank).map (·.got)).getD 0 = 0) ∧
    (let a := at1 (ch1 1 0 1 3 5)
     let i := { cinst 1 0 1024 0 2 with inst := 3 }
     a.c.inst 1 = some i ∧ ((i.dst.pieceGrans (i.dstElem 0) i.d.count)[0]?).any (fun q =>
       !((collS (ch1 1 0 1 3 5) ctxD).dropPacket 5 0).refused a.d.tile q.1 1) = true ∧ sget zeroNat i.resGot 0 = 0) ∧
    (collS (ch1 1 0 1 3 5) ctxD).resultHeld (collB (ch1 1 0 1 3 5)) collTh = false ∧
    [ch1 3 0 1 3 5, ch1 6 0 7 0 5].all (fun q => !(collS q ctxD).kidsHeld (collB q) collTh) = true ∧
    (collS (ch1 7 0 7 0 5) ctxD).roomSend 0 1 = true ∧ bitOf (ctxD.deferredOf 1 2 5) 1 = false ∧
    bitOf (fieldLe (collB (ch1 6 4 7 0 5)) 33 1) 2 = true ∧ bitOf (fieldLe (collB (ch1 6 0 7 0 5)) 33 1) 2 = false := by decide +kernel

/-- An ESC packet from device 8: kind, step, T, for descriptor 5. -/
def escB (kind step t : Nat) : List Byte := (⟨4, 0, 0, 8, 0, 0, 9, 4, 0, 1, 32, 0, 0⟩ : Th).bytes ++ escBytes kind 5 step t

/-- It at the front of its channel. -/
def escS (kind step t : Nat) (c : Ctx) : State :=
  let b := escB kind step t
  { coll 0 on0 c with links := [(5, { LinkPort.init with rxq := [(4, ⟨b, [b.length]⟩)] })] }

/-- The device has arrived at its escapement; T as given. -/
def ctxE (t : Option Nat) : Ctx := { ctxC with esc := some ⟨5, 0, true, t, false, false⟩ }

/-- An ESC packet has arrived and is read. -/
def escOk (kind step t : Nat) (c : Ctx) : Bool :=
  let s := escS kind step t c
  let b := escB kind step t
  let v := s.dropPacket 5 4
  s.packet 5 4 == some b && (Th.ofBytes b).typ == 4 && (Th.ofBytes b).dst == s.devId && fieldLe b 32 1 == kind &&
    v.escOf b (Th.ofBytes b) == some (0, c, 5, BitVec.ofNat 32 step, t)

theorem wit_EscapementRows :
    (escOk 0 1 0 ctxC && escOk 0 0 0 ctxC && escOk 1 0 100 (ctxE none)) = true ∧
    (let v := (escS 0 1 0 ctxC).dropPacket 5 4
     let g := v.group ctxC 0
     (v.liveRanks g).head? = some g.rank ∧ (1 : W32) ≠ ctxC.step ∧ (0 : W32) = ctxC.step ∧ v.rankOf g 8 = some 1) ∧
    (let s := coll 0 on0 (ctxE (some 100))
     s.resCtx = some (0, ctxE (some 100)) ∧ 100 ≤ s.fabric) ∧
    (let s := coll 0 on0 (ctxE (some (2 ^ 50)))
     s.resCtx = some (0, ctxE (some (2 ^ 50))) ∧ s.fabric < 2 ^ 50) ∧
    (let s := coll 0 on0 (ctxE none)
     s.resCtx = some (0, ctxE none) ∧ 0 + s.commitTicks (ctxE none) ≤ s.fabric) := by decide +kernel

/-- A policy 1 instance past its deadline; one with all its work done; a digest. -/
def ctxT : Ctx := { ctxC with running := [cinst 1 1 0 0 2, { cinst 2 0 0 0 2 with agreed := some (3, 0), written := true }, cinst 6 0 0 0 0], com := { Com.init with digest := some [] } }

theorem wit_CollectiveTimers :
    (let s := coll 0 on0 ctxT
     let i := cinst 1 1 0 0 2
     s.resCtx = some (0, ctxT) ∧ ctxT.inst 1 = some i ∧ i.d.data = true ∧ i.d.policy ≠ 0 ∧ ctxT.replay = false ∧ i.deadline ctxT ≤ s.fabric ∧ s.statusHeld i = false ∧
     i.agreed = none ∧ i.upSent = false ∧ i.final = none ∧
     (ctxT.inst 2).any (fun j => s.instComplete ctxT j) = true ∧ (ctxT.inst 6).any (fun j => ctxT.digestDone j) = true) ∧
    (let c := { ctxC with com := { Com.init with trig := some (0, 7) } }
     let s := coll 0 on0 c
     s.resCtx = some (0, c) ∧ (s.liveRanks (s.group c 0)).head? = some (s.group c 0).rank ∧ c.com.ready = false ∧ 0 + 1 * s.commitTicks c ≤ s.fabric) ∧
    (let c := { ctxC with com := { Com.init with trig := some (0, 7), ready := true } }
     let s := coll 1 on0 c
     let g := s.group c 0
     let l := c.lose [0] s.now.toNat
     let c' := { l with com := { l.com with root := true, ready := false, abort := true }, inbox := [] }
     s.resCtx = some (0, c) ∧ s.ranksBelow c g = [0] ∧ s.liveRank g g.rank = true ∧
     (s.commitCd c).any (fun q => s.roomSend q.2.tile (s.heads c' g).length) = true ∧ c.com.root = false ∧ 0 + 2 * 1 * s.commitTicks c ≤ s.fabric) ∧
    (let c := { ctxC with failed := [(1, 5)] }
     let s := coll 0 on0 c
     let g := s.group c 0
     sfind c.failed 1 = some 5 ∧ s.liveRank g 1 = true ∧ ((s.liveRanks g).filter fun r => (sfind c.failed r).isNone).head? = some g.rank ∧
     5 + c.rr.rejoin * msTicks ≤ s.now.toNat ∧ s.replAt g 1 = none ∧
     (let v := s.setMem (wrBytes (wrBytes s.mem 0x9020 (natLe 8 0x9300)) 0x9300 (natLe 4 0x10000))
      v.liveRank (v.group c 0) 1 = true ∧ v.replAt (v.group c 0) 1 = some 1)) := by decide +kernel
/-! The scheduler and the hosts -/

/-- A context with one released window past its deadline and one to come. -/
def ctxW : Ctx := { ctx0 with rr := { ctx0.rr with rdline := 10, period := 100 }, wins := [⟨0, 5, false⟩], nextRel := some 5 }

/-- A held package of tile 16's spare test, never run. -/
def pkg1 : TcPkg := ⟨3, 1, 0, 1, 24, 10, [], []⟩

theorem wit_SchedulerRows :
    (let s : State := { base with ctxs := [(7, ctxW)] }
     sfind s.ctxs 7 = some ctxW ∧ ctxW.st ≠ .stopped ∧ ctxW.nextRel = some 5 ∧ 5 ≤ s.now.toNat ∧
     (ctxW.wins.find? fun w => !w.missed && ctxW.rr.rdline ≠ 0 && decide (w.rel + ctxW.rr.rdline ≤ s.now.toNat)) = some ⟨0, 5, false⟩) ∧
    (let c := { ctx0 with st := .ready }
     let s : State := { base with ctxs := [(2, c)] }
     s.sched.switching = false ∧ s.sched.test = false ∧ s.resCtx = none ∧ s.best = some 2) ∧
    (let c := { ctx0 with preempt := some 0 }
     let d := { ctx0 with st := .ready }
     let s : State := { base with tiles := [(0, { on0 with run := .stopped }), (1, { on0 with run := .halted })], ctxs := [(0, c), (2, d)], sched := ⟨some 0, false, false, some 2⟩ }
     s.resCtx = some (0, c) ∧ c.preempt.isSome = true ∧ s.allStopped c = true ∧ c.tiles.all s.canSave = true ∧ s.incomingNow = some 2) ∧
    (let c := { ctx0 with st := .switching, begun := false, rr := { ctx0.rr with tiles := 0 }, signals := [⟨3, 4, 5⟩] }
     let s : State := { base with ctxs := [(2, c)], sched := ⟨none, false, true, some 2⟩ }
     sfind s.ctxs 2 = some c ∧ c.st ≠ .stopped ∧ s.plc.lost = false ∧
     (match (({ s with sched := { s.sched with switching := false, incoming := none, resident := some 2 } } : State).setCtx 2
         { c with st := .running, switches := c.switches + 1 }).bringIn 2 c with
      | .ok u => (sfind (c.signals.foldl (fun w g => w.setTile g.tile ((w.tile g.tile).inc g.obj g.value)) u).ctxs 2).isSome
      | .error _ => false) = true) ∧
    (let s : State := { base with tc := [(3, pkg1)] }
     s.sched.test = false ∧ s.up = true ∧ s.clk.enabled = true ∧ s.sched.switching = false ∧ s.testSet false ≠ [] ∧ s.testFirst = true ∧
     s.plc.freeSpare (16 / 17) = some 16 ∧ ((s.tc.map Prod.snd).filter fun k => match k.due 16 with | some d => decide (d ≤ s.psec) | none => false) ≠ []) ∧
    (let s : State := { base with tc := [(3, pkg1)], ctxs := [(1, { ctx0 with st := .stopped, status := 8 })] }
     s.testSet true ≠ [] ∧ s.sentToTest = true) := by decide +kernel

/-- An entry without a context. -/
def ent (opc : Nat) : SqEntry := ⟨opc, 0, 7, 0xFF, 0, 0x10000, 0x2000, 8, 0, 0, 0⟩

/-- A fetched entry. -/
def fet (e : SqEntry) : Fetched := ⟨e, 1, 0, 0⟩

/-- A module whose port 0, which holds authority, has a fetched entry at the front of ring 3. -/
def hosted (e : SqEntry) (c : SMap Ctx) (lease : Option Lease) : State :=
  { base with hosts := [(0, { HostPort.init with enrdy := true, linkUp := true, rings := [(3, { Ring.fresh 0x1000 0x2000 4 4 5 2 0 with fetched := [fet e] })] })],
              lease := lease, ctxs := c }

/-- Port 0's lease. -/
def lease0 : Option Lease := some ⟨0, 2 ^ 40, 1000⟩

theorem wit_HostRingRows :
    [0x00, 0x01, 0x05, 0x06, 0x07, 0x10, 0x11, 0x20, 0x21, 0x22, 0x23, 0x30, 0x40, 0x50, 0x51, 0x60].all (fun o =>
      (hosted { ent o with rsv := 1 } [] lease0).front 0 3 o == some (fet { ent o with rsv := 1 }) &&
      (hosted { ent o with ctx := 8 } [] lease0).front 0 3 o == some (fet { ent o with ctx := 8 }) &&
      (!needsAuth o || ((hosted (ent o) [] none).front 0 3 o == some (fet (ent o)) && !(hosted (ent o) [] none).auth 0))) = true ∧
    [ent 0x00, ent 0x01, ent 0x40, { ent 0x05 with arg0 := 15 }, { ent 0x06 with arg0 := 15 }, { ent 0x07 with arg0 := 16 }, { ent 0x23 with ctx := 7 }].all (fun e =>
      (hosted e [] lease0).front 0 3 e.opc == some (fet e) && (hosted e [] lease0).gate 0 (fet e) == stOk) = true ∧
    ((hosted (ent 0x40) [] lease0).telemetry (ent 0x40)).isSome = true ∧
    createOk { ent 0x05 with arg0 := 15 } = true ∧ sfind ((hosted (ent 0x05) [] lease0).host 0).rings 15 = none ∧
    (let e := { ent 0x06 with arg0 := 15 }
     let s := hosted e [] lease0
     let s := s.setHost 0 { s.host 0 with rings := (s.host 0).rings ++ [(15, Ring.fresh 0 0 4 4 0 0 0)] }
     s.front 0 3 0x06 = some (fet e) ∧ s.gate 0 (fet e) = stOk ∧ (sfind (s.host 0).rings 15).isSome = true) ∧
    evCountOk 16 = true ∧ (ent 0x07).addr0 % 128 = 0 ∧ sfind (hosted { ent 0x23 with ctx := 7 } [(7, ctx0)] lease0).ctxs 7 = some ctx0 ∧
    (let s : State := { base with hosts := [(1, { HostPort.init with rings := [(3, { Ring.fresh 0 0 4 4 5 8 9 with irqCount := 1 })] })] }
     (sfind (s.host 1).rings 3).any (fun g => decide (0 < g.irqCount) && decide (0 < g.coalTime) &&
       decide (1100 * g.coalTime ≤ (s.now - g.irqSince).toNat)) = true) := by decide +kernel

theorem wit_HostDataRows :
    [ent 0x10, ent 0x11, { ent 0x50 with arg0 := 4096 }, ent 0x51, ent 0x60, ent 0x30].all (fun e =>
      (hosted e [] lease0).front 0 3 e.opc == some (fet e) && (hosted e [] lease0).gate 0 (fet e) == stOk) = true ∧
    (hosted (ent 0x10) [] lease0).dmaGate (ent 0x10) = stOk ∧ (hosted (ent 0x11) [] lease0).dmaGate (ent 0x11) = stOk ∧
    ((hosted (ent 0x11) [] lease0).dmaOut 0 (ent 0x11)).1 = false ∧ 4096 + (ent 0x50).len ≤ slotSize ∧
    (let e := { ent 0x10 with ctx := 0, arg0 := 1, len := 4096 }
     let s := hosted e [(0, { ctx0 with regs := [⟨0, 0x10000, 0x1F⟩] })] lease0
     s.gate 0 (fet e) = stOk ∧ s.front 0 3 0x10 = some (fet e) ∧ s.dmaGate e = stOk) ∧
    (let s : State := { base with hosts := [(1, { HostPort.init with rings := [(3, { Ring.fresh 0 0 4 4 5 8 9 with started := [.dma (fet (ent 0x10)) stOk] })] })] }
     (sfind (s.host 1).rings 3).any (fun g => g.started[0]? == some (.dma (fet (ent 0x10)) stOk)) = true) := by decide +kernel

/-- A TC_PUSH package of no payload: TC_ID 3, revision 1. -/
def pkgBytes : List Byte := packFields 64 [(0, 4, 1), (4, 4, 1), (8, 8, 3)] ++ List.replicate 4627 0

/-- An image whose certificate list holds a TEST_CONTENT certificate (R536). -/
def imgTc : Image := ⟨0, false, 1, 0, 0, [], [2 :: List.replicate 7282 0]⟩

/-- TC_PUSH and FW_ACTIVATE rest on the signature scheme, which is opaque (log 9): where it accepts, their conditions can be met. -/
theorem wit_HostDataRows_tc (hv : ∀ a b c d, Config.mldsaVerify a b c d = true) :
    tcHeaderOk pkgBytes = true ∧ tcVerify (some imgTc) pkgBytes = true ∧ (∀ o, sfind (base.tc) 3 = some o → o.rev < 1) ∧
    (sins base.tc 3 (TcPkg.ofBytes pkgBytes)).length ≤ 32 := by
  refine ⟨by decide +kernel, ?_, fun o h => ?_, by decide +kernel⟩
  · simp only [tcVerify, hv, Bool.and_true]
    decide +kernel
  · simp [base, State.reset, sfind] at h

/-- Packages that are held can be so large that no other fits. -/
theorem wit_HostDataRows_full (n : Nat) (h : 64 * 1024 * 1024 < n) :
    let m : SMap TcPkg := sins [(1, { pkg1 with bytes := List.replicate n 0 })] 3 pkg1
    64 * 1024 * 1024 < (m.map fun q => q.2.bytes.length).sum := by
  simpa [sins, pkg1] using h

/-- An image slot whose certificate and header are zeros but for the role (R541). -/
def slot1 : SMap Byte := (List.range 256).map (fun k => (0x3000 + k, (0 : Byte))) ++ [(0x1000, 1)] ++ (List.range 63).map fun k => (0x1001 + k, 0)

/-- A root key of erased bytes. -/
def root1 : List Byte := slotBytes slot1 0 2592

theorem wit_HostDataRows_fw (hv : ∀ a b c d, Config.mldsaVerify a b c d = true) (f : Flash) (u : Fuses) (hf : f.slotB = slot1)
    (h1 : u.rootHash = [sha3 root1]) (h2 : u.revoke = 0) (h3 : u.svn = 0) : (verifySlot f u 1 true).isSome = true := by
  have e : f.slot 1 = slot1 := hf
  have er : slotBytes slot1 0 2592 = root1 := rfl
  have hr : certOk u root1 (slotBytes slot1 0x1000 7283) [1] = true := by
    have k : certIssuer (slotBytes slot1 0x1000 7283) = 0 := by decide +kernel
    have a : (slotBytes slot1 0x1000 7283).length = 7283 := by simp [slotBytes]
    have b : certRole (slotBytes slot1 0x1000 7283) = 1 := by decide +kernel
    have c : certScope (slotBytes slot1 0x1000 7283) = 0 := by decide +kernel
    have d : fieldLe (slotBytes slot1 0x1000 7283) 3 1 = 0 := by decide +kernel
    have g : allZero (((slotBytes slot1 0x1000 7283).drop 16).take 48) = true := by decide +kernel
    simp [certOk, k, a, b, c, d, g, hv, h1, h2, bitOf]
  have e0 : fieldLe (slotBytes slot1 0x3000 256) 5 1 = 0 := by decide +kernel
  have e1 : fieldLe (slotBytes slot1 0x3000 256) 7 1 = 0 := by decide +kernel
  have e2 : allZero ((slotBytes slot1 0x3000 256).drop 24) = true := by decide +kernel
  have e3 : fieldLe (slotBytes slot1 0x3000 256) 8 4 = 0 := by decide +kernel
  have e4 : fieldLe (slotBytes slot1 0x3000 256) 20 4 = 0 := by decide +kernel
  have e5 : fieldLe (slotBytes slot1 0x3000 256) 4 1 = 0 := by decide +kernel
  have e6 : u.svnNum = 0 := by simp [Fuses.svnNum, h3, bitOf]
  simp [verifySlot, e, er, hr, e0, e1, e2, e3, e4, e5, e6, hv]

theorem wit_HostContextRows :
    [ent 0x20, { ent 0x21 with ctx := 7 }, { ent 0x22 with ctx := 7 }, { ent 0x24 with ctx := 7 }].all (fun e =>
      (hosted e [(7, ctx0)] lease0).front 0 3 e.opc == some (fet e) && (hosted e [(7, ctx0)] lease0).gate 0 (fet e) == stOk) = true ∧
    (ent 0x20).addr0 % 64 = 0 ∧
    (let s := hosted { ent 0x24 with ctx := 7 } [(7, ctx0)] lease0
     sfind s.ctxs 7 = some ctx0 ∧ ctx0.st ≠ .stopped ∧ s.sched.resident ≠ some 7 ∧ signalOk { ent 0x24 with ctx := 7 } ctx0 = true ∧
     (sfind (s.host 0).rings 3).any (fun g => g.busy == 0) = true ∧ ({ s with sched := ⟨some 7, false, false, none⟩ } : State).sched.resident = some 7) ∧
    (let s := hosted { ent 0x22 with ctx := 7 } [(7, { ctx0 with st := .stopped })] lease0
     sfind s.ctxs 7 = some { ctx0 with st := .stopped } ∧ s.gate 0 (fet { ent 0x22 with ctx := 7 }) = stOk) := by decide +kernel

theorem wit_LeaseRows :
    (let e := { ent 2 with arg0 := 60000 }
     let s := hosted e [] none
     s.up = true ∧ s.nextLease = some (0, 3) ∧ s.leaseFront 0 3 = some (fet e) ∧ s.lease = none) ∧
    (let e := { ent 2 with arg0 := 100 }
     let s := hosted e [] (some ⟨1, 2 ^ 40, 1000⟩)
     s.nextLease = some (0, 3) ∧ s.leaseFront 0 3 = some (fet e) ∧ s.now < 2 ^ 40) ∧
    [3, 4].all (fun o => let s := hosted (ent o) [] lease0
     s.nextLease == some (0, 3) && s.leaseFront 0 3 == some (fet (ent o)) && s.auth 0) = true ∧
    (let s := hosted (ent 0) [] (some ⟨0, 5, 1000⟩)
     (5 : W64) ≤ s.now ∧ (s.host 0).enrdy = true ∧ (s.host 0).quiesce = false ∧ (s.host 0).pollDue ≤ s.now) := by decide +kernel
/-! Power, security, resets, registers and the control cores -/

/-- A module that has run for long enough for every regulator duty, its fast clamp holding. -/
def powered : State :=
  { base with clk := ⟨2 ^ 60, 100, 0, true, true⟩,
              power := { base.power with dPower := 2 ^ 31, clamp := true, clampAt := 5, clampLoop := true },
              rgl := { base.rgl with obs := some ⟨1, true, []⟩ } }

theorem wit_PowerRows : let s := powered
    s.up = true ∧ s.power.loopDue ≤ s.now ∧ (2200000 < (3000000 : BitVec 32).toNat) ∧ (2200000 : BitVec 32).toNat ≤ 2200000 ∧ s.power.dPower ≤ dutyFull ∧
    bitOf (s.reg 0x3000) 0 = true ∧ s.reg 0x3004 < (0xFFFF : BitVec 16).toNat ∧
    (List.replicate 72 (1050 : Int)).length = 72 ∧ (List.replicate 12 (500 : Int)).length = 12 ∧ s.power.thermDue ≤ s.now ∧
    (hottest (List.replicate 72 (1050 : Int))).2 = 1050 ∧ (hottest (List.replicate 72 (1000 : Int))).2 = 1000 ∧
    (hottest (List.replicate 72 (1051 : Int))).2 = 1051 ∧
    s.rgl.readDue ≤ s.now ∧ s.replanMay = true ∧ s.rgl.obs = some ⟨1, true, []⟩ ∧ 60 * ticksPerSec ≤ (s.now - 1).toNat ∧
    ((s.flash.ageing.latest fun b => b == .ageHours).map (·.psec)).getD 0 + 86400 ≤ s.psec ∧
    s.power.clamp = true ∧ s.power.clampLoop = true ∧ 11000 ≤ (s.now - s.power.clampAt).toNat := by decide +kernel

/-- The module with an alias key and an image; with the INVASIVE scope. -/
def keyed (inv : Bool) : State := { base with sec := { base.sec with image := some imgTc, aliasKey := some [1], invasive := inv } }

theorem wit_SecurityRows : (keyed false).busUp = true ∧ (keyed false).sec.invasive = false ∧ (keyed false).sec.aliasKey = some [1] ∧
    (keyed false).sec.image = some imgTc ∧ (List.replicate 32 (1 : Byte)).length = 32 ∧ (keyed true).sec.invasive = true ∧ ([1] : List Byte) ≠ [] ∧
    ([1] : List Byte).length ≠ 32 ∧ base.jtagUp = true ∧ (List.replicate 14630 (0 : Byte)).length = 14630 ∧
    (tokenOk { base.fuses with dbgDisable := true } base.sec (List.replicate 14630 0) = false) := by
  have h : ∀ t, tokenOk { base.fuses with dbgDisable := true } base.sec t = false := fun t => by simp [tokenOk]
  refine ⟨by decide +kernel, rfl, rfl, rfl, rfl, rfl, by decide, by decide, by decide, List.length_replicate, h _⟩

/-- A token opens scopes only where the opaque signature scheme accepts it (log 9): the other conditions can be met. -/
theorem wit_SecurityRows_token (hv : ∀ a b c d, Config.mldsaVerify a b c d = true) (hdr root cert sig : List Byte) (u : Fuses) (c : Sec)
    (h1 : hdr.length = 128) (h2 : root.length = 2592) (h3 : cert.length = 7283) (h4 : certOk u root cert [3] = true) (h5 : u.dbgDisable = false)
    (h6 : c.fails = 0) (h7 : fieldLe hdr 72 1 = 0) (h8 : fieldLe hdr 0 8 = u.serial.toNat) (h9 : c.nonce = some ((hdr.drop 8).take 64))
    (h10 : allZero (hdr.drop 73) = true) (h11 : sig.length = 4627) : tokenOk u c (hdr ++ root ++ cert ++ sig) = true := by
  have l : (hdr ++ root ++ cert ++ sig).length = 14630 := by simp [h1, h2, h3, h11]
  have a : (hdr ++ root ++ cert ++ sig).take 128 = hdr := by
    rw [List.append_assoc, List.append_assoc, ← h1, List.take_left]
  have b : ((hdr ++ root ++ cert ++ sig).drop 128).take 2592 = root := by
    rw [List.append_assoc, List.append_assoc, ← h1, List.drop_left, ← h2, List.take_left]
  have d : ((hdr ++ root ++ cert ++ sig).drop 2720).take 7283 = cert := by
    have : 2720 = (hdr ++ root).length := by simp [h1, h2]
    rw [List.append_assoc (hdr ++ root), this, List.drop_left, ← h3, List.take_left]
  have e : ∀ k : Nat, (Nat.land 0 k == 0) = true := fun k => by simp
  simp only [tokenOk, l, a, b, d, h4, h5, h6, h7, h8, h9, h10, hv, e, Bool.not_false, Bool.and_true, beq_self_eq_true]
  decide

/-- A reading of 0 °C everywhere. -/
def cool : List Int := List.replicate 72 0

theorem wit_ResetRows : base.pins.rstN = false ∧ base.pins.pwrok = false ∧ ({ base with pins := { base.pins with rstN := true, pwrok := true } } : State).pins.rstN = true ∧
    base.phase = .running ∧ (1150 : Int) ≤ 1150 ∧ (72 : Fin 84).val = 72 ∧
    ({ base with phase := .tripped, pins := { base.pins with pwrok := true, rstN := true } } : State).phase = .tripped ∧ cool.length = 72 ∧
    (∀ t ∈ cool, t < 1050) ∧ base.up = true ∧ base.routerAgain = false ∧
    (let s : State := { base with flash := { base.flash with events := { base.flash.events with recs := [⟨0, 0, 0, 0, .evReset 3⟩] } } }
     s.up = true ∧ s.routerAgain = true) ∧
    (let d : Drain := ⟨5, 0, 16, [], 0⟩
     let s : State := { base with plc := { base.plc with drains := [d] } }
     s.plc.drains = [d] ∧ d.ltile = 5 ∧ d.got.contains (71 * 3 + 2) = false) ∧
    (⟨5, 0, 16, List.range 216, 0⟩ : Drain).count = 0 := by decide +kernel

/-- A module whose port 0 is linked and holds authority. -/
def linked : State := { base with hosts := [(0, { HostPort.init with linkUp := true })], lease := lease0 }

theorem wit_RegisterReads : [(0, 0x2000), (0, 0x5000), (2, 0x20018), (2, 0x300008), (0, 0x110FF8), (2, 0x100080)].all (fun q =>
      linked.reaches q.1 && linked.up && q.2 % 4 == 0 && keyOf q.1 q.2 == some q.2 && (linked.pair q.2).isSome) = true ∧
    linked.reaches 1 = false := by decide +kernel

theorem wit_RegisterWrites : linked.reaches 0 = true ∧ linked.up = true ∧ linked.auth 0 = true ∧ linked.reaches 2 = true ∧
    [(0x3004, 500), (0x3008, 0xFFFF), (0x3020, 24), (0x20010, 46), (0x20100, 5)].all (fun q => match regKind q.1 with
      | some (.rw fs) => !outOfRange (linked.locked q.1) q.2 fs
      | _ => false) = true ∧
    [(0x3004, 499), (0x3008, 0xFFF), (0x3020, 8761), (0x20100, 7)].all (fun q => match regKind q.1 with
      | some (.rw fs) => outOfRange false q.2 fs
      | _ => false) = true ∧
    regKind 0x110F80 = some .ro ∧ (regKind 0x3004).isSome = true ∧ linked.locked (0x20100 + 0x40 * 23) = false ∧
    bitsOf (linked.reg (0x20100 + 0x40 * 23)) 1 2 = (0 : BitVec 2).toNat ∧ linked.locked (0x100000 + 0x400 * 67 + 0x300) = false ∧
    bitsOf (linked.reg 0x40000) 8 5 = 12 ∧ bitsOf (linked.reg 0x40000) 16 5 = 12 ∧ (8760 : BitVec 14).toNat = 8760 ∧
    bitOf (linked.reg (hifKey 0 0)) 0 = false ∧ (linked.host 0).quiesce = false ∧ linked.hifOk 0 = true ∧
    (({ linked with hosts := [(0, { HostPort.init with linkUp := true, enrdy := true })] } : State).host 0).enrdy = true := by decide +kernel

/-- A context whose control programs may use all of HBM up to 1 MiB. -/
def ctxK : Ctx := { ctx0 with regs := [⟨0, 0x100000, 0x1F⟩] }

/-- It resident; a debugger's scope open. -/
def coreS : State := resident { base with sec := { base.sec with observe := true, invasive := true } } ctxK

theorem wit_CoreRows : coreS.resCtx = some (0, ctxK) ∧ coreS.up = true ∧ coreS.coreGoes 15 = true ∧ coreMapped ctxK 0xFFFF8 8 = true ∧
    coreS.poisIn 0xFFFF8 8 = false ∧ coreMapped ctxK 0x100000 8 = false ∧ (4096 * 1 + 4 * 255 = (0x13FC : BitVec 48).toNat) ∧ ctxK.tiles.contains 1 = true ∧
    (0x10FFC : BitVec 48).toNat % 4 = 0 ∧ (0x10FFC : BitVec 48).toNat < 0x11000 ∧ (0x11 : BitVec 64) ≠ 0x10 ∧ coreS.jtagUp = true ∧
    coreS.sec.observe = true ∧ coreS.sec.invasive = true ∧ base.sec.observe = false ∧ base.sec.invasive = false ∧
    mapped 0 4096 = true ∧ 0 < hbmEnd ∧ (15 : Nat) < 16 := by decide +kernel

/-! The numbers -/

theorem wit_AsumResults : (∀ a : ASum, a = ⟨5, 1, false⟩ ∨ a = ⟨-512, 0, true⟩ ∨ a = asEmpty → a.s = 0 → a.e = -512) ∧ (⟨-512, 0, true⟩ : ASum).inv = true := by
  refine ⟨?_, rfl⟩
  rintro a (rfl | rfl | rfl) h <;> first | rfl | simp at h

theorem wit_AsumCommutes : (asEmpty.s = 0 ∧ asEmpty.e = -512) ∧ (⟨5, 1, false⟩ : ASum).s ≠ 0 := by decide

theorem wit_TransposeBlockShape : let d := TDesc.ofBytes (packFields 64 [(4, 4, 3 + 16 * 5 + 0x390000)])
    (∀ e : TDesc, e = { d with consT := true, bshape := 5 } → e.consT = true) ∧ ({ d with consT := true, bshape := 4 } : TDesc).bshape ≠ 5 := by
  refine ⟨fun e h => h ▸ rfl, by decide⟩
/-! Single steps and operations whose results the spec's worked examples give -/

/-- 03_products_and_accumulation.md, one K-block into a running sum. -/
theorem test_block_partial :
    let p := blockPartial 0x78 [12, -7, 100, 3, 0, -128, 45, 9] 0x79 [5, 20, -1, 127, 64, 2, -3, 11]
    p = ⟨-13, -91, false⟩ ∧ asumAdd ⟨-9, 0x4000, false⟩ p = ⟨-9, 0x3FFA, false⟩ ∧ asumToWord ⟨-9, 0x3FFA, false⟩ = 0x000003F700003FFA := by
  decide +kernel

/-- The same file, the edges of the addition. -/
theorem test_asum_edges : asumAdd ⟨-10, 0x12346, false⟩ ⟨-14, 9, false⟩ = ⟨-10, 0x12346, false⟩ ∧
    asumAdd ⟨4, 0x65, false⟩ ⟨0, -7, false⟩ = ⟨4, 0x64, false⟩ ∧
    asumAdd ⟨3, 0x7FFFFFF0, false⟩ ⟨1, 0x53, false⟩ = ⟨4, 0x40000002, false⟩ := by decide +kernel

/-- 04_conversion_scales_rounding.md, the table after R91. -/
theorem test_head_tail : headTail ⟨4, 0x40000002, false⟩ = (0x50800000, 0x42000000, 0) ∧
    headTail ⟨-150, -181, false⟩ = (0x8000005A, 0x80000000, cvUNF) ∧ (toBinary ⟨4, 0x40000002, false⟩ 8 false 0).enc = 0x5080 := by decide +kernel

/-- The sums of the fresh LG8 block of the same file. -/
def freshSrc (s0 : Int) : List ASum :=
  [s0, 1023, 1024, 1025, 3072, -3072, -1536, 0, -5000, 700, -700, 40000, -130000, 0, 2047, -2049].map fun s => ⟨-12, s, false⟩

/-- Its bytes, flush count and code; a tie that raises the code; two elements with their draws. -/
theorem test_fresh_block :
    let o := freshWrite (freshSrc 260000) 127 false (List.replicate 16 0) false
    o.code = 0x7E ∧ packMants 0 o.m = [0x7F, 0, 0, 1, 2, 0xFE, 0xFF, 0, 0xFE, 0, 0, 0x14, 0xC1, 0, 1, 0xFF] ∧ o.flush = 4 ∧
    (freshWrite (freshSrc 261120) 127 false (List.replicate 16 0) false).code = 0x7F ∧
    atCode ⟨-12, 1023, false⟩ 0x7E true 0x9C40 = 1 ∧ atCode ⟨-12, -700, false⟩ 0x7E true 0x2000 = -1 := by decide +kernel

/-- The same file, saturation and advance. -/
theorem test_carried_advance :
    let o := carriedWrite 0x70 [120, -90, 5] ([416, -50, 16].map fun s => ⟨-20, s, false⟩) 127 true false [0, 0, 0]
    o.m = [127, -92, 5] ∧ o.satN = 1 ∧ o.ovf = true ∧
    (let a := scaleAdvance 0x70 o.m 32 true false
     a.code = 0x71 ∧ a.m = [64, -46, 2] ∧ a.advanced = true) := by decide +kernel

/-- 05_wide_precision_and_watch.md, slicing π. -/
theorem test_slices :
    let v := [fp32ToAsum 0x40490FDB, asEmpty]
    let h := freshWrite v 127 false [0, 0] false
    let m := freshWrite (residual v h) 127 false [0, 0] false
    let l := freshWrite (residual (residual v h) m) 127 false [0, 0] false
    (h.code, h.m.headD 0, m.code, m.m.headD 0, l.code, l.m.headD 0) = (0x7A, 101, 0x72, -120, 0x68, -74) ∧
    ((residual (residual (residual v h) m) l).headD asInvalid).s = 0 := by decide +kernel

/-- 02_lumgan_formats.md, a weight in 2-D blocks, and an LG4 block. -/
theorem test_layout : (TDesc.ofBytes (desc 5 0 5 5120 12288 1 0 0)).locate 1000 77 0 0 = (5885, 40) ∧
    (TDesc.ofBytes (desc 5 0 5 5120 12288 1 0 0)).slotOf 1000 77 0 0 = 376680 ∧ packMants 1 [5, -3, 7, -8] = [0xD5, 0x87] := by decide +kernel

/-- 11_turain_links.md, one exchange: a = +0.25 ticks, OFF_target = −1,450,099.75. -/
theorem test_exchange : offTarget (1000000 * 65536) (2450180 * 65536 + 16384) (2450400 * 65536)
    (1000380 * 65536 + 32768) 64 0 = -1450099 * 65536 - 49152 := by decide +kernel

/-- 17_control_cores_power_ageing.md, a re-plan and the reserve it gives. -/
theorem test_replan : replanVoltage 655 18 24 500 700 = (660, false) ∧ (fitOf [(1296, 640), (4096, 650), (10000, 660)]).reserve 700 10000 = 94976 := by
  decide +kernel

/-- 01_organisation.md: logical tile 60 starts on physical tile 63, and is 9 hops from tile 5; from physical tile 67 it is 5. -/
theorem test_first_placement : Placement.init.phys 60 = 63 ∧ meshHops 5 63 = 9 ∧ meshHops 5 67 = 5 ∧ (Placement.init.target 63) = some 67 := by decide +kernel

/-- Firmware's bank 2 of physical tile 67, at 0x110E00: the writes of R600, each in a tick of its own, which ends the locks of the tick before; the low byte of its configuration and its late-write
status. -/
def bank (l : List (BitVec 32)) : Option (Nat × Nat) :=
  let r := l.foldl (fun o v => o.bind fun s => match execRegisterWrite 2 0x110E00 true v s with
    | .next u => some { u with lockWas := [] }
    | _ => none) (some base)
  r.map fun s => (s.readVal 2 0x110E00, s.readVal 2 0x110E04)

/-- 20_setup_registers.md, R600: the TARGET of the second write is discarded and counted; EN cleared and written again, it is taken and the
count cleared; a locked MODE counts once more. -/
theorem test_bank_locks : (bank [3]).map Prod.fst = some 3 ∧ (bank [3, 0x13]).map (fun q => (q.1, q.2 % 65536, q.2 / 65536)) = some (3, 1, 0x8000) ∧
    (bank [3, 0x13, 2]).map Prod.fst = some 2 ∧ (bank [3, 0x13, 2, 0x13]).map (fun q => (q.1, q.2 % 65536)) = some (0x13, 0) ∧
    (bank [3, 0x13, 0]).map (fun q => (q.1 % 2, q.2 % 65536)) = some (0, 2) := by decide +kernel
end Sys2Proof.Tests
end

section
/-! SUPPORT. A tick of the clock, and writes of registers. -/

namespace Sys2Proof.Machine

/-! ## A tick (R30, R31) -/

/-- Settles O35: while reset holds the module, TICK takes its first branch and leaves the state; out of reset the second, whose effects
stand in the order of the statement. -/
theorem tickRow : Obligations.TickRow := by
  unfold Obligations.TickRow
  intro s
  constructor
  · intro held
    exact if_pos held
  · intro released
    exact if_neg released

/-! ## Writes of registers (R7, R473)

HIF_QUIESCE withdraws what each listed ring has fetched, and then, on the port that holds the lease, loses the lease, which withdraws once
more those commands that need authority (R493). Each withdrawal goes through the port's table of rings entry by entry, and what an entry
keeps becomes what the ring that a look-up of its key finds has fetched. The statement asks no canonical form of that table, and
`State.Inv` has none for it either: where a second entry stands under one key, the lease's withdrawal gives what that one had fetched, and
needs no authority, to the first. -/

/-- A fetched NOP, which needs no authority (R482). -/
def waitingNop : Fetched :=
  { e := { opc := 0x00, flags := 0, cid := 0, ctx := 0, rsv := 0, addr0 := 0, addr1 := 0, len := 0, arg0 := 0, arg1 := 0, arg2 := 0 },
    sqHead := 0, order := 0, at_ := 0 }

/-- Ring 0 listed twice. The entry that a look-up finds has a started command, so that the quiesce does not end in this step (R473), and
nothing fetched; the one behind it has the NOP. -/
def shadowedRings : SMap Ring :=
  [(0, { Ring.fresh 0 0 4 4 0 0 0 with started := [.ctxStop waitingNop] }),
   (0, { Ring.fresh 0 0 4 4 0 0 0 with fetched := [waitingNop] })]

/-- A running module whose port 0 has these rings and holds the lease. -/
def shadowedPort : State :=
  { State.reset with
    phase := .running
    hosts := [(0, { HostPort.init with linkUp := true, enrdy := true, rings := shadowedRings })]
    lease := some ⟨0, 1, 100⟩ }

/-- Host 0 reaches BAR0 of this module, holds command authority, and its port is enabled. -/
theorem shadowedPort_enabled : shadowedPort.reaches 0 = true ∧ shadowedPort.up = true ∧ shadowedPort.auth 0 = true ∧
    (shadowedPort.host 0).enrdy = true := by decide

/-- The module after HIF_QUIESCE on port 0. -/
def quiescedPort : State := shadowedPort.writeReg 0 (hifOff 0 0) true 0

theorem hifQuiesce_shadowedPort : exec (.hifQuiesce 0) shadowedPort = .next quiescedPort := rfl

/-- Ring 0 has a fetched command again. -/
theorem fetched_quiescedPort : (sfind (quiescedPort.host 0).rings 0).map Ring.fetched = some [waitingNop] := by decide

/-- Refutes O56, by its last clause: on a module whose table of rings lists ring 0 twice, HIF_QUIESCE of the enabled port leaves ring 0
with a fetched command that has not started. -/
theorem not_registerWrites : ¬ Obligations.RegisterWrites := by
  unfold Obligations.RegisterWrites
  intro claim
  obtain ⟨reaches, up, auth, enabled⟩ := shadowedPort_enabled
  obtain ⟨-, -, -, -, -, -, -, -, hif⟩ := claim shadowedPort 0 reaches fun _ => ⟨up, auth⟩
  obtain ⟨u, quiesced, -, withdrawn⟩ := (hif 0 rfl).2 enabled
  obtain rfl : quiescedPort = u := Host.Outcome.next.inj (hifQuiesce_shadowedPort.symm.trans quiesced)
  obtain ⟨g, found, waits⟩ := Option.map_eq_some_iff.mp fetched_quiescedPort
  have none_waits : g.fetched = [] := withdrawn 0 g found
  exact absurd (none_waits.symm.trans waits) (List.cons_ne_nil _ _).symm

end Sys2Proof.Machine
end

section
/-! SUPPORT. The invariant along a step. -/

namespace Sys2Proof.Machine

/-! ## The invariant (R10 to R13, R221, R538) -/

/-- Every command keeps the form of device memory, the placement, the queue and the blown fuses, each by the lemma about its own row. (FW_ACTIVATE states
the goal that its lemma meets: there the elaborator would unfold both sides of it.) -/
theorem exec_keep (c : Instr) (s : State) : OKeep s (exec c s) := by
  have k : Keep s s := Keep.refl s
  cases c with
  | moduleResetRelease => exact execModuleResetRelease_keep k
  | moduleResetAssert => exact execModuleResetAssert_keep k
  | powerFail => exact execPowerFail_keep k
  | perstRelease => exact execPerstRelease_keep k
  | pciePortReset => exact execPciePortReset_keep k
  | railExcursion => exact execRailExcursion_keep k
  | thermalTrip => exact execThermalTrip_keep k
  | thermalTripRecovery => exact execThermalTripRecovery_keep k
  | routerFault => exact execRouterFault_keep k
  | firmwareWatchdog core => exact execFirmwareWatchdog_keep (a0 := core) k
  | cluster0UncorrectableError => exact execCluster0UncorrectableError_keep k
  | securityBlockFault => exact execSecurityBlockFault_keep k
  | epochMarker => exact execEpochMarker_keep k
  | placementExclusive => exact execPlacementExclusive_keep k
  | clkDevtimeLoRead => exact execClkDevtimeLoRead_keep k
  | pairLoRead => exact execPairLoRead_keep k
  | registerWrite => exact execRegisterWrite_keep k
  | hifEnable => exact execHifEnable_keep k
  | hifQuiesce => exact execHifQuiesce_keep k
  | lnkEnable => exact execLnkEnable_keep k
  | lnkDisable => exact execLnkDisable_keep k
  | lnkPortEnable => exact execLnkPortEnable_keep k
  | lnkPortDisable => exact execLnkPortDisable_keep k
  | chrBankEnable => exact execChrBankEnable_keep k
  | chrBankDisable => exact execChrBankDisable_keep k
  | fastenClear => exact execFastenClear_keep k
  | rglPeriodWrite => exact execRglPeriodWrite_keep k
  | fwenClear => exact execFwenClear_keep k
  | drenClear => exact execDrenClear_keep k
  | bundleIssue => exact execBundleIssue_keep k
  | mma256x128 => exact execMma256x128_keep k
  | mma128x128 => exact execMma128x128_keep k
  | mma2x256x64 => exact execMma2x256x64_keep k
  | mma128x64 => exact execMma128x64_keep k
  | mmaTree64 => exact execMmaTree64_keep k
  | mmaDiag => exact execMmaDiag_keep k
  | mld => exact execMld_keep k
  | mma256x128Cx => exact execMma256x128Cx_keep k
  | mma128x128Cx => exact execMma128x128Cx_keep k
  | mma128x64Cx => exact execMma128x64Cx_keep k
  | mmbPair => exact execMmbPair_keep k
  | bBoth => exact execBBoth_keep k
  | half0ToB0 => exact execHalf0ToB0_keep k
  | half0ToB1 => exact execHalf0ToB1_keep k
  | planeReady => exact execPlaneReady_keep k
  | commitGroup => exact execCommitGroup_keep k
  | arrayComplete => exact execArrayComplete_keep k
  | splitkSlotGrant => exact execSplitkSlotGrant_keep k
  | splitkPartArrive => exact execSplitkPartArrive_keep k
  | tourbillonSelect => exact execTourbillonSelect_keep k
  | watchCheck => exact execWatchCheck_keep k
  | watchCheckComplete => exact execWatchCheckComplete_keep k
  | driftSample => exact execDriftSample_keep k
  | vadd => exact execVadd_keep k
  | vsub => exact execVsub_keep k
  | vmul => exact execVmul_keep k
  | vfma => exact execVfma_keep k
  | vmin => exact execVmin_keep k
  | vmax => exact execVmax_keep k
  | vabs => exact execVabs_keep k
  | vneg => exact execVneg_keep k
  | vcopysign => exact execVcopysign_keep k
  | vsel => exact execVsel_keep k
  | vcmpEq => exact execVcmpEq_keep k
  | vcmpNe => exact execVcmpNe_keep k
  | vcmpLt => exact execVcmpLt_keep k
  | vcmpLe => exact execVcmpLe_keep k
  | vrcp => exact execVrcp_keep k
  | vsqrt => exact execVsqrt_keep k
  | vrsqrt => exact execVrsqrt_keep k
  | vexp => exact execVexp_keep k
  | vexp2 => exact execVexp2_keep k
  | vlog => exact execVlog_keep k
  | vlog2 => exact execVlog2_keep k
  | vdiv => exact execVdiv_keep k
  | vsigmoid => exact execVsigmoid_keep k
  | vtanh => exact execVtanh_keep k
  | vgeluTanh => exact execVgeluTanh_keep k
  | verf => exact execVerf_keep k
  | vgelu => exact execVgelu_keep k
  | vaddPair => exact execVaddPair_keep k
  | vredPair => exact execVredPair_keep k
  | vredAdd => exact execVredAdd_keep k
  | vredAcc => exact execVredAcc_keep k
  | vredMax => exact execVredMax_keep k
  | vredMin => exact execVredMin_keep k
  | vld => exact execVld_keep k
  | vst => exact execVst_keep k
  | vcvt => exact execVcvt_keep k
  | vdrop => exact execVdrop_keep k
  | vslice => exact execVslice_keep k
  | vupd => exact execVupd_keep k
  | vupdComplete => exact execVupdComplete_keep k
  | vectorWriteLand => exact execVectorWriteLand_keep k
  | sgo => exact execSgo_keep k
  | sdem => exact execSdem_keep k
  | sdemX => exact execSdemX_keep k
  | iload => exact execIload_keep k
  | iloadComplete => exact execIloadComplete_keep k
  | demandFetch => exact execDemandFetch_keep k
  | runAheadFetch => exact execRunAheadFetch_keep k
  | inboundGranuleWrite => exact execInboundGranuleWrite_keep k
  | streamComplete => exact execStreamComplete_keep k
  | hbmRead => exact execHbmRead_keep k
  | hbmWriteAccept => exact execHbmWriteAccept_keep k
  | hbmRefresh stack => exact execHbmRefresh_keep (a0 := stack) k
  | bcfg => exact execBcfg_keep k
  | bpush => exact execBpush_keep k
  | bpop => exact execBpop_keep k
  | barrelSpill => exact execBarrelSpill_keep k
  | barrelFill => exact execBarrelFill_keep k
  | wait => exact execWait_keep k
  | waitge => exact execWaitge_keep k
  | sig => exact execSig_keep k
  | sigT => exact execSigT_keep k
  | sset => exact execSset_keep k
  | lpI => exact execLpI_keep k
  | lpX => exact execLpX_keep k
  | xset => exact execXset_keep k
  | xadd => exact execXadd_keep k
  | tread => exact execTread_keep k
  | cvrd => exact execCvrd_keep k
  | cvclr => exact execCvclr_keep k
  | jmp => exact execJmp_keep k
  | pp => exact execPp_keep k
  | halt => exact execHalt_keep k
  | sadv => exact execSadv_keep k
  | sadvComplete => exact execSadvComplete_keep k
  | syncIncrementLand => exact execSyncIncrementLand_keep k
  | syncWindowStore => exact execSyncWindowStore_keep k
  | tileStartStore => exact execTileStartStore_keep k
  | watchdog => exact execWatchdog_keep k
  | intrusionOverrun => exact execIntrusionOverrun_keep k
  | portBringup => exact execPortBringup_keep k
  | portBringupTimeout => exact execPortBringupTimeout_keep k
  | portBringupRetry => exact execPortBringupRetry_keep k
  | initRepeat => exact execInitRepeat_keep k
  | transceiverInsert => exact execTransceiverInsert_keep k
  | transceiverRemove => exact execTransceiverRemove_keep k
  | transceiverPoll => exact execTransceiverPoll_keep k
  | laserRecordWrite => exact execLaserRecordWrite_keep k
  | flitData => exact execFlitData_keep k
  | flitIdle => exact execFlitIdle_keep k
  | flitRetry => exact execFlitRetry_keep k
  | flitInit => exact execFlitInit_keep k
  | flitTime => exact execFlitTime_keep k
  | flitLane => exact execFlitLane_keep k
  | retryRepeat => exact execRetryRepeat_keep k
  | laneSpare => exact execLaneSpare_keep k
  | laneRepeat => exact execLaneRepeat_keep k
  | laneSpareComplete => exact execLaneSpareComplete_keep k
  | timeExchange => exact execTimeExchange_keep k
  | timeLockTimeout => exact execTimeLockTimeout_keep k
  | write => exact execWrite_keep k
  | inc => exact execInc_keep k
  | ack => exact execAck_keep k
  | nackGap => exact execNackGap_keep k
  | nackBusy => exact execNackBusy_keep k
  | nackNotres => exact execNackNotres_keep k
  | nackPerm => exact execNackPerm_keep k
  | backoffExpiry => exact execBackoffExpiry_keep k
  | release => exact execRelease_keep k
  | e2eTimeout => exact execE2eTimeout_keep k
  | transferReceiveComplete => exact execTransferReceiveComplete_keep k
  | descriptorIdleFree => exact execDescriptorIdleFree_keep k
  | rejoinReq => exact execRejoinReq_keep k
  | rejoinAck => exact execRejoinAck_keep k
  | restoreReq => exact execRestoreReq_keep k
  | restoreDone => exact execRestoreDone_keep k
  | failReport => exact execFailReport_keep k
  | echo => exact execEcho_keep k
  | collectiveTrigger => exact execCollectiveTrigger_keep k
  | reduce => exact execReduce_keep k
  | allreduce => exact execAllreduce_keep k
  | reducescatter => exact execReducescatter_keep k
  | allgather => exact execAllgather_keep k
  | alltoall => exact execAlltoall_keep k
  | escape => exact execEscape_keep k
  | digest => exact execDigest_keep k
  | commit => exact execCommit_keep k
  | collData => exact execCollData_keep k
  | result => exact execResult_keep k
  | agreeUp => exact execAgreeUp_keep k
  | agreeDown => exact execAgreeDown_keep k
  | digestPacket => exact execDigestPacket_keep k
  | ready => exact execReady_keep k
  | decideCommit => exact execDecideCommit_keep k
  | decideAbort => exact execDecideAbort_keep k
  | query => exact execQuery_keep k
  | arrive => exact execArrive_keep k
  | schedule => exact execSchedule_keep k
  | escapementRelease => exact execEscapementRelease_keep k
  | escTimeout => exact execEscTimeout_keep k
  | collectiveDeadline => exact execCollectiveDeadline_keep k
  | commitTimeout => exact execCommitTimeout_keep k
  | rootTakeover => exact execRootTakeover_keep k
  | collectiveComplete => exact execCollectiveComplete_keep k
  | windowRelease => exact execWindowRelease_keep k
  | deadlineMiss => exact execDeadlineMiss_keep k
  | switch => exact execSwitch_keep k
  | testWindow => exact execTestWindow_keep k
  | spareTestRun => exact execSpareTestRun_keep k
  | doorbellPoll => exact execDoorbellPoll_keep k
  | nop => exact execHostNop_keep k
  | identify => exact execIdentify_keep k
  | leaseAcquire => exact execLeaseAcquire_keep k
  | leaseRenew => exact execLeaseRenew_keep k
  | leaseRelease => exact execLeaseRelease_keep k
  | leaseRound => exact execLeaseRound_keep k
  | leaseExpiry => exact execLeaseExpiry_keep k
  | createRing => exact execCreateRing_keep k
  | deleteRing => exact execDeleteRing_keep k
  | setEventBuffer => exact execSetEventBuffer_keep k
  | dmaToDevice => exact execDmaToDevice_keep k
  | dmaFromDevice => exact execDmaFromDevice_keep k
  | ctxRegister => exact execCtxRegister_keep k
  | ctxStop => exact execCtxStop_keep k
  | ctxDeregister => exact execCtxDeregister_keep k
  | ctxQuery => exact execCtxQuery_keep k
  | ctxSignal => exact execCtxSignal_keep k
  | tcPush => exact execTcPush_keep k
  | telemetryRead => exact execTelemetryRead_keep k
  | fwWrite => exact execFwWrite_keep k
  | fwActivate p r => exact (show OKeep s (execFwActivate p r s) from execFwActivate_keep k)
  | deviceReset => exact execDeviceReset_keep k
  | msixCoalesceTimeout => exact execMsixCoalesceTimeout_keep k
  | powerLoop => exact execPowerLoop_keep k
  | fastClamp => exact execFastClamp_keep k
  | fastClampRelease => exact execFastClampRelease_keep k
  | thermalLoop => exact execThermalLoop_keep k
  | monitorRead => exact execMonitorRead_keep k
  | replan => exact execReplan_keep k
  | ceilObservation => exact execCeilObservation_keep k
  | ageHours => exact execAgeHours_keep k
  | getCerts => exact execGetCerts_keep k
  | getReport => exact execGetReport_keep k
  | dbgChalRead => exact execDbgChalRead_keep k
  | debugToken => exact execDebugToken_keep k
  | i3cSetdasa => exact execI3cSetdasa_keep k
  | i3cEntdaa => exact execI3cEntdaa_keep k
  | tick => exact execTick_keep k
  | modPwrokAssert => exact execModPwrokAssert_keep k
  | railInRange => exact execRailInRange_keep k
  | rejoinLimitExpiry => exact execRejoinLimitExpiry_keep k
  | arraySuspectExpiry => exact execArraySuspectExpiry_keep k
  | switchComplete => exact execSwitchComplete_keep k
  | dmaComplete => exact execDmaComplete_keep k
  | controlCoreAccess => exact execControlCoreAccess_keep k
  | coreCacheUncorrectable => exact execCoreCacheUncorrectable_keep k
  | ecall => exact execEcall_keep k
  | debugAccess => exact execDebugAccess_keep k

/-- The invariant speaks of no command of the queue. -/
theorem State.Inv.dequeue {s : State} (h : s.Inv) (cs : List Instr) : ({ s with pending := cs } : State).Inv :=
  ⟨h.hbm, h.fuses, h.root, h.plc⟩

/-- Settles O3: an empty queue idles, and the command at the front keeps what the invariant is made of. -/
theorem stepKeepsInv : Obligations.StepKeepsInv := by
  unfold Obligations.StepKeepsInv
  intro s t inv stepped
  unfold step at stepped
  split at stepped
  case h_1 =>
    obtain rfl : s = t := Host.Outcome.next.inj stepped
    exact inv
  case h_2 c cs _ =>
    exact (exec_keep c { s with pending := cs } t stepped).inv (inv.dequeue cs)

end Sys2Proof.Machine
end

section
/-! SUPPORT. Slots of time, status and increments; the fetches of a stream; increments, starts and the watch over a tile's program. -/

namespace Sys2Proof.Machine

/-! ## Slots that write their own tile (R33, R92, R277) -/

/-- A C slot that nothing holds, that passes its checks and that leaves its tile as `x` issues. -/
theorem only_ofC_issued {s : State} {t : Nat} {c : CSlot} {g : State → State} {x : Tile} (free : s.canIssue t = true)
    (recs : s.bundleRecs t (.ofC c) = []) (holds : s.cHolds t c.check = []) (prep : s.prepC t c.check (s.tile t).pc = .ok g)
    (wrote : g (s.opened t) = (s.opened t).setTile t (x.stamp s.clk.etick)) :
    ∃ u, s.only t (.ofC c) = .next u ∧ s.Issued u t x := by
  refine ⟨_, only_ofC free recs holds prep, ?_⟩
  rw [wrote]
  exact issued_set s t x _ rfl

/-- TREAD passes its checks where the register is even and no part of the pair counts an active level. -/
theorem prepC_tread {s : State} {t a next : Nat} (even : a % 2 = 0) (lo : (s.tile t).counts a = false) (hi : (s.tile t).counts (a + 1) = false) :
    s.prepC t (CSlot.check ⟨0x0a, a, 0, 0, 0, false⟩) next =
      .ok fun s => s.setTile t (((s.tile t).setX a (s.now.truncate 32)).setX (a + 1) ((s.now >>> 32).truncate 32)) := by
  simp [State.prepC, CSlot.check, even, lo, hi, illegalIf, bind, Except.bind]

/-- Settles O7: nothing holds the three slots, their checks pass, and each writes its own tile. -/
theorem timeAndStatusSlots : Obligations.TimeAndStatusSlots := by
  unfold Obligations.TimeAndStatusSlots
  intro s t x free
  refine ⟨fun even lo hi => ?tread, ?cvrd, ?cvclr⟩
  case tread =>
    refine only_ofC_issued free rfl rfl (prepC_tread even lo hi) ?_
    rw [opened_tile]
    rfl
  case cvrd =>
    refine only_ofC_issued free rfl rfl rfl ?_
    rw [opened_tile]
    rfl
  case cvclr =>
    refine only_ofC_issued free rfl rfl rfl ?_
    rw [opened_tile]
    rfl

/-! ## Increments to another tile (R21, R281) -/

/-- SIG_T passes its checks where the named tile is one of the resident context's. -/
theorem prepC_sigT {s : State} {t a n k next j : Nat} {c : Ctx} (res : s.resCtx = some (j, c)) (active : bitOf c.rr.tiles.toNat k = true) :
    s.prepC t (CSlot.check ⟨0x04, a, n, k, 0, false⟩) next = .ok fun s => s.incFrom (s.stopOf t) k a n := by
  simp [State.prepC, CSlot.check, res, active, illegalIf, bind, Except.bind]

/-- An increment is sent under the binding of the moment; one of zero is none. -/
theorem incFrom_tile (s : State) (stop k a n m : Nat) :
    (s.incFrom stop k a n).tile m =
      if m = k ∧ n ≠ 0 then { s.tile m with incs := (s.tile m).incs ++ [⟨a, n, stop, s.plc.epoch⟩] } else s.tile m := by
  unfold State.incFrom
  by_cases zero : n = 0
  · simp [zero]
  · simp only [zero, if_false, tile_setTile, ne_eq, not_false_eq_true, and_true]
    by_cases same : k = m
    · simp [same]
    · simp [same, Ne.symm same]

/-- The issue of a slot that sends an increment changes no state but tiles and physical tiles. -/
theorem issuedFrame_incFrom (s : State) (t stop k a n : Nat) :
    { ((s.opened t).incFrom stop k a n).writeBack t with tiles := s.tiles, ptiles := s.ptiles } = s := by
  simp only [State.writeBack, State.incFrom]
  split <;> simp only [State.setTile, State.opened, State.chrAdd, State.setPtile]

/-- Settles O11: the slot passes its checks, and the increment it sends is the one that `incFrom_tile` finds at the named tile. -/
theorem remoteSyncSlot : Obligations.RemoteSyncSlot := by
  unfold Obligations.RemoteSyncSlot
  intro s t o n k j c free res active
  have amount : n.toNat ≠ 0 ↔ n ≠ 0 := by simp [BitVec.toNat_eq]
  refine ⟨_, only_ofC free rfl rfl (prepC_sigT res active), ?_, fun m => ?_⟩
  · exact issuedFrame_incFrom s t ((s.opened t).stopOf t) k.toNat o.toNat n.toNat
  · have stamped : (s.opened t).tile m = if m = t.val then (s.tile m).stamp s.clk.etick else s.tile m := by
      split
      next same => rw [same, opened_tile]
      next other => exact opened_tile_ne s t m other
    rw [writeBack_tile, incFrom_tile, stamped]
    exact if_congr (and_congr_right fun _ => amount) rfl rfl

/-! ## Fetches of a stream (R228, R239 to R242) -/

/-- A demand fetch of a granule in bounds, permitted and not held, with room among the flights, begins the read and counts it. -/
theorem demandFetch_begins {s : State} {t c j : Nat} {i : Inb} (stream : sfind (s.tile t).inb c = some i) (room : i.fl.length < 8)
    (inside : i.sd.outside i.td j = false) (permitted : s.refused t (i.sd.addr j) 0 = false) (fresh : s.staleFlight t c i = none)
    (wanted : i.wanted = some j) (free : s.farHeld t (i.sd.addr j) = false) :
    s.demandFetch t c = (s.fetch t c j false).ctr t c 10 1 := by
  simp [State.demandFetch, stream, fresh, wanted, inside, permitted, free, room]

/-- A run-ahead fetch of a paced stream's next granule ahead of its demand takes a window entry and begins the read. -/
theorem runAheadFetch_begins {s : State} {t c j : Nat} {i : Inb} (stream : sfind (s.tile t).inb c = some i) (room : i.fl.length < 8)
    (inside : i.sd.outside i.td j = false) (permitted : s.refused t (i.sd.addr j) 0 = false) (next : i.next = j) (paced : i.sd.paced = true)
    (ahead : i.demand ≤ j) (near : j < i.demand + i.sd.ahead) (walk : j < i.sd.n)
    (window : (s.hbm.ctlOf (hbmMap (i.sd.addr j)).1).win.length < 2048) :
    let k := (hbmMap (i.sd.addr j)).1
    let h := s.hbm.ctlOf k
    s.runAheadFetch t c =
      (({ s with hbm := s.hbm.setCtl k { h with win := h.win ++ [⟨t, c, j, i.sd.addr j, false⟩] } } : State).fetch t c j true).ctr t c 4 1 := by
  subst next
  simp [State.runAheadFetch, stream, paced, inside, permitted, Nat.not_lt.mpr ahead, Nat.not_le.mpr near, Nat.not_le.mpr walk,
    Nat.not_le.mpr room, Nat.not_le.mpr window]

/-- Settles O26: in a tick in which the stream may go on, both rows do what their operation does. -/
theorem streamFetches : Obligations.StreamFetches := by
  unfold Obligations.StreamFetches
  intro s t c i j stream room inside permitted on
  constructor
  · intro fresh wanted free
    rw [exec, execDemandFetch, on, occurs_true, demandFetch_begins stream room inside permitted fresh wanted free]
  · intro k h next paced ahead near walk window
    rw [exec, execRunAheadFetch, on, occurs_true, runAheadFetch_begins stream room inside permitted next paced ahead near walk window]

/-! ## Increments, starts and the watch over a program (R280 to R288) -/

/-- The oldest increment that has come to a counter is one of that counter. -/
theorem obj_of_find? {l : List (Incr × Nat)} {o : Nat} {come : Incr × Nat → Bool} {p : Incr} {i : Nat}
    (found : l.find? (fun q => q.1.obj == o && come q) = some (p, i)) : p.obj = o := by
  have holds := List.find?_some found
  simp only [Bool.and_eq_true, beq_iff_eq] at holds
  exact holds.1

/-- Settles O33: each row occurs under the conditions of its clause. -/
theorem tileRows : Obligations.TileRows := by
  unfold Obligations.TileRows
  intro s u t o x
  refine ⟨?land, ?store, ?start, ?watchdog, ?overrun⟩
  case land =>
    intro p i found takes
    have own : p.obj = o.toNat := obj_of_find? found
    simp only [exec, execSyncIncrementLand]
    rw [found]
    dsimp only
    rw [takes, occurs_true, own]
  case store =>
    intro core k c v res active
    simp only [exec, execSyncWindowStore, res, active, occurs_true]
  case start =>
    intro off halted checks
    simp only [exec, execTileStartStore]
    rw [checks, show ((s.tile t).run == Run.halted) = true from beq_iff_eq.mpr halted]
    rfl
  case watchdog =>
    intro k c res on late
    have running : ((s.tile t).run == .on) = true := beq_iff_eq.mpr on
    have held : decide (c.rr.wdog < (s.tile t).held) = true := decide_eq_true late
    simp only [exec, execWatchdog, res, running, held, Bool.and_self, occurs_true]
  case overrun =>
    intro k c res on late
    have running : ((s.tile t).run == .on) = true := beq_iff_eq.mpr on
    have overran : (s.tile t).overrun s.clk.etick = true := late
    simp only [exec, execIntrusionOverrun, res, running, overran, Bool.and_self, occurs_true]
    rfl

end Sys2Proof.Machine
end

section
/-! SUPPORT. Pins, resets and moves. -/

namespace Sys2Proof.Machine

/-! ## What resets leave (R439, R470, R557 to R562) -/

/-- A field that no round of a loop changes is as it was after the loop. -/
theorem foldl_leaves {α β : Type} {π : State → α} {f : State → β → State} (each : ∀ s b, π (f s b) = π s) (l : List β) (s : State) :
    π (l.foldl f s) = π s := by
  induction l generalizing s with
  | nil => rfl
  | cons b l ih => exact (ih (f s b)).trans (each s b)

/-- An event changes nothing but the ports and what HIF_ERR shows of a lost one (R495, R497). -/
theorem raiseOn_eq (s : State) (p : Nat) (e : Event) :
    ∃ hosts w1c cfg, s.raiseOn p e = { s with hosts := hosts, w1cNow := w1c, cfg := cfg } := by
  unfold State.raiseOn
  dsimp only
  split
  · exact ⟨_, _, _, rfl⟩
  · exact ⟨_, _, _, rfl⟩

theorem event_eq (s : State) (kind ctx : Nat) (data : List (Nat × Nat × Nat)) (recd : List Byte) :
    ∃ hosts w1c cfg, s.event kind ctx data recd = { s with hosts := hosts, w1cNow := w1c, cfg := cfg } := by
  unfold State.event
  dsimp only
  generalize Event.mk .. = e
  obtain ⟨h0, w0, c0, first⟩ := raiseOn_eq s 0 e
  rw [first]
  obtain ⟨h1, w1, c1, second⟩ := raiseOn_eq { s with hosts := h0, w1cNow := w0, cfg := c0 } 1 e
  exact ⟨h1, w1, c1, second⟩

/-- The loss of the lease changes only it, the ports and what HIF_ERR shows (R493). -/
theorem loseLease_eq (s : State) (cause : Nat) :
    ∃ hosts w1c cfg, s.loseLease cause = { s with lease := none, hosts := hosts, w1cNow := w1c, cfg := cfg } := by
  unfold State.loseLease
  split
  next free => exact ⟨s.hosts, s.w1cNow, s.cfg, by rw [← free]⟩
  next => exact event_eq _ ..

theorem loseLease_lease (s : State) (cause : Nat) : (s.loseLease cause).lease = none := by
  obtain ⟨hosts, w1c, cfg, e⟩ := loseLease_eq s cause
  rw [e]

theorem loseLease_hbm (s : State) (cause : Nat) : (s.loseLease cause).hbm = s.hbm := by
  obtain ⟨hosts, w1c, cfg, e⟩ := loseLease_eq s cause
  rw [e]

theorem loseLease_ctxs (s : State) (cause : Nat) : (s.loseLease cause).ctxs = s.ctxs := by
  obtain ⟨hosts, w1c, cfg, e⟩ := loseLease_eq s cause
  rw [e]

theorem timeCtrl_pins (s : State) : s.timeCtrl.pins = s.pins := by
  unfold State.timeCtrl
  dsimp only
  split <;> rfl

theorem timeCtrl_lease (s : State) : s.timeCtrl.lease = s.lease := by
  unfold State.timeCtrl
  dsimp only
  split <;> rfl

theorem timeCtrl_flash (s : State) : s.timeCtrl.flash = s.flash := by
  unfold State.timeCtrl
  dsimp only
  split <;> rfl

/-- The reset of the die keeps the pins. -/
theorem dieReset_pins (s : State) : s.dieReset.pins = s.pins := by
  unfold State.dieReset
  refine (timeCtrl_pins _).trans ?_
  dsimp only [List.range, List.range.loop, List.foldl]
  split <;> rfl

theorem dieReset_flash (s : State) : s.dieReset.flash = s.flash := by
  unfold State.dieReset
  refine (timeCtrl_flash _).trans ?_
  dsimp only [List.range, List.range.loop, List.foldl]
  split <;> rfl

theorem dieReset_lease (s : State) : s.dieReset.lease = none := timeCtrl_lease _

theorem selfRefresh_pins (s : State) (on : Bool) : (s.selfRefresh on).pins = s.pins := by
  unfold State.selfRefresh
  refine foldl_leaves (π := State.pins) (fun s i => ?_) _ s
  rfl

theorem selfRefresh_flash (s : State) (on : Bool) : (s.selfRefresh on).flash = s.flash := by
  unfold State.selfRefresh
  refine foldl_leaves (π := State.flash) (fun s i => ?_) _ s
  rfl

/-- The module in reset: no context, no lease, no tile state, the fuses and the queue as they were. -/
theorem moduleReset_cold (s : State) (pins : Pins) :
    let u := s.moduleReset pins
    u.phase = .inReset ∧ u.pins = pins ∧ u.ctxs = [] ∧ u.lease = none ∧ u.tiles = [] ∧ u.cfg = [] ∧ u.clk.time = 0 ∧
      u.fuses = s.fuses ∧ u.pending = s.pending :=
  ⟨rfl, rfl, rfl, rfl, rfl, rfl, rfl, rfl, rfl⟩

/-! ## A module out of service (R22, R440, R528, R531) -/

/-- The area holds a record with this body. -/
def NvArea.Holds (a : NvArea) (b : NvBody) : Prop := ∃ r ∈ a.recs, r.body = b

/-- A module whose event log holds an EV_OUT_OF_SERVICE record is out of service. -/
theorem outOfService_of_holds {f : Flash} {cause : Nat} (h : f.events.Holds (.evOutOfService cause)) : f.outOfService = true := by
  obtain ⟨r, mem, body⟩ := h
  exact List.any_eq_true.mpr ⟨r, mem, by rw [body]; rfl⟩

theorem holds_put_self (a : NvArea) (sectors psec boot : Nat) (b : NvBody) : (a.put sectors psec boot b).Holds b :=
  ⟨_, List.mem_append_right _ (List.mem_singleton_self _), rfl⟩

theorem NvArea.Holds.put {a : NvArea} {b : NvBody} (h : a.Holds b) (sectors psec boot : Nat) (c : NvBody) : (a.put sectors psec boot c).Holds b := by
  obtain ⟨r, mem, body⟩ := h
  exact ⟨r, List.mem_append_left _ mem, body⟩

/-- The records that are copied forward stand after it beside those that stood. -/
theorem holds_copied {sectors : Nat} {b : NvBody} (l : List NvRec) (a : NvArea) (h : a.Holds b ∨ ∃ r ∈ l, r.body = b) :
    (l.foldl (fun acc r => acc.put sectors r.psec r.boot r.body) a).Holds b := by
  induction l generalizing a with
  | nil => simpa using h
  | cons q l ih =>
    refine ih _ ?_
    rcases h with stood | ⟨r, mem, body⟩
    · exact .inl (stood.put ..)
    · rcases List.mem_cons.mp mem with rfl | later
      · exact .inl (body ▸ holds_put_self ..)
      · exact .inr ⟨r, later, body⟩

/-- Erasing the sector ahead loses no record that is always in force (R531). -/
theorem NvArea.Holds.lead {sectors : Nat} {b : NvBody} (force : ∀ (a : NvArea) (r : NvRec), r.body = b → a.inForce r = true) :
    ∀ (n : Nat) {a : NvArea}, a.Holds b → (NvArea.lead sectors n a).Holds b
  | 0, _, h => h
  | n + 1, a, ⟨r, mem, body⟩ => by
    unfold NvArea.lead
    dsimp only
    split
    · exact ⟨r, mem, body⟩
    · refine NvArea.Holds.lead force n (holds_copied _ _ ?_)
      by_cases ahead : r.unit / sectorUnits = ((a.wp - 1) / sectorUnits + 1) % sectors
      · exact .inr ⟨r, List.mem_filter.mpr ⟨List.mem_filter.mpr ⟨mem, beq_iff_eq.mpr ahead⟩, force a r body⟩, body⟩
      · exact .inl ⟨r, List.mem_filter.mpr ⟨mem, bne_iff_ne.mpr ahead⟩, body⟩

theorem inForce_outOfService {cause : Nat} (a : NvArea) (r : NvRec) (body : r.body = .evOutOfService cause) : a.inForce r = true := by
  rw [NvArea.inForce, body]

/-- The event log of the state takes the module out of service. -/
def State.Retired (s : State) (cause : Nat) : Prop := s.flash.events.Holds (.evOutOfService cause)

theorem retired_logEvent (s : State) (cause : Nat) : (s.logEvent (.evOutOfService cause)).Retired cause :=
  NvArea.Holds.lead inForce_outOfService _ (holds_put_self ..)

/-- No later record of the event log takes that back. -/
theorem State.Retired.logEvent {s : State} {cause : Nat} (h : s.Retired cause) (b : NvBody) : (s.logEvent b).Retired cause :=
  NvArea.Holds.lead inForce_outOfService _ (h.put ..)

theorem State.Retired.trialBoot {s : State} {cause : Nat} (h : s.Retired cause) (i : Image) : (s.trialBoot i).Retired cause := by
  unfold State.trialBoot
  dsimp only
  split
  · exact h
  · split
    · exact h.logEvent _
    · exact h

theorem writeLaser_events (s : State) (p : Nat) : (s.writeLaser p).flash.events = s.flash.events := by
  unfold State.writeLaser
  dsimp only
  split
  · rfl
  · split <;> rfl

theorem laserRecords_events (s : State) : s.laserRecords.flash.events = s.flash.events := by
  unfold State.laserRecords
  refine foldl_leaves (π := fun s => s.flash.events) (fun s p => ?_) _ s
  split
  · exact writeLaser_events s p
  · rfl

/-- A boot of a module that is out of service stops it (R508). -/
theorem boot_retired {s : State} {cause : Nat} (h : s.Retired cause) (test : Bool) : (s.boot test none).phase = .stopped := by
  unfold State.boot
  dsimp only
  split
  · rfl
  · next i _ =>
    have out := outOfService_of_holds (State.Retired.trialBoot (s := { s with flash := { s.flash with boots := s.flash.boots + 1 } }) h i)
    split
    · rfl
    · next inService => exact absurd out inService

/-- The full-device reset of a module that is out of service ends there (R439). -/
theorem fullReset_retired {s : State} {cause : Nat} (h : s.Retired cause) (why : Nat) (test : Bool) : (s.fullReset why test).phase = .stopped := by
  unfold State.fullReset
  dsimp only
  unfold State.restart439
  generalize recorded : (s.logEvent (.evReset why)).laserRecords = t
  have out : t.Retired cause := by
    unfold State.Retired
    rw [← recorded, laserRecords_events]
    exact h.logEvent _
  generalize ended : (t.setHost 0 _).setHost 1 _ = u
  have flash : (u.selfRefresh true).dieReset.flash = t.flash := by
    rw [dieReset_flash, selfRefresh_flash, ← ended]
    rfl
  have out : (u.selfRefresh true).dieReset.Retired cause := by
    unfold State.Retired
    rw [flash]
    exact out
  have stopped := boot_retired out test
  dsimp only
  rw [if_pos (by rw [stopped]; decide)]
  exact stopped

/-! ## The rows of pins, resets and moves -/

/-- After a trip the die stands still, THERMTRIP_N and FAULT_N are low and no port holds the lease (R562). -/
theorem thermalTrip_trips {s : State} {i : Fin 84} {temp : Int} (powered : s.phase = .running ∨ s.phase = .stopped)
    (hot : 72 ≤ i.val ∨ 1150 ≤ temp) :
    ∃ u, exec (.thermalTrip i temp) s = .next u ∧ u.phase = .tripped ∧ u.pins = { s.pins with tripLow := true, faultLow := true } ∧
      u.lease = none := by
  have occurred : ((s.phase == .running || s.phase == .stopped) && (decide (72 ≤ i.val) || decide (1150 ≤ temp))) = true := by
    simp [powered, hot]
  simp only [exec, execThermalTrip, occurred, occurs_true]
  refine ⟨_, rfl, rfl, ?_, ?_⟩
  · simp [dieReset_pins, selfRefresh_pins]
  · simp [dieReset_lease]

/-- A port that is reset has lost what its host had set up, and the lease if it held it; device memory and the contexts stay (R470). -/
theorem pciePortReset_resets (s : State) (p : Fin 2) (perst : Bool) :
    ∃ u, exec (.pciePortReset p perst) s = .next u ∧ (∀ l, u.lease = some l → l.holder ≠ p.val ∧ s.lease = some l) ∧
      (u.host p).rings = [] ∧ (u.host p).enrdy = false ∧ (perst = true → (u.host p).linkUp = false) ∧ u.hbm = s.hbm ∧ u.ctxs = s.ctxs := by
  refine ⟨_, rfl, ?lease, ?rings, ?enabled, fun lost => ?link, ?hbm, ?ctxs⟩
  case lease =>
    cases held : s.lease with
    | none => simp [held]
    | some l =>
      by_cases own : l.holder = p.val
      · simp [own, loseLease_lease]
      · simp [held, own]
  case rings =>
    rw [State.host_setHost, if_pos rfl]
    rfl
  case enabled =>
    rw [State.host_setHost, if_pos rfl]
    rfl
  case link =>
    rw [State.host_setHost, if_pos rfl, lost]
    rfl
  case hbm =>
    rw [State.setHost_hbm]
    dsimp only
    rw [apply_ite State.hbm, loseLease_hbm, ite_self]
  case ctxs =>
    rw [State.setHost_ctxs]
    dsimp only
    rw [apply_ite State.ctxs, loseLease_ctxs, ite_self]

/-- The marker of a stop and a class that the first move awaits is noted in it (R247). -/
theorem epochMarker_noted {s : State} {t : Fin 64} {stop : Fin 72} {cls : Fin 3} {d : Drain} {rest : List Drain}
    (moves : s.plc.drains = d :: rest) (tile : d.ltile = t.val) (awaited : d.got.contains (stop.val * 3 + cls.val) = false) :
    exec (.epochMarker t stop cls) s =
      .next { s with plc := { s.plc with drains := { d with got := d.got ++ [stop.val * 3 + cls.val] } :: rest } } := by
  have first : (d :: rest).findIdx? (fun d => d.ltile == t.val && !d.got.contains (stop.val * 3 + cls.val)) = some 0 := by
    rw [List.findIdx?_cons, tile, awaited]
    simp
  simp only [exec, execEpochMarker, moves, first]
  rfl

/-- The first move ends once every marker has come (R248). -/
theorem placementExclusive_ends {s : State} {t : Fin 64} {d : Drain} {rest : List Drain} (moves : s.plc.drains = d :: rest)
    (tile : d.ltile = t.val) (come : d.count = 0) :
    exec (.placementExclusive t) s = .next { s with plc := { s.plc with drains := rest } } := by
  have first : (d :: rest).findIdx? (fun d => d.ltile == t.val) = some 0 := by
    rw [List.findIdx?_cons, tile]
    simp
  simp only [exec, execPlacementExclusive, moves, first]
  simp [come]

/-- Settles O54: the rows of resets and moves as above, and the others by their conditions. -/
theorem resetRows : Obligations.ResetRows := by
  unfold Obligations.ResetRows
  intro s test cold
  refine ⟨?assert, ?power, ?release, ?pwrok, ?perst, fun p perst => pciePortReset_resets s p perst, fun r => ⟨rfl, rfl⟩,
    fun i temp powered hot => thermalTrip_trips powered hot, ?recovery, ?faults, ?moves⟩
  case assert =>
    intro high
    exact ⟨_, by rw [exec, execModuleResetAssert, high, occurs_true], moduleReset_cold s _⟩
  case power =>
    intro on
    exact ⟨_, by rw [exec, execPowerFail, on, occurs_true], moduleReset_cold s _⟩
  case release =>
    intro low v
    simp only [exec, execModuleResetRelease, low, Bool.not_false, occurs_true]
    rfl
  case pwrok =>
    intro off v
    simp only [exec, execModPwrokAssert, off, Bool.not_false, occurs_true]
    rfl
  case perst =>
    intro p
    exact ⟨_, rfl, rfl, by simp⟩
  case recovery =>
    intro die tripped pwrok rstN length cool
    have ready : (s.phase == .tripped && s.pins.pwrok && s.pins.rstN && decide (die.length = 72) && die.all fun t => decide (t < 1050)) = true := by
      simpa [tripped, pwrok, rstN, length] using cool
    simp only [exec, execThermalTripRecovery, ready, occurs_true]
  case faults =>
    intro up
    refine ⟨fun first => ?_, fun again => ⟨_, ?_, fullReset_retired (retired_logEvent s 3) 3 test⟩, ?_, fun k => ?_, ?_⟩
    · simp [exec, execRouterFault, up, first]
    · simp [exec, execRouterFault, up, again]
    · simp [exec, execCluster0UncorrectableError, up]
    · simp [exec, execFirmwareWatchdog, up]
    · simp [exec, execSecurityBlockFault, up]
  case moves =>
    intro t stop cls d rest moves tile
    exact ⟨epochMarker_noted moves tile, placementExclusive_ends moves tile⟩

end Sys2Proof.Machine
end

section
/-! SUPPORT. The control cores. -/

namespace Sys2Proof.Machine

/-! ## The timers of the control cores (R294, log 81)

The model keeps one comparator for each core of clusters 1 to 3, under the core's number among those, counted from 0, as the row's operand
names it. The statement looks for it under that number plus 4, which is the core's number among all cores, as its debug status has it. -/

/-- A core that goes writes the comparator under its own number. -/
theorem stimecmp_store {s : State} {j : Nat} {c : Ctx} {k : Fin 12} (res : s.resCtx = some (j, c)) (up : s.up = true)
    (goes : s.coreGoes (k.val + 4) = true) (a : BitVec 48) (n : BitVec 7) (d : List Byte) :
    exec (.controlCoreAccess k 8 true a n d) s =
      .next { s.stepped (k.val + 4) with stimecmp := sput zero64 s.stimecmp k.val (BitVec.ofNat 64 (leNat (d.take 8))) } := by
  simp [exec, execControlCoreAccess, State.coreTimer, res, up, goes]

/-- A running module with a context whose control program runs on every core. -/
def timerState : State :=
  { State.reset with
    phase := .running
    ctxs := [(0, State.reset.newCtx RegRec.empty [])]
    sched := ⟨some 0, false, false, none⟩ }

theorem timerState_resident : timerState.resCtx = some (0, State.reset.newCtx RegRec.empty []) := rfl

/-- Refutes O57, by its clause about a store to stimecmp: core 0 of clusters 1 to 3 stores 1, which stands under key 0 and not under key 4. -/
theorem not_coreRows : ¬ Obligations.CoreRows := by
  unfold Obligations.CoreRows
  intro claim
  obtain ⟨inContext, -⟩ := claim timerState
  obtain ⟨accesses, -⟩ := inContext 0 _ timerState_resident
  obtain ⟨-, -, -, -, -, store, -⟩ := accesses 0 true 0 0 [1] rfl rfl
  have stored := stimecmp_store (k := 0) timerState_resident rfl rfl 0 0 [1]
  have tables := congrArg State.stimecmp (Host.Outcome.next.inj (stored.symm.trans store))
  exact absurd tables (by decide)

end Sys2Proof.Machine
end

section
/-! SUPPORT. Legal descriptors, and vector loads. -/

namespace Sys2Proof.Machine

/-! ## Legal descriptors (R41, R53) -/

/-- A list of conditions has a first that holds unless none does. -/
theorem firstOf_eq_none {cs : List Bool} : firstOf cs = none ↔ ∀ c ∈ cs, c = false := by
  simp [firstOf, List.findIdx?_eq_none_iff]

/-- A legal descriptor of a tensor for transposed consumption has the square block (R41), or the sixth condition of R53 would hold. -/
theorem bshape_of_legal {d : TDesc} (legal : d.legal = true) (transposed : d.consT = true) : d.bshape = 5 := by
  unfold TDesc.legal TDesc.fault at legal
  split at legal
  case h_1 => exact absurd legal Bool.false_ne_true
  case h_2 clear =>
    have sixth := firstOf_eq_none.mp clear _ (.tail _ <| .tail _ <| .tail _ <| .tail _ <| .tail _ <| .head _)
    simpa [transposed] using (Bool.or_eq_false_iff.mp sixth).1

/-- Settles O60: both directions say that the sixth condition of R53 rejects every other block shape. -/
theorem transposeBlockShape : Obligations.TransposeBlockShape := by
  unfold Obligations.TransposeBlockShape
  intro d transposed
  exact ⟨fun legal => bshape_of_legal legal transposed,
    fun other => Bool.eq_false_iff.mpr fun legal => other (bshape_of_legal legal transposed)⟩

/-! ## The issue of a V slot that names descriptors (R225, R254, R255) -/

/-- Where no granule of its descriptors is pending, only the vector unit can hold a V slot. -/
theorem holds_ofV_recsFree {s : State} {t : Nat} {v : VSlot} (recs : s.recsFree t (.ofV v) = true) (starts : (s.tile t).starting = false) :
    s.holds t (.ofV v) false = s.vHolds t v.check := by
  have free : s.readHeld t (spans t (s.bundleRecs t (.ofV v))) = false := by simpa [State.recsFree] using recs
  rw [State.holds, free, starts]
  show [] ++ [] ++ [] ++ [] ++ s.vHolds t v.check ++ [] ++ [] = _
  simp

/-- A V-slot row that names descriptors, which nothing holds and which passes its checks. -/
theorem only_ofV_recsFree {s : State} {t : Nat} {v : VSlot} {g : State → State} (free : s.canIssue t = true)
    (recs : s.recsFree t (.ofV v) = true) (holds : s.vHolds t v.check = []) (works : v.op ≠ 0) (prep : s.prepVslot t v.check = .ok g) :
    s.only t (.ofV v) = .next ((g (s.openedV t)).writeBack t) :=
  issue_ok free ((holds_ofV_recsFree recs (canIssue_starting free)).trans holds) (prepBundle_ofV s t v g works prep)

/-- A free unit holds a V slot only for pending granules that the slot reads. -/
theorem vHolds_of_vFree {s : State} {t : Nat} {b : Bundle} (unit : s.vFree t b = true) (reads : s.readHeld t (s.vReads t b.v) = false) :
    s.vHolds t b.v = [] := by
  simp only [State.vFree, Bool.and_eq_true, Option.isNone_iff_eq_none, Bool.not_eq_true'] at unit
  obtain ⟨ready, drained⟩ := unit
  simp [State.vHolds, ready, drained, reads]

/-- The timing marks with which an instruction of the V slot, but for vupd, ends its issue (R197, R198). -/
def State.vTimed (s : State) (t : Nat) (v : VSlot) : State :=
  s.setTile t (({ s.tile t with vAt := s.clk.etick } : Tile).timed v s.clk.etick)

/-- They leave registers, poison marks and the status word, the other tiles and device memory. -/
theorem vTimed_reads (s : State) (t : Nat) (v : VSlot) :
    (∀ r, ((s.vTimed t v).tile t).lanesOf r = (s.tile t).lanesOf r) ∧ (∀ r, ((s.vTimed t v).tile t).vMark r = (s.tile t).vMark r) ∧
      ((s.vTimed t v).tile t).cvst = (s.tile t).cvst ∧ (∀ k, k ≠ t → (s.vTimed t v).tile k = s.tile k) ∧ (s.vTimed t v).mem = s.mem := by
  refine ⟨fun r => ?_, fun r => ?_, ?_, fun k other => ?_, rfl⟩
  · rw [State.vTimed, tile_setTile_self]
    rfl
  · rw [State.vTimed, tile_setTile_self]
    rfl
  · rw [State.vTimed, tile_setTile_self]
    rfl
  · rw [State.vTimed, tile_setTile, if_neg other.symm]

theorem openedV_mem (s : State) (t : Nat) : (s.openedV t).mem = s.mem := by
  rw [State.mem, openedV_hbm, State.mem]

theorem openedV_poisIvs (s : State) (t : Nat) (ivs : List (Nat × Nat)) : (s.openedV t).poisIvs ivs = s.poisIvs ivs := by
  simp only [State.poisIvs, State.poisIn, State.pois, openedV_hbm]

theorem writeBack_mem (s : State) (t : Nat) : (s.writeBack t).mem = s.mem := rfl

theorem lanesOf_stamp (x : Tile) (now r : Nat) : (x.stamp now).lanesOf r = x.lanesOf r := rfl

theorem vMark_stamp (x : Tile) (now r : Nat) : (x.stamp now).vMark r = x.vMark r := rfl

theorem cvst_stamp (x : Tile) (now : Nat) : (x.stamp now).cvst = x.cvst := rfl

/-! ## Counts of −128 and −8 (R57, R58) -/

theorem metaOp_tiles (s : State) (o : MetaOp) : (s.metaOp o).tiles = s.tiles := by
  unfold State.metaOp State.noteHbm
  split
  · rfl
  · split <;> rfl

/-- A count reaches no tile. -/
theorem countNeg_tiles (s : State) (d : TDesc) (n : Nat) : (s.countNeg d n).tiles = s.tiles := by
  unfold State.countNeg
  split
  · exact foldl_leaves (π := State.tiles) metaOp_tiles _ s
  · rfl

/-- A count of none is no update. -/
theorem countNeg_zero (s : State) (d : TDesc) : s.countNeg d 0 = s := by
  have none_counted : d.negOps 0 = [] := rfl
  simp [State.countNeg, none_counted, State.metaOps]

/-! ## Vector loads (R194, R408) -/

/-- The loading tile: its status word takes what the conversions set, and the register the lanes and the mark of the bytes read. -/
theorem vld_tile (s : State) (t : Nat) (v : VSlot) (d : TDesc) (i0 : Nat) :
    (s.vld t v d i0).tile t =
      ({ s.tile t with
          cvst := (s.tile t).cvst ||| d.loadCv s.mem (d.laneIdx i0)
          vpois := bvPut (s.tile t).vpois v.vd (s.poisIvs (d.idxReads (d.laneIdx i0))) } : Tile).setV v.vd
        ((List.range 512).map fun k => d.loadF s.mem (i0 + k)) := by
  simp only [State.vld, tile_setTile_self]
  rw [State.tile, countNeg_tiles, ← State.tile, State.setCvst, tile_setTile_self]

theorem vld_tile_ne {s : State} {t k : Nat} {v : VSlot} {d : TDesc} {i0 : Nat} (other : k ≠ t) : (s.vld t v d i0).tile k = s.tile k := by
  simp only [State.vld]
  rw [tile_setTile, if_neg other.symm, State.tile, countNeg_tiles, ← State.tile, State.setCvst, tile_setTile, if_neg other.symm]

/-- Without a mantissa to count, memory stays. -/
theorem vld_mem {s : State} {t : Nat} {v : VSlot} {d : TDesc} {i0 : Nat} (none_counted : d.negs (d.elemsAt s.mem (d.laneIdx i0)) = 0) :
    (s.vld t v d i0).mem = s.mem := by
  have counted : (s.vld t v d i0).mem =
      ((s.setCvst t (d.loadCv s.mem (d.laneIdx i0))).countNeg d (d.negs (d.elemsAt s.mem (d.laneIdx i0)))).mem := rfl
  rw [counted, none_counted, countNeg_zero]
  rfl

/-- The loaded register holds the elements and the mark; every other one is as it was. -/
theorem vld_registers {s : State} {t : Nat} {v : VSlot} (d : TDesc) (i0 : Nat) (reg : v.vd < 32) (r : Nat) :
    ((s.vld t v d i0).tile t).lanesOf r =
        (if v.vd = r then (List.range 512).map (fun k => d.loadF s.mem (i0 + k)) else (s.tile t).lanesOf r) ∧
      ((s.vld t v d i0).tile t).vMark r = if r = v.vd then s.poisIvs (d.idxReads (d.laneIdx i0)) else (s.tile t).vMark r := by
  rw [vld_tile]
  constructor
  · rw [lanesOf_setV _ _ _ _ (by simp)]
    rfl
  · rw [vMark_setV, vMark_eq, vMark_eq]
    exact getLsbD_bvPut _ _ _ _ reg

section
variable {s : State} {t : Nat} {v : VSlot} {d : TDesc} {i0 : Nat}

/-- A load passes its checks where its element index and descriptor do and the status record takes the count, and then loads. -/
theorem prepVslot_vld (op : v.op = 0x30) (good : v.bad = false) (index : s.elemAt t v = .ok i0) (desc : s.descLocal t v.drec 0 = .ok d)
    (counts : s.negChecked d (d.elemsAt s.mem (d.laneIdx i0)) = .ok ()) :
    s.prepVslot t v = .ok fun s => (s.vld t v d i0).vTimed t v := by
  simp [State.prepVslot, State.prepV, op, good, index, desc, counts, State.vTimed, bind, Except.bind]

/-- It reads the elements of the 512 lanes. -/
theorem vReads_vld (op : v.op = 0x30) (index : s.elemAt t v = .ok i0) (desc : s.descLocal t v.drec 0 = .ok d) :
    s.vReads t v = d.idxReads (d.laneIdx i0) := by
  simp [State.vReads, op, index, desc, bind, Except.bind]

theorem elemAt_of_nonneg (natural : 0 ≤ (s.tile t).xs v.xreg) : s.elemAt t v = .ok (512 * ((s.tile t).xs v.xreg).toNat) :=
  if_neg (Int.not_lt.mpr natural)

end

/-- What a load leaves that issues: the tile of `vld_registers` with new timing marks. -/
theorem vldIssued_reads {s : State} {t : Nat} {v : VSlot} (d : TDesc) (i0 : Nat) (reg : v.vd < 32) :
    let u := (((s.openedV t).vld t v d i0).vTimed t v).writeBack t
    (∀ i, i < 512 → ((u.tile t).lanesOf v.vd).getD i 0 = d.loadF s.mem (i0 + i)) ∧
      (u.tile t).vMark v.vd = s.poisIvs (d.idxReads (d.laneIdx i0)) ∧
      (u.tile t).cvst = (s.tile t).cvst ||| d.loadCv s.mem (d.laneIdx i0) ∧
      (∀ q, q ≠ v.vd → (u.tile t).lanesOf q = (s.tile t).lanesOf q ∧ (u.tile t).vMark q = (s.tile t).vMark q) ∧
      (∀ k, k ≠ t → u.tile k = s.tile k) ∧
      (d.negs (d.elemsAt s.mem (d.laneIdx i0)) = 0 → u.mem = s.mem) := by
  obtain ⟨lanes, marks, status, others, memory⟩ := vTimed_reads ((s.openedV t).vld t v d i0) t v
  have loaded := vld_registers (s := s.openedV t) (t := t) d i0 reg
  refine ⟨fun i small => ?lane, ?mark, ?cvst, fun q other => ⟨?kept, ?keptMark⟩, fun k other => ?tiles, fun none_counted => ?mem⟩
  case lane =>
    rw [writeBack_tile, lanes, (loaded _).1, if_pos rfl, openedV_mem]
    simp [small]
  case mark => rw [writeBack_tile, marks, (loaded _).2, if_pos rfl, openedV_poisIvs]
  case cvst =>
    rw [writeBack_tile, status, vld_tile, openedV_mem, openedV_tile, cvst_stamp]
    rfl
  case kept => rw [writeBack_tile, lanes, (loaded q).1, if_neg other.symm, openedV_tile, lanesOf_stamp]
  case keptMark => rw [writeBack_tile, marks, (loaded q).2, if_neg other, openedV_tile, vMark_stamp]
  case tiles => rw [writeBack_tile, others k other, vld_tile_ne other, openedV_tile_ne s t k other]
  case mem =>
    rw [← openedV_mem s t] at none_counted
    rw [writeBack_mem, memory, vld_mem none_counted, openedV_mem]

/-- A load that nothing holds and that passes its checks issues. -/
theorem only_vld {s : State} {t : Nat} {v : VSlot} {d : TDesc} {i0 : Nat} (op : v.op = 0x30) (good : v.check.bad = false)
    (free : s.canIssue t = true) (unit : s.vFree t (.ofV v) = true) (recs : s.recsFree t (.ofV v) = true) (index : s.elemAt t v.check = .ok i0)
    (desc : s.descLocal t v.drec 0 = .ok d) (counts : s.negChecked d (d.elemsAt s.mem (d.laneIdx i0)) = .ok ())
    (reads : s.readHeld t (d.idxReads (d.laneIdx i0)) = false) :
    s.only t (.ofV v) = .next ((((s.openedV t).vld t v.check d i0).vTimed t v.check).writeBack t) := by
  have reads_free : s.readHeld t (s.vReads t v.check) = false := by rw [vReads_vld (v := v.check) op index desc, reads]
  have holds : s.vHolds t v.check = [] := vHolds_of_vFree (b := .ofV v) unit reads_free
  have works : v.op ≠ 0 := by simp [op]
  have prep := prepVslot_vld (v := v.check) op good index desc counts
  exact only_ofV_recsFree (g := fun u => (u.vld t v.check d i0).vTimed t v.check) free recs holds works prep

/-- The slot of the VLD row. -/
def vldSlot (r : BitVec 5) (drec : BitVec 16) (x : BitVec 4) : VSlot :=
  { VSlot.nop with op := 0x30, vd := r.toNat, drec := drec.toNat, xreg := x.toNat }

theorem exec_vld (t : Fin 64) (r : BitVec 5) (drec : BitVec 16) (x : BitVec 4) (s : State) :
    exec (.vld t r drec x) s = s.only t (.ofV (vldSlot r drec x)) := rfl

/-- Settles O19: nothing holds the load, its checks pass, and it leaves what `vldIssued_reads` says. -/
theorem vectorLoadSlot : Obligations.VectorLoadSlot := by
  unfold Obligations.VectorLoadSlot
  intro s t r drec x d free natural i0 b unit recs desc counts reads
  have index : s.elemAt t (vldSlot r drec x).check = .ok i0 := elemAt_of_nonneg (v := (vldSlot r drec x).check) natural
  have issues := only_vld (v := vldSlot r drec x) rfl rfl free unit recs index desc counts reads
  exact ⟨_, (exec_vld t r drec x s).trans issues, vldIssued_reads (v := (vldSlot r drec x).check) d i0 r.isLt⟩

end Sys2Proof.Machine
end

section
/-! SUPPORT. The addition of aligned sums. -/

namespace Sys2Proof.Machine

/-! ## What asum_add gives for each form of its operands (R70) -/

section Operands

variable {a b : ASum}

/-- A valid sum in R71's form is the empty sum or nonzero. -/
theorem ASum.eq_asEmpty_or_nonzero (valid : a.inv = false) (zeroEmpty : a.s = 0 → a.e = -512) : a = asEmpty ∨ a.s ≠ 0 := by
  obtain ⟨e, s, inv⟩ := a
  by_cases zero : s = 0
  · obtain rfl : e = -512 := zeroEmpty zero
    obtain rfl : inv = false := valid
    exact .inl (by rw [zero, asEmpty])
  · exact .inr zero

theorem asumAdd_invalid (inv : a.inv = true ∨ b.inv = true) : asumAdd a b = asInvalid :=
  if_pos (Bool.or_eq_true_iff.mpr inv)

theorem asumAdd_empty_left (valid : b.inv = false) : asumAdd asEmpty b = b := by
  simp [asumAdd, asEmpty, valid]

theorem asumAdd_empty_right (valid : a.inv = false) (zeroEmpty : a.s = 0 → a.e = -512) : asumAdd a asEmpty = a := by
  obtain rfl | nonzero := ASum.eq_asEmpty_or_nonzero valid zeroEmpty
  · rfl
  · simp [asumAdd, asEmpty, valid, nonzero]

/-- Step 2 of R70: the significand in units of 2^(e − 3). -/
def ASum.aligned (a : ASum) (e : Int) : Int := shrFloor (a.s * 8) (e - a.e).toNat

/-- Step 5 of R70, on a significand and its exponent. -/
def renormalized (s e : Int) : Int × Int :=
  if s > 0x7FFFFFFF || s < -0x80000000 then (rne s 1, e + 1) else (s, e)

/-- The sum that R70 returns of a significand and its exponent. -/
def returnedSum (p : Int × Int) : ASum := if p.1 = 0 then asEmpty else ⟨p.2, p.1, false⟩

/-- Two valid nonzero sums are aligned to the larger exponent, added exactly, and rounded on the guard bits. -/
theorem asumAdd_nonzero (va : a.inv = false) (na : a.s ≠ 0) (vb : b.inv = false) (nb : b.s ≠ 0) :
    asumAdd a b = returnedSum (renormalized (rne (a.aligned (max a.e b.e) + b.aligned (max a.e b.e)) 3) (max a.e b.e)) := by
  have valid : ¬ (a.inv || b.inv) = true := by simp [va, vb]
  rw [asumAdd, if_neg valid, if_neg na, if_neg nb]
  rfl

/-! ## The form of a result (R71) -/

/-- The form that R71 gives every result. -/
def ASum.Canonical (a : ASum) : Prop := (a.s = 0 → a.e = -512) ∧ (a.inv = true → a.s = 0 ∧ a.e = -512)

theorem asEmpty_canonical : asEmpty.Canonical := ⟨fun _ => rfl, fun _ => ⟨rfl, rfl⟩⟩

theorem asInvalid_canonical : asInvalid.Canonical := ⟨fun _ => rfl, fun _ => ⟨rfl, rfl⟩⟩

theorem ASum.canonical_of_valid (valid : a.inv = false) (zeroEmpty : a.s = 0 → a.e = -512) : a.Canonical :=
  ⟨zeroEmpty, fun inv => absurd (valid.symm.trans inv) Bool.false_ne_true⟩

theorem returnedSum_canonical (p : Int × Int) : (returnedSum p).Canonical := by
  unfold returnedSum
  split
  case isTrue => exact asEmpty_canonical
  case isFalse nonzero => exact ASum.canonical_of_valid rfl fun zero => absurd zero nonzero

theorem asumAdd_canonical (za : a.s = 0 → a.e = -512) (zb : b.s = 0 → b.e = -512) : (asumAdd a b).Canonical := by
  by_cases inv : a.inv = true ∨ b.inv = true
  · exact asumAdd_invalid inv ▸ asInvalid_canonical
  · obtain ⟨va, vb⟩ : a.inv = false ∧ b.inv = false := by simpa using inv
    obtain rfl | na := ASum.eq_asEmpty_or_nonzero va za
    · exact (asumAdd_empty_left vb).symm ▸ ASum.canonical_of_valid vb zb
    obtain rfl | nb := ASum.eq_asEmpty_or_nonzero vb zb
    · exact (asumAdd_empty_right va za).symm ▸ ASum.canonical_of_valid va za
    · exact asumAdd_nonzero va na vb nb ▸ returnedSum_canonical _

/-- An invalid sum stays invalid as the first operand of a fold, whatever is added after it. -/
theorem foldl_asumAdd_invalid (l : List ASum) (inv : a.inv = true) : (l.foldl asumAdd a).inv = true := by
  induction l generalizing a with
  | nil => exact inv
  | cons b l ih => exact ih (congrArg ASum.inv (asumAdd_invalid (.inl inv)))

theorem foldr_asumAdd_invalid (l : List ASum) (inv : a.inv = true) : (l.foldr asumAdd a).inv = true := by
  induction l with
  | nil => exact inv
  | cons b l ih => exact congrArg ASum.inv (asumAdd_invalid (.inr ih))

/-! ## The order of operands (R73) -/

/-- The larger exponent and the exact sum of the aligned significands do not depend on the order. -/
theorem asumAdd_comm_nonzero (va : a.inv = false) (na : a.s ≠ 0) (vb : b.inv = false) (nb : b.s ≠ 0) :
    asumAdd a b = asumAdd b a := by
  rw [asumAdd_nonzero va na vb nb, asumAdd_nonzero vb nb va na, max_comm b.e a.e, Int.add_comm]

theorem asumAdd_comm (za : a.s = 0 → a.e = -512) (zb : b.s = 0 → b.e = -512) : asumAdd a b = asumAdd b a := by
  by_cases inv : a.inv = true ∨ b.inv = true
  · exact (asumAdd_invalid inv).trans (asumAdd_invalid inv.symm).symm
  · obtain ⟨va, vb⟩ : a.inv = false ∧ b.inv = false := by simpa using inv
    obtain rfl | na := ASum.eq_asEmpty_or_nonzero va za
    · exact (asumAdd_empty_left vb).trans (asumAdd_empty_right vb zb).symm
    obtain rfl | nb := ASum.eq_asEmpty_or_nonzero vb zb
    · exact (asumAdd_empty_right va za).trans (asumAdd_empty_left va).symm
    · exact asumAdd_comm_nonzero va na vb nb

end Operands

/-- Settles O58, by the forms of the two operands, and by induction on the later additions. -/
theorem asumResults : Obligations.AsumResults := by
  unfold Obligations.AsumResults
  exact ⟨fun a b za zb => asumAdd_canonical za zb,
    fun a l inv => ⟨foldl_asumAdd_invalid l inv, foldr_asumAdd_invalid l inv⟩⟩

def sumOne : ASum := ⟨0, 1, false⟩
def sumMinusOne : ASum := ⟨0, -1, false⟩
def sumTwo : ASum := ⟨0, 2, false⟩
def sumThree : ASum := ⟨0, 3, false⟩
def sumHalf : ASum := ⟨-1, 1, false⟩

/-- 2^−5, which lies below the guard bits of a sum with exponent 0. -/
def sumSmall : ASum := ⟨-5, 1, false⟩

/-- 2 + 1/2 is a tie that goes back to 2, each time; the two halves added first make 1. -/
theorem asumAdd_two_halves :
    asumAdd (asumAdd sumTwo sumHalf) sumHalf = sumTwo ∧ asumAdd sumTwo (asumAdd sumHalf sumHalf) = sumThree := by
  decide

/-- 1 − 1 leaves the half as it is, but −1 + 1/2 is a tie that goes to 0, and leaves 1. -/
theorem asumAdd_cancel_half :
    asumAdd (asumAdd sumOne sumMinusOne) sumHalf = sumHalf ∧ asumAdd sumOne (asumAdd sumMinusOne sumHalf) = sumOne := by
  decide

/-- 1 − 1 leaves the small sum as it is, but −1 loses it, and 1 − 1 is empty. -/
theorem asumAdd_cancel_small :
    asumAdd (asumAdd sumOne sumMinusOne) sumSmall = sumSmall ∧ asumAdd sumOne (asumAdd sumMinusOne sumSmall) = asEmpty := by
  decide

/-- Settles O59: both orders meet at one exponent with one exact sum, and three groupings differ in the significand, the exponent, or
both. -/
theorem asumCommutes : Obligations.AsumCommutes := by
  unfold Obligations.AsumCommutes
  refine ⟨fun a b za zb => asumAdd_comm za zb, ⟨sumTwo, sumHalf, sumHalf, ?_⟩, ⟨sumOne, sumMinusOne, sumHalf, ?_⟩,
    ⟨sumOne, sumMinusOne, sumSmall, ?_⟩⟩
  · obtain ⟨left, right⟩ := asumAdd_two_halves
    rw [left, right]
    decide
  · obtain ⟨left, right⟩ := asumAdd_cancel_half
    rw [left, right]
    decide
  · obtain ⟨left, right⟩ := asumAdd_cancel_small
    rw [left, right]
    decide

end Sys2Proof.Machine
end

section
/-! SUPPORT. The tick that a vector instruction leaves as its tile's latest. -/

namespace Sys2Proof.Machine

/-! ## The latest vector issue (R122, R275)

Every instruction of the V slot but vupd leaves the tick of its issue in `Tile.vAt`: a watch check takes the vector engine for idle only in
another tick. `Tile.Queued`, which the statement about VST, VCVT and VSLICE uses, and the frame of the statement about VDROP let the timing
marks `vready` and `vnext` differ, and not `vAt`. So no issue in a tick later than the tile's `vAt` meets them. -/

section
variable {s u : State} {t : Nat} {v : VSlot} {d : TDesc} {i0 : Nat} {z : Tile}

theorem vAt_vTimed (s : State) (t : Nat) (v : VSlot) : ((s.vTimed t v).tile t).vAt = s.clk.etick := by
  rw [State.vTimed, tile_setTile_self]
  rfl

/-- An issue leaves the tile's mark as its slots did. -/
theorem State.Issued.vAt (issued : s.Issued u t z) : (u.tile t).vAt = z.vAt := by
  rw [issued.tile]
  rfl

/-- A queued write leaves the mark. -/
theorem Tile.Queued.vAt {x y : Tile} {w : VWrite} (queued : x.Queued y w) : y.vAt = x.vAt := by
  have rest := congrArg Tile.vAt queued.rest
  exact rest

/-- A V slot that reads no tensor, that nothing holds and that passes its checks does its work, and then takes its timing marks. -/
theorem only_ofV_timed {work : State → State} (free : s.canIssue t = true) (unit : s.vFree t (.ofV v) = true)
    (recs : s.recsFree t (.ofV v) = true) (reads : s.vReads t v.check = []) (works : v.op ≠ 0)
    (prep : s.prepVslot t v.check = .ok fun u => (work u).vTimed t v.check) :
    s.only t (.ofV v) = .next (((work (s.openedV t)).vTimed t v.check).writeBack t) := by
  have reads_free : s.readHeld t (s.vReads t v.check) = false := by rw [reads, readHeld_nil]
  have holds : s.vHolds t v.check = [] := vHolds_of_vFree (b := .ofV v) unit reads_free
  exact only_ofV_recsFree (g := fun u => (work u).vTimed t v.check) free recs holds works prep

/-- Work that leaves the clock alone issues with this tick as the tile's latest vector issue. -/
theorem vAt_of_issued_timed {w : State} {o : Host.Outcome State Fault Refusal} (issues : o = .next ((w.vTimed t v).writeBack t))
    (clk : w.clk = s.clk) (next : o = .next u) (issued : s.Issued u t z) : z.vAt = s.clk.etick := by
  obtain rfl : (w.vTimed t v).writeBack t = u := Host.Outcome.next.inj (issues.symm.trans next)
  rw [← issued.vAt, writeBack_tile, vAt_vTimed, clk]

/-! ## VST and VDROP (R195, R202) -/

/-- A store passes its checks where its element index does and its descriptor is that of an FP32 tensor, and then queues its write. -/
theorem prepVslot_vst (op : v.op = 0x31) (good : v.bad = false) (index : s.elemAt t v = .ok i0) (desc : s.descLocal t v.drec 0 = .ok d)
    (fp32 : d.fmt = 3) :
    s.prepVslot t v = .ok fun s =>
      (s.pushWrite t v 0 [d] i0 ((s.tile t).lanesOf v.vd) ((s.tile t).vMark v.vd || (s.tile t).kMark v.k)).vTimed t v := by
  simp [State.prepVslot, State.prepV, op, good, index, desc, fp32, illegalIf, State.vTimed, bind, Except.bind]

/-- A dropout mask passes its checks where its element index and descriptor do, and then is made. -/
theorem prepVslot_vdrop (op : v.op = 0x33) (good : v.bad = false) (index : s.elemAt t v = .ok i0) (desc : s.descNear t v.drec 0 = .ok d) :
    s.prepVslot t v = .ok fun s =>
      (s.setTile t ((s.tile t).setMask v.vd (dropMask s.seed s.step d.tid v.q i0) false)).vTimed t v := by
  simp [State.prepVslot, State.prepV, op, good, index, desc, State.vTimed, bind, Except.bind]

theorem vReads_vst (op : v.op = 0x31) : s.vReads t v = [] := by simp [State.vReads, op]

theorem vReads_vdrop (op : v.op = 0x33) : s.vReads t v = [] := by simp [State.vReads, op]

section
variable (free : s.canIssue t = true) (unit : s.vFree t (.ofV v) = true) (recs : s.recsFree t (.ofV v) = true) (good : v.check.bad = false)
  (index : s.elemAt t v.check = .ok i0) (next : s.only t (.ofV v) = .next u) (issued : s.Issued u t z)
include free unit recs good index next issued

/-- VST leaves this tick as the tile's latest vector issue. -/
theorem vst_vAt (op : v.op = 0x31) (desc : s.descLocal t v.drec 0 = .ok d) (fp32 : d.fmt = 3) : z.vAt = s.clk.etick := by
  have prep := prepVslot_vst (v := v.check) op good index desc fp32
  have works : v.op ≠ 0 := by simp [op]
  have clk := openedV_clk s t
  exact vAt_of_issued_timed (only_ofV_timed free unit recs (vReads_vst op) works prep) clk next issued

/-- So does VDROP. -/
theorem vdrop_vAt (op : v.op = 0x33) (desc : s.descNear t v.drec 0 = .ok d) : z.vAt = s.clk.etick := by
  have prep := prepVslot_vdrop (v := v.check) op good index desc
  have works : v.op ≠ 0 := by simp [op]
  have clk := openedV_clk s t
  exact vAt_of_issued_timed (only_ofV_timed free unit recs (vReads_vdrop op) works prep) clk next issued

end

end

/-- The slot of the VST row. -/
def vstSlot (r : BitVec 5) (k : BitVec 3) (drec : BitVec 16) (x : BitVec 4) : VSlot :=
  { VSlot.nop with op := 0x31, vd := r.toNat, k := k.toNat, drec := drec.toNat, xreg := x.toNat }

theorem exec_vst (t : Fin 64) (r : BitVec 5) (k : BitVec 3) (drec : BitVec 16) (x : BitVec 4) (s : State) :
    exec (.vst t r k drec x) s = s.only t (.ofV (vstSlot r k drec x)) := rfl

/-- The slot of the VDROP row. -/
def vdropSlot (kd : BitVec 3) (q drec : BitVec 16) (x : BitVec 4) : VSlot :=
  { VSlot.nop with op := 0x33, vd := kd.toNat, q := q.toNat, drec := drec.toNat, xreg := x.toNat }

theorem exec_vdrop (t : Fin 64) (kd : BitVec 3) (q drec : BitVec 16) (x : BitVec 4) (s : State) :
    exec (.vdrop t kd q drec x) s = s.only t (.ofV (vdropSlot kd q drec x)) := rfl

/-! ## A tile whose vector unit has issued nothing yet -/

/-- A vector of 512 FP32 elements in tile 0's SRAM, consumed normally (R52). -/
def vectorDesc : List Byte :=
  packFields 64 [(0, 4, 8), (4, 4, 3 + 512 + 0x390000), (8, 4, 512), (12, 4, 1), (16, 4, 1), (20, 4, 1), (24, 8, sramBase + 4096)]

/-- Tile 0 runs, in enabled tick 100, with this descriptor at offset 0 of its SRAM. -/
def vectorState : State :=
  { State.reset with
    phase := .running
    clk := ⟨1000000, 100, 0, true, true⟩
    tiles := [(0, { Tile.init with run := .on })]
    hbm := ⟨wrBytes [] sramBase vectorDesc, [], [], []⟩ }

theorem vectorState_canIssue : vectorState.canIssue 0 = true := by decide

theorem vectorState_index : 0 ≤ (vectorState.tile 0).xs 0 := by decide

/-- The latest vector issue is not one of this tick. -/
theorem vectorState_vAt : (vectorState.tile 0).vAt ≠ vectorState.clk.etick := by decide

theorem vectorState_descNear : vectorState.descNear 0 0 0 = .ok (TDesc.ofBytes vectorDesc) := by decide +kernel

theorem vectorState_descLocal : vectorState.descLocal 0 0 0 = .ok (TDesc.ofBytes vectorDesc) := by decide +kernel

theorem vectorState_takes_vst : vectorState.vFree 0 (.ofV (vstSlot 0 0 0 0)) = true ∧ vectorState.recsFree 0 (.ofV (vstSlot 0 0 0 0)) = true := by
  decide

theorem vectorState_takes_vdrop :
    vectorState.vFree 0 (.ofV (vdropSlot 1 0 0 0)) = true ∧ vectorState.recsFree 0 (.ofV (vdropSlot 1 0 0 0)) = true := by decide

/-- Refutes O20, by its clause about VST: on a tile whose latest vector issue is an earlier one, the issue of a store changes `vAt`. -/
theorem not_vectorStoreSlots : ¬ Obligations.VectorStoreSlots := by
  unfold Obligations.VectorStoreSlots
  intro claim
  obtain ⟨unit, recs⟩ := vectorState_takes_vst
  obtain ⟨stores, -⟩ := claim vectorState 0 0 0 0 0 0 false false vectorState_canIssue vectorState_index
  obtain ⟨u, z, next, issued, queued⟩ := stores _ unit recs vectorState_descLocal rfl
  rw [exec_vst] at next
  have marked : z.vAt = vectorState.clk.etick :=
    vst_vAt vectorState_canIssue unit recs rfl (elemAt_of_nonneg vectorState_index) next issued rfl vectorState_descLocal rfl
  exact vectorState_vAt (queued.vAt.symm.trans marked)

/-- Refutes O21: on such a tile the issue of VDROP, into k1 here, changes `vAt`. -/
theorem not_dropoutMaskSlot : ¬ Obligations.DropoutMaskSlot := by
  unfold Obligations.DropoutMaskSlot
  intro claim
  obtain ⟨unit, recs⟩ := vectorState_takes_vdrop
  obtain ⟨u, z, next, issued, rest, -⟩ :=
    claim vectorState 0 1 0 0 0 _ vectorState_canIssue vectorState_index unit recs vectorState_descNear
  rw [exec_vdrop] at next
  have marked : z.vAt = vectorState.clk.etick :=
    vdrop_vAt vectorState_canIssue unit recs rfl (elemAt_of_nonneg vectorState_index) next issued rfl vectorState_descNear
  have kept := congrArg Tile.vAt rest
  exact vectorState_vAt (kept.symm.trans marked)

end Sys2Proof.Machine
end

section
/-! SUPPORT. The issue of an instruction on vector registers, and the rows of the fault watch and the drift watch. -/

namespace Sys2Proof.Machine

/-! ## Instructions on vector registers (R198, R276) -/

section
variable {s u : State} {t : Nat} {v : VSlot} {z : Tile}

/-- An instruction on vector registers, whose VOP lies below those of the memory instructions, names no descriptor. -/
theorem recsFree_register (register : v.op < 0x30) : s.recsFree t (.ofV v) = true := by
  have none_named : s.bundleRecs t (.ofV v) = [] := by
    have low : (Bundle.ofV v).v.op < 0x30 := register
    rw [State.bundleRecs, if_pos low]
    rfl
  rw [State.recsFree, none_named]
  rfl

/-- It reads no tensor. -/
theorem vReads_register (register : v.op < 0x30) : s.vReads t v = [] := by
  have load : v.op ≠ 0x30 := by omega
  have slice : v.op ≠ 0x34 := by omega
  simp [State.vReads, load, slice]

/-- It passes every check but that of its encoding, and then rewrites the tile's registers. -/
theorem prepVslot_register (works : v.op ≠ 0) (register : v.op < 0x30) (good : v.bad = false) :
    s.prepVslot t v = .ok fun s => (s.setTile t ((s.tile t).execReg v)).vTimed t v := by
  have update : v.op ≠ 0x35 := by omega
  have memory : v.op ≠ 0x30 ∧ v.op ≠ 0x31 ∧ v.op ≠ 0x32 ∧ v.op ≠ 0x33 ∧ v.op ≠ 0x34 := by omega
  simp [State.prepVslot, State.prepV, works, good, update, memory, State.vTimed]

/-- It leaves this tick as the tile's latest vector issue. -/
theorem register_vAt (works : v.op ≠ 0) (register : v.op < 0x30) (good : v.check.bad = false) (free : s.canIssue t = true)
    (unit : s.vFree t (.ofV v) = true) (next : s.only t (.ofV v) = .next u) (issued : s.Issued u t z) : z.vAt = s.clk.etick := by
  have prep := prepVslot_register (s := s) (t := t) (v := v.check) works register good
  have reads : s.vReads t v.check = [] := vReads_register (v := v.check) register
  have clk : ((s.openedV t).setTile t (((s.openedV t).tile t).execReg v.check)).clk = s.clk := openedV_clk s t
  exact vAt_of_issued_timed (only_ofV_timed free unit (recsFree_register register) reads works prep) clk next issued

end

/-! ## The pair addition (R113) -/

/-- The slot of the VADD_PAIR row. -/
def vaddPairSlot (d a b : BitVec 5) (k : BitVec 3) : VSlot :=
  { VSlot.nop with op := 0x20, vd := d.toNat, va := a.toNat, vb := b.toNat, k := k.toNat }

theorem exec_vaddPair (t : Fin 64) (d a b : BitVec 5) (k : BitVec 3) (s : State) :
    exec (.vaddPair t d a b k) s = s.only t (.ofV (vaddPairSlot d a b k)) := rfl

theorem vectorState_takes_vaddPair : vectorState.vFree 0 (.ofV (vaddPairSlot 0 2 4 0)) = true := by decide

/-- Refutes O18, by its frame: on a tile whose latest vector issue is an earlier one, VADD_PAIR, of the pairs of v2 and v4 into that of
v0 here, changes `vAt`, which is none of the fields that may differ. -/
theorem not_pairAddVectorSlot : ¬ Obligations.PairAddVectorSlot := by
  unfold Obligations.PairAddVectorSlot
  intro claim
  obtain ⟨u, z, next, issued, rest, -⟩ := claim vectorState 0 0 2 4 0 vectorState_canIssue rfl rfl rfl vectorState_takes_vaddPair
  rw [exec_vaddPair] at next
  have works : (vaddPairSlot 0 2 4 0).op ≠ 0 := by decide
  have register : (vaddPairSlot 0 2 4 0).op < 0x30 := by decide
  have marked : z.vAt = vectorState.clk.etick :=
    register_vAt works register rfl vectorState_canIssue vectorState_takes_vaddPair next issued
  have kept := congrArg Tile.vAt rest
  exact vectorState_vAt (kept.symm.trans marked)

/-! ## The fault watch and the drift watch (R120 to R125, R417) -/

/-- Where the array has computed every sum as it was captured and none of these fails R123's check, the check ends with no failure counted. -/
theorem watchCheckComplete_right {s : State} {p : Fin 68} {c : Check} (on : s.watchOn = true) (captured : (s.ptile p).check = some c)
    (done : c.done = true) (right : ∀ e ∈ c.elems, watchFails e.1 e.2.1 e.2.2 = false) :
    execWatchCheckComplete p [] s = .next (s.setPtile p { s.ptile p with check := none, wchDone := (s.ptile p).wchDone + 1 }) := by
  have sums : (c.elems.zipIdx.map fun e => e.1.2.2) = c.elems.map fun e => e.2.2 := by
    calc
      _ = (c.elems.zipIdx.map Prod.fst).map fun e => e.2.2 := List.map_map.symm
      _ = _ := by rw [List.zipIdx_map_fst]
  have passes : ((c.elems.zip (c.elems.map fun e => e.2.2)).any fun e => watchFails e.1.1 e.1.2.1 e.2) = false := by
    rw [← List.map_prod_left_eq_zip, List.any_map]
    simpa using right
  have uncounted : (s.ptile p).wchFail + 0 = (s.ptile p).wchFail := BitVec.add_zero _
  simp only [execWatchCheckComplete, captured, List.find?_nil, sums, passes, on, done, Bool.and_self, occurs_true, Bool.false_eq_true, if_false,
    uncounted]

/-- Settles O32: each row occurs under the conditions of its clause. The two selections arm their tourbillon, and a completed check with no
sum computed wrongly is the case of `watchCheckComplete_right`. -/
theorem watchRows : Obligations.WatchRows := by
  unfold Obligations.WatchRows
  intro s p
  dsimp only
  refine ⟨?select, ?check, ?complete, ?drift, ?record, ?expiry⟩
  case select =>
    intro on zero
    simp only [exec, execTourbillonSelect, on, zero, beq_self_eq_true, Bool.and_self, occurs_true, Tour.arm]
  case check =>
    intro c on captured fresh enabled idle
    simp only [exec, execWatchCheck, captured, on, fresh, enabled, idle, Bool.not_false, Bool.and_self, occurs_true]
  case complete => exact fun c on captured done right => watchCheckComplete_right on captured done right
  case drift =>
    intro on none_waits zero
    simp only [exec, execDriftSample, none_waits, on, zero, beq_self_eq_true, Bool.and_self, occurs_true, Tour.arm]
  case record =>
    intro b bs on waits
    simp only [exec, execDriftSample, waits, on, occurs_true]
  case expiry =>
    intro a e marked past
    simp only [exec, execArraySuspectExpiry, marked, decide_eq_true past, occurs_true]

end Sys2Proof.Machine
end

section
/-! SUPPORT. Array instructions at their issue; loads, commits, ends and split-K parts in the arrays. -/

namespace Sys2Proof.Machine

/-! ## The issue of F and B slots (R225, R254, R255, R267, R268) -/

/-- A bundle whose other slots are empty. -/
def Bundle.ofArrays (f : FSlot) (b : BSlot) : Bundle := { Bundle.nop with f := f, b := b }

section
variable {s : State} {t : Nat} {f : FSlot} {b : BSlot}

/-- Where no granule of its records is pending, only the arrays and the split-K unit can hold such a bundle. -/
theorem holds_ofArrays (recs : s.recsFree t (.ofArrays f b) = true) (starts : (s.tile t).starting = false) :
    let sends := (Bundle.ofArrays f b).sends (s.tile t).bphase
    s.holds t (.ofArrays f b) false = sends.flatMap (s.arrayHold t) ++ s.skHold t sends := by
  have free : s.readHeld t (spans t (s.bundleRecs t (.ofArrays f b))) = false := by simpa [State.recsFree] using recs
  rw [State.holds, free, starts]
  simp [Bundle.ofArrays, Bundle.nop]

/-- It passes its checks where both slots do, and then does what the F slot does and after it what the B slot does. -/
theorem prepBundle_ofArrays {first second : State → State} (prepF : s.prepF t f = .ok first) (prepB : s.prepB t b = .ok second) :
    s.prepBundle t (.ofArrays f b) false = .ok ((second (first (s.opened t))).writeBack t) := by
  have levels : ((List.range 4).filter fun n => bitOf 0 n && ((s.tile t).level n).active) = [] := rfl
  simp [State.prepBundle, Bundle.ofArrays, Bundle.nop, prepF, prepB, levels, State.prepVslot, State.prepV, State.prepC, State.prepS, VSlot.nop,
    CSlot.nop, SSlot.nop, illegalIf, bind, Except.bind, advance_nil, State.opened]

theorem prepF_nop : s.prepF t .nop = .ok id := rfl

theorem prepB_nop : s.prepB t .nop = .ok id := rfl

/-- A legal F slot does what its one send does. -/
theorem prepF_send (good : f.bad = false) (works : f.op ≠ 0) : s.prepF t f = s.prepArray t (0, f.op, f.rec_) := by
  simp [State.prepF, good, works]

/-- A legal B slot of one half does what that send does. -/
theorem prepB_half {h : Nat × Nat × Nat} {g : State → State} (good : b.bad = false) (alone : b.bop ≠ 3)
    (half : b.halves (s.tile t).bphase = [h]) (prep : s.prepArray t h = .ok g) : s.prepB t b = .ok g := by
  simp [State.prepB, good, alone, half, prep, bind, Except.bind, pure, Except.pure]

end

/-! ## The issue of one array instruction (R133, R137, R148, R149, R267) -/

/-- The array accepts the instruction, which for mld is not asked, and the shadow plane that it swaps in is ready. -/
theorem arrayHold_eq_nil {s : State} {t i op rec : Nat} (accepts : op ≠ opMld → (s.tile t).accepts i s.clk.etick = true)
    (plane : op ≠ opDiag → op ≠ opMld → (ARec.ofBytes (rec * 128) (s.sram t (rec * 128) 128)).swap = true → ((s.tile t).arr i).ready = true) :
    s.arrayHold t (i, op, rec) = [] := by
  by_cases load : op = opMld
  · simp [State.arrayHold, load]
  · simpa [State.arrayHold, load, accepts load] using fun swap diag => plane diag load swap

/-- A send passes its checks where the operation at its record and the split-K record do, and then issues the operation. -/
theorem prepArray_issues {s : State} {t i op rec : Nat} {o : AOp} {k : Option SkRec}
    (legal : s.arrayOp t op rec (i == 0) (((s.tile t).arr i).entryPlane (ARec.ofBytes (rec * 128) (s.sram t (rec * 128) 128)).swap) = .ok o)
    (splitk : s.skOf t o = .ok k) : s.prepArray t (i, op, rec) = .ok fun s => s.issueArray t i o k := by
  simp [State.prepArray, legal, splitk, bind, Except.bind]

section
variable {slot : Fin 3} {op : Nat} {rec : BitVec 19}

theorem ne_zero_of_opKnown (known : opKnown op = true) : op ≠ 0 := by
  rintro rfl
  exact absurd known (by decide)

theorem arraySlot_eq_ofArrays : arraySlot slot op rec = .ofArrays (arraySlot slot op rec).f (arraySlot slot op rec).b := by
  unfold arraySlot
  split <;> rfl

/-- The half of a B slot that sends to B0 or to B1 alone is legal. -/
theorem bad_half {bop : Nat} (known : opKnown op = true) (half : bop = 1 ∨ bop = 2) :
    (BSlot.check ⟨bop, op, rec.toNat, 0, 0, false⟩).bad = false := by
  have works := ne_zero_of_opKnown known
  rcases half with rfl | rfl <;> simp [BSlot.check, opOk, known, works]

/-- Its one send goes to the array of its slot: in the F slot F, in the B slot B0 or B1. -/
theorem sends_arraySlot (known : opKnown op = true) (phase : Bool) : (arraySlot slot op rec).sends phase = [(slot.val, op, rec.toNat)] := by
  have works := ne_zero_of_opKnown known
  match slot with
  | 0 => simp [arraySlot, Bundle.sends, Bundle.ofF, Bundle.nop, FSlot.check, BSlot.halves, BSlot.nop, works]
  | 1 => simp [arraySlot, Bundle.sends, Bundle.ofB, Bundle.nop, BSlot.check, BSlot.halves, FSlot.nop, works]
  | 2 => simp [arraySlot, Bundle.sends, Bundle.ofB, Bundle.nop, BSlot.check, BSlot.halves, FSlot.nop, works]

variable {s : State} {t : Nat}

theorem holds_arraySlot (known : opKnown op = true) (recs : s.recsFree t (arraySlot slot op rec) = true) (starts : (s.tile t).starting = false) :
    s.holds t (arraySlot slot op rec) false = s.arrayHold t (slot.val, op, rec.toNat) ++ s.skHold t [(slot.val, op, rec.toNat)] := by
  rw [arraySlot_eq_ofArrays] at recs ⊢
  rw [holds_ofArrays recs starts, ← arraySlot_eq_ofArrays, sends_arraySlot known]
  simp

theorem prepBundle_arraySlot {g : State → State} (known : opKnown op = true) (prep : s.prepArray t (slot.val, op, rec.toNat) = .ok g) :
    s.prepBundle t (arraySlot slot op rec) false = .ok ((g (s.opened t)).writeBack t) := by
  have works := ne_zero_of_opKnown known
  have sends := sends_arraySlot (slot := slot) (rec := rec) known (s.tile t).bphase
  match slot with
  | 0 =>
    have good : (FSlot.check ⟨op, rec.toNat, false⟩).bad = false := by simp [FSlot.check, opOk, known, works]
    exact prepBundle_ofArrays (second := id) ((prepF_send good works).trans prep) prepB_nop
  | 1 => exact prepBundle_ofArrays prepF_nop (prepB_half (bad_half known (.inl rfl)) (by decide : 1 ≠ 3) sends prep)
  | 2 => exact prepBundle_ofArrays prepF_nop (prepB_half (bad_half known (.inr rfl)) (by decide : 2 ≠ 3) sends prep)

/-- A slot of one array instruction that nothing holds and that passes its checks issues its operation. -/
theorem only_arraySlot {o : AOp} {k : Option SkRec} (known : opKnown op = true) (free : s.canIssue t = true)
    (recs : s.recsFree t (arraySlot slot op rec) = true) (array : s.arrayHold t (slot.val, op, rec.toNat) = [])
    (fifth : s.skHold t [(slot.val, op, rec.toNat)] = []) (prep : s.prepArray t (slot.val, op, rec.toNat) = .ok fun s => s.issueArray t slot o k) :
    s.only t (arraySlot slot op rec) = .next (((s.opened t).issueArray t slot o k).writeBack t) := by
  have holds : s.holds t (arraySlot slot op rec) false = [] := by
    rw [holds_arraySlot known recs (canIssue_starting free), array, fifth, List.append_nil]
  exact issue_ok free holds (prepBundle_arraySlot known prep)

end

/-- The array instructions and their OP values. -/
def arrayInstrs (t : Fin 64) (slot : Fin 3) (rec : BitVec 19) : List (Instr × Nat) :=
  [(.mma256x128 t slot rec, 1), (.mma128x128 t slot rec, 2), (.mma2x256x64 t slot rec, 3), (.mma128x64 t slot rec, 4), (.mmaTree64 t slot rec, 5),
    (.mmaDiag t slot rec, 6), (.mld t slot rec, 7), (.mma256x128Cx t slot rec, 0x21), (.mma128x128Cx t slot rec, 0x22),
    (.mma128x64Cx t slot rec, 0x24)]

/-- Each is the issue of its slot, with an OP value that is known. -/
theorem exec_arrayInstrs {t : Fin 64} {slot : Fin 3} {rec : BitVec 19} {p : Instr × Nat} (row : p ∈ arrayInstrs t slot rec) (s : State) :
    exec p.1 s = s.only t (arraySlot slot p.2 rec) ∧ opKnown p.2 = true := by
  simp only [arrayInstrs, List.mem_cons, List.not_mem_nil, or_false] at row
  rcases row with rfl | rfl | rfl | rfl | rfl | rfl | rfl | rfl | rfl | rfl <;> exact ⟨rfl, rfl⟩

theorem slot_beq_zero : ∀ slot : Fin 3, (slot == 0) = (slot.val == 0) := by decide

/-- Settles O23: nothing holds the slot of the instruction, its checks pass, and it issues its operation to its array. -/
theorem arraySlots : Obligations.ArraySlots := by
  unfold Obligations.ArraySlots
  intro s t slot rec o k free p row r recs accepts plane fifth legal splitk
  obtain ⟨issues, known⟩ := exec_arrayInstrs (t := t) (slot := slot) (rec := rec) row s
  rw [slot_beq_zero] at legal
  exact issues.trans (only_arraySlot known free recs (arrayHold_eq_nil accepts plane) fifth (prepArray_issues legal splitk))

/-! ## Rows of the arrays and of split-K (R137, R144 to R149, R156) -/

/-- A group that is due and whose checks pass commits. -/
theorem commitGroup_commits {s u : State} {t : Fin 64} {a : Fin 3} (due : s.commitDue t a = true) (commits : s.tryCommit t a 0 = .ok u) :
    exec (.commitGroup t a 0) s = .next u := by
  have passes : s.tryCommit t a (0 : BitVec 2).toNat = .ok u := commits
  rw [exec, execCommitGroup, due, occurs_true, passes, State.orFault]

/-- A staging slot that is free goes to the reduction's next commit group. -/
theorem splitkSlotGrant_grants {s : State} {t : Fin 64} {id : BitVec 16} (slotFree : ∃ r ∈ (s.tile t).sk, r.k.id = id.toNat ∧ r.canGrant = true) :
    exec (.splitkSlotGrant t id) s = .next (s.setTile t { s.tile t with
      sk := (s.tile t).sk.map fun r => if r.k.id = id.toNat then { r with granted := r.granted + 1 } else r }) := by
  have grants : ((s.tile t).sk.any fun r => r.k.id == id.toNat && r.canGrant) = true := by simpa using slotFree
  simp only [exec, execSplitkSlotGrant, grants, occurs_true]

/-- The oldest part on its way, which nothing holds, reaches the unit. -/
theorem splitkPartArrive_arrives {s u : State} {t : Fin 64} {id : BitVec 16} {r : SkRed} {p : SkPart}
    (oldest : (s.tile t).flyingPart id.toNat = some (r, p)) (free : s.partFree t r p = true) (stored : s.partArrive t id.toNat = .ok u) :
    exec (.splitkPartArrive t id) s = .next u := by
  rw [exec, execSplitkPartArrive, oldest, Option.any_some, free, occurs_true, stored, State.orFault]

/-- Settles O31: each row occurs under the condition of its clause. -/
theorem arrayRows : Obligations.ArrayRows := by
  unfold Obligations.ArrayRows
  intro s u t a id x
  refine ⟨fun due => ?ready, commitGroup_commits, fun n done => ?complete, splitkSlotGrant_grants, fun _ _ => splitkPartArrive_arrives⟩
  case ready => rw [exec, execPlaneReady, due, occurs_true]
  case complete => rw [exec, execArrayComplete, done]

end Sys2Proof.Machine
end

section
/-! SUPPORT. The products of a B slot, the ends of streams and program loads, and the barrel. -/

namespace Sys2Proof.Machine

/-! ## The issue of a B slot (R165 to R167, R254, R268) -/

section
variable {s : State} {t : Nat} {f g : State → State}

/-- A B slot that nothing holds and that passes its checks issues. -/
theorem only_ofB {b : BSlot} (free : s.canIssue t = true) (held : s.holds t (.ofB b) false = []) (prep : s.prepB t b.check = .ok g) :
    s.only t (.ofB b) = .next ((g (s.opened t)).writeBack t) :=
  issue_ok free held (prepBundle_ofArrays (first := id) prepF_nop prep)

/-- The effect of a B slot of two halves, one after the other: MMB_PAIR (3) then flips BPHASE. -/
def State.bothHalves (t bop : Nat) (f g : State → State) (s : State) : State :=
  let u := g (f s)
  if bop = 3 then u.setTile t { u.tile t with bphase := !(u.tile t).bphase } else u

/-- A legal B slot passes its checks where both its halves do, on the state before either issues. -/
theorem prepB_halves {b : BSlot} {h k : Nat × Nat × Nat} (good : b.bad = false) (halves : b.halves (s.tile t).bphase = [h, k])
    (first : s.prepArray t h = .ok f) (second : s.prepArray t k = .ok g) : s.prepB t b = .ok (State.bothHalves t b.bop f g) := by
  simp [State.prepB, good, halves, first, second, bind, Except.bind, pure, Except.pure]
  rfl

variable {n0 n1 r0 r1 : Nat}

theorem opKnown_of_isProduct {op : Nat} (product : isProduct op = true) : opKnown op = true :=
  (Bool.and_eq_true_iff.mp product).1

theorem bad_mmbPair (first : isProduct n0 = true) (second : isProduct n1 = true) : (BSlot.check ⟨3, n0, r0, n1, r1, false⟩).bad = false := by
  have known0 := opKnown_of_isProduct first
  have known1 := opKnown_of_isProduct second
  simp [BSlot.check, opOk, known0, known1, ne_zero_of_opKnown known0, ne_zero_of_opKnown known1, first, second]

theorem bad_bBoth (known0 : opKnown n0 = true) (known1 : opKnown n1 = true) : (BSlot.check ⟨4, n0, r0, n1, r1, false⟩).bad = false := by
  simp [BSlot.check, opOk, known0, known1, ne_zero_of_opKnown known0, ne_zero_of_opKnown known1]

theorem halves_mmbPair (known0 : opKnown n0 = true) (known1 : opKnown n1 = true) (phase : Bool) :
    (BSlot.check ⟨3, n0, r0, n1, r1, false⟩).halves phase = [(1 + b2n phase, n0, r0), (2 - b2n phase, n1, r1)] := by
  simp [BSlot.halves, BSlot.check, ne_zero_of_opKnown known0, ne_zero_of_opKnown known1]

theorem halves_bBoth (known0 : opKnown n0 = true) (known1 : opKnown n1 = true) (phase : Bool) :
    (BSlot.check ⟨4, n0, r0, n1, r1, false⟩).halves phase = [(1, n0, r0), (2, n1, r1)] := by
  simp [BSlot.halves, BSlot.check, ne_zero_of_opKnown known0, ne_zero_of_opKnown known1]

end

/-- Settles O24: the two halves of a pair are its sends and their checks read the state before either issues; a slot of one half is the
slot of one array instruction. -/
theorem pairSlots : Obligations.PairSlots := by
  unfold Obligations.PairSlots
  intro s t op0 op1 rec0 rec1 f g free
  dsimp only
  refine ⟨fun product0 product1 first second held => ?pair, fun known0 known1 first second held => ?both,
    fun known prep held => ?toB0, fun known prep held => ?toB1⟩
  case pair =>
    have known0 := opKnown_of_isProduct product0
    have known1 := opKnown_of_isProduct product1
    exact only_ofB free held (prepB_halves (bad_mmbPair product0 product1) (halves_mmbPair known0 known1 _) first second)
  case both => exact only_ofB free held (prepB_halves (bad_bBoth known0 known1) (halves_bBoth known0 known1 _) first second)
  case toB0 => exact issue_ok free held (prepBundle_arraySlot (slot := 1) known prep)
  case toB1 => exact issue_ok free held (prepBundle_arraySlot (slot := 2) known prep)

/-! ## The ends of streams and program loads (R177, R237, R261, R281) -/

section
variable {s : State} {t c : Nat}

/-- An inbound stream whose granules are all written ends. -/
theorem streamComplete_inbound {i : Inb} (running : sfind (s.tile t).inb c = some i) (stream : i.use = .stream) (all : i.written = i.sd.n) :
    s.streamComplete t c false = (s.setTile t { s.tile t with inb := sdel (s.tile t).inb c }).signal t true i.sd.sig := by
  simp [State.streamComplete, running, stream, all]

/-- An outbound stream, no spill, whose granules are all accepted ends. -/
theorem streamComplete_outbound {o : Outb} (running : sfind (s.tile t).outb c = some o) (outbound : o.sd.dir = 1) (all : o.lead = o.sd.n)
    (plain : o.spill = none) :
    s.streamComplete t c true = (s.setTile t { s.tile t with outb := sdel (s.tile t).outb c }).signal t true o.sd.sig := by
  simp [State.streamComplete, running, outbound, all, plain]

end

/-- A program load that is all written ends. -/
theorem iloadComplete_ends {s : State} {t : Fin 64} {c : BitVec 6} {i : Inb} {d n k : Nat} {on : Bool}
    (running : sfind (s.tile t).inb c.toNat = some i) (load : i.use = .load d n k on) (all : i.written = i.sd.n) :
    execIloadComplete t c s = .next ((s.setTile t { s.tile t with inb := sdel (s.tile t).inb c.toNat }).signal t on i.sd.sig) := by
  simp [execIloadComplete, running, load, all]

/-- Settles O28: one end for each of the three kinds of context. -/
theorem streamEnds : Obligations.StreamEnds := by
  unfold Obligations.StreamEnds
  intro s t c
  exact ⟨fun _ running stream all => congrArg Host.Outcome.next (streamComplete_inbound running stream all),
    fun _ running outbound all plain => congrArg Host.Outcome.next (streamComplete_outbound running outbound all plain),
    fun _ _ _ _ _ => iloadComplete_ends⟩

/-! ## The issue of a C slot that names a record (R225, R254, R255) -/

section
variable {s : State} {t : Nat} {c : CSlot} {g : State → State}

/-- Where no granule of its record is pending, only what the instruction itself waits for can hold a C slot. -/
theorem holds_ofC_recsFree (recs : s.recsFree t (.ofC c) = true) (starts : (s.tile t).starting = false) :
    s.holds t (.ofC c) false = s.cHolds t c.check := by
  have free : s.readHeld t (spans t (s.bundleRecs t (.ofC c))) = false := by simpa [State.recsFree] using recs
  rw [State.holds, free, starts]
  rfl

/-- A C-slot row that names a record, which nothing holds and which passes its checks. -/
theorem only_ofC_recsFree (free : s.canIssue t = true) (recs : s.recsFree t (.ofC c) = true) (holds : s.cHolds t c.check = [])
    (prep : s.prepC t c.check (s.tile t).pc = .ok g) : s.only t (.ofC c) = .next ((g (s.opened t)).writeBack t) :=
  issue_ok free ((holds_ofC_recsFree recs (canIssue_starting free)).trans holds) (prepBundle_ofC s t c g prep)

end

/-! ## The barrel (R169, R170, R174, R175, R177, R178) -/

section
variable {s : State} {t lane drec next : Nat}

theorem prepC_bcfg : s.prepC t (CSlot.check ⟨0x10, lane, drec, 0, 0, false⟩) next = s.prepBcfg t lane drec := rfl

theorem prepC_bpush : s.prepC t (CSlot.check ⟨0x11, lane, drec, 0, 0, false⟩) next = s.prepBpush t lane drec := rfl

theorem prepC_bpop : s.prepC t (CSlot.check ⟨0x12, lane, drec, 0, 0, false⟩) next = s.prepBpop t lane drec := rfl

/-- BCFG of a legal lane record to an empty lane passes its checks. -/
theorem prepBcfg_legal {b : List Byte} (record : s.recAt t (drec * 64) 64 64 = .ok b) (legal : laneBad b = false)
    (empty : ((s.tile t).laneOf lane).depth = 0) :
    s.prepBcfg t lane drec = .ok fun s => s.setTile t ((s.tile t).setLane lane ⟨b, 0, 0, 0, []⟩) := by
  simp [State.prepBcfg, record, legal, empty, illegalIf, bind, Except.bind]

/-- A push that its lane has room for and that stands at its place passes its checks. -/
theorem prepBpush_legal {r : PushRec} (record : s.pushRec t drec = .ok r) (legal : ((s.tile t).laneOf lane).pushFault r = none) :
    s.prepBpush t lane drec = .ok fun s => s.doPush t lane r := by
  simp [State.prepBpush, record, legal, bind, Except.bind]

/-- A pop of the key on top of its lane passes its checks. -/
theorem prepBpop_legal {r : PushRec} (record : s.pushRec t drec = .ok r) (nonempty : ((s.tile t).laneOf lane).depth ≠ 0)
    (top : ((s.tile t).laneOf lane).keyIs s.mem (((s.tile t).laneOf lane).depth - 1) r = true) :
    s.prepBpop t lane drec = .ok fun s => s.doPop t lane := by
  simp [State.prepBpop, record, nonempty, top, bind, Except.bind]

end

/-- A new record on a lane leaves the tile's marks of an issue. -/
theorem setLane_stamp (x : Tile) (now lane : Nat) (v : Lane) : (x.stamp now).setLane lane v = (x.setLane lane v).stamp now := rfl

section
variable {s : State} {t : Fin 64} {l : BitVec 6} {k : Nat}

/-- A lane's next spill starts where context 31 is free outbound. -/
theorem barrelSpill_starts (next : s.nextSpill t l.toNat = some k) (free : sfind (s.tile t).outb 31 = none) (on : s.streamOn t 31 = true) :
    execBarrelSpill t l s =
      .next (s.startOut t 31 (frameStream ((s.tile t).laneOf l.toNat) s.mem k 1) TDesc.absent (some (l.toNat, k))) := by
  simp only [execBarrelSpill, next, free, on, Option.isNone_none, Bool.and_self, occurs_true]

/-- A lane's next fill starts where context 31 is free inbound. -/
theorem barrelFill_starts (next : s.nextFill t l.toNat = some k) (free : sfind (s.tile t).inb 31 = none) (on : s.streamOn t 31 = true) :
    execBarrelFill t l s =
      .next (s.startIn t 31 [] (frameStream ((s.tile t).laneOf l.toNat) s.mem k 0) TDesc.absent (.fill l.toNat k)) := by
  simp only [execBarrelFill, next, free, on, Option.isNone_none, Bool.and_self, occurs_true]

end

/-- Settles O30: nothing holds the three slots once their record is read, and their checks pass; a spill or fill finds its context free. -/
theorem barrelRows : Obligations.BarrelRows := by
  unfold Obligations.BarrelRows
  intro s t l drec
  refine ⟨fun issues => ⟨fun b recs record legal empty => ?bcfg, fun r recs record legal => ?bpush, fun r recs record nonempty top => ?bpop⟩,
    fun _ => barrelSpill_starts, fun _ => barrelFill_starts⟩
  case bcfg =>
    refine ⟨_, only_ofC_recsFree issues recs rfl (prepC_bcfg.trans <| prepBcfg_legal record legal empty), ?_⟩
    rw [opened_tile, setLane_stamp]
    exact issued_set s t _ _ rfl
  case bpush => exact only_ofC_recsFree (g := fun s => s.doPush t l.toNat r) issues recs rfl (prepC_bpush.trans <| prepBpush_legal record legal)
  case bpop => exact only_ofC_recsFree (g := fun s => s.doPop t l.toNat) issues recs rfl (prepC_bpop.trans <| prepBpop_legal record nonempty top)

end Sys2Proof.Machine
end

section
/-! SUPPORT. The latest vector issue of instructions on vector registers; updates and landing writes of the vector engine. -/

namespace Sys2Proof.Machine

/-! ## Instructions on vector registers and the latest vector issue (R122, R198, R276)

`Tile.VecWrote`, which the statements about lanewise instructions and reductions use, and the frame of the statement about compares let the
timing marks `vready` and `vnext` differ, and not `vAt`, which every such instruction sets to the tick of its issue. -/

section
variable {s u : State} {t : Nat} {v : VSlot} {z : Tile}

/-- A write of a vector register leaves the mark. -/
theorem Tile.VecWrote.vAt {x y : Tile} {d : Nat} {f : Nat → W32} {m : Bool} (wrote : x.VecWrote y d f m) : y.vAt = x.vAt := by
  have rest := congrArg Tile.vAt wrote.rest
  exact rest

/-- On a tile whose latest vector issue is an earlier one, the issue of an instruction on vector registers changes the mark. -/
theorem register_changes_vAt (earlier : (s.tile t).vAt ≠ s.clk.etick) (works : v.op ≠ 0) (register : v.op < 0x30) (good : v.check.bad = false)
    (free : s.canIssue t = true) (unit : s.vFree t (.ofV v) = true) (next : s.only t (.ofV v) = .next u) (issued : s.Issued u t z) :
    z.vAt ≠ (s.tile t).vAt := by
  rw [register_vAt works register good free unit next issued]
  exact earlier.symm

end

/-- The slot of a format-R row. -/
def registerSlot (op : Nat) (d a b c : BitVec 5) (k : BitVec 3) (lane : BitVec 9) : VSlot :=
  { VSlot.nop with op := op, vd := d.toNat, va := a.toNat, vb := b.toNat, vc := c.toNat, k := k.toNat, lane := lane.toNat }

section
variable (t : Fin 64) (d a b : BitVec 5) (k : BitVec 3) (s : State)

theorem exec_vadd : exec (.vadd t d a b k) s = s.only t (.ofV (registerSlot 0x01 d a b 0 k 0)) := rfl

theorem exec_vcmpEq : exec (.vcmpEq t d a b k) s = s.only t (.ofV (registerSlot 0x0B d a b 0 k 0)) := rfl

theorem exec_vredAdd : exec (.vredAdd t d a k) s = s.only t (.ofV (registerSlot 0x22 d a 0 0 k 0)) := rfl

end

theorem vectorState_takes_vadd : vectorState.vFree 0 (.ofV (registerSlot 0x01 0 1 2 0 0 0)) = true := by decide

theorem vectorState_takes_vcmpEq : vectorState.vFree 0 (.ofV (registerSlot 0x0B 1 1 2 0 0 0)) = true := by decide

theorem vectorState_takes_vredAdd : vectorState.vFree 0 (.ofV (registerSlot 0x22 0 1 0 0 0 0)) = true := by decide

/-- Refutes O15, by its frame: on a tile whose latest vector issue is an earlier one, VADD, of v1 and v2 into v0 here, changes `vAt`. -/
theorem not_lanewiseVectorSlots : ¬ Obligations.LanewiseVectorSlots := by
  unfold Obligations.LanewiseVectorSlots
  intro claim
  obtain ⟨u, z, next, issued, wrote⟩ :=
    claim vectorState 0 0 1 2 0 0 vectorState_canIssue _ (List.mem_append_left _ (.head _)) vectorState_takes_vadd
  rw [exec_vadd] at next
  exact register_changes_vAt vectorState_vAt (by decide) (by decide) rfl vectorState_canIssue vectorState_takes_vadd next issued wrote.vAt

/-- Refutes O16, by its frame: on such a tile VCMP_EQ, of v1 and v2 into k1 here, changes `vAt`. -/
theorem not_compareVectorSlots : ¬ Obligations.CompareVectorSlots := by
  unfold Obligations.CompareVectorSlots
  intro claim
  obtain ⟨u, z, next, issued, rest, -⟩ :=
    claim vectorState 0 1 1 2 0 vectorState_canIssue (by decide) _ (.head _) vectorState_takes_vcmpEq
  rw [exec_vcmpEq] at next
  have kept := congrArg Tile.vAt rest
  exact register_changes_vAt vectorState_vAt (by decide) (by decide) rfl vectorState_canIssue vectorState_takes_vcmpEq next issued kept

/-- Refutes O17, by its frame: on such a tile VRED_ADD, of v1 into v0 here, changes `vAt`. -/
theorem not_reductionVectorSlots : ¬ Obligations.ReductionVectorSlots := by
  unfold Obligations.ReductionVectorSlots
  intro claim
  obtain ⟨u, z, next, issued, wrote⟩ :=
    claim vectorState 0 0 1 0 0 vectorState_canIssue _ (.head _) vectorState_takes_vredAdd
  rw [exec_vredAdd] at next
  exact register_changes_vAt vectorState_vAt (by decide) (by decide) rfl vectorState_canIssue vectorState_takes_vredAdd next issued wrote.vAt

/-! ## The start of an update (R203, R206 to R208) -/

section
variable {s : State} {t : Nat} {v : VSlot} {upd : VUpd}

/-- An update whose record, entry and descriptors are legal passes its checks, and then starts. -/
theorem prepVslot_vupd (op : v.op = 0x35) (good : v.bad = false) (legal : s.checkUpd t (v.drec * 64) = .ok upd) :
    s.prepVslot t v = .ok fun s => s.startUpd t upd := by
  simp [State.prepVslot, op, good, legal, bind, Except.bind]

/-- At its issue it reads no tensor. -/
theorem vReads_vupd (op : v.op = 0x35) : s.vReads t v = [] := by simp [State.vReads, op]

/-- An update that nothing holds and that passes its checks issues. -/
theorem only_vupd (op : v.op = 0x35) (good : v.check.bad = false) (free : s.canIssue t = true) (unit : s.vFree t (.ofV v) = true)
    (recs : s.recsFree t (.ofV v) = true) (legal : s.checkUpd t (v.drec * 64) = .ok upd) :
    s.only t (.ofV v) = .next (((s.openedV t).startUpd t upd).writeBack t) := by
  have reads_free : s.readHeld t (s.vReads t v.check) = false := by rw [vReads_vupd (v := v.check) op, readHeld_nil]
  have holds : s.vHolds t v.check = [] := vHolds_of_vFree (b := .ofV v) unit reads_free
  have works : v.op ≠ 0 := by simp [op]
  exact only_ofV_recsFree (g := fun s => s.startUpd t upd) free recs holds works (prepVslot_vupd (v := v.check) op good legal)

end

/-- The slot of the VUPD row. -/
def vupdSlot (drec : BitVec 16) : VSlot := { VSlot.nop with op := 0x35, drec := drec.toNat }

theorem exec_vupd (t : Fin 64) (drec : BitVec 16) (s : State) : exec (.vupd t drec) s = s.only t (.ofV (vupdSlot drec)) := rfl

/-! ## Ends of updates, and landing writes (R208, R219, R609) -/

section
variable {s u : State} {t : Fin 64}

/-- An update that is due writes its results. -/
theorem vupdComplete_finishes {upd : VUpd} (running : (s.tile t).vupd = some upd) (enabled : s.clk.enabled = true)
    (due : s.updDue t upd = true) (finishes : s.finishUpd t upd = .ok u) : exec (.vupdComplete t) s = .next u := by
  show execVupdComplete t s = _
  simp only [execVupdComplete, running, enabled, due, finishes, Bool.and_self, occurs_true, State.orFault]

/-- The oldest due write lands where nothing holds its bytes. -/
theorem vectorWriteLand_lands {n : Nat} {w : VWrite} (oldest : (s.tile t).landing s.clk.etick = some n) (write : (s.tile t).vwr[n]? = some w)
    (enabled : s.clk.enabled = true) (unheld : s.writeHeld t w.ivs = false) :
    exec (.vectorWriteLand t) s = .next (s.setTile t { s.tile t with vwr := (s.tile t).vwr.set n { w with landed := true } }) := by
  show execVectorWriteLand t s = _
  simp only [execVectorWriteLand, oldest, write, enabled, unheld, Bool.not_false, Bool.and_self, occurs_true]

end

/-- A tick's end makes the bytes of its one landed write visible. -/
theorem seeWrites_landed {s : State} {t : Nat} {w : VWrite} (alone : (s.tile t).vwr = [w]) (landed : w.landed = true) :
    s.seeWrites t = (s.setTile t { s.tile t with vwr := [] }).landWrite t w := by
  simp [State.seeWrites, alone, landed, bind, Except.bind]

/-- Settles O22: nothing holds the update and its checks pass; its end and a write's landing occur; the tick's end sees the landed write. -/
theorem vectorWorkEnds : Obligations.VectorWorkEnds := by
  unfold Obligations.VectorWorkEnds
  refine ⟨fun s t drec upd free unit recs legal => ?starts, fun _ _ _ _ => vupdComplete_finishes, fun _ _ _ _ => vectorWriteLand_lands,
    fun s u t w alone landed lands => (seeWrites_landed alone landed).trans lands⟩
  case starts => exact (exec_vupd t drec s).trans (only_vupd (v := vupdSlot drec) rfl rfl free unit recs legal)

end Sys2Proof.Machine
end

section
/-! SUPPORT. Whole bundles, the S slot, and the rows of the HBM controllers. -/

namespace Sys2Proof.Machine

/-! ## The issue of a fetched bundle (R248, R254, R255, R289) -/

section
variable {s : State} {t : Nat} {b : Bundle}

/-- What holds a fetched bundle; past the last bundle nothing is looked at. -/
def State.fetchHolds (s : State) (t : Nat) (b : Bundle) : List Hold := if 8191 < (s.tile t).pc then [] else s.holds t b true

/-- On a tile that takes a bundle, a fetched one is held or it issues whole. -/
theorem issue_fetched (free : s.canIssue t = true) :
    s.issue t b true =
      if s.fetchHolds t b = [] then .next (s.orFault t (s.prepBundle t b true)) else .next (s.noteHold t (s.fetchHolds t b)) := by
  simp only [State.canIssue, Bool.and_eq_true, decide_eq_true_eq, Bool.not_eq_true', beq_iff_eq] at free
  obtain ⟨⟨⟨⟨⟨on, enabled⟩, later⟩, undrained⟩, awake⟩, -⟩ := free
  simp [State.issue, State.fetchHolds, on, enabled, Nat.not_le.mpr later, undrained, awake]

theorem issue_fetched_unheld (free : s.canIssue t = true) (unheld : s.fetchHolds t b = []) :
    s.issue t b true = .next (s.orFault t (s.prepBundle t b true)) :=
  (issue_fetched free).trans (if_pos unheld)

theorem issue_fetched_held (free : s.canIssue t = true) (held : s.fetchHolds t b ≠ []) :
    s.issue t b true = .next (s.noteHold t (s.fetchHolds t b)) :=
  (issue_fetched free).trans (if_neg held)

end

/-- Settles O34: BUNDLE_ISSUE is the issue of the fetched bundle, and what its checks answer is the next state or the job fault. -/
theorem bundleIssues : Obligations.BundleIssues := by
  unfold Obligations.BundleIssues
  intro s0 t s b free held
  refine ⟨fun unheld u passes => ?passes, fun unheld f fails => ?fails, fun holds => issue_fetched_held free holds⟩
  case passes => exact (issue_fetched_unheld free unheld).trans (by rw [passes, State.orFault])
  case fails => exact (issue_fetched_unheld free unheld).trans (by rw [fails, State.orFault])

/-! ## The issue of an S slot (R225, R232, R254, R255) -/

section
variable {s : State} {t : Nat} {v : SSlot} {g : State → State}

/-- Where no granule of its record is pending, only its stream context and the link send descriptors can hold an S slot. -/
theorem holds_ofS_recsFree (recs : s.recsFree t (.ofS v) = true) (starts : (s.tile t).starting = false) :
    s.holds t (.ofS v) false = s.sHolds t v := by
  have free : s.readHeld t (spans t (s.bundleRecs t (.ofS v))) = false := by simpa [State.recsFree] using recs
  rw [State.holds, free, starts]
  show [] ++ [] ++ [] ++ [] ++ s.sHolds t v ++ [] = _
  simp

theorem prepBundle_ofS (prep : s.prepS t v.check = .ok g) : s.prepBundle t (.ofS v) false = .ok ((g (s.opened t)).writeBack t) := by
  have levels : ((List.range 4).filter fun n => bitOf 0 n && ((s.tile t).level n).active) = [] := rfl
  simp [State.prepBundle, Bundle.ofS, Bundle.nop, prepF_nop, prepB_nop, prep, levels, State.prepVslot, State.prepV, State.prepC, VSlot.nop,
    CSlot.nop, illegalIf, bind, Except.bind, advance_nil, State.opened]

/-- An S-slot row that nothing holds and that passes its checks. -/
theorem only_ofS (free : s.canIssue t = true) (recs : s.recsFree t (.ofS v) = true) (holds : s.sHolds t v = [])
    (prep : s.prepS t v.check = .ok g) : s.only t (.ofS v) = .next ((g (s.opened t)).writeBack t) :=
  issue_ok free ((holds_ofS_recsFree recs (canIssue_starting free)).trans holds) (prepBundle_ofS prep)

end

/-! ## sgo and iload (R232, R239, R261, R274) -/

/-- What an sgo of a descriptor does, by its direction. -/
def State.goStream (t c : Nat) (raw : List Byte) (d : SDesc) (td : TDesc) (s : State) : State :=
  if d.dir = 0 then s.startIn t c raw d td .stream else if d.dir = 1 then s.startOut t c d td none else s.startLink t c d td

section
variable {s : State} {t c opr xreg : Nat} {xen : Bool}

theorem prepS_sgo {raw : List Byte} {d : SDesc} {td : TDesc} (desc : s.sgoDesc t ⟨1, c, opr, xreg, xen, false⟩ = .ok (raw, d, td))
    (free : c ≠ 31 ∨ (s.tile t).barrelOn = false) :
    s.prepS t (SSlot.check ⟨1, c, opr, xreg, xen, false⟩) = .ok (State.goStream t c raw d td) := by
  have barrel : (decide (c = 31) && (s.tile t).barrelOn) = false := by simpa [imp_iff_not_or] using free
  simp [State.prepS, SSlot.check, desc, barrel, bind, Except.bind]
  rfl

theorem prepS_iload {b : List Byte} (record : s.recAt t (opr * 64) 32 32 = .ok b) (legal : (LoadRec.ofBytes b).bad = false)
    (free : c ≠ 31 ∨ (s.tile t).barrelOn = false) :
    s.prepS t (SSlot.check ⟨4, c, opr, xreg, xen, false⟩) = .ok fun s => s.startLoad t c (LoadRec.ofBytes b) := by
  have barrel : (decide (c = 31) && (s.tile t).barrelOn) = false := by simpa [imp_iff_not_or] using free
  simp [State.prepS, SSlot.check, record, legal, barrel, illegalIf, bind, Except.bind]

/-- An iload waits only for the stream that runs inbound on its context. -/
theorem sHolds_iload (idle : sfind (s.tile t).inb c = none) : s.sHolds t ⟨4, c, opr, xreg, xen, false⟩ = [] := by
  simp [State.sHolds, State.sHold, idle]

end

/-! ## sdem and sdem.x (R239, R274) -/

section
variable {s : State} {t : Nat} {v : SSlot} {i : Inb}

/-- An sdem of either form, which names no record, waits for nothing. -/
theorem recsFree_sdem (form : v.op = 2 ∨ v.op = 3) : s.recsFree t (.ofS v) = true := by
  have go : v.check.op ≠ 1 := show v.op ≠ 1 by omega
  have load : v.check.op ≠ 4 := show v.op ≠ 4 by omega
  have none_named : s.bundleRecs t (.ofS v) = [] := by
    rw [State.bundleRecs, Bundle.ofS, if_neg go, if_neg load]
    rfl
  rw [State.recsFree, none_named]
  rfl

theorem sHolds_sdem (form : v.op = 2 ∨ v.op = 3) : s.sHolds t v = [] := by
  have other : v.op ≠ 1 ∧ v.op ≠ 4 := by omega
  simp [State.sHolds, State.sHold, other]

/-- It passes its checks where its number is positive. -/
theorem prepS_sdem (form : v.op = 2 ∨ v.op = 3) (good : v.bad = false) (positive : 0 < (s.tile t).demandN v) :
    s.prepS t v = .ok fun s => s.sdem t v := by
  have other : v.op ≠ 0 ∧ v.op ≠ 1 ∧ v.op ≠ 4 := by omega
  have legal : ¬ (s.tile t).demandN v < 1 := by omega
  simp [State.prepS, good, other, legal, illegalIf, bind, Except.bind]

/-- On a running paced inbound stream the demand count rises by the number. -/
theorem sdem_paced (running : sfind (s.tile t).inb v.ctx = some i) (stream : i.use = .stream) (paced : i.sd.paced = true) :
    s.sdem t v = s.demandTo t v.ctx (i.demand + ((s.tile t).demandN v).toNat) := by
  simp [State.sdem, running, stream, paced]

/-- An sdem of a positive number to such a stream issues. -/
theorem only_sdem (free : s.canIssue t = true) (form : v.op = 2 ∨ v.op = 3) (good : v.check.bad = false)
    (positive : 0 < (s.tile t).demandN v) (running : sfind (s.tile t).inb v.ctx = some i) (stream : i.use = .stream) (paced : i.sd.paced = true) :
    s.only t (.ofS v) = .next (((s.opened t).demandTo t v.ctx (i.demand + ((s.tile t).demandN v).toNat)).writeBack t) := by
  have inb : sfind ((s.opened t).tile t).inb v.check.ctx = some i := by
    rw [opened_tile]
    exact running
  rw [only_ofS free (recsFree_sdem form) (sHolds_sdem form) (prepS_sdem (v := v.check) form good positive), sdem_paced inb stream paced,
    opened_tile]
  rfl

end

/-- Settles O25: the slots of the four rows are held by nothing under the hypotheses, and pass their checks. -/
theorem streamSlots : Obligations.StreamSlots := by
  unfold Obligations.StreamSlots
  intro s t c issues free
  refine ⟨fun _ _ _ _ _ _ recs holds desc unlocked => ?sgo, fun _ _ recs idle record legal unlocked => ?iload,
    fun i running stream paced => ⟨fun n nonzero => ?sdem, fun x positive => ?sdemX⟩⟩
  case sgo => exact only_ofS issues recs holds (prepS_sgo desc unlocked)
  case iload => exact only_ofS issues recs (sHolds_iload idle) (prepS_iload record legal unlocked)
  case sdem =>
    have number : n.toNat ≠ 0 := by simpa [BitVec.toNat_eq] using nonzero
    have good : (SSlot.check ⟨2, c.toNat, n.toNat, 0, false, false⟩).bad = false := by simp [SSlot.check, number]
    have positive : 0 < (n.toNat : Int) := Int.natCast_pos.mpr (Nat.pos_of_ne_zero number)
    exact only_sdem issues (.inl rfl) good positive running stream paced
  case sdemX => exact only_sdem (v := ⟨3, c.toNat, 0, x.toNat, false, false⟩) issues (.inr rfl) rfl positive running stream paced

/-! ## The rows of an HBM controller (R230, R231, R237, R245) -/

section
variable {s : State} {k : Fin 12} {hs : Hubs} {cr : SMap Int} {n : Nat}

/-- Where the agents that the command names are agents of the controller, HBM_READ is the controller's work alone. -/
theorem exec_hbmRead (agents : hubsOk k hs = true) (bad : List Nat) (can test : Bool) :
    exec (.hbmRead (k, hs) bad can false test) s = .next (s.hbmRead k hs bad can) := by
  simp only [exec, execHbmRead, agents, occurs_true, Bool.false_and, Bool.false_eq_true, if_false]

theorem hbmRead_stream {r : HReq} (granted : (s.hbm.ctlOf k).pick s.plc.phys hs = (some (.inl n), cr))
    (request : (s.hbm.ctlOf k).queue[n]? = some r) (reads : r.write = false) (bad : List Nat) (can : Bool) :
    s.hbmRead k hs bad can =
      ({ s with hbm := s.hbm.setCtl k { s.hbm.ctlOf k with credit := cr } } : State).serveRead k n hs r bad can := by
  simp only [State.hbmRead, granted, request, reads, Bool.false_eq_true, if_false]

theorem hbmRead_hub {q g a : Nat} (granted : (s.hbm.ctlOf k).pick s.plc.phys hs = (some (.inr n), cr)) (agent : hs[n]? = some (q, g, a))
    (bad : List Nat) (can : Bool) :
    s.hbmRead k hs bad can = ({ s with hbm := s.hbm.setCtl k { s.hbm.ctlOf k with credit := cr } } : State).serveHub k hs a bad can := by
  simp only [State.hbmRead, granted, agent, Option.elim_some]

theorem hbmWriteAccept_stream {r : HReq} (agents : hubsOk k hs = true)
    (granted : (s.hbm.ctlOf k).pick s.plc.phys hs = (some (.inl n), cr)) (request : (s.hbm.ctlOf k).queue[n]? = some r) (writes : r.write = true) :
    exec (.hbmWriteAccept (k, hs)) s =
      .next (({ s with hbm := s.hbm.setCtl k { s.hbm.ctlOf k with credit := cr } } : State).serveWrite k n hs r) := by
  simp only [exec, execHbmWriteAccept, granted, request, writes, agents, Bool.and_self, occurs_true]

theorem hbmWriteAccept_hub (agents : hubsOk k hs = true) (granted : (s.hbm.ctlOf k).pick s.plc.phys hs = (some (.inr n), cr)) :
    exec (.hbmWriteAccept (k, hs)) s =
      .next { s with hbm := s.hbm.setCtl k (({ s.hbm.ctlOf k with credit := cr } : Hctl).prune s.plc.phys (hubKeys hs)) } := by
  simp only [exec, execHbmWriteAccept, granted, agents, occurs_true]

end

/-- Settles O29: each row serves the stream or the hub agent that the arbiters grant. -/
theorem hbmRows : Obligations.HbmRows := by
  unfold Obligations.HbmRows
  intro s k hs agents c with_
  refine ⟨fun n cr r bad can test granted request reads => ?read, fun n cr r granted request writes => ?write,
    fun n q g a cr bad can test granted agent => ⟨?hubRead, ?hubWrite⟩, rfl⟩
  case read => exact (exec_hbmRead agents bad can test).trans (congrArg _ (hbmRead_stream granted request reads bad can))
  case write => exact hbmWriteAccept_stream agents granted request writes
  case hubRead => exact (exec_hbmRead agents bad can test).trans (congrArg _ (hbmRead_hub granted agent bad can))
  case hubWrite => exact hbmWriteAccept_hub agents granted

end Sys2Proof.Machine
end

section
/-! SUPPORT. The delivery of a granule to an inbound stream. -/

namespace Sys2Proof.Machine

/-! ## What marks, tags and pending bits leave (R225, R400, R408) -/

section
variable (s : State)

/-- The marks of a write change no byte. -/
theorem markWrite_mem (ivs : List (Nat × Nat)) (poison : Bool) : (s.markWrite ivs poison).mem = s.mem := by
  refine List.foldlRecOn (motive := fun h : Hbm => h.mem = s.mem) _ _ rfl fun h kept g _ => ?_
  dsimp only
  split
  · exact kept
  · split <;> exact kept

theorem setTag_mem (g : Nat) (v : W32) : (s.setTag g v).mem = s.mem := rfl

theorem setMem_mem (m : Mem) : (s.setMem m).mem = m := rfl

theorem setTile_mem (t : Nat) (x : Tile) : (s.setTile t x).mem = s.mem := rfl

theorem chrAdd_mem (k m g c n : Nat) : (s.chrAdd k m g c n).mem = s.mem := rfl

end

theorem inc_inb (x : Tile) (obj n : Nat) : (x.inc obj n).inb = x.inb := by
  unfold Tile.inc
  split <;> rfl

/-- A granule's bytes, mark and tag are put at its place. -/
def State.putGranule (s : State) (a : Nat) (b : List Byte) (poison : Bool) (tag : W32) : State :=
  ((s.setMem (wrBytes s.mem a b)).markWrite [(a, 4096)] poison).setTag (a / 4096) tag

theorem putGranule_mem (s : State) (a : Nat) (b : List Byte) (poison : Bool) (tag : W32) :
    (s.putGranule a b poison tag).mem = wrBytes s.mem a b := by
  rw [State.putGranule, setTag_mem, markWrite_mem, setMem_mem]

section
variable {s : State} {t : Nat} {i : Inb} {f : Flight}

/-- A granule of a stream is put at its near-side place, which is then no longer pending. -/
theorem place_stream (stream : i.use = .stream) (poison : Bool) :
    let a := i.sd.nearAt t f.j
    let u := s.putGranule a f.got poison (if i.sd.kind = 0 || f.addr < sramBase then 0 else f.cv)
    s.place t i f poison = u.setTile t ((u.tile t).setPend (a - sramAt t) false) := by
  intro a u
  unfold State.place
  rw [stream]
  rfl

theorem place_mem (stream : i.use = .stream) (poison : Bool) :
    (s.place t i f poison).mem = wrBytes s.mem (i.sd.nearAt t f.j) f.got := by
  rw [place_stream stream, setTile_mem, putGranule_mem]

end

/-! ## A granule that passes its check (R237, R239, R403) -/

/-- The stream once the granule is written. -/
def Inb.wrote (i : Inb) (f : Flight) : Inb := { i with written := i.written + 1, fl := i.fl.filter fun q => q.j ≠ f.j }

/-- The tile with its stream so, and with the increment where a multiple of SD_SIGEVERY is reached. -/
def Tile.wrote (x : Tile) (c : Nat) (i : Inb) : Tile :=
  let y := { x with inb := sins x.inb c i }
  if i.sd.sigEvery ≠ 0 && i.written % i.sd.sigEvery = 0 then y.inc i.sd.sig 1 else y

/-- The count of granules that are delivered without a check. -/
def State.noteUnchecked (s : State) (i : Inb) (f : Flight) : State :=
  if i.unchecked f then { s with cvUnchecked := s.cvUnchecked + 1 } else s

theorem noteUnchecked_mem (s : State) (i : Inb) (f : Flight) : (s.noteUnchecked i f).mem = s.mem := by
  unfold State.noteUnchecked
  split <;> rfl

theorem wrote_inb (x : Tile) (c : Nat) (i : Inb) : sfind (x.wrote c i).inb c = some i := by
  unfold Tile.wrote
  dsimp only
  split <;> simp [inc_inb]

section
variable {s : State} {t c : Nat} {i : Inb} {f : Flight}

theorem whole_of_deliverable (due : s.deliverable t c i = some f) : f.got.length = 4096 := by
  unfold State.deliverable at due
  split at due
  · cases due
  · split at due
    next ready =>
      obtain rfl := Option.some.inj due
      simp only [Bool.and_eq_true] at ready
      obtain ⟨⟨⟨whole, -⟩, -⟩, -⟩ := ready
      exact beq_iff_eq.mp whole
    next => cases due

/-- A granule of a stream that was fetched by demand and passes its check is put at its place and counted. -/
theorem deliver_checked (running : sfind (s.tile t).inb c = some i) (stream : i.use = .stream) (due : s.deliverable t c i = some f)
    (demand : f.runAhead = false) (passes : i.fails s.step f = false) :
    let u := (s.noteUnchecked i f).place t i f f.poison
    s.deliver t c = (u.setTile t ((u.tile t).wrote c (i.wrote f))).chrAdd (u.plc.phys t) 1 4 0 1 := by
  have filled : ∀ u : State, u.endFill t c (i.wrote f) = u := fun u => by simp only [State.endFill, Inb.wrote, stream]
  simp only [State.deliver, running, due, passes, demand, Bool.false_eq_true, if_false, Bool.or_false]
  rw [← State.noteUnchecked]
  generalize (s.noteUnchecked i f).place t i f f.poison = u
  show (if _ then State.endFill _ t c (i.wrote f) else _) = _
  rw [filled, ite_self]
  rfl

end

/-- Settles O27: what is put at the granule's place is what its flight brought, which is whole, and the stream is left with one granule more. -/
theorem granuleDelivery : Obligations.GranuleDelivery := by
  unfold Obligations.GranuleDelivery
  intro s t c i f running stream enabled due demand passes
  have row : exec (.inboundGranuleWrite t c) s = .next (s.deliver t c.toNat) := by
    rw [exec, execInboundGranuleWrite, enabled, occurs_true]
  have delivered := deliver_checked running stream due demand passes
  have memory : (s.deliver t c.toNat).mem = wrBytes s.mem (i.sd.nearAt t f.j) f.got := by
    rw [delivered, chrAdd_mem, setTile_mem, place_mem stream, noteUnchecked_mem]
  have length := whole_of_deliverable due
  refine ⟨_, row, fun k inside => ?granule, fun a outside => ?elsewhere, i.wrote f, ?stream, rfl, rfl, rfl⟩
  case granule => rw [memory, rd8_wrBytes, if_pos (by omega), Nat.add_sub_cancel_left]
  case elsewhere => rw [memory, rd8_wrBytes, if_neg (by omega)]
  case stream => rw [delivered, tile_chrAdd, tile_setTile_self, wrote_inb]

end Sys2Proof.Machine
end

section
/-! SUPPORT. The collective engine: starts of collectives, and what a running one does next. -/

namespace Sys2Proof.Machine

/-! ## The start of a collective (R343, R344) -/

/-- The collective that a trigger starts: the next one of its descriptor. -/
def State.triggered (s : State) (c : Ctx) (cid : Nat) (src dst : TDesc) : CInst :=
  { cid := cid, inst := sget zeroNat c.insts cid, raw := s.cdRaw c cid, src := src, dst := dst, began := s.now.toNat, sent := 0, opened := false,
    final := none, upSent := false, agreed := none, written := false, conv := none, resSent := 0, resGot := [], resGap := [], late := 0 }

/-- The context with that collective running and counted; a COMMIT's trigger is noted for the commit (R362, R411). -/
def Ctx.started (c : Ctx) (fabric : Nat) (i : CInst) : Ctx :=
  { c with insts := sput zeroNat c.insts i.cid (i.inst + 1), running := c.running ++ [i],
           com := if i.d.op = 7 then { c.com with trig := some (fabric, i.cid),
                                                  abort := c.com.abort || c.wrotePoison, forPoison := c.com.forPoison || c.wrotePoison }
                  else c.com }

theorem started_insts (c : Ctx) (fabric : Nat) (i : CInst) : sget zeroNat (c.started fabric i).insts i.cid = i.inst + 1 := by
  simp [Ctx.started]

/-- The tile of a descriptor once the trigger is subtracted. -/
def Tile.spendTrigger (x : Tile) (d : CDesc) : Tile :=
  { x with sync := sput zero32 x.sync d.trig (sget zero32 x.sync d.trig - BitVec.ofNat 32 d.trigN) }

theorem sync_spendTrigger (x : Tile) (d : CDesc) (o : Nat) :
    sget zero32 (x.spendTrigger d).sync o = if o = d.trig then sget zero32 x.sync d.trig - BitVec.ofNat 32 d.trigN else sget zero32 x.sync o := by
  simp only [Tile.spendTrigger, sget_sput, eq_comm]

theorem tile_setCtx (s : State) (n t : Nat) (c : Ctx) : (s.setCtx n c).tile t = s.tile t := rfl

section
variable {s : State} {n : Nat} {c : Ctx}

/-- The trigger of a descriptor that meets the conditions of R344 is subtracted, and its next collective starts. -/
theorem trigger_starts {cid : Nat} {src dst : TDesc} (descs : s.collDescs (s.cd c cid) = .ok (src, dst))
    (legal : (s.cd c cid).fault c (s.group c (s.cd c cid).group) src dst = none) :
    let d := s.cd c cid
    s.trigger n c cid = .ok ((s.setTile d.tile ((s.tile d.tile).spendTrigger d)).setCtx n (c.started s.fabric (s.triggered c cid src dst))) := by
  rw [State.cd] at descs legal
  simp only [State.trigger, descs, legal, bind, Except.bind]
  rfl

theorem collectiveTrigger_starts {cid : BitVec 10} {src dst : TDesc} (res : s.resCtx = some (n, c)) (triggers : s.triggers c cid.toNat = true)
    (descs : s.collDescs (s.cd c cid.toNat) = .ok (src, dst))
    (legal : (s.cd c cid.toNat).fault c (s.group c (s.cd c cid.toNat).group) src dst = none) :
    let d := s.cd c cid.toNat
    exec (.collectiveTrigger cid) s =
      .next ((s.setTile d.tile ((s.tile d.tile).spendTrigger d)).setCtx n (c.started s.fabric (s.triggered c cid.toNat src dst))) := by
  simp only [exec, execCollectiveTrigger, res, triggers, occurs_true, trigger_starts descs legal, State.orFault]

/-! ## What a data operation does next (R226, R345, R350 to R352) -/

variable {i : CInst}

/-- The data operations and their numbers. -/
def dataInstrs (cid : BitVec 10) : List (Nat × Instr) :=
  [(0, .reduce cid), (1, .allreduce cid), (2, .reducescatter cid), (3, .allgather cid), (4, .alltoall cid)]

/-- The row of a data operation does what the running one does next. -/
theorem exec_dataInstrs {cid : BitVec 10} {q : Nat × Instr} {u : State} (res : s.resCtx = some (n, c)) (running : c.inst cid.toNat = some i)
    (row : q ∈ dataInstrs cid) (op : i.d.op = q.1) (next : s.advanceInst n c i = .ok u) : exec q.2 s = .next u := by
  have goes : exec q.2 s = .next (s.orFault i.d.tile (s.advanceInst n c i)) := by
    simp only [dataInstrs, List.mem_cons, List.not_mem_nil, or_false] at row
    rcases row with rfl | rfl | rfl | rfl | rfl <;> exact dataRow_eq res running op
  rw [goes, next, State.orFault]

theorem advanceInst_sends {j r : Nat} (next : (s.plan c i)[i.sent]? = some (j, r)) (other : r ≠ (s.groupOf c i).rank)
    (room : s.roomSend i.d.tile 1 = true) :
    s.advanceInst n c i =
      .ok ((s.openSend i.d.tile (s.devAt (s.groupOf c i) r) i.d.tile (i.src.pieceGrans (i.srcElem j) i.d.count).length
        (.piece i.cid i.inst j false)).setInstance n { i with sent := i.sent + 1 }) := by
  simp [State.advanceInst, next, other, room]

theorem advanceInst_places {j : Nat} {u : State} (next : (s.plan c i)[i.sent]? = some (j, (s.groupOf c i).rank))
    (unheld : s.readHeld i.d.tile (granIvs (i.src.pieceGrans (i.srcElem j) i.d.count)) = false) (placed : s.placeOwn n c i j = .ok u) :
    s.advanceInst n c i = .ok ((u.setInstance n { i with sent := i.sent + 1 }).agree n i.cid false) := by
  simp [State.advanceInst, next, unheld, placed, bind, Except.bind]

section
variable {inc : Nat × Nat} (all_sent : (s.plan c i).length ≤ i.sent) (agreed : i.agreed = some inc)
include all_sent agreed

/-- Once its contributions are sent and the sets agreed, an operation that reduces takes its pieces through the conversion unit. -/
theorem advanceInst_reduces (unwritten : i.written = false) (reduces : i.d.op < 3) : s.advanceInst n c i = s.reduceGo n c i inc := by
  simp [State.advanceInst, List.getElem?_eq_none all_sent, agreed, unwritten, reduces]

/-- One that gathers writes them. -/
theorem advanceInst_gathers (unwritten : i.written = false) (gathers : 3 ≤ i.d.op) : s.advanceInst n c i = s.gatherGo n c i inc.1 := by
  simp [State.advanceInst, List.getElem?_eq_none all_sent, agreed, unwritten, Nat.not_lt.mpr gathers]

/-- Once they are written, it sends the next result. -/
theorem advanceInst_results {j r : Nat} (written : i.written = true) (next : (s.resultPlan c i)[i.resSent]? = some (j, r))
    (room : s.roomSend i.d.tile 1 = true) :
    s.advanceInst n c i =
      .ok ((s.openSend i.d.tile (s.devAt (s.groupOf c i) r) i.d.tile (i.dst.pieceGrans (i.dstElem j) i.d.count).length
        (.piece i.cid i.inst j true)).setInstance n { i with resSent := i.resSent + 1 }) := by
  simp [State.advanceInst, List.getElem?_eq_none all_sent, agreed, written, next, room]

end

theorem reduceGo_converts {inc : Nat × Nat} (fresh : i.conv = none) (unit : (s.tile i.d.tile).unitFree = true)
    (unused : s.collWrites i.d.tile = false) :
    s.reduceGo n c i inc = .ok (s.setInstance n
      { i with conv := some (s.clk.etick + i.convTicks (s.groupOf c i).n (s.expects c i (s.groupOf c i).rank).length) }) := by
  simp [State.reduceGo, fresh, unit, unused]

theorem reduceGo_writes {inc : Nat × Nat} {e : Nat} {u : State} (conv : i.conv = some e) (taken : e ≤ s.clk.etick)
    (unheld : s.writeHeld i.d.tile (granIvs ((s.expects c i (s.groupOf c i).rank).flatMap fun j =>
      i.dst.pieceGrans (i.dstElem j) i.d.count)) = false)
    (reduced : s.reduceHere c i inc (s.expects c i (s.groupOf c i).rank) = .ok u) :
    s.reduceGo n c i inc = .ok (u.setInstance n { i with written := true }) := by
  simp [State.reduceGo, conv, Nat.not_lt.mpr taken, unheld, reduced, bind, Except.bind]

theorem gatherGo_writes {inc : Nat} {u : State}
    (unheld : s.writeHeld i.d.tile (granIvs ((List.range (s.groupOf c i).n).flatMap fun j =>
      i.dst.pieceGrans (i.dstElem j) i.d.count)) = false)
    (gathered : s.gatherHere c i inc = .ok u) : s.gatherGo n c i inc = .ok (u.setInstance n { i with written := true }) := by
  simp [State.gatherGo, unheld, gathered, bind, Except.bind]

/-! ## ESCAPE, DIGEST and COMMIT (R358, R362, R367) -/

section
variable {cid : BitVec 10} (res : s.resCtx = some (n, c)) (running : c.inst cid.toNat = some i)
include res running

theorem escape_arrives (op : i.d.op = 5) (home : c.esc = none) : exec (.escape cid) s = .next (s.arrive n i) := by
  simp only [exec, execEscape, res, running, op, home, beq_self_eq_true, Option.isNone_none, Bool.and_self, occurs_true]

theorem digest_hashes (op : i.d.op = 6) (unhashed : c.com.digest = none) :
    exec (.digest cid) s = .next (s.hashShard n c i (s.groupOf c i)) := by
  simp only [exec, execDigest, res, running, op, State.digestGo, unhashed, beq_self_eq_true, occurs_true]

theorem commit_goes (op : i.d.op = 7) : exec (.commit cid) s = .next (s.commitGo n) := by
  simp only [exec, execCommit, res, running, op, Option.any_some, beq_self_eq_true, Bool.true_or, occurs_true]

end

/-- An arrival that reads no replayed run gates the clock enable from now on. -/
theorem arrive_gates (found : sfind s.ctxs n = some c) (outside : i.d.step = false) (runs : c.st ≠ .stopped) :
    s.arrive n i = (s.setCtx n { c with esc := some ⟨i.cid, s.fabric, false, none, false, false⟩ }).escGo n := by
  simp [State.arrive, outside, found, runs]

end

/-- Settles O43: a trigger starts the next collective of its descriptor, and each clause on a running one is a case of what it does next. -/
theorem collectiveWork : Obligations.CollectiveWork := by
  unfold Obligations.CollectiveWork
  intro s n c cid res d
  refine ⟨fun src dst triggers descs legal => ?trigger, fun i running => ⟨fun q row op => ?data, escape_arrives res running,
    fun op home outside runs => ?gates, digest_hashes res running, commit_goes res running⟩⟩
  case trigger =>
    refine ⟨_, c.started s.fabric (s.triggered c cid.toNat src dst), s.triggered c cid.toNat src dst,
      collectiveTrigger_starts res triggers descs legal, ?spent, fun o other => ?kept, fun t other => ?tiles, rfl, ?context, rfl, rfl, rfl, rfl,
      ?counted⟩
    case spent => rw [tile_setCtx, tile_setTile_self, sync_spendTrigger, if_pos rfl]
    case kept => rw [tile_setCtx, tile_setTile_self, sync_spendTrigger, if_neg other]
    case tiles => rw [tile_setCtx, tile_setTile, if_neg other.symm]
    case context => rw [State.find_setCtx, if_pos rfl]
    case counted => exact started_insts ..
  case data =>
    have next {u : State} : s.advanceInst n c i = .ok u → exec q.2 s = .next u := exec_dataInstrs res running row op
    refine ⟨fun j r planned other room => next (advanceInst_sends planned other room),
      fun j u planned unheld placed => next (advanceInst_places planned unheld placed), fun inc all_sent agreed => ?agreed⟩
    refine ⟨fun unwritten reduces fresh unit unused => ?converts, fun e u unwritten reduces conv taken unheld reduced => ?writes,
      fun u unwritten gathers unheld gathered => ?gathers, fun j r written planned room => ?results⟩
    case converts => exact next ((advanceInst_reduces all_sent agreed unwritten (op ▸ reduces)).trans (reduceGo_converts fresh unit unused))
    case writes => exact next ((advanceInst_reduces all_sent agreed unwritten (op ▸ reduces)).trans (reduceGo_writes conv taken unheld reduced))
    case gathers => exact next ((advanceInst_gathers all_sent agreed unwritten (op ▸ gathers)).trans (gatherGo_writes unheld gathered))
    case results => exact next (advanceInst_results all_sent agreed written planned room)
  case gates => exact (escape_arrives res running op home).trans (congrArg _ (arrive_gates (find_of_resCtx res) outside runs))

end Sys2Proof.Machine
end

section
/-! SUPPORT. The C slots of index registers, loops, synchronisation, the program's order and the scale advance. -/

namespace Sys2Proof.Machine

/-! ## The outcomes of a C slot: it writes its tile, it is held, it faults (R254, R255, R426) -/

/-- A condition of the encoding decides between the job fault that it numbers and what follows (R427). -/
theorem illegalIf_bind {α : Type} (c : Bool) (detail addr : Nat) (next : Except JF α) :
    (illegalIf c detail addr >>= fun _ => next) = if c then .error (JF.illegal detail addr) else next := by
  cases c <;> rfl

section
variable {s : State} {t : Nat} {c : CSlot}

/-- A C slot that rewrites its tile, and keeps apart from the marks of the issue, completes with the tile rewritten. -/
theorem only_ofC_writes {f : Tile → Tile} (free : s.canIssue t = true) (recs : s.recsFree t (.ofC c) = true)
    (unheld : s.cHolds t c.check = []) (prep : s.prepC t c.check (s.tile t).pc = .ok fun s => s.setTile t (f (s.tile t)))
    (marks : ∀ now, f ((s.tile t).stamp now) = (f (s.tile t)).stamp now) :
    ∃ u, s.only t (.ofC c) = .next u ∧ s.Issued u t (f (s.tile t)) := by
  refine ⟨_, only_ofC_recsFree free recs unheld prep, ?_⟩
  rw [opened_tile, marks]
  exact issued_set s t _ _ rfl

/-- A slot that writes nothing leaves the marks of the issue alone. -/
theorem issued_unwritten (s : State) (t : Nat) : s.Issued ((s.opened t).writeBack t) t (s.tile t) where
  rest := by simp only [State.writeBack, State.setTile, State.opened, State.chrAdd, State.setPtile]
  tile := by rw [writeBack_tile, opened_tile]
  others k other := by rw [writeBack_tile, opened_tile_ne s t k other]
  place p := by rw [writeBack_ptile, ← opened_ptile]
  places p other := by rw [writeBack_ptile, opened_ptile_ne s t p other]

/-- On a tile that takes a bundle, the bundle of a single slot is held, or else it issues or ends as the job fault that its checks find. -/
theorem issue_single {b : Bundle} (free : s.canIssue t = true) :
    s.issue t b false =
      if s.holds t b false = [] then .next (s.orFault t (s.prepBundle t b false)) else .next (s.noteHold t (s.holds t b false)) := by
  simp only [State.canIssue, Bool.and_eq_true, decide_eq_true_eq, Bool.not_eq_true', beq_iff_eq] at free
  obtain ⟨⟨⟨⟨⟨on, enabled⟩, later⟩, undrained⟩, awake⟩, -⟩ := free
  simp [State.issue, on, enabled, Nat.not_le.mpr later, undrained, awake]

theorem only_ofC_held (free : s.canIssue t = true) (recs : s.recsFree t (.ofC c) = true) (held : s.cHolds t c.check ≠ []) :
    s.only t (.ofC c) = .next (s.noteHold t (s.cHolds t c.check)) := by
  rw [State.only, issue_single free, holds_ofC_recsFree recs (canIssue_starting free), if_neg held]

/-- What the C slot's checks find is what the bundle's checks find: the slots before it are empty. -/
theorem prepBundle_ofC_error {f : JF} (illegal : s.prepC t c.check (s.tile t).pc = .error f) :
    s.prepBundle t (.ofC c) false = .error f := by
  change (do let _ ← s.prepC t c.check (s.tile t).pc; _) = _
  rw [illegal]
  rfl

/-- A C slot with an illegal encoding that nothing holds is a job fault of its tile. -/
theorem only_ofC_illegal {detail addr : Nat} (free : s.canIssue t = true) (recs : s.recsFree t (.ofC c) = true)
    (unheld : s.cHolds t c.check = []) (illegal : s.prepC t c.check (s.tile t).pc = .error (JF.illegal detail addr)) :
    s.only t (.ofC c) = .next (s.jobFault (JF.illegal detail addr) (some t)) := by
  rw [State.only, issue_single free, holds_ofC_recsFree recs (canIssue_starting free), if_pos unheld, prepBundle_ofC_error illegal]
  rfl

end

/-! ## Index registers (R256, R259) -/

/-- The 24 bits of an immediate, read as two's complement and written in 32 bits, are its sign extension. -/
theorem immediate_eq_signExtend (imm : BitVec 24) : BitVec.ofNat 32 (unsgn (sgn imm.toNat 24) 32) = imm.signExtend 32 := by
  have signed : sgn imm.toNat 24 = imm.toInt := by
    have := imm.isLt
    rw [sgn, BitVec.toInt_eq_toNat_cond, Nat.mod_eq_of_lt this]
    exact if_congr (by omega) rfl rfl
  rw [signed]
  apply BitVec.eq_of_toNat_eq
  rw [BitVec.signExtend, BitVec.toNat_ofInt, BitVec.toNat_ofNat, unsgn]
  omega

section
variable {s : State} {t : Nat} {x : BitVec 4} {imm : BitVec 24} {next : Nat}

theorem prepC_xset : s.prepC t (CSlot.check ⟨0x08, x.toNat, imm.toNat, 0, 0, false⟩) next =
    if (s.tile t).counts x.toNat then .error (JF.illegal 3 0)
    else .ok fun s => s.setTile t ((s.tile t).setX x.toNat (imm.signExtend 32)) := by
  rw [← immediate_eq_signExtend]
  exact illegalIf_bind ((s.tile t).counts x.toNat) 3 0 _

theorem prepC_xadd : s.prepC t (CSlot.check ⟨0x09, x.toNat, imm.toNat, 0, 0, false⟩) next =
    if (s.tile t).counts x.toNat then .error (JF.illegal 3 0)
    else .ok fun s => s.setTile t ((s.tile t).setX x.toNat (sget zero32 (s.tile t).x x.toNat + imm.signExtend 32)) := by
  rw [← immediate_eq_signExtend]
  exact illegalIf_bind ((s.tile t).counts x.toNat) 3 0 _

end

/-- Settles O6: nothing holds the two slots, and their one check asks whether the register counts an active level. -/
theorem indexRegisterSlots : Obligations.IndexRegisterSlots := by
  unfold Obligations.IndexRegisterSlots
  intro s t x imm free
  refine ⟨fun idle => ⟨?xset, ?xadd⟩, fun counts => ⟨?xsetFault, ?xaddFault⟩⟩
  case xset =>
    exact only_ofC_writes (f := fun y => y.setX x.toNat (imm.signExtend 32)) free rfl rfl
      (prepC_xset.trans (if_neg (Bool.eq_false_iff.mp idle))) fun _ => rfl
  case xadd =>
    exact only_ofC_writes (f := fun y => y.setX x.toNat (sget zero32 y.x x.toNat + imm.signExtend 32)) free rfl rfl
      (prepC_xadd.trans (if_neg (Bool.eq_false_iff.mp idle))) fun _ => rfl
  case xsetFault => exact only_ofC_illegal free rfl rfl (prepC_xset.trans (if_pos counts))
  case xaddFault => exact only_ofC_illegal free rfl rfl (prepC_xadd.trans (if_pos counts))

/-! ## Loop levels (R257 to R259) -/

section
variable (x : Tile) (n count start k : Nat)

@[simp] theorem level_setX (i : Nat) (v : W32) : (x.setX i v).level k = x.level k := rfl

@[simp] theorem x_setX (i : Nat) (v : W32) : sget zero32 (x.setX i v).x k = if i = k then v else sget zero32 x.x k := sget_sput ..

@[simp] theorem level_open : (x.open_ n count start).level k = if n = k then ⟨count, start, true⟩ else x.level k := sget_sput ..

/-- A level that opens has its count and start and a counter of zero; every other level, register and field stays (R257). -/
theorem open_opens :
    { x.open_ n count start with lv := x.lv, x := x.x } = x ∧ (x.open_ n count start).level n = ⟨count, start, true⟩ ∧
      (∀ k, k ≠ n → (x.open_ n count start).level k = x.level k) ∧ sget zero32 (x.open_ n count start).x (12 + n) = 0 ∧
      ∀ k, k ≠ 12 + n → sget zero32 (x.open_ n count start).x k = sget zero32 x.x k := by
  refine ⟨rfl, ?named, fun k other => ?levels, ?counter, fun k other => ?registers⟩
  case named => rw [level_open, if_pos rfl]
  case levels => rw [level_open, if_neg other.symm]
  case counter => exact (x_setX ..).trans (if_pos rfl)
  case registers => exact (x_setX ..).trans (if_neg other.symm)

theorem lpBad_eq_false (closed : ∀ k, k ≤ n → (x.level k).active = false) : x.lpBad n = false := by
  simpa [Tile.lpBad, Nat.lt_succ_iff] using closed

/-- A pass below the last counts up and branches to the level's start (R258). -/
theorem loopEnd_branches (more : (sget zero32 x.x (12 + n)).toNat + 1 < (x.level n).count) :
    x.loopEnd n = (x.setX (12 + n) (sget zero32 x.x (12 + n) + 1), some (x.level n).start) := if_pos more

/-- The last pass closes the level and takes no branch (R258). -/
theorem loopEnd_closes (last : (x.level n).count ≤ (sget zero32 x.x (12 + n)).toNat + 1) :
    x.loopEnd n = ({ x with lv := sput (fun _ => (⟨0, 0, false⟩ : Level)) x.lv n { x.level n with active := false } }, none) :=
  if_neg (Nat.not_lt.mpr last)

/-- The end of a level leaves the others. -/
theorem level_loopEnd (other : k ≠ n) : (x.loopEnd n).1.level k = x.level k := by
  rcases Nat.lt_or_ge ((sget zero32 x.x (12 + n)).toNat + 1) (x.level n).count with more | last
  · rw [loopEnd_branches x n more, level_setX]
  · rw [loopEnd_closes x n last]
    exact (sget_sput ..).trans (if_neg other.symm)

end

section
variable {s : State} {t lvl next : Nat}

theorem prepC_lpI {count : Nat} (some_passes : count ≠ 0) (legal : (s.tile t).lpBad lvl = false) :
    s.prepC t (CSlot.check ⟨0x06, lvl, count, 0, 0, false⟩) next = .ok fun s => s.setTile t ((s.tile t).open_ lvl count next) := by
  simp [State.prepC, CSlot.check, some_passes, legal, illegalIf, bind, Except.bind]

theorem prepC_lpX {r : Nat} (positive : 0 < (sget zero32 (s.tile t).x r).toInt) (legal : (s.tile t).lpBad lvl = false) :
    s.prepC t (CSlot.check ⟨0x07, lvl, r, 0, 0, false⟩) next =
      .ok fun s => s.setTile t ((s.tile t).open_ lvl (sget zero32 (s.tile t).x r).toNat next) := by
  simp [State.prepC, CSlot.check, Tile.xs, Int.not_le.mpr positive, legal, illegalIf, bind, Except.bind]

end

/-- Settles O8: nothing holds the two slots, their checks pass, and each opens its level; the end of a level is a case of the pass it ends. -/
theorem loopSlots : Obligations.LoopSlots := by
  unfold Obligations.LoopSlots
  refine ⟨fun s t n free closed => ⟨fun count nonzero => ?lpI, fun r positive => ?lpX⟩,
    fun x n => ⟨fun more => ?more, fun last => ?last, fun k other => ?others⟩⟩
  case lpI =>
    have some_passes : count.toNat ≠ 0 := fun zero => nonzero (BitVec.eq_of_toNat_eq zero)
    obtain ⟨u, completes, issued⟩ := only_ofC_writes (f := fun y => y.open_ n.toNat count.toNat (s.tile t).pc) free rfl rfl
      (prepC_lpI some_passes (lpBad_eq_false _ _ closed)) fun _ => rfl
    exact ⟨u, completes, _, issued, open_opens ..⟩
  case lpX =>
    obtain ⟨u, completes, issued⟩ := only_ofC_writes (f := fun y => y.open_ n.toNat (sget zero32 y.x r.toNat).toNat (s.tile t).pc) free
      rfl rfl (prepC_lpX positive (lpBad_eq_false _ _ closed)) fun _ => rfl
    exact ⟨u, completes, _, issued, open_opens ..⟩
  case more =>
    rw [loopEnd_branches x n more]
    refine ⟨rfl, ?_, rfl, fun k other => ?_⟩
    · rw [x_setX, if_pos rfl]
    · rw [x_setX, if_neg other.symm]
  case last =>
    have closed : (x.loopEnd n).1.level n = { x.level n with active := false } := by
      rw [loopEnd_closes x n last]
      exact (sget_sput ..).trans (if_pos rfl)
    rw [closed, loopEnd_closes x n last]
    exact ⟨rfl, rfl, rfl, rfl⟩
  case others => exact level_loopEnd x n k other

/-! ## A tile's own synchronisation counters (R281 to R284) -/

section
variable {s : State} {t o v : Nat}

/-- A wait of either form is held at the issue target while its counter is too low. -/
theorem cHolds_wait {op : Nat} (form : op = 0x01 ∨ op = 0x02) :
    s.cHolds t ⟨op, o, v, 0, 0, false⟩ = if (sget zero32 (s.tile t).sync o).toNat < v then [(1, 8, 0)] else [] := by
  rcases form with rfl | rfl
  · rfl
  · rfl

theorem cHolds_sig : s.cHolds t ⟨0x03, o, v, 0, 0, false⟩ = if (s.tile t).incHeld o v then [(1, 8, 0)] else [] := rfl

theorem cHolds_sset : s.cHolds t ⟨0x05, o, v, 0, 0, false⟩ = if s.owes t o then [(1, 8, 0)] else [] := rfl

theorem prepC_wait (v : BitVec 24) (next : Nat) : s.prepC t (CSlot.check ⟨0x01, o, v.toNat, 0, 0, false⟩) next =
    .ok fun s => s.setTile t { s.tile t with sync := sput zero32 (s.tile t).sync o (sget zero32 (s.tile t).sync o - v.setWidth 32) } := by
  rw [← BitVec.ofNat_toNat]
  rfl

theorem prepC_sset (v : BitVec 24) (next : Nat) : s.prepC t (CSlot.check ⟨0x05, o, v.toNat, 0, 0, false⟩) next =
    .ok fun s => s.setTile t { s.tile t with sync := sput zero32 (s.tile t).sync o (v.setWidth 32) } := by
  rw [← BitVec.ofNat_toNat]
  rfl

end

/-- Settles O9: where its own condition holds, nothing holds the slot, it has no check to fail, and it writes the one counter. -/
theorem localSyncSlots : Obligations.LocalSyncSlots := by
  unfold Obligations.LocalSyncSlots
  intro s t o v n free at_
  refine ⟨fun enough => ?wait, fun enough => ?waitge, fun unowed => ?sset, fun takes => ?sig⟩
  case wait =>
    exact only_ofC_writes (f := fun y => { y with sync := sput zero32 y.sync o.toNat (sget zero32 y.sync o.toNat - v.setWidth 32) }) free rfl
      ((cHolds_wait (.inl rfl)).trans (if_neg (Nat.not_lt.mpr enough))) (prepC_wait v _) fun _ => rfl
  case waitge =>
    refine ⟨_, only_ofC_recsFree free rfl ((cHolds_wait (.inr rfl)).trans (if_neg (Nat.not_lt.mpr enough))) rfl, ?_⟩
    exact issued_unwritten s t
  case sset =>
    exact only_ofC_writes (f := fun y => { y with sync := sput zero32 y.sync o.toNat (v.setWidth 32) }) free rfl
      (cHolds_sset.trans (if_neg (Bool.eq_false_iff.mp unowed))) (prepC_sset v _) fun _ => rfl
  case sig =>
    exact only_ofC_writes
      (f := fun y => { y with landed := sput zeroNat y.landed o.toNat (sget zeroNat y.landed o.toNat + n.toNat) }) free rfl
      (cHolds_sig.trans (if_neg (Bool.eq_false_iff.mp takes))) rfl fun _ => rfl

/-! ## A held attempt (R250, R288, R289) -/

/-- The stalls of a held attempt: the issue target's, then those of the engines that hold it. -/
def State.stalled (s : State) (t : Nat) (hs : List Hold) : State :=
  (hs.filter fun h => h.2.1 < 5).foldl (fun s h => s.stallAt t h.2.1 h.2.2) (hs.foldl (fun s h => s.stallAt t 5 h.1) s)

theorem noteHold_eq (s : State) (t : Nat) (hs : List Hold) : s.noteHold t hs =
    (s.stalled t hs).setTile t { (s.stalled t hs).tile t with issued := (s.stalled t hs).clk.etick, held := ((s.stalled t hs).tile t).held + 1 } :=
  rfl

/-- What no stall changes, the stalls of a held attempt leave. -/
theorem stalled_leaves {α : Type} {π : State → α} {t : Nat} (each : ∀ s target counter, π (s.stallAt t target counter) = π s) (s : State)
    (hs : List Hold) : π (s.stalled t hs) = π s :=
  (foldl_leaves (fun s _ => each s _ _) _ _).trans (foldl_leaves (fun s _ => each s _ _) hs s)

/-- A held attempt leaves device memory. -/
theorem hbm_noteHold (s : State) (t : Nat) (hs : List Hold) : (s.noteHold t hs).hbm = s.hbm :=
  stalled_leaves (π := State.hbm) (fun _ _ _ => rfl) s hs

/-- A held attempt leaves every other tile. -/
theorem tile_noteHold_ne (s : State) {t k : Nat} (hs : List Hold) (other : k ≠ t) : (s.noteHold t hs).tile k = s.tile k := by
  rw [noteHold_eq, tile_setTile, if_neg other.symm]
  refine stalled_leaves (π := fun s => s.tile k) (fun s target counter => ?_) s hs
  exact (tile_setTile ..).trans (if_neg other.symm)

/-- A held attempt is one tick more of the hold; beside it the held tile keeps all but its stalls and its latest attempt. -/
theorem tile_noteHold (s : State) (t : Nat) (hs : List Hold) :
    { (s.noteHold t hs).tile t with stall := (s.tile t).stall, issued := (s.tile t).issued } = { s.tile t with held := (s.tile t).held + 1 } := by
  have stalls : { (s.stalled t hs).tile t with stall := (s.tile t).stall } = s.tile t := by
    refine stalled_leaves (π := fun u => { u.tile t with stall := (s.tile t).stall }) (fun u target counter => ?_) s hs
    rw [State.stallAt, tile_setTile_self]
  rw [noteHold_eq, tile_setTile_self]
  exact congrArg (fun x : Tile => { x with issued := (s.tile t).issued, held := x.held + 1 }) stalls

/-- A held attempt of one tile, field by field. -/
theorem noteHold_keeps (s : State) (t : Nat) (hs : List Hold) :
    ((s.noteHold t hs).tile t).sync = (s.tile t).sync ∧ ((s.noteHold t hs).tile t).x = (s.tile t).x ∧
      ((s.noteHold t hs).tile t).pc = (s.tile t).pc ∧ (s.noteHold t hs).hbm = s.hbm ∧
      ((s.noteHold t hs).tile t).held = (s.tile t).held + 1 ∧ ∀ k, k ≠ t → (s.noteHold t hs).tile k = s.tile k :=
  have own := tile_noteHold s t hs
  ⟨(congrArg Tile.sync own :), (congrArg Tile.x own :), (congrArg Tile.pc own :), hbm_noteHold s t hs, (congrArg Tile.held own :),
    fun _ => tile_noteHold_ne s hs⟩

/-- Settles O10: the counter holds both slots, and a held attempt is what `noteHold_keeps` says. -/
theorem waitHolds : Obligations.WaitHolds := by
  unfold Obligations.WaitHolds
  intro s t o v free low
  have held {op : Nat} (form : op = 0x01 ∨ op = 0x02) : s.cHolds t ⟨op, o.toNat, v.toNat, 0, 0, false⟩ ≠ [] :=
    ((cHolds_wait form).trans (if_pos low)).trans_ne (List.cons_ne_nil _ _)
  constructor
  · exact ⟨_, only_ofC_held free rfl (held (.inl rfl)), noteHold_keeps ..⟩
  · exact ⟨_, only_ofC_held free rfl (held (.inr rfl)), noteHold_keeps ..⟩

/-! ## The program's order (R259, R260, R263, R280) -/

theorem prepC_jmp {s : State} {t a next : Nat} : s.prepC t (CSlot.check ⟨0x0d, a, 0, 0, 0, false⟩) next =
    if (s.tile t).looping then .error (JF.illegal 4 0) else .ok fun s => s.setTile t { s.tile t with pc := a } :=
  illegalIf_bind (s.tile t).looping 4 0 _

/-- Settles O12: JMP's one check asks for active levels; HALT has none, and notifies the scheduler on the tile that the issue has marked. -/
theorem jumpAndHaltSlots : Obligations.JumpAndHaltSlots := by
  unfold Obligations.JumpAndHaltSlots
  intro s t a free
  refine ⟨fun idle => ?jmp, fun loops => ?fault, ?halt⟩
  case jmp =>
    exact only_ofC_writes (f := fun y => { y with pc := a.toNat }) free rfl rfl (prepC_jmp.trans (if_neg (Bool.eq_false_iff.mp idle))) fun _ => rfl
  case fault => exact only_ofC_illegal free rfl rfl (prepC_jmp.trans (if_pos loops))
  case halt =>
    rw [← opened_tile]
    exact only_ofC_recsFree (g := fun s => (s.setTile t { s.tile t with run := .halted }).haltEnd) free rfl rfl rfl

/-- PP passes its checks at no active level, with legal records and live ranges that a save can take. -/
theorem prepC_pp {s : State} {t d next : Nat} {b l : List Byte} (idle : (s.tile t).looping = false) (records : s.segAt_ t (d * 64) = .ok (b, l))
    (live : ∀ n c, s.resCtx = some (n, c) → liveBad c.rr.maxlive (s.liveOf t (Seg.ofBytes b)) = false) :
    s.prepC t (CSlot.check ⟨0x0e, d, 0, 0, 0, false⟩) next = .ok fun u => u.doPp t b l (s.ppStops t) s.ppKeeps := by
  cases res : s.resCtx with
  | none => simp [State.prepC, CSlot.check, idle, records, res, illegalIf, bind, Except.bind]
  | some r => simp [State.prepC, CSlot.check, idle, records, res, live r.1 r.2 res, illegalIf, bind, Except.bind]

/-- The records that a PP waits for are its segment's. -/
theorem recsFree_pp {s : State} {t d : Nat} (free : s.readHeld t (spans t (s.segReads t (d * 64))) = false) :
    s.recsFree t (.ofC ⟨0x0e, d, 0, 0, 0, false⟩) = true :=
  congrArg not free

/-- An abandoned watch check is the physical tile's. -/
@[simp] theorem tile_abandonCheck (s : State) (t k : Nat) : (s.abandonCheck t).tile k = s.tile k := by
  rw [State.abandonCheck]
  split
  · rfl
  · rfl

/-- A PP at which the tile neither stops nor keeps a state goes on at SG_RESUME in the record's segment (R263). -/
theorem tile_doPp_goesOn (s : State) (t : Nat) (b l : List Byte) : (s.doPp t b l false false).tile t =
    { s.tile t with
      pps := (s.tile t).pps + 1, pc := (Seg.ofBytes b).resume, seg := Seg.ofBytes b, segAt := some s.clk.etick, segOver := false,
      saveSeg := b, saveLoad := l } := by
  rw [State.doPp]
  dsimp only
  split
  · rw [tile_abandonCheck, tile_setTile_self]
    rfl
  · rw [Bool.not_false, if_pos rfl, if_neg Bool.false_ne_true, tile_abandonCheck, tile_setTile_self]
    rfl

/-- Settles O13: nothing holds the slot, its checks pass, and `tile_doPp_goesOn` says where the tile goes on. -/
theorem ppSlot : Obligations.PpSlot := by
  unfold Obligations.PpSlot
  intro s t d b l free idle records live pending unheld
  refine ⟨_, only_ofC_recsFree free (recsFree_pp pending) unheld (prepC_pp idle records live), rfl, fun goes_on unkept => ?_⟩
  rw [writeBack_tile, goes_on, unkept, tile_doPp_goesOn, opened_tile]
  rfl

/-! ## The scale advance (R100, R225, R279) -/

theorem prepC_sadv {s : State} {t d xb xn o next : Nat} {a : Sadv} (legal : s.checkSadv t d xb xn o = .ok a) :
    s.prepC t (CSlot.check ⟨0x13, d, xb, xn, o, false⟩) next = .ok fun s => s.setTile t { s.tile t with sadv := some a } := by
  simp [State.prepC, CSlot.check, legal, bind, Except.bind]

/-- A scale advance waits for the conversion unit. -/
theorem cHolds_sadv {s : State} {t d xb xn o : Nat} (unused : (s.tile t).converting = false) (no_update : (s.tile t).vupd = none)
    (no_advance : (s.tile t).sadv = none) (unwritten : s.collWrites t = false) : s.cHolds t ⟨0x13, d, xb, xn, o, false⟩ = [] := by
  simp [State.cHolds, unused, no_update, no_advance, unwritten]

/-- The record that a SADV waits for is its descriptor. -/
theorem recsFree_sadv {s : State} {t d xb xn o : Nat} (free : s.readHeld t (spans t [(d * 64, 64)]) = false) :
    s.recsFree t (.ofC ⟨0x13, d, xb, xn, o, false⟩) = true :=
  congrArg not free

/-- A scale advance in progress that is due ends as its operation does. -/
theorem sadvComplete_finishes {s u : State} {t : Fin 64} {a : Sadv} (running : (s.tile t).sadv = some a) (enabled : s.clk.enabled = true)
    (due : s.sadvDue t a = true) (finishes : s.finishSadv t a = .ok u) : execSadvComplete t s = .next u := by
  simp only [execSadvComplete, running, enabled, due, finishes, Bool.and_self, occurs_true, State.orFault]

/-- Settles O14: nothing holds the slot and its checks pass; the end of the advance occurs. -/
theorem scaleAdvanceSlot : Obligations.ScaleAdvanceSlot := by
  unfold Obligations.ScaleAdvanceSlot
  refine ⟨fun s t d xb xn o a free unused no_update no_advance unwritten pending legal => ?starts, fun s t a u => sadvComplete_finishes⟩
  exact only_ofC_writes (f := fun y => { y with sadv := some a }) free (recsFree_sadv pending)
    (cHolds_sadv unused no_update no_advance unwritten) (prepC_sadv legal) fun _ => rfl

end Sys2Proof.Machine
end

section
/-! SUPPORT. The queue, the reset state and the fuses. -/

namespace Sys2Proof.Machine

/-- Settles O1: a step takes its command from the queue's front and runs it with the rest. -/
theorem stepRunsFront : Obligations.StepRunsFront := by
  unfold Obligations.StepRunsFront
  refine ⟨fun c s => rfl, fun s idle => ?_⟩
  unfold step
  rw [idle]

/-- No tile of an unfused part is faulty: all 17 of a quadrant work. -/
theorem legal_init : Fuses.init.legal := by
  unfold Fuses.legal
  decide

/-- Settles O2: nothing of memory is listed, the fuses are those of an unfused part and the placement is the first. -/
theorem resetInv : Obligations.ResetInv := by
  unfold Obligations.ResetInv
  exact ⟨rfl, legal_init, by decide, Placement.init_distinct⟩

/-- Settles O4: what every command keeps holds the queue. -/
theorem queueOnlyShrinks : Obligations.QueueOnlyShrinks := by
  unfold Obligations.QueueOnlyShrinks
  intro c s t ran
  exact (exec_keep c s t ran).queue

/-- Settles O5: an idle step leaves the fuses, and what every command keeps holds that they only blow. -/
theorem fusesOnlyBlow : Obligations.FusesOnlyBlow := by
  unfold Obligations.FusesOnlyBlow
  intro s t _ stepped
  unfold step at stepped
  split at stepped
  case h_1 =>
    obtain rfl : s = t := Host.Outcome.next.inj stepped
    exact Fuses.After.refl s.fuses
  case h_2 c cs _ => exact (exec_keep c { s with pending := cs } t stepped).fuses

end Sys2Proof.Machine
end

section
/-! SUPPORT. The Turain ports: bring-up, cages, flits, retries, lane sparing and the time exchange. -/

namespace Sys2Proof.Machine

variable {s : State} {p : Fin 24}

/-! ## What events leave of the ports (R495, R607) -/

theorem event_links (s : State) (kind ctx : Nat) (data : List (Nat × Nat × Nat)) (recd : List Byte) :
    (s.event kind ctx data recd).links = s.links := by
  obtain ⟨hosts, w1c, cfg, e⟩ := event_eq s kind ctx data recd
  rw [e]

theorem link_linkEvent (s : State) (p q : Nat) : (s.linkEvent p).link q = s.link q := by
  unfold State.link State.linkEvent
  rw [event_links]

/-! ## Bring-up (R311, R330, R607) -/

/-- The end of calibration takes the port UP with what was measured, whether an event tells of it or the parent's exchanges begin anew. -/
theorem portBringup_calibrated {delay : BitVec 24} {skew : BitVec 16} (on : s.portOn p = true) (calibrating : (s.link p).state = .calibrating) :
    ∃ u, exec (.portBringup p (delay, skew)) s = .next u ∧ (u.link p).state = .up ∧ (u.link p).delay = delay ∧
      (u.link p).skew = s.asym p + skew.toInt ∧ (u.link p).wasFailed = false := by
  have measured : ∃ u, exec (.portBringup p (delay, skew)) s = .next u ∧
      u.link p = { s.calibrated p (s.link p) (delay, skew) with wasFailed := false } := by
    simp only [exec, execPortBringup, on, calibrating, Bool.not_true, Bool.false_eq_true, if_false]
    refine ⟨_, rfl, ?_⟩
    rw [apply_ite (State.link · p), link_linkEvent, ite_self]
    refine Eq.trans ?_ ((s.link_setLink p p _).trans (if_pos rfl))
    split <;> rfl
  obtain ⟨u, ran, up⟩ := measured
  exact ⟨u, ran, by rw [up]; rfl, by rw [up]; rfl, by rw [up]; rfl, by rw [up]⟩

/-- A port that has tried for the whole time fails. -/
theorem portBringupTimeout_fails (trying : (s.link p).state = .training ∨ (s.link p).state = .init ∨ (s.link p).state = .calibrating)
    (late : (s.link p).since.toNat + bringUpTicks ≤ s.now.toNat) :
    ∃ u, exec (.portBringupTimeout p) s = .next u ∧ (u.link p).state = .failed ∧ (u.link p).wasFailed = true := by
  have failed : ∃ u, exec (.portBringupTimeout p) s = .next u ∧ u.link p = { (s.link p).cleared .failed s.now with wasFailed := true } := by
    have tries : ((decide ((s.link p).state = .training) || decide ((s.link p).state = .init) || decide ((s.link p).state = .calibrating)) = true) := by
      simpa [or_assoc] using trying
    simp only [exec, execPortBringupTimeout, tries, decide_eq_true late, Bool.and_self, occurs_true]
    refine ⟨_, rfl, ?_⟩
    rw [apply_ite (State.link · p), link_linkEvent, ite_self, State.link_setLink, if_pos rfl]
  obtain ⟨u, ran, ended⟩ := failed
  exact ⟨u, ran, by rw [ended]; rfl, by rw [ended]⟩

/-- Settles O36: calibration and the timeout by their lemmas, each other step by the branch that its conditions choose. -/
theorem portRows : Obligations.PortRows := by
  unfold Obligations.PortRows
  intro s p delay skew
  dsimp only
  refine ⟨fun on => ⟨fun down => ?down, fun training fits => ?training, fun init got => ?init,
    fun calibrating => portBringup_calibrated on calibrating⟩, fun trying late => portBringupTimeout_fails trying late,
    fun failed on late => ?retry, fun init late => ?again⟩
  case down => simp [exec, execPortBringup, on, down]
  case training => simp [exec, execPortBringup, on, training, fits]
  case init => simp [exec, execPortBringup, on, init, got]
  case retry => simp only [exec, execPortBringupRetry, failed, on, decide_eq_true late, beq_self_eq_true, Bool.and_self, occurs_true]
  case again => simp only [exec, execInitRepeat, init, decide_eq_true late, beq_self_eq_true, Bool.and_self, occurs_true]

/-! ## Cages (R333 to R335) -/

/-- A port that leaves its state for one that carries nothing stands in that one. -/
theorem state_portTo (s : State) (p : Nat) (st : PortSt) : ((s.portTo p st).link p).state = st := by
  unfold State.portTo
  rw [State.link_setLink, if_pos rfl]
  rfl

/-- A port that goes DOWN, and whose transmitters are then turned off. -/
theorem link_transmittersOff (s : State) (p : Nat) :
    let y := s.portTo p .down
    let x := (y.setLink p { y.link p with cage := (y.link p).cage.map fun g => { g with txOn := false } }).link p
    x.state = .down ∧ ∀ g, x.cage = some g → g.txOn = false := by
  dsimp only
  rw [State.link_setLink, if_pos rfl]
  refine ⟨state_portTo s p .down, fun g held => ?_⟩
  obtain ⟨_, _, off⟩ := Option.map_eq_some_iff.mp held
  rw [← off]

/-- What a poll holds of a module is what firmware read, its poll time and the equivalent hours, which only grow. -/
theorem transceiverPoll_quiet {g : Cage} {t10 : Int} {volt : Nat} {bias txPow rxPow : List Nat} {flags : List Byte} (up : s.up = true)
    (plugged : (s.link p).cage = some g) (due : 2 ^ 30 ≤ s.now.toNat - g.pollAt.toNat) (quiet : alarmCount flags = 0) (cool : hotFlag flags = false) :
    ∃ u e, exec (.transceiverPoll p t10 flags volt (bias, txPow, rxPow)) s = .next u ∧
      u.link p = { s.link p with cage := some { g with eqAcc := e, pollAt := s.now, mon := ⟨t10, volt, bias, txPow, rxPow, flags⟩ } } ∧
      g.eqAcc ≤ e ∧ ∀ q, q ≠ p.val → u.link q = s.link q := by
  simp only [exec, execTransceiverPoll, plugged, up, decide_eq_true due, Bool.and_self, occurs_true, quiet, cool, List.range_zero, List.foldl_nil,
    Bool.false_eq_true, if_false]
  refine ⟨_, _, rfl, (State.link_setLink ..).trans (if_pos rfl), Nat.le_add_right .., fun q other => ?_⟩
  rw [State.link_setLink, if_neg other.symm]
  rfl

/-- A high-temperature alarm takes the port down, and its module's transmitters off. -/
theorem transceiverPoll_hot {g : Cage} {t10 : Int} {volt : Nat} {bias txPow rxPow : List Nat} {flags : List Byte} (up : s.up = true)
    (plugged : (s.link p).cage = some g) (due : 2 ^ 30 ≤ s.now.toNat - g.pollAt.toNat) (hot : hotFlag flags = true) :
    ∃ u, exec (.transceiverPoll p t10 flags volt (bias, txPow, rxPow)) s = .next u ∧ (u.link p).state = .down ∧
      ∀ g', (u.link p).cage = some g' → g'.txOn = false := by
  simp only [exec, execTransceiverPoll, plugged, up, decide_eq_true due, Bool.and_self, occurs_true, hot, if_true]
  exact ⟨_, rfl, link_transmittersOff _ p⟩

/-- A port in one of the three states that wait for a module. -/
theorem contains_waiting (st : PortSt) : ([.down, .failed, .unsupported].contains st = true) ↔ (st = .down ∨ st = .failed ∨ st = .unsupported) := by
  simp

/-- Settles O37: both polls by their lemmas, each other row by the branch that its conditions choose. -/
theorem cageRows : Obligations.CageRows := by
  unfold Obligations.CageRows
  intro s p
  dsimp only
  refine ⟨fun serial vendor oui part rev date optical passive suitable up empty => ?insert, fun g plugged => ?remove,
    fun g t10 volt bias txPow rxPow flags up plugged due => ⟨fun quiet cool => transceiverPoll_quiet up plugged due quiet cool,
      fun hot => transceiverPoll_hot up plugged due hot⟩, fun g up plugged optical due => ?record⟩
  case insert =>
    simp only [exec, execTransceiverInsert, up, empty, Option.isNone_none, Bool.and_self, occurs_true, Bool.and_eq_true, contains_waiting]
  case remove =>
    simp only [exec, execTransceiverRemove, plugged, Option.isSome_some, occurs_true, Bool.or_eq_true, decide_eq_true_eq]
  case record =>
    simp only [exec, execLaserRecordWrite, plugged, Option.any_some, optical, decide_eq_true due, up, Bool.and_self, occurs_true]

/-! ## Flits (R298 to R306) -/

section
variable {f : List Byte} {corr : List Nat} {kind : Nat} {act : State → FlHdr → LinkPort → State}

theorem badflit_takeHdr (x : LinkPort) (h : FlHdr) : (x.takeHdr h).badflit = x.badflit := by
  unfold LinkPort.takeHdr
  dsimp only
  split <;> rfl

/-- A good flit with a legal header of the row's kind is taken, and then acts. -/
theorem rxFlit_takes (whole : f.length = 256) (sends : ((s.link p).noteFec corr s.now).state.sends = true) (crc : flitCrcOk f = true)
    (legal : (FlHdr.ofBytes f).bad = false) (own : (FlHdr.ofBytes f).kind = kind) :
    s.rxFlit p kind f false corr act =
      .next (act s (FlHdr.ofBytes f) (((s.link p).noteFec corr s.now).takeHdr (FlHdr.ofBytes f))) := by
  simp [State.rxFlit, whole, sends, crc, legal, own]

/-- A flit in an uncorrectable codeword, or whose CRC fails, is counted and asks for a retry. -/
theorem rxFlit_discards {bad : Bool} (whole : f.length = 256) (sends : ((s.link p).noteFec corr s.now).state.sends = true)
    (lost : bad = true ∨ flitCrcOk f = false) :
    s.rxFlit p kind f bad corr act = .next (s.setLink p
      { ((s.link p).noteFec corr s.now).gap s.now with badflit := ((s.link p).noteFec corr s.now).badflit + 1 }) := by
  simp [State.rxFlit, whole, sends, lost]

/-- So is one with a reserved kind or header, once its header is taken. -/
theorem rxFlit_illegal (whole : f.length = 256) (sends : ((s.link p).noteFec corr s.now).state.sends = true) (crc : flitCrcOk f = true)
    (illegal : (FlHdr.ofBytes f).bad = true) :
    let x := ((s.link p).noteFec corr s.now).takeHdr (FlHdr.ofBytes f)
    s.rxFlit p kind f false corr act = .next (s.setLink p { x.gap s.now with badflit := x.badflit + 1 }) := by
  simp [State.rxFlit, whole, sends, crc, illegal, badflit_takeHdr]

section
variable {bad : Bool} {frac : BitVec 16}

theorem exec_flitIdle : exec (.flitIdle p f bad corr) s = s.rxFlit p 0 f bad corr fun s _ x => s.setLink p x := rfl

theorem exec_flitData :
    exec (.flitData p f bad corr) s = s.rxFlit p 1 f bad corr fun s h x => s.putLink p h.vc (x.acceptData h f s.now) := rfl

theorem exec_flitRetry :
    exec (.flitRetry p f bad corr) s = s.rxFlit p 2 f bad corr fun s _ x => s.replayFrom p x (fieldLe f 8 2) := rfl

theorem exec_flitInit : exec (.flitInit p f bad corr) s = s.rxFlit p 3 f bad corr fun s _ x => s.takeInit p x f := rfl

theorem exec_flitTime : exec (.flitTime p f bad corr frac) s =
    s.rxFlit p 4 f bad corr fun s _ x => s.takeTime p x ((f.drop 8).take 44) frac.toNat := rfl

theorem exec_flitLane : exec (.flitLane p f bad corr) s = s.rxFlit p 5 f bad corr fun s _ x => s.takeLane p x (fieldLe f 8 1) := rfl
end

/-- The six rows that a flit may come as, each a reception of its kind. -/
theorem exec_flit_forall {bad : Bool} {frac : BitVec 16} {u : State} (received : ∀ kind act, s.rxFlit p kind f bad corr act = .next u) :
    ∀ i ∈ [Instr.flitIdle p f bad corr, .flitData p f bad corr, .flitRetry p f bad corr, .flitInit p f bad corr, .flitTime p f bad corr frac,
      .flitLane p f bad corr], exec i s = .next u := by
  simp [exec_flitIdle, exec_flitData, exec_flitRetry, exec_flitInit, exec_flitTime, exec_flitLane, received]
end

/-- A request is answered with its receive time (R327). -/
theorem takeTime_request {x : LinkPort} {b : List Byte} {frac : Nat} (request : fieldLe b 0 2 = 0) :
    s.takeTime p x b frac = ({ s with freeCtr := s.freeCtr + 1 } : State).setLink p { x with timeBody := b, ctl := x.ctl ++
      [.timeResp (BitVec.ofNat 16 (fieldLe b 2 2)) (Config.freeNat s.freeCtr) (fieldLe b 24 10) (s.fabStamp frac)] } := by
  rw [State.takeTime, if_pos request]

/-- The response to the outstanding request of the parent port ends the exchange (R327). -/
theorem takeTime_response {x : LinkPort} {b : List Byte} {frac t3 : Nat} (response : fieldLe b 0 2 ≠ 0) (asked : x.timeT3 = some t3)
    (parent : s.timeParent = some p.val) (up : x.state = .up) (number : BitVec.ofNat 16 (fieldLe b 2 2) = x.timeSeq) :
    s.takeTime p x b frac = (({ s with freeCtr := s.freeCtr + 1 } : State).setLink p { x with timeBody := b, timeT3 := none }).exchange p
      (offTarget (sgn (fieldLe b 4 10) 80) (s.devStamp frac) t3 (sgn (fieldLe b 34 10) 80) x.skew (Config.freeNat s.freeCtr)) := by
  simp [State.takeTime, response, asked, parent, up, number]

/-- What a LANE flit does at an end that is UP, at one that is SPARING, and at any other (R309, R310). -/
theorem takeLane_eq (x : LinkPort) (l : Nat) :
    let again := s.setLink p { x with laneAns := true, ctl := if x.laneOwn then x.ctl else x.ctl ++ [.lane l] }
    s.takeLane p x l =
      if x.state = .up then (if bitOf x.lanes.toNat l then (s.setLink p x).spareLane p l true else again)
      else if x.state = .sparing then (if x.laneOut = some l then again else (s.setLink p x).portTo p .down)
      else s.setLink p x := by
  unfold State.takeLane
  cases x.state <;> rfl

/-- Settles O38: a good flit of each kind by what its kind brings, a bad or illegal one by its reception, whatever the row. -/
theorem flitRows : Obligations.FlitRows := by
  unfold Obligations.FlitRows
  intro s p f corr frac whole
  dsimp only
  intro sends
  refine ⟨fun crc legal => ⟨fun idle => ?idle, fun data => ?data, fun retry => ?retry, fun init => ?init, fun time => ⟨fun request => ?request,
    fun t3 response asked parent up number => ?response, fun unasked late => ?unasked⟩, fun lane => ?lane⟩,
    fun bad lost => exec_flit_forall fun kind act => rxFlit_discards whole sends lost,
    fun crc illegal => exec_flit_forall fun kind act => rxFlit_illegal whole sends crc illegal⟩
  case idle => rw [exec_flitIdle, rxFlit_takes whole sends crc legal idle]
  case data => rw [exec_flitData, rxFlit_takes whole sends crc legal data]
  case retry => rw [exec_flitRetry, rxFlit_takes whole sends crc legal retry]
  case init => rw [exec_flitInit, rxFlit_takes whole sends crc legal init]
  case request => rw [exec_flitTime, rxFlit_takes whole sends crc legal time, takeTime_request request]
  case response =>
    rw [exec_flitTime, rxFlit_takes whole sends crc legal time, takeTime_response response asked parent up number]
  case unasked => rw [exec_flitTime, rxFlit_takes whole sends crc legal time, State.takeTime, if_neg unasked, late]
  case lane => rw [exec_flitLane, rxFlit_takes whole sends crc legal lane, takeLane_eq]

/-! ## Retries, lane sparing and the time exchange (R306 to R310, R327, R329) -/

/-- The end of sparing leaves the port UP on the lanes that are left, with what was measured. -/
theorem laneSpareComplete_up {delay : BitVec 24} {skew : BitVec 16} {l : Nat} (out : (s.link p).laneOut = some l)
    (sparing : (s.link p).state = .sparing) (answered : (s.link p).laneAns = true) :
    ∃ u, exec (.laneSpareComplete p (delay, skew)) s = .next u ∧ (u.link p).state = .up ∧ (u.link p).delay = delay ∧
      (u.link p).skew = s.asym p + skew.toInt ∧ (u.link p).lanes = (s.link p).lanes &&& ~~~(BitVec.ofNat 4 (2 ^ l)) ∧
      (u.link p).spared = true ∧ (u.link p).laneOut = none ∧ ∀ q, q ≠ p.val → u.link q = s.link q := by
  simp only [exec, execLaneSpareComplete, out, sparing, answered, beq_self_eq_true, Bool.and_self, occurs_true]
  refine ⟨_, rfl, ?_, ?_, ?_, ?_, ?_, ?_, fun q other => by rw [State.link_setLink, if_neg other.symm]⟩
  all_goals
    rw [State.link_setLink, if_pos rfl]
    rfl

/-- Time is no longer locked once the last exchange lies far enough back. -/
theorem timeLockTimeout_unlocks (parent : s.timeParent = some p.val) (locked : (s.link p).tlock = true)
    (late : s.lnk.exAt.toNat + 2 ^ 26 ≤ s.now.toNat) :
    ∃ u, exec .timeLockTimeout s = .next u ∧ (u.link p).tlock = false ∧ u.lnk = { s.lnk with agree := 0 } := by
  simp only [exec, execTimeLockTimeout, parent, locked, decide_eq_true late, Bool.and_self, occurs_true]
  refine ⟨_, rfl, ?_, rfl⟩
  exact congrArg LinkPort.tlock ((s.link_setLink ..).trans (if_pos rfl))

/-- Settles O39: the end of sparing and the lock's timeout by their lemmas, each other row by its conditions. -/
theorem laneAndTimeRows : Obligations.LaneAndTimeRows := by
  unfold Obligations.LaneAndTimeRows
  intro s p delay skew
  dsimp only
  refine ⟨fun w outstanding sends late => ?retry, fun lost l due => ⟨fun up => ?spare, fun sparing => ?second⟩,
    fun l out sparing unanswered late => ?lane, fun l out sparing answered => laneSpareComplete_up out sparing answered,
    fun parent up due t1 t2 t4 t3 => ?request, fun parent locked late => timeLockTimeout_unlocks parent locked late⟩
  case retry => simp only [exec, execRetryRepeat, outstanding, sends, decide_eq_true late, Bool.and_self, occurs_true]
  case spare => simp [exec, execLaneSpare, due, up]
  case second => simp [exec, execLaneSpare, due, sparing]
  case lane =>
    simp only [exec, execLaneRepeat, out, sparing, unanswered, decide_eq_true late, beq_self_eq_true, Bool.not_false, Bool.and_self, occurs_true]
  case request =>
    have due : (s.lnk.reqAt.all fun t => decide (t.toNat + 2 ^ 16 ≤ s.now.toNat)) = true := by
      rw [Option.all_eq_true]
      exact fun r asked => decide_eq_true (due r asked)
    simp only [exec, execTimeExchange, parent, up, due, beq_self_eq_true, Bool.and_self, occurs_true]

end Sys2Proof.Machine
end

section
/-! SUPPORT. The transport between devices: packets of transfers and of management, and the timers of their descriptors. -/

namespace Sys2Proof.Machine

variable {s : State} {p : Fin 25} {hop : Bool} {b : List Byte}

/-! ## What taking a packet leaves -/

theorem putLink_cfg (s : State) (p v : Nat) (x : LinkPort) : (s.putLink p v x).cfg = s.cfg := rfl

theorem putLink_clk (s : State) (p v : Nat) (x : LinkPort) : (s.putLink p v x).clk = s.clk := rfl

theorem dropPacket_cfg (s : State) (p v : Nat) : (s.dropPacket p v).cfg = s.cfg := by
  unfold State.dropPacket
  split
  · exact putLink_cfg ..
  · rfl

theorem dropPacket_now (s : State) (p v : Nat) : (s.dropPacket p v).now = s.now := by
  unfold State.dropPacket
  split
  · exact congrArg Clk.time (putLink_clk ..)
  · rfl

theorem dropPacket_e2e (s : State) (p v : Nat) : (s.dropPacket p v).e2e = s.e2e := by
  unfold State.e2e State.reg
  rw [dropPacket_cfg]

/-! ## Packets of transfers (R317 to R324) -/

/-- A WRITE for another device is taken off its channel and forwarded. -/
theorem write_forwards (front : s.packet p (b2n hop) = some b) (typ : (Th.ofBytes b).typ = 0x01) (dst : (Th.ofBytes b).dst ≠ s.devId) :
    exec (.write p hop) s = .next ((s.dropPacket p (2 * 0 + b2n hop)).forward 0 (Th.ofBytes b) b) := by
  simp [exec, execWrite, State.recvPkt, front, typ, dst]

/-- A NACK of the row's cause for a descriptor that stands acts on it, its timeouts forgotten. -/
theorem recvNack_acts {cause k : Nat} {d : SendD} {act : State → Th → Nat → SendD → State} (arrived : s.Arrived p hop 1 0x09 b)
    (named : (s.dropPacket p (2 * 1 + b2n hop)).findSend (Th.ofBytes b) = some (k, d)) (own : fieldLe b 28 2 = cause) :
    s.recvNack p hop cause act = .next (act (s.dropPacket p (2 * 1 + b2n hop)) (Th.ofBytes b) k { d with timeouts := 0 }) := by
  unfold State.recvNack
  rw [recvPkt_act (sel := fun b => fieldLe b 28 2 == cause) arrived (beq_iff_eq.mpr own) rfl, named]

/-- RELEASE frees the receive descriptor that it names. -/
theorem release_frees {k : Nat} {d : RecvD} (arrived : s.Arrived p hop 1 0x0A b)
    (named : (s.dropPacket p (2 * 1 + b2n hop)).findRecv (Th.ofBytes b) = some (k, d)) :
    exec (.release p hop) s = .next ((s.dropPacket p (2 * 1 + b2n hop)).freeRecv k) := by
  simp only [exec, execRelease]
  rw [recvPkt_act arrived rfl rfl, named]

theorem exec_nackGap : exec (.nackGap p hop) s = s.recvNack p hop 0 fun s h k d => s.setSend k { d with next := min h.pidx d.pcnt } := rfl

theorem exec_nackBusy : exec (.nackBusy p hop) s =
    s.recvNack p hop 1 fun s _ k d => s.setSend k { d with backoff := some (s.now + BitVec.ofNat 64 (s.e2e / 16)) } := rfl

theorem exec_nackNotres : exec (.nackNotres p hop) s =
    s.recvNack p hop 2 fun s _ k d => s.setSend k { d with backoff := some (s.now + BitVec.ofNat 64 s.e2e) } := rfl

theorem exec_nackPerm : exec (.nackPerm p hop) s = s.recvNack p hop 3 fun s h k d => (s.closeSend k d false).jobFault
    (JF.region (match d.cargo with | .stream _ => 1 | _ => 2) (s.refusedAddr k d h.pidx)) (some (k / 16)) := rfl

/-- Settles O40: each packet that has arrived acts, a NACK on the descriptor that it names, with the time and T_E2E as they were before it
was taken. -/
theorem transportRows : Obligations.TransportRows := by
  unfold Obligations.TransportRows
  intro s p hop b
  dsimp only
  refine ⟨fun arrived free => ?write, fun front typ dst => write_forwards front typ dst, fun arrived => ?inc, fun arrived => ?ack,
    fun k d arrived named => release_frees arrived named, fun k d arrived named => ⟨fun gap => ?gap, fun busy => ?busy, fun notres => ?notres,
      fun perm => ?perm⟩⟩
  case write =>
    simp only [exec, execWrite]
    rw [recvPkt_act arrived rfl free]
  case inc =>
    simp only [exec, execInc]
    rw [recvPkt_act arrived rfl rfl]
  case ack =>
    simp only [exec, execAck]
    rw [recvPkt_act arrived rfl rfl]
  case gap => rw [exec_nackGap, recvNack_acts arrived named gap]
  case busy => rw [exec_nackBusy, recvNack_acts arrived named busy, dropPacket_now, dropPacket_e2e]
  case notres => rw [exec_nackNotres, recvNack_acts arrived named notres, dropPacket_now, dropPacket_e2e]
  case perm =>
    rw [exec_nackPerm]
    exact recvNack_acts arrived named perm

/-! ## Descriptors (R319 to R322) -/

/-- Settles O41: each row finds its descriptor and occurs under the conditions of its clause; the next path is that of an even count of
timeouts. -/
theorem descriptorRows : Obligations.DescriptorRows := by
  unfold Obligations.DescriptorRows
  intro s t i
  dsimp only
  refine ⟨fun d stands incomplete all => ?complete, fun d stands late => ?free, fun d w stands waits expired => ?backoff,
    fun d stands unwaiting sent late => ⟨fun last => ?last, fun more => ?more⟩⟩
  case complete =>
    simp only [exec, execTransferReceiveComplete, stands, incomplete, all, beq_self_eq_true, Bool.not_false, Bool.and_self, occurs_true]
  case free => simp only [exec, execDescriptorIdleFree, stands, decide_eq_true late, occurs_true]
  case backoff => simp only [exec, execBackoffExpiry, stands, waits, decide_eq_true expired, occurs_true]
  case last =>
    simp only [exec, execE2eTimeout, stands, unwaiting, decide_eq_true sent, decide_eq_true late, last, Option.isNone_none, Bool.and_self,
      occurs_true, if_true]
  case more =>
    have eighth : ¬d.timeouts + 1 = 8 := by omega
    have even : (d.timeouts + 1) % 2 = 0 ↔ d.timeouts % 2 = 1 := by omega
    simp only [exec, execE2eTimeout, stands, unwaiting, decide_eq_true sent, decide_eq_true late, eighth, even, Option.isNone_none, Bool.and_self,
      occurs_true, if_false]

/-! ## Management packets (R366, R413, R425, R505) -/

/-- A management packet of the row's kind for the resident context's job acts. -/
theorem recvMgmt_acts {kind n : Nat} {c : Ctx} {act : State → List Byte → Th → Nat → Ctx → State} (arrived : s.Arrived p hop 3 0x10 b)
    (own : fieldLe b 32 1 = kind) (res : (s.dropPacket p (6 + b2n hop)).resCtx = some (n, c))
    (job : (if fieldLe b 32 1 = 2 then (Th.ofBytes b).job else fieldLe b 40 4) = c.rr.job) :
    s.recvMgmt p hop kind act = .next (act (s.dropPacket p (6 + b2n hop)) b (Th.ofBytes b) n c) := by
  subst own
  unfold State.recvMgmt
  rw [recvPkt_act (sel := fun c => fieldLe c 32 1 == fieldLe b 32 1) arrived (beq_self_eq_true _) rfl, show 2 * 3 + b2n hop = 6 + b2n hop from rfl, res]
  exact congrArg _ (if_pos job)

/-- Settles O42: the packet acts, and each clause is the branch of its row that its conditions choose. -/
theorem mgmtRows : Obligations.MgmtRows := by
  unfold Obligations.MgmtRows
  intro s p hop b
  dsimp only
  intro arrived
  refine ⟨fun echo => ?echo, fun n c res job => ⟨fun rejoin => ?rejoin, fun ack aborted stepOpen => ?aborted,
    fun ack committed intact going => ?committed, fun request => ⟨fun some_copy room => ?copies, fun none_copied => ?fails⟩,
    fun r done awaited replica good intact => ?done, fun report => ?report⟩⟩
  case echo =>
    simp only [exec, execEcho]
    rw [recvPkt_act (sel := fun b => fieldLe b 32 1 == 6) arrived (beq_iff_eq.mpr echo) rfl]
  case rejoin =>
    simp only [exec, execRejoinReq]
    rw [recvMgmt_acts arrived rejoin res job]
  case aborted =>
    simp only [exec, execRejoinAck]
    rw [recvMgmt_acts arrived ack res job, aborted]
    exact congrArg _ (if_pos stepOpen)
  case committed =>
    simp only [exec, execRejoinAck]
    rw [recvMgmt_acts arrived ack res job, committed]
    exact congrArg _ (if_pos (by rw [intact, going]; rfl))
  case copies =>
    simp only [exec, execRestoreReq]
    rw [recvMgmt_acts arrived request res job]
    exact congrArg _ (if_neg (by rw [room, List.isEmpty_eq_false_iff.mpr some_copy]; decide))
  case fails =>
    simp only [exec, execRestoreReq]
    rw [recvMgmt_acts arrived request res job]
    exact congrArg _ (if_pos (by simpa using none_copied))
  case done =>
    simp only [exec, execRestoreDone]
    rw [recvMgmt_acts arrived done res job, awaited]
    dsimp only
    rw [if_neg (not_not.mpr replica), if_pos (by simp [good, intact])]
  case report =>
    simp only [exec, execFailReport]
    rw [recvMgmt_acts arrived report res job]

end Sys2Proof.Machine
end

section
/-! SUPPORT. The collective engine and the escapement: their packets, their timers and the end of collectives. -/

namespace Sys2Proof.Machine

variable {s : State} {p : Fin 25} {hop : Bool} {b : List Byte}

/-! ## Packets of the collective engine (R346 to R368) -/

/-- The place in order: the packet is taken, and the last one acknowledged (R321, R322). -/
theorem inOrder_expected {h : Th} {got : Nat} {gap : Option W64} {late take : State} (more : h.pidx < h.pcnt) (expected : got = h.pidx) :
    s.inOrder h got gap late take = if h.pidx + 1 = h.pcnt then take.ack h else take := by
  subst expected
  unfold State.inOrder
  rw [if_neg (Nat.ne_of_lt more), if_pos rfl]

/-- A packet of the collective engine of the row's kind, at its destination and not held, acts where it belongs. -/
theorem recvColl_acts {a : CollAt} {sel : List Byte → Bool} {held : State → List Byte → Th → Bool} {act : State → List Byte → Th → CollAt → State}
    (arrived : s.Arrived p hop 0 0x03 b) (fits : (s.dropPacket p (b2n hop)).CollFits b a) (own : sel b = true)
    (free : held s b (Th.ofBytes b) = false) :
    (s.recvPkt p hop 0 0x03 sel held fun s b h => s.withColl b h (act s b h)) =
      .next (act (s.dropPacket p (b2n hop)) b (Th.ofBytes b) a) := by
  rw [recvPkt_act arrived own free, Nat.mul_zero, Nat.zero_add, withColl_fits fits]

/-- The same for a row that is told by its kind alone. -/
theorem recvKind_acts {a : CollAt} {kind : Nat} {held : State → List Byte → Th → Bool} {act : State → List Byte → Th → CollAt → State}
    (arrived : s.Arrived p hop 0 0x03 b) (fits : (s.dropPacket p (b2n hop)).CollFits b a) (own : fieldLe b 32 1 = kind)
    (free : held s b (Th.ofBytes b) = false) :
    (s.recvPkt p hop 0 0x03 (fun b => fieldLe b 32 1 == kind) held fun s b h => s.withColl b h (act s b h)) =
      .next (act (s.dropPacket p (b2n hop)) b (Th.ofBytes b) a) :=
  recvColl_acts arrived fits (beq_iff_eq.mpr own) free

theorem dropPacket_resCtx (s : State) (p v : Nat) : (s.dropPacket p v).resCtx = s.resCtx := by
  obtain ⟨-, sched, ctxs⟩ := dropPacket_rest s p v
  unfold State.resCtx
  rw [sched, ctxs]

section
variable {a : CollAt} (arrived : s.Arrived p hop 0 0x03 b) (fits : (s.dropPacket p (b2n hop)).CollFits b a)
include arrived fits

/-- COLL_DATA in order for the running instance fills its slot. -/
theorem collData_fills (kind : fieldLe b 32 1 = 0) (running : a.age = 1) (more : (Th.ofBytes b).pidx < (Th.ofBytes b).pcnt)
    (expected : (a.slot.map (·.got)).getD 0 = (Th.ofBytes b).pidx) :
    let h := Th.ofBytes b
    let v := s.dropPacket p (b2n hop)
    exec (.collData p hop) s = .next (if h.pidx + 1 = h.pcnt then (v.takeData a b h false).ack h else v.takeData a b h false) := by
  simp only [exec, execCollData]
  rw [recvKind_acts arrived fits kind rfl]
  simp only [running, decide_true, Bool.true_or, if_true]
  rw [inOrder_expected more expected]
  rfl

/-- COLL_DATA of another instance: BUSY of one to come, an acknowledgement of a past one that this rank's contribution is not late for. -/
theorem collData_otherInstance (kind : fieldLe b 32 1 = 0) :
    (a.age = 2 → exec (.collData p hop) s = .next ((s.dropPacket p (b2n hop)).nack (Th.ofBytes b) 0 1)) ∧
    (a.age = 0 → bitOf (a.c.deferredOf a.ch.cid a.ch.inst a.ch.step) a.ch.srank = false →
      exec (.collData p hop) s = .next ((s.dropPacket p (b2n hop)).ack (Th.ofBytes b))) := by
  simp only [exec, execCollData]
  rw [recvKind_acts arrived fits kind rfl]
  refine ⟨fun coming => ?_, fun past timely => ?_⟩
  · simp [coming]
  · simp [past, timely]

/-- RESULT in order for the running instance writes its granule. -/
theorem result_writes {i : CInst} {q : Nat × Nat} (kind : fieldLe b 32 1 = 1) (running : a.age = 1) (free : s.resultHeld b (Th.ofBytes b) = false)
    (instance_ : a.c.inst a.ch.cid = some i) (place : i.resultAt a.ch.piece (Th.ofBytes b).pidx = some q)
    (permitted : (s.dropPacket p (b2n hop)).refused a.d.tile q.1 1 = false) (expected : sget zeroNat i.resGot a.ch.piece = (Th.ofBytes b).pidx)
    (more : (Th.ofBytes b).pidx < (Th.ofBytes b).pcnt) :
    let h := Th.ofBytes b
    let v := s.dropPacket p (b2n hop)
    let tr := fieldLe b 4160 8
    let w := ((v.landGranule q.1 ((b.drop 64).take 4096) tr).setCtx a.n
      (a.c.setInst { i with resGot := sput zeroNat i.resGot a.ch.piece (h.pidx + 1) })).noteWrotePoison (bitOf tr 33 && decide (q.1 < hbmEnd))
    exec (.result p hop) s = .next (if h.pidx + 1 = h.pcnt then w.ack h else w) := by
  simp only [exec, execResult]
  rw [recvKind_acts arrived fits kind free]
  simp only [instance_, running, place, permitted, Nat.one_ne_zero, OfNat.one_ne_ofNat, Bool.false_eq_true, if_false]
  rw [inOrder_expected more expected, expected]

/-- RESULT of another instance: BUSY of one to come, an acknowledgement of a past one. -/
theorem result_otherInstance (kind : fieldLe b 32 1 = 1) (free : s.resultHeld b (Th.ofBytes b) = false) :
    (a.age = 2 → exec (.result p hop) s = .next ((s.dropPacket p (b2n hop)).nack (Th.ofBytes b) 0 1)) ∧
    (a.age = 0 → exec (.result p hop) s = .next ((s.dropPacket p (b2n hop)).ack (Th.ofBytes b))) := by
  simp only [exec, execResult]
  rw [recvKind_acts arrived fits kind free]
  cases a.c.inst a.ch.cid with
  | none => exact ⟨fun coming => by simp [coming], fun past => by simp [past]⟩
  | some i => exact ⟨fun coming => by simp [coming], fun past => by simp [past]⟩

/-- A packet of a control message of an instance: kept for the running one, answered BUSY of one to come, acknowledged of a past one. -/
theorem recvControl_ages {kind : Nat} {held : State → List Byte → Th → Bool} {done : CollAt → State → CMsg → State}
    (own : fieldLe b 32 1 = kind) (free : held s b (Th.ofBytes b) = false) :
    let o := s.recvPkt p hop 0 0x03 (fun b => fieldLe b 32 1 == kind) held fun s b h => s.withColl b h fun a =>
      if a.age = 0 then s.ack h else if a.age = 2 then s.nack h 0 1 else s.takeCtl a b h (done a)
    let h := Th.ofBytes b
    let v := s.dropPacket p (b2n hop)
    (a.age = 1 → o = .next (v.takeCtl a b h (done a))) ∧ (a.age = 2 → o = .next (v.nack h 0 1)) ∧ (a.age = 0 → o = .next (v.ack h)) := by
  dsimp only
  rw [recvKind_acts arrived fits own free]
  exact ⟨fun running => by simp [running], fun coming => by simp [coming], fun past => by simp [past]⟩

/-- AGREE_UP lets the agreement go on. -/
theorem agreeUp_ages (kind : fieldLe b 32 1 = 2) :
    let h := Th.ofBytes b
    let v := s.dropPacket p (b2n hop)
    (a.age = 1 → exec (.agreeUp p hop) s = .next (v.takeCtl a b h fun u _ => u.agree a.n a.ch.cid false)) ∧
    (a.age = 2 → exec (.agreeUp p hop) s = .next (v.nack h 0 1)) ∧ (a.age = 0 → exec (.agreeUp p hop) s = .next (v.ack h)) :=
  recvControl_ages (held := fun _ _ _ => false) (done := fun a s _ => s.agree a.n a.ch.cid false) arrived fits kind rfl

/-- AGREE_DOWN goes on to the children. -/
theorem agreeDown_ages (kind : fieldLe b 32 1 = 3) (free : s.kidsHeld b (Th.ofBytes b) = false) :
    let h := Th.ofBytes b
    let v := s.dropPacket p (b2n hop)
    (a.age = 1 → exec (.agreeDown p hop) s = .next (v.takeCtl a b h fun u m => u.agreeDown a.n a.ch.cid m)) ∧
    (a.age = 2 → exec (.agreeDown p hop) s = .next (v.nack h 0 1)) ∧ (a.age = 0 → exec (.agreeDown p hop) s = .next (v.ack h)) :=
  recvControl_ages (done := fun a s m => s.agreeDown a.n a.ch.cid m) arrived fits kind free

/-- A member's digest is held beside the others. -/
theorem digestPacket_ages (kind : fieldLe b 32 1 = 4) :
    let h := Th.ofBytes b
    let v := s.dropPacket p (b2n hop)
    (a.age = 1 → exec (.digestPacket p hop) s = .next (v.takeCtl a b h fun u m => match sfind u.ctxs a.n with
      | none => u
      | some c => u.setCtx a.n { c with com := { c.com with digests := sins c.com.digests a.ch.srank ((m.part 0).take 64) } })) ∧
    (a.age = 2 → exec (.digestPacket p hop) s = .next (v.nack h 0 1)) ∧ (a.age = 0 → exec (.digestPacket p hop) s = .next (v.ack h)) :=
  recvControl_ages (held := fun _ _ _ => false) (done := fun a s m => match sfind s.ctxs a.n with
    | none => s
    | some c => s.setCtx a.n { c with com := { c.com with digests := sins c.com.digests a.ch.srank ((m.part 0).take 64) } }) arrived fits kind rfl

/-- READY of this step is kept for the commit, and its sender is heard from; of another step it is told of the decision. -/
theorem ready_steps (kind : fieldLe b 32 1 = 5) :
    let h := Th.ofBytes b
    let v := s.dropPacket p (b2n hop)
    (a.ch.step = a.c.step →
      exec (.ready p hop) s = .next (v.takeCtl { a with c := a.c.alive a.ch.srank } b h fun u _ => u.commitGo a.n)) ∧
    (a.ch.step ≠ a.c.step → exec (.ready p hop) s = .next ((v.tellDecided a a.ch.srank).ack h)) := by
  simp only [exec, execReady]
  rw [recvKind_acts arrived fits kind rfl]
  exact ⟨fun same => congrArg _ (if_neg (not_not.mpr same)), fun other => congrArg _ (if_pos other)⟩

/-- DECIDE of this step, as the row that its ABORT flag names. -/
theorem decide_step (kind : fieldLe b 32 1 = 6) (same : a.ch.step = a.c.step) (free : s.kidsHeld b (Th.ofBytes b) = false) :
    exec (if bitOf (fieldLe b 33 1) 2 then .decideAbort p hop else .decideCommit p hop) s =
      .next ((s.dropPacket p (b2n hop)).takeCtl a b (Th.ofBytes b) fun u m => u.takeDecide a.n m a.ch.cid) := by
  have decided : ∀ abort, bitOf (fieldLe b 33 1) 2 = abort → s.recvDecide p hop abort =
      .next ((s.dropPacket p (b2n hop)).takeCtl a b (Th.ofBytes b) fun u m => u.takeDecide a.n m a.ch.cid) := by
    intro abort flag
    unfold State.recvDecide
    rw [recvColl_acts (sel := fun b => fieldLe b 32 1 == 6 && bitOf (fieldLe b 33 1) 2 == abort) arrived fits (by simp [kind, flag]) free]
    exact congrArg _ (if_neg (not_not.mpr same))
  split
  next set => exact decided true set
  next clear => exact decided false (Bool.eq_false_iff.mpr clear)

/-- QUERY is answered once there is room for the answer. -/
theorem query_answers (kind : fieldLe b 32 1 = 7) (room : s.roomSend (s.cd a.c a.ch.cid).tile 1 = true) :
    exec (.query p hop) s = .next (((s.dropPacket p (b2n hop)).answerQuery a (Th.ofBytes b)).ack (Th.ofBytes b)) := by
  have res : s.resCtx = some (a.n, a.c) := (dropPacket_resCtx s p (b2n hop)).symm.trans fits.res
  simp only [exec, execQuery]
  rw [recvKind_acts arrived fits kind (by simp [res, ← fits.hdr, room])]

end

/-- Settles O44: each packet acts by its kind, and one of a data or agreement message by how its instance stands. -/
theorem collectivePackets : Obligations.CollectivePackets := by
  unfold Obligations.CollectivePackets
  intro s p hop b a
  dsimp only
  intro arrived fits
  refine ⟨fun kind running more expected => collData_fills arrived fits kind running more expected,
    fun i q kind running free instance_ place permitted expected more =>
      result_writes arrived fits kind running free instance_ place permitted expected more,
    fun kind => (agreeUp_ages arrived fits kind).1, fun kind running free => (agreeDown_ages arrived fits kind free).1 running,
    fun kind => (digestPacket_ages arrived fits kind).1, fun kind => (ready_steps arrived fits kind).1,
    fun kind => (ready_steps arrived fits kind).2, fun kind same free => decide_step arrived fits kind same free,
    fun kind room => query_answers arrived fits kind room, ?_⟩
  simp only [List.forall_mem_cons, List.not_mem_nil, false_imp_iff, implies_true, and_true]
  refine ⟨fun kind _ _ => ?data, fun kind free _ => ?result, fun kind _ _ => ?up, fun kind _ free => ?down, fun kind _ _ => ?digest⟩
  case data => exact collData_otherInstance arrived fits kind
  case result =>
    obtain ⟨coming, past⟩ := result_otherInstance arrived fits kind (free trivial)
    exact ⟨coming, fun age _ => past age⟩
  case up =>
    obtain ⟨-, coming, past⟩ := agreeUp_ages arrived fits kind
    exact ⟨coming, fun age _ => past age⟩
  case down =>
    obtain ⟨-, coming, past⟩ := agreeDown_ages arrived fits kind (free trivial)
    exact ⟨coming, fun age _ => past age⟩
  case digest =>
    obtain ⟨-, coming, past⟩ := digestPacket_ages arrived fits kind
    exact ⟨coming, fun age _ => past age⟩

/-! ## The escapement (R358 to R361) -/

/-- Settles O45: an ESC packet acts on what it says, and each clause is the branch that its conditions choose. -/
theorem escapementRows : Obligations.EscapementRows := by
  unfold Obligations.EscapementRows
  intro s n c res
  dsimp only
  refine ⟨fun p hop b cid w t arrived content => ⟨fun kind root other => ?discarded, fun r kind noted rank => ?noted,
    fun e kind waits own same unset => ?schedule⟩, fun e t waits set => ⟨fun due => ?release, fun early => ?holds⟩,
    fun e waits unset unreported late => ?timeout⟩
  case discarded =>
    simp only [exec, execArrive]
    rw [recvPkt_act (sel := fun b => fieldLe b 32 1 == 0) arrived (beq_iff_eq.mpr kind) rfl, State.takeArrive, content]
    exact congrArg _ (if_pos (by simp [root, other]))
  case noted =>
    simp only [exec, execArrive]
    rw [recvPkt_act (sel := fun b => fieldLe b 32 1 == 0) arrived (beq_iff_eq.mpr kind) rfl, State.takeArrive, content]
    dsimp only
    rw [if_neg (by simpa [imp_iff_not_or] using noted), rank]
  case schedule =>
    simp only [exec, execSchedule]
    rw [recvPkt_act (sel := fun b => fieldLe b 32 1 == 1) arrived (beq_iff_eq.mpr kind) rfl, State.takeSchedule, content]
    dsimp only
    rw [waits]
    exact congrArg _ (if_neg (by simp [own, same, unset]))
  case release => simp only [exec, execEscapementRelease, res, waits, set, decide_eq_true due, occurs_true]
  case holds => simp only [exec, execEscapementRelease, res, waits, set, decide_eq_false (Nat.not_le.mpr early), occurs_false]
  case timeout =>
    simp only [exec, execEscTimeout, res, waits, unset, unreported, decide_eq_true late, Option.isNone_none, Bool.not_false, Bool.and_self,
      occurs_true]

/-! ## Deadlines, timeouts and the end of collectives (R353 to R366) -/

section
variable {n : Nat} {c : Ctx}

/-- A deadline that has passed makes the bitmaps of an instance final that have not been, and sends them up. -/
theorem agree_due {cid : Nat} {i : CInst} (found : sfind s.ctxs n = some c) (running : c.inst cid = some i) (data : i.d.data = true)
    (policy : i.d.policy ≠ 0) (live : c.replay = false) (open_ : i.agreed = none) (unsent : i.upSent = false) (fresh : i.final = none) :
    s.agree n cid true = s.agreeUp n c i (s.presentMap c i, s.carryMap c i) := by
  simp [State.agree, found, running, data, policy, live, open_, unsent, fresh]

theorem rawWrite_ctxs (s : State) (a : Nat) (l : List Byte) : (s.rawWrite a l).ctxs = s.ctxs := by
  unfold State.rawWrite
  split <;> rfl

theorem rawWrite_tile (s : State) (a : Nat) (l : List Byte) (t : Nat) : (s.rawWrite a l).tile t = s.tile t := by
  unfold State.rawWrite
  split <;> rfl

/-- A status record changes of its context only the count of discarded packets, and no tile's registers. -/
theorem putStatus_leaves (found : sfind s.ctxs n = some c) (i : CInst) (l : List Byte) (cnt : Nat) :
    sfind (s.putStatus n i l cnt).ctxs n = some { c with ghash := sdel c.ghash i.cid } ∧ ∀ t, (s.putStatus n i l cnt).tile t = s.tile t := by
  unfold State.putStatus
  rw [found]
  dsimp only
  split
  · exact ⟨by rw [rawWrite_ctxs, State.find_setCtx, if_pos rfl], fun t => by rw [rawWrite_tile, tile_setCtx]⟩
  · exact ⟨by rw [rawWrite_ctxs, rawWrite_ctxs, State.find_setCtx, if_pos rfl], fun t => by rw [rawWrite_tile, rawWrite_tile, tile_setCtx]⟩

/-- A DIGEST instance is none of the data operations. -/
theorem instComplete_of_digestDone {i : CInst} (done : c.digestDone i = true) : s.instComplete c i = false := by
  have op : i.d.op = 6 := by
    unfold Ctx.digestDone at done
    simp only [Bool.and_eq_true, beq_iff_eq] at done
    exact done.1.1
  simp [State.instComplete, CDesc.data, op]

/-- A DIGEST that is done is no longer running, and adds one to its done counter. -/
theorem collectiveComplete_digest {cid : BitVec 10} {i : CInst} (res : s.resCtx = some (n, c)) (running : c.inst cid.toNat = some i)
    (done : c.digestDone i = true) (free : s.statusHeld i = false) :
    ∃ u c', exec (.collectiveComplete cid) s = .next u ∧ sfind u.ctxs n = some c' ∧
      c'.running = c.running.filter (fun j => j.cid ≠ i.cid) ∧ (u.tile i.d.tile).incs = (s.tile i.d.tile).incs ++ [⟨i.d.done, 1, 72, 0⟩] := by
  simp only [exec, execCollectiveComplete, res, running, instComplete_of_digestDone (s := s) done, done, free, Bool.false_eq_true,
    if_false, Bool.not_false, Bool.and_self, occurs_true]
  have found : sfind (s.setCtx n { c with running := c.running.filter fun j => j.cid ≠ i.cid }).ctxs n =
      some { c with running := c.running.filter fun j => j.cid ≠ i.cid } := by
    rw [State.find_setCtx, if_pos rfl]
  obtain ⟨ctx, tiles⟩ := putStatus_leaves found i (statusRec i (State.ghashOf _ n i.cid) 0 0 0 0 0) 0
  refine ⟨_, _, rfl, ctx, rfl, ?_⟩
  rw [tile_setTile_self, Tile.inc, if_neg Nat.one_ne_zero]
  exact congrArg (fun x : Tile => x.incs ++ _) (tiles i.d.tile)

end

/-- Settles O46: the deadline and the end of a DIGEST by their lemmas, each other row by its conditions. -/
theorem collectiveTimers : Obligations.CollectiveTimers := by
  unfold Obligations.CollectiveTimers
  intro s n c res
  dsimp only
  refine ⟨fun cid i running => ⟨fun data policy live due open_ unsent fresh => ?deadline, fun complete free => ?complete,
    fun done free => collectiveComplete_digest res running done free⟩, fun t k armed root unready late => ?commit,
    fun t k cid d armed desc some_below live unrooted late room => ?takeover, fun rank t failed live root late => ?rejoin⟩
  case deadline =>
    simp only [exec, execCollectiveDeadline, res, running]
    rw [agree_due (find_of_resCtx res) running data policy live open_ unsent fresh]
    simp [data, policy, live, due]
  case complete => simp [exec, execCollectiveComplete, res, running, complete, free]
  case commit =>
    have heads : ((s.liveRanks (s.group c 0)).head? == some (s.group c 0).rank || c.com.root) = true := by simpa using root
    simp only [exec, execCommitTimeout, res, armed, heads, unready, decide_eq_true late, Bool.not_false, Bool.and_self, occurs_true]
  case takeover =>
    simp only [exec, execRootTakeover, res, armed, desc, decide_eq_true some_below, live, unrooted, decide_eq_true late, room, Bool.not_false,
      Bool.and_self, occurs_true]
  case rejoin =>
    have ran : exec (.rejoinLimitExpiry rank) s = .next (s.loseRank n c (s.group c 0) rank.toNat) := by
      simp only [exec, execRejoinLimitExpiry, res, failed, root, beq_self_eq_true, live, decide_eq_true late, Bool.and_self, occurs_true]
    refine ⟨fun alone => ?_, fun k replica => ?_⟩
    · rw [ran, State.loseRank, alone]
    · rw [ran, State.loseRank, replica]

end Sys2Proof.Machine
end

section
/-! SUPPORT. The scheduler: windows, switches and tests. -/

namespace Sys2Proof.Machine

variable {s : State}

theorem occurs_of {c : Bool} {t : State} (h : c = true) : occurs c t s = .next t := by
  rw [h, occurs_true]

/-- A switch that ends with the incoming context's tiles back makes it resident, lands the increments that waited for it, and the choice is
made again (R459, R486). -/
theorem switchComplete_bringsIn {n : Nat} {c c' : Ctx} {u : State} (switching : s.sched.switching = true) (incoming : s.sched.incoming = some n)
    (found : sfind s.ctxs n = some c) (runs : c.st ≠ .stopped) (capacity : s.plc.lost = false)
    (brought : (({ s with sched := { s.sched with switching := false, incoming := none, resident := some n } } : State).setCtx n
      { c with st := .running, switches := c.switches + 1 }).bringIn n c = .ok u) :
    let v := c.signals.foldl (fun w g => w.setTile g.tile ((w.tile g.tile).inc g.obj g.value)) u
    sfind v.ctxs n = some c' → exec .switchComplete s = .next (v.setCtx n { c' with signals := [], begun := true, fromRb := false }).resched := by
  dsimp only
  intro landed
  simp only [exec, execSwitchComplete, switching, incoming, found, runs, capacity, decide_false, Bool.or_self, Bool.not_true, Bool.false_eq_true,
    if_false]
  rw [brought]
  simp only [bind, Except.bind, landed]
  rfl

/-- Settles O47: the end of a switch by its lemma, each other row by its conditions. -/
theorem schedulerRows : Obligations.SchedulerRows := by
  unfold Obligations.SchedulerRows
  refine ⟨fun s n c found runs => ⟨fun r next due => ?release, fun w oldest => ?miss⟩, fun s still untested => ⟨fun x empty best => ?first,
    fun r c x res preempted stopped saves next other => ?out⟩,
    fun s n c c' u switching incoming found runs capacity brought => switchComplete_bringsIn switching incoming found runs capacity brought,
    fun s full fails => ⟨fun testing => ?ends, fun idle up still some_due may => ?begins⟩, fun s p fails up enabled spare => ?spare⟩
  case release => simp only [exec, execWindowRelease, found, next, decide_eq_true due, decide_eq_true runs, Bool.and_self, occurs_true]
  case miss =>
    simp only [exec, execDeadlineMiss, found]
    rw [oldest]
    simp only [decide_eq_true runs, occurs_true]
  case first => simp only [exec, execSwitch, still, untested, empty, best, Bool.or_self, Bool.false_eq_true, if_false]
  case out =>
    simp only [exec, execSwitch, still, untested, res, preempted, stopped, saves, next, other, Bool.or_self, Bool.and_self, Bool.false_eq_true,
      if_false, occurs_true]
  case ends => exact if_pos testing
  case begins =>
    simp only [exec, execTestWindow, idle, up, still, List.isEmpty_eq_false_iff.mpr some_due, may, Bool.not_false, Bool.and_self,
      Bool.false_eq_true, if_false, occurs_true]
  case spare =>
    intro due some_due
    have waits : (!due.isEmpty) = true := by rw [List.isEmpty_eq_false_iff.mpr some_due, Bool.not_false]
    have free : (s.up && s.clk.enabled && s.plc.freeSpare (p.val / 17) == some p.val) = true := by
      rw [up, enabled, spare, beq_self_eq_true, Bool.and_self, Bool.and_self]
    exact occurs_of (Bool.and_eq_true_iff.mpr ⟨free, waits⟩)

end Sys2Proof.Machine
end

section
/-! SUPPORT. The commands of the host rings: the shared checks, the rings' own commands, data, contexts and the lease. -/

namespace Sys2Proof.Machine

variable {s : State} {p : Fin 2} {r : Fin 16} {f : Fetched}

/-! ## The shared checks (R482) -/

theorem opc_of_front {p r opc : Nat} (front : s.front p r opc = some f) : f.e.opc = opc := by
  unfold State.front at front
  split at front
  · cases front
  · split at front
    · next own => exact Option.some.inj front ▸ own
    · cases front

/-- A reserved field that is set, or a context index that names none, is refused first. -/
theorem gate_invalid {p : Nat} (invalid : f.e.rsv ≠ 0 ∨ (8 ≤ f.e.ctx ∧ f.e.ctx ≠ 0xFF)) : s.gate p f = stField :=
  if_pos (by simpa using invalid)

/-- Then the authority that the command needs. -/
theorem gate_noAuth {p : Nat} (reserved : f.e.rsv = 0) (index : f.e.ctx < 8 ∨ f.e.ctx = 0xFF) (needs : needsAuth f.e.opc = true)
    (none_held : s.auth p = false) : s.gate p f = stNoAuth := by
  have valid : ¬(f.e.rsv ≠ 0 || (f.e.ctx ≥ 8 && f.e.ctx ≠ 0xFF)) = true := by
    simp only [reserved, Bool.or_eq_true, Bool.and_eq_true, decide_eq_true_eq]
    omega
  unfold State.gate
  rw [if_neg valid, if_pos (by rw [needs, none_held]; rfl)]

/-- The rows of the ring commands that start under the shared checks alone: opcode and row. -/
def sharedRows (p : Fin 2) (r : Fin 16) (n : Nat) (h : List Host.Cell) (bad : List Nat) (ok test : Bool) : List (Nat × Instr) :=
  [(0x00, .nop p r), (0x01, .identify p r), (0x05, .createRing p r), (0x06, .deleteRing p r), (0x07, .setEventBuffer p r),
    (0x10, .dmaToDevice p r n h bad), (0x11, .dmaFromDevice p r), (0x20, .ctxRegister p r ok h), (0x21, .ctxStop p r), (0x22, .ctxDeregister p r),
    (0x23, .ctxQuery p r), (0x30, .tcPush p r ok h), (0x40, .telemetryRead p r), (0x50, .fwWrite p r ok h), (0x51, .fwActivate p r),
    (0x60, .deviceReset p r test)]

/-- Each of them starts as a command of its opcode. -/
theorem exec_sharedRows {n : Nat} {h : List Host.Cell} {bad : List Nat} {ok test : Bool} :
    ∀ q ∈ sharedRows p r n h bad ok test, ∃ run, exec q.2 s = startCmd p r q.1 s run := by
  simp only [sharedRows, List.forall_mem_cons, List.not_mem_nil, false_imp_iff, implies_true, and_true]
  exact ⟨⟨_, rfl⟩, ⟨_, rfl⟩, ⟨_, rfl⟩, ⟨_, rfl⟩, ⟨_, rfl⟩, ⟨_, rfl⟩, ⟨_, rfl⟩, ⟨_, rfl⟩, ⟨_, rfl⟩, ⟨_, rfl⟩, ⟨_, rfl⟩, ⟨_, rfl⟩, ⟨_, rfl⟩, ⟨_, rfl⟩,
    ⟨_, rfl⟩, ⟨_, rfl⟩⟩

/-- One that the shared checks refuse completes with their status. -/
theorem sharedRows_refused {n : Nat} {h : List Host.Cell} {bad : List Nat} {ok test : Bool} {q : Nat × Instr} {status : Nat}
    (row : q ∈ sharedRows p r n h bad ok test) (front : s.front p r q.1 = some f) (refused : s.gate p f = status) (fails : status ≠ stOk) :
    exec q.2 s = .next (s.finish p r f status 0 0) := by
  obtain ⟨run, starts⟩ := exec_sharedRows (s := s) q row
  subst refused
  rw [starts, startCmd_refused front fails]

/-! ## The rings' own commands (R476 to R498) -/

theorem ctxOf_found {c : Ctx} (index : f.e.ctx < 8) (found : sfind s.ctxs f.e.ctx = some c) : s.ctxOf f.e = some c := by
  rw [State.ctxOf, if_pos index, found]

/-- Settles O48: the shared checks by their lemma, and past them the branch of each row that its conditions choose. -/
theorem hostRingRows : Obligations.HostRingRows := by
  unfold Obligations.HostRingRows
  intro s p r f
  dsimp only
  refine ⟨fun n h bad ok test q row front => ⟨fun invalid => sharedRows_refused row front (gate_invalid invalid) (by decide),
      fun reserved index needs unheld => sharedRows_refused row front (gate_noAuth reserved index (opc_of_front front ▸ needs) unheld) (by decide)⟩,
    fun ok => ⟨fun front => ?nop, fun front => ?identify, fun b front page => ?telemetry, fun front legal fresh => ?create,
      fun front low high found other => ?delete, fun front aligned count => ?buffer, fun c front index found => ?query⟩,
    fun g found counted timed late => ?coalesce⟩
  case nop => simp only [exec, execHostNop, startCmd_ok front ok]
  case identify => simp only [exec, execIdentify, startCmd_ok front ok]
  case telemetry => simp only [exec, execTelemetryRead, startCmd_ok front ok, page]
  case create => simp [exec, execCreateRing, startCmd_ok front ok, legal, fresh]
  case delete =>
    have stands : ¬(f.e.arg0 < 1 || 15 < f.e.arg0 || (sfind (s.host p).rings f.e.arg0).isNone) = true := by
      obtain ⟨g, found⟩ := Option.isSome_iff_exists.mp found
      simp [found]
      omega
    simp only [exec, execDeleteRing, startCmd_ok front ok]
    rw [if_neg stands, if_neg other]
  case buffer => simp [exec, execSetEventBuffer, startCmd_ok front ok, aligned, count]
  case query =>
    simp only [exec, execCtxQuery, startCmd_ok front ok, ctxOf_found index found]
    rfl
  case coalesce =>
    simp only [exec, execMsixCoalesceTimeout, found, decide_eq_true counted, decide_eq_true timed, decide_eq_true late, Bool.and_self, occurs_true]

/-! ## Data, test content and firmware (R430, R487 to R489, R510) -/

/-- A transfer that the host's reads serve whole writes what they returned: with a key the whole granules, else every byte. -/
theorem dmaToDevice_writes {got : Nat} {h : List Host.Cell} {bad : List Nat} (ok : s.gate p f = stOk) (front : s.front p r 0x10 = some f)
    (allowed : s.dmaGate f.e = stOk) (whole : f.e.len ≤ got) :
    exec (.dmaToDevice p r got h bad) s = .next ((if f.e.keyed then s.dmaKeyed f.e (rdBytes h f.e.addr0 (f.e.len / 4096 * 4096)) bad
      else s.dmaRaw f.e (rdBytes h f.e.addr0 f.e.len) bad).begin p r (.dma f (if f.e.keyed ∧ f.e.len / 4096 * 4096 < f.e.len then stHost
        else if f.e.grans.any bad.contains then 0x06 else stOk))) := by
  simp only [exec, execDmaToDevice, startCmd_ok front ok, Nat.min_eq_right whole]
  rw [if_neg (not_not.mpr allowed)]
  cases f.e.keyed with
  | true => simp
  | false => simp

/-- A package whose TC_REV is higher than that of the one held is held, unless the held packages' limits forbid it. -/
theorem tcPush_limits {b : List Byte} (newer : ∀ o, sfind s.tc (TcPkg.ofBytes b).id = some o → o.rev < (TcPkg.ofBytes b).rev) :
    let m := sins s.tc (TcPkg.ofBytes b).id (TcPkg.ofBytes b)
    let size := (m.map fun q => q.2.bytes.length).sum
    (m.length ≤ 32 → size ≤ 64 * 1024 * 1024 → s.tcPush b = .ok m) ∧ (64 * 1024 * 1024 < size → s.tcPush b = .error stNoRes) := by
  have replaces : ¬((sfind s.tc (TcPkg.ofBytes b).id).any fun o => decide ((TcPkg.ofBytes b).rev ≤ o.rev)) = true := by
    simpa [Option.any_eq_true] using newer
  dsimp only
  unfold State.tcPush
  dsimp only
  rw [if_neg replaces]
  refine ⟨fun few small => if_neg ?_, fun large => if_pos ?_⟩
  · simp only [Bool.or_eq_true, decide_eq_true_eq]
    omega
  · simp only [Bool.or_eq_true, decide_eq_true_eq]
    omega

/-- A signed package is held or refused as its limits say. -/
theorem tcPush_signed {h : List Host.Cell} (ok : s.gate p f = stOk) (front : s.front p r 0x30 = some f)
    (header : tcHeaderOk (rdBytes h f.e.addr0 f.e.len) = true) (signed : tcVerify s.sec.image (rdBytes h f.e.addr0 f.e.len) = true) :
    (∀ m, s.tcPush (rdBytes h f.e.addr0 f.e.len) = .ok m → exec (.tcPush p r true h) s = .next (({ s with tc := m } : State).finish p r f stOk 0 0)) ∧
    (∀ e, s.tcPush (rdBytes h f.e.addr0 f.e.len) = .error e → exec (.tcPush p r true h) s = .next (s.finish p r f e 0 0)) := by
  simp only [exec, execTcPush, startCmd_ok front ok, header, signed]
  exact ⟨fun m held => by rw [held]; rfl, fun e refused => by rw [refused]; rfl⟩

/-- A slot that verifies is named by a SELECT record for three trial boots. -/
theorem fwActivate_selects (ok : s.gate p f = stOk) (front : s.front p r 0x51 = some f)
    (verifies : (verifySlot s.flash s.fuses (1 - s.flash.select.1) true).isSome = true) :
    exec (.fwActivate p r) s =
      .next ((s.putSelect s.flash.select.1 (1 - s.flash.select.1) 3 (s.flash.slotVer 0) (s.flash.slotVer 1)).finish p r f stOk 0 0) := by
  obtain ⟨i, verified⟩ := Option.isSome_iff_exists.mp verifies
  rw [exec, execFwActivate, startCmd_ok front ok]
  dsimp only
  rw [verified]

/-- Settles O49: the rows with checks of their own by their lemmas, the others by the branch that their conditions choose. -/
theorem hostDataRows : Obligations.HostDataRows := by
  unfold Obligations.HostDataRows
  intro s p r f h
  dsimp only
  refine ⟨fun ok => ⟨fun got bad front allowed whole => dmaToDevice_writes ok front allowed whole, fun front allowed clean => ?out,
    fun front header signed newer => ?push, fun front inside => ?write, fun front verifies => fwActivate_selects ok front verifies,
    fun test front => ?reset⟩, fun i g st found started => ?complete⟩
  case out =>
    simp only [exec, execDmaFromDevice, startCmd_ok front ok, clean]
    rw [if_neg (not_not.mpr allowed)]
    rfl
  case push =>
    obtain ⟨held, refused⟩ := tcPush_signed ok front header signed
    obtain ⟨fits, exceeds⟩ := tcPush_limits newer
    exact ⟨fun few small => held _ (fits few small), fun large => refused _ (exceeds large)⟩
  case write =>
    simp only [exec, execFwWrite, startCmd_ok front ok]
    rw [if_neg (Nat.not_lt.mpr inside)]
    rfl
  case reset => simp only [exec, execDeviceReset, startCmd_ok front ok]
  case complete => simp only [exec, execDmaComplete, found, started]

/-! ## Contexts (R444 to R450, R485, R486) -/

/-- CTX_SIGNAL starts as a command of its opcode once its ring is not busy. -/
theorem exec_ctxSignal {g : Ring} (found : sfind (s.host p).rings r = some g) (done : g.busy = 0) :
    exec (.ctxSignal p r) s = startCmd p r 0x24 s fun f => match s.ctxOf f.e with
      | none => s.finish p r f stCtx 0 0
      | some c =>
        let t := bitsOf f.e.arg0 0 6
        if c.st = .stopped then s.finish p r f stCtx 0 0
        else if !signalOk f.e c then s.finish p r f stField 0 0
        else if s.sched.resident = some f.e.ctx then
          (s.incFrom (hubStop p) t (bitsOf f.e.arg0 8 8) (bitsOf f.e.arg0 32 32)).finish p r f stOk 0 0
        else (s.setCtx f.e.ctx { c with signals := c.signals ++ [⟨t, bitsOf f.e.arg0 8 8, bitsOf f.e.arg0 32 32⟩] }).finish p r f stOk 0 0 := by
  refine if_neg ?_
  rw [found]
  exact not_not.mpr done

/-- Settles O50: each row runs past its checks, and each clause is the branch that the context's state chooses. -/
theorem hostContextRows : Obligations.HostContextRows := by
  unfold Obligations.HostContextRows
  intro s p r f ok
  dsimp only
  refine ⟨fun h front aligned => ?register, fun c index found => ⟨fun front => ⟨fun stopped => ?again, fun runs away => ?away,
    fun runs home => ?home⟩, fun front idle => ?deregister, fun g ring done front runs legal => ?signal⟩⟩
  case register =>
    simp only [exec, execCtxRegister, startCmd_ok front ok]
    rw [if_neg (not_not.mpr aligned)]
    rfl
  case again =>
    simp only [exec, execCtxStop, startCmd_ok front ok, ctxOf_found index found]
    rw [if_pos stopped]
  case away =>
    simp only [exec, execCtxStop, startCmd_ok front ok, ctxOf_found index found]
    rw [if_neg runs, if_pos away]
  case home =>
    simp only [exec, execCtxStop, startCmd_ok front ok, ctxOf_found index found]
    rw [if_neg runs, if_neg (not_not.mpr home)]
  case deregister =>
    simp only [exec, execCtxDeregister, startCmd_ok front ok, ctxOf_found index found]
    rw [if_pos (by simpa [or_assoc] using idle)]
  case signal =>
    rw [exec_ctxSignal ring done, startCmd_ok front ok, ctxOf_found index found]
    dsimp only
    rw [if_neg runs, legal]
    exact ⟨fun home => congrArg _ (if_pos home), fun away => congrArg _ (if_neg away)⟩

/-! ## Command authority and the doorbell poll (R475 to R477, R491 to R493) -/

/-- The lease command that is next in its round is processed by the row of its opcode. -/
theorem leaseRow_processes {opc : Nat} (up : s.up = true) (next : s.nextLease = some (p.val, r.val)) (front : s.leaseFront p r = some f)
    (own : f.e.opc = opc) : leaseRow opc p r s = .next (s.processLease p r) := by
  simp only [leaseRow, up, next, front, own, beq_self_eq_true, Bool.and_self, occurs_true]

/-- Past the shared checks, by its opcode. -/
theorem processLease_valid (front : s.leaseFront p r = some f) (reserved : f.e.rsv = 0) (index : f.e.ctx < 8 ∨ f.e.ctx = 0xFF) :
    s.processLease p r = if f.e.opc = 2 then s.acquire p r f else if f.e.opc = 3 then s.renew p r f else s.release p r f := by
  have valid : ¬(f.e.rsv ≠ 0 || (f.e.ctx ≥ 8 && f.e.ctx ≠ 0xFF)) = true := by
    simp only [reserved, Bool.or_eq_true, Bool.and_eq_true, decide_eq_true_eq]
    omega
  rw [State.processLease, front]
  exact if_neg valid

theorem not_auth_of_no_lease {q : Nat} (free : s.lease = none) : s.auth q = false := by
  rw [State.auth, free]

/-- A lease that has expired is lost, and with it authority on both ports. -/
theorem leaseExpiry_ends {l : Lease} (held : s.lease = some l) (expired : l.expiry ≤ s.now) :
    ∃ u, exec .leaseExpiry s = .next u ∧ u.lease = none ∧ u.auth 0 = false ∧ u.auth 1 = false := by
  have lost : exec .leaseExpiry s = .next (s.loseLease 2) := by
    simp only [exec, execLeaseExpiry, State.expireLease, held, decide_eq_true expired, occurs_true]
    rw [if_pos expired]
  have free := loseLease_lease s 2
  exact ⟨_, lost, free, not_auth_of_no_lease free, not_auth_of_no_lease free⟩

/-- The acquire of a term in range: of a lease that nobody holds, or whose holder's term still runs. -/
theorem acquire_inRange {p r : Nat} (low : 100 ≤ f.e.arg0) (high : f.e.arg0 ≤ 60000) :
    let x := s.after f.e.arg0
    (s.lease = none → s.acquire p r f =
      (({ s with lease := some ⟨p, x, f.e.arg0⟩ } : State).finish p r f stOk x.toNat 0).event 0x0B 0xFF [(0, 1, p), (1, 1, 0)] []) ∧
    (∀ l, s.lease = some l → s.now < l.expiry → s.acquire p r f =
      if l.holder = p then ({ s with lease := some ⟨p, x, f.e.arg0⟩ } : State).finish p r f stOk x.toNat 0 else s.finish p r f stNoAuth 0 0) := by
  have inRange : ¬(f.e.arg0 < 100 || 60000 < f.e.arg0) = true := by
    simp only [Bool.or_eq_true, decide_eq_true_eq]
    omega
  refine ⟨fun free => ?_, fun l held running => ?_⟩
  · have stands : s.expireLease = s := by rw [State.expireLease, free]
    rw [State.acquire, if_neg inRange, stands]
    dsimp only
    rw [free]
  · have stands : s.expireLease = s := by
      rw [State.expireLease, held]
      exact if_neg (BitVec.not_le.mpr running)
    rw [State.acquire, if_neg inRange, stands]
    dsimp only
    rw [held]

/-- Settles O51: a lease command is processed by its opcode, the expiry by its lemma, the others by their conditions. -/
theorem leaseRows : Obligations.LeaseRows := by
  unfold Obligations.LeaseRows
  intro s p up
  dsimp only
  refine ⟨fun r f next front reserved index => ⟨fun acquire low high => ?acquire, fun l held auth => ⟨fun renew => ?renew, fun release => ?release⟩⟩,
    ?round, fun l held expired => leaseExpiry_ends held expired, fun h enabled active due => ?poll⟩
  case acquire =>
    have ran : exec (.leaseAcquire p r) s = .next (s.acquire p r f) := by
      refine (leaseRow_processes up next front acquire).trans ?_
      rw [processLease_valid front reserved index, if_pos acquire]
    obtain ⟨free, held⟩ := acquire_inRange (s := s) (p := p) (r := r) low high
    exact ⟨fun none_holds => ran.trans (congrArg _ (free none_holds)), fun l holds running => ran.trans (congrArg _ (held l holds running))⟩
  case renew =>
    refine (leaseRow_processes up next front renew).trans ?_
    rw [processLease_valid front reserved index, if_neg (by omega), if_pos renew, State.renew, held]
    exact congrArg _ (if_pos auth)
  case release =>
    refine (leaseRow_processes up next front release).trans ?_
    rw [processLease_valid front reserved index, if_neg (by omega), if_neg (by omega), State.release, if_pos auth]
  case round => simp only [exec, execLeaseRound, up, occurs_true]
  case poll =>
    simp [exec, execDoorbellPoll, up, enabled, active, due]

end Sys2Proof.Machine
end

section
/-! SUPPORT. Power and heat, the ageing regulator, attestation and debug unlock, and the register pairs. -/

namespace Sys2Proof.Machine

variable {s : State}

/-! ## Power, heat and the regulator -/

/-- Whether THERMAL is raised or not, of power and heat only its time moves (R496, R515). -/
theorem thermalEvent_power (s : State) (c : Bool) :
    (if c then s.thermalEvent else s).power = { s.power with thermEv := if c then some s.now else s.power.thermEv } := by
  cases c <;> rfl

theorem thermalLoop_moves {die hbm : List Int} {high : BitVec 12} (up : s.up = true) (sensors : die.length = 72) (flags : hbm.length = 12)
    (due : s.power.thermDue ≤ s.now) :
    ∃ u, exec (.thermalLoop die hbm high) s = .next u ∧ u.power.tHot = (hottest die).2 ∧ u.power.tStop = tableOf die ∧
      u.power.tHbm = tableOf hbm ∧ u.power.thermDue = s.now + 1100000 ∧
      u.power.dTherm = thermStep s.power.dTherm (hottest die).2 (high ≠ 0) := by
  refine ⟨_, (if_neg (by simp [sensors, flags])).trans (occurs_of (by rw [up, decide_eq_true due, Bool.and_self])), ?_⟩
  rw [thermalEvent_power]
  exact ⟨rfl, rfl, rfl, rfl, rfl⟩

/-- A re-plan moves D_CEIL by one rung at most, and up no further than 16 (R521). -/
theorem replan_rung (s : State) : s.replan.power.rung ≤ max s.power.rung 16 ∧ s.replan.power.rung ≤ s.power.rung + 1 ∧
    s.power.rung ≤ s.replan.power.rung + 1 := by
  simp only [State.replan, State.logAgeing]
  split
  · dsimp only
    split <;> omega
  · split <;> dsimp only <;> omega

theorem replan_voltages (s : State) : s.replan.rgl.v = tableNat ((List.range 4).map fun q => (s.planOf q).1) := by
  simp only [State.replan, State.logAgeing, List.map_map, Function.comp_def]

/-- Settles O52: each row's conditions are those of its command; the thermal step and the rung go by their lemmas. -/
theorem powerRows : Obligations.PowerRows := by
  unfold Obligations.PowerRows
  intro s
  dsimp only
  refine ⟨fun up => ⟨fun p rails due => ?loop, fun amps enabled above => ?clamp, fun die hbm high sensors flags due => ?thermal, fun rs due => ?monitors,
    fun may => ?replan, fun o observed due => ?observation, fun due => ?hours⟩, fun held seen due => ?release⟩
  case loop =>
    refine ⟨_, _, occurs_of (by rw [up, decide_eq_true due, Bool.and_self]), rfl, rfl, fun high => if_pos high,
      fun low full => ?_⟩
    rw [if_neg (by omega)]
    have rise := Nat.mod_lt (Config.freeNat s.freeCtr) (show 0 < 2 ^ 26 + 1 by decide)
    omega
  case clamp =>
    refine occurs_of (?_ : (s.up && bitOf (s.reg 0x3000) 0 && decide (s.reg 0x3004 < amps.toNat)) = true)
    rw [up, enabled, decide_eq_true above, Bool.and_self, Bool.and_self]
  case thermal =>
    obtain ⟨u, ran, hot, stops, hbms, next, moved⟩ := thermalLoop_moves (high := high) up sensors flags due
    refine ⟨u, ran, hot, stops, hbms, next, fun emergency => ?_, fun quiet warm limit => ?_, fun quiet cool => ?_⟩
    · rw [moved, thermStep, if_pos (by simpa using emergency)]
    · rw [moved, thermStep, if_neg (by simp [quiet]; omega), if_pos warm]
    · rw [moved, thermStep, if_neg (by simp [quiet]; omega), if_neg (by omega)]
  case monitors => exact ⟨_, _, occurs_of (by rw [up, decide_eq_true due, Bool.and_self]), rfl, rfl⟩
  case replan => exact ⟨_, occurs_of (by rw [up, may, Bool.and_self]), rfl, replan_voltages s, replan_rung s⟩
  case observation => simp only [exec, execCeilObservation, observed, up, decide_eq_true due, Bool.and_self, occurs_true]
  case hours =>
    simp only [exec, execAgeHours, up, Bool.true_and]
    refine occurs_of (decide_eq_true ?_)
    cases last : s.flash.ageing.latest fun b => b == .ageHours <;> simpa [last] using due
  case release => exact occurs_of (by rw [held, seen, decide_eq_true due, Bool.and_self, Bool.and_self])

/-! ## Attestation, debug unlock and the bus address -/

theorem length_freshBytes (c n : Nat) : (freshBytes c n).length = n := by
  simp [freshBytes]

/-- Settles O53: the answers by what the request and the keys are, the debug commands by the token's conditions. -/
theorem securityRows : Obligations.SecurityRows := by
  unfold Obligations.SecurityRows
  intro s
  refine ⟨fun bus => ⟨fun key closed held => ⟨?certs, fun body i whole booted => ?report⟩, fun shut => ⟨?noCerts, fun body whole => ?noReport⟩,
    fun body long => ?badCerts, fun body long => ?badReport, fun addr i mem => ?address⟩, fun jtag => ⟨?challenge, fun t => ⟨fun good => ?opens, fun bad => ?fails⟩⟩⟩
  case certs => simp [exec, execGetCerts, bus, closed, held]
  case report => exact ⟨_, by simp [exec, execGetReport, bus, whole, closed, held, booted], rfl⟩
  case noCerts => simp [exec, execGetCerts, bus, shut]
  case noReport =>
    simp only [exec, execGetReport, bus, occurs_true, whole, ne_eq, not_true_eq_false, if_false]
    split
    next closed held _ => simp [closed, held] at shut
    next => rfl
  case badCerts => simp [exec, execGetCerts, bus, long]
  case badReport => simp [exec, execGetReport, bus, long]
  case address =>
    simp only [List.mem_cons, List.not_mem_nil, or_false] at mem
    rcases mem with rfl | rfl
    · simp [exec, execI3cSetdasa, bus]
    · simp [exec, execI3cEntdaa, bus]
  case challenge =>
    refine ⟨_, _, occurs_of jtag, rfl, rfl, ?_, rfl⟩
    exact List.take_left' (length_freshBytes s.freeCtr 64)
  case opens => simp only [exec, execDebugToken, jtag, good, occurs_true, if_true]
  case fails => simp [exec, execDebugToken, jtag, bad]

/-! ## Register pairs (R581) -/

/-- The pairs that a _LO read latches are read at their own key, outside the HIF and the MSI-X windows. -/
theorem pair_some {k v : Nat} (pair : s.pair k = some v) : k < 0x400000 ∧ ¬(0x1000 ≤ k ∧ k < 0x2000) := by
  unfold State.pair at pair
  split at pair
  case h_5 =>
    split at pair
    next inBanks =>
      simp only [Bool.and_eq_true, decide_eq_true_eq] at inBanks
      omega
    next => simp at pair
  all_goals omega

theorem keyOf_offset {ag off k : Nat} (key : keyOf ag off = some k) (hif : ¬(0x1000 ≤ k ∧ k < 0x2000)) : off = k := by
  unfold keyOf at key
  split at key
  next window =>
    simp only [Bool.and_eq_true, decide_eq_true_eq] at window
    split at key
    · split at key <;> simp at key
      omega
    · simpa using key
  next =>
    split at key <;> simp at key
    exact key

/-- A read of the _LO register of a pair: the low word goes to the agent, and the high one to its latch. -/
theorem readReg_pair {ag k v : Nat} (answers : ag < 2 → s.up = true) (key : keyOf ag k = some k) (pair : s.pair k = some v) :
    s.readReg ag k = { s with busRead := sput zero32 s.busRead ag (BitVec.ofNat 32 v),
                              hi := sput zero32 s.hi (latchKey ag k) (BitVec.ofNat 32 (v / 2 ^ 32)) } := by
  obtain ⟨low, hif⟩ := pair_some pair
  have shown : ¬((decide (ag < 2) && !s.up && decide (0x1000 ≤ k)) = true) := by
    simp only [Bool.and_eq_true, decide_eq_true_eq, Bool.not_eq_true', not_and]
    rintro ⟨host, down⟩
    simp [answers host] at down
  have word : s.readVal ag k = v % 2 ^ 32 := by
    unfold State.readVal
    rw [if_neg (by simp; omega), if_neg (by simp; omega), if_neg (by simp; omega), key]
    dsimp only
    rw [if_neg (by simp; omega), if_neg shown, pair]
  have cut : BitVec.ofNat 32 (v % 2 ^ 32) = BitVec.ofNat 32 v := by
    apply BitVec.eq_of_toNat_eq
    simp
  unfold State.readReg
  rw [key, word, cut]
  dsimp only
  rw [if_neg shown, pair]

theorem latchKey_ne {a b j k : Nat} (other : b ≠ a) (hj : j < 2 ^ 24) (hk : k < 2 ^ 24) : latchKey a k ≠ latchKey b j := by
  unfold latchKey
  omega

/-- Settles O55: both commands read the pair's own key, and the latches of two agents have no key in common. -/
theorem registerReads : Obligations.RegisterReads := by
  unfold Obligations.RegisterReads
  intro s ag off k v reach answers aligned key pair
  dsimp only
  obtain ⟨low, hif⟩ := pair_some pair
  obtain rfl := keyOf_offset key hif
  have read := readReg_pair answers key pair
  have byPair : exec (.pairLoRead ag off) s = .next (s.readReg ag off.toNat) := by
    simp only [exec, execPairLoRead, reach, occurs_true, Nat.div_mul_cancel (Nat.dvd_of_mod_eq_zero aligned)]
  have byName : exec (if off = 0x2000 then .clkDevtimeLoRead ag else .pairLoRead ag off) s = .next (s.readReg ag off.toNat) := by
    split
    next devtime => simp only [exec, execClkDevtimeLoRead, reach, occurs_true, devtime]; rfl
    next => exact byPair
  refine ⟨_, byName, ?_, ?_, ?_, fun b other => ⟨?_, fun j inRange => ?_⟩, fun devtime => ?_, byPair⟩
  · rw [read]
  · rw [read, sget_sput, if_pos rfl]
  · rw [read, sget_sput, if_pos rfl]
  · rw [read, sget_sput, if_neg other.symm]
  · rw [read, sget_sput, if_neg (latchKey_ne other inRange (by omega))]
  · rw [devtime] at pair
    exact (Option.some.inj pair).symm

end Sys2Proof.Machine
end
